-- ==== Sys2Proof/Word.lean ====
section
/-! DEFINITION. The word types of the FN-D4160 and their plainest arithmetic (R3, R7). -/
namespace Sys2Proof

/-- A 64-bit scalar register value (R32). -/
abbrev Word := BitVec 64

/-- One byte of memory (R3). -/
abbrev Byte := BitVec 8

/-- One Voxo word of any stream (R42). -/
abbrev Code := BitVec 32

/-- A 512-byte vector register (R126). -/
abbrev VReg := BitVec 4096

/-- A mask register of 1,024 bits (R126). -/
abbrev Mask := BitVec 1024

end Sys2Proof
end

