-- ==== Sys2Proof/Machine/Flags.lean ====
section
/-! DEFINITION. Floating-point numbers, rounding and every floating-point flag (R127, R136, R137), and the small
integer types of vector lanes. Numbers are exact dyadic values; each result is rounded once. -/
namespace Sys2Proof.Machine

/-- The six flags of FFLAGS, bit by bit (R77): GEOM NV DZ OF UF NX. -/
abbrev FFlags := BitVec 6

def flagNX : FFlags := 1
def flagUF : FFlags := 2
def flagOF : FFlags := 4
def flagDZ : FFlags := 8
def flagNV : FFlags := 16
def flagGEOM : FFlags := 32

/-- The rounding modes (R128, RM). -/
inductive Rm where
  | rne | rtz | rup | rdn
  deriving DecidableEq, Repr

/-- The mode that RM encodes. -/
def rmOf (b : BitVec 2) : Rm :=
  match b.toNat with
  | 0 => .rne
  | 1 => .rtz
  | 2 => .rup
  | _ => .rdn

/-- A binary format: exponent bits and fraction bits (R136). -/
structure Fmt where
  eb : Nat
  fb : Nat
  deriving DecidableEq, Repr

def fmtF16 : Fmt := ⟨5, 10⟩
def fmtBf16 : Fmt := ⟨8, 7⟩
def fmtF32 : Fmt := ⟨8, 23⟩

/-- Width in bits, exponent bias, and the default NaN of a format (R137). -/
def Fmt.width (f : Fmt) : Nat := f.eb + f.fb + 1
def Fmt.bias (f : Fmt) : Nat := 2 ^ (f.eb - 1) - 1
def Fmt.qnan (f : Fmt) : Nat := (2 ^ f.eb - 1) * 2 ^ f.fb + 2 ^ (f.fb - 1)

/-- The value of a bit pattern: a NaN, an infinity, or the number (−1)^s · m · 2^e. -/
inductive FVal where
  | nan
  | inf (s : Bool)
  | fin (s : Bool) (m : Nat) (e : Int)
  deriving DecidableEq, Repr

/-- Sign bit, exponent field and fraction field of a pattern. -/
def fSign (f : Fmt) (x : Nat) : Bool := (x / 2 ^ (f.eb + f.fb)) % 2 = 1
def fExp (f : Fmt) (x : Nat) : Nat := (x / 2 ^ f.fb) % 2 ^ f.eb
def fFrac (f : Fmt) (x : Nat) : Nat := x % 2 ^ f.fb

/-- Read a pattern under IEEE 754-2019 (R136); subnormals are kept. -/
def fUnpack (f : Fmt) (x : Nat) : FVal :=
  let s := fSign f x
  let ex := fExp f x
  let fr := fFrac f x
  if ex = 2 ^ f.eb - 1 then (if fr = 0 then .inf s else .nan)
  else if ex = 0 then .fin s fr (1 - (f.bias : Int) - f.fb)
  else .fin s (2 ^ f.fb + fr) ((ex : Int) - f.bias - f.fb)

def fIsNan (f : Fmt) (x : Nat) : Bool := fUnpack f x = .nan
def fIsSnan (f : Fmt) (x : Nat) : Bool := fIsNan f x && (fFrac f x) / 2 ^ (f.fb - 1) % 2 = 0
def fIsZero (f : Fmt) (x : Nat) : Bool := x % 2 ^ (f.eb + f.fb) = 0
def fIsInf (f : Fmt) (x : Nat) : Bool := match fUnpack f x with | .inf _ => true | _ => false

/-- A NaN with its top fraction bit set, sign and payload kept (R137). -/
def fQuiet (f : Fmt) (x : Nat) : Nat :=
  if (fFrac f x) / 2 ^ (f.fb - 1) % 2 = 1 then x else x + 2 ^ (f.fb - 1)

/-- Infinity, largest finite value and zero of a sign. -/
def fSignBit (f : Fmt) (s : Bool) : Nat := if s then 2 ^ (f.eb + f.fb) else 0
def fInf (f : Fmt) (s : Bool) : Nat := fSignBit f s + (2 ^ f.eb - 1) * 2 ^ f.fb
def fMax (f : Fmt) (s : Bool) : Nat := fSignBit f s + (2 ^ f.eb - 1) * 2 ^ f.fb - 1
def fZero (f : Fmt) (s : Bool) : Nat := fSignBit f s

/-- Does rounding at remainder r of the quantum 2·half go up in magnitude? -/
def roundsUp (rm : Rm) (s odd : Bool) (r half : Nat) : Bool :=
  match rm with
  | .rne => r > half || (r = half && odd)
  | .rtz => false
  | .rup => r > 0 && !s
  | .rdn => r > 0 && s

/-- m · 2^e rounded to a multiple of 2^q in magnitude: the rounded multiple and whether it is inexact. -/
def roundAt (rm : Rm) (s : Bool) (m : Nat) (e q : Int) : Nat × Bool :=
  if q ≤ e then (m * 2 ^ (e - q).toNat, false)
  else
    let sh := (q - e).toNat
    let sig := m / 2 ^ sh
    let r := m % 2 ^ sh
    let up := roundsUp rm s (sig % 2 = 1) (2 * r) (2 ^ sh)
    (if up then sig + 1 else sig, r ≠ 0)

/-- What an overflowing result becomes (R136): ∞ or the largest finite value by mode; with SAT the largest finite. -/
def fOverflow (f : Fmt) (rm : Rm) (sat s : Bool) : Nat :=
  if sat then fMax f s
  else match rm with
    | .rne => fInf f s
    | .rtz => fMax f s
    | .rup => if s then fMax f s else fInf f s
    | .rdn => if s then fInf f s else fMax f s

/-- Round (−1)^s · (m + t) · 2^e once, where t is 0, or with sticky set some value strictly between 0 and 1, and give
the flags: OF and NX on overflow, UF when the result is tiny after rounding and inexact, NX when inexact (R136). With
sticky set the caller gives m at least two bits more than the format's precision. -/
def fRound (f : Fmt) (rm : Rm) (sat s : Bool) (m : Nat) (e : Int) (sticky : Bool := false) : Nat × FFlags :=
  let m := if sticky then 4 * m + 1 else m
  let e := if sticky then e - 2 else e
  if m = 0 then (fZero f s, 0)
  else
    let p : Int := f.fb + 1
    let top : Int := (Nat.log2 m : Int) + e
    let emin : Int := 1 - (f.bias : Int)
    let q := max (top - (p - 1)) (emin - (p - 1))
    let (sig, inexact) := roundAt rm s m e q
    let (sigU, _) := roundAt rm s m e (top - (p - 1))
    let tiny := top < emin && !(top = emin - 1 && sigU = 2 ^ (f.fb + 1))
    let carry := sig = 2 ^ (f.fb + 1)
    let sig' := if carry then 2 ^ f.fb else sig
    let q' := if carry then q + 1 else q
    if 2 ^ f.fb ≤ sig' ∧ q' + (p - 1) > f.bias then (fOverflow f rm sat s, flagOF ||| flagNX)
    else
      let ex : Nat := if sig' < 2 ^ f.fb then 0 else (q' + (p - 1) + f.bias).toNat
      let fr := if sig' < 2 ^ f.fb then sig' else sig' - 2 ^ f.fb
      (fSignBit f s + ex * 2 ^ f.fb + fr,
        (if inexact then flagNX else 0) ||| (if inexact && tiny then flagUF else 0))

/-- A dyadic number m · 2^e. -/
structure Dy where
  m : Int
  e : Int
  deriving DecidableEq, Repr

def dyMul (a b : Dy) : Dy := ⟨a.m * b.m, a.e + b.e⟩
def dyNeg (a : Dy) : Dy := ⟨-a.m, a.e⟩
def dyAdd (a b : Dy) : Dy :=
  let e := min a.e b.e
  ⟨a.m * 2 ^ (a.e - e).toNat + b.m * 2 ^ (b.e - e).toNat, e⟩
def dySub (a b : Dy) : Dy := dyAdd a (dyNeg b)
def dyAbs (a : Dy) : Dy := ⟨a.m.natAbs, a.e⟩
def dySign (a : Dy) : Int := if a.m > 0 then 1 else if a.m < 0 then -1 else 0
def dyLt (a b : Dy) : Bool := (dySub a b).m < 0
def dySum (l : List Dy) : Dy := l.foldl dyAdd ⟨0, 0⟩

/-- The number a finite pattern stands for; 0 for the others. -/
def fDy (f : Fmt) (x : Nat) : Dy :=
  match fUnpack f x with
  | .fin s m e => ⟨if s then -(m : Int) else m, e⟩
  | _ => ⟨0, 0⟩

/-- Round an exact dyadic number; zero takes the sign given (R136, exact zeros). -/
def fOfDy (f : Fmt) (rm : Rm) (sat : Bool) (d : Dy) (zs : Bool) : Nat × FFlags :=
  if d.m = 0 then (fZero f zs, 0) else fRound f rm sat (d.m < 0) d.m.natAbs d.e

/-- The sign of an exact zero sum whose terms have these signs: −0 when every term is −0, and otherwise +0, or −0 under RDN
(R136). A sum of two terms that are both +0 keeps +0 in every mode, as IEEE 754-2019 gives (R136; log entry 8). -/
def zeroSign (rm : Rm) (terms : List Bool) : Bool :=
  if terms.all id then true else if terms.length ≤ 2 && terms.all not then false else rm = .rdn

/-- The NaN rule (R137): the first NaN among the operands, quieted; NV when any operand is signalling. -/
def fNan (f : Fmt) (ops : List Nat) : Option (Nat × FFlags) :=
  match ops.find? (fIsNan f) with
  | some x => some (fQuiet f x, if ops.any (fIsSnan f) then flagNV else 0)
  | none => none

/-- A generated NaN: the default NaN with NV (R137). -/
def fInvalid (f : Fmt) : Nat × FFlags := (f.qnan, flagNV)

/-- The exact sum of products and addends, rounded once: the common rule of VADD, VSUB, VFMA, VFMS, VFNMA, VDOT4
(R136, R138, R164). Each term is a sign flip, a first factor and an optional second factor; ops is the operand order of
the NaN rule. -/
structure FTerm where
  neg : Bool
  x   : Nat
  fx  : Fmt
  y   : Option (Nat × Fmt)

def fTermSign (t : FTerm) : Bool :=
  let s := (t.neg != fSign t.fx t.x)
  match t.y with
  | none => s
  | some (y, fy) => s != fSign fy y

def fTermInf (t : FTerm) : Bool :=
  fIsInf t.fx t.x || (match t.y with | none => false | some (y, fy) => fIsInf fy y)

def fTermZeroInf (t : FTerm) : Bool :=
  match t.y with
  | none => false
  | some (y, fy) => (fIsZero t.fx t.x && fIsInf fy y) || (fIsInf t.fx t.x && fIsZero fy y)

def fTermZero (t : FTerm) : Bool :=
  fIsZero t.fx t.x || (match t.y with | none => false | some (y, fy) => fIsZero fy y)

def fTermDy (t : FTerm) : Dy :=
  let a := fDy t.fx t.x
  let p := match t.y with | none => a | some (y, fy) => dyMul a (fDy fy y)
  if t.neg then dyNeg p else p

/-- Sum of terms none of whose operands is a NaN: 0·∞ or opposite infinities are invalid; an infinite term decides;
otherwise the exact sum is rounded once. -/
def fSumTerms (f : Fmt) (rm : Rm) (sat : Bool) (ts : List FTerm) : Nat × FFlags :=
  let infs := ts.filter fTermInf
  if ts.any fTermZeroInf then fInvalid f
  else match infs with
    | t :: rest =>
      if rest.all (fun u => fTermSign u = fTermSign t) then (fInf f (fTermSign t), 0) else fInvalid f
    | [] => fOfDy f rm sat (dySum (ts.map fTermDy)) (zeroSign rm (ts.map fTermSign))

/-- a + b and a − b (R138). -/
def fAdd (f : Fmt) (rm : Rm) (sat : Bool) (a b : Nat) (sub : Bool := false) : Nat × FFlags :=
  match fNan f [a, b] with
  | some r => r
  | none => fSumTerms f rm sat [⟨false, a, f, none⟩, ⟨sub, b, f, none⟩]

/-- a · b (R138). -/
def fMul (f : Fmt) (rm : Rm) (sat : Bool) (a b : Nat) : Nat × FFlags :=
  match fNan f [a, b] with
  | some r => r
  | none =>
    let t : FTerm := ⟨false, a, f, some (b, f)⟩
    if fTermZeroInf t then fInvalid f
    else if fTermInf t then (fInf f (fTermSign t), 0)
    else fOfDy f rm sat (fTermDy t) (fTermSign t)

/-- ±(a · b) ± c with one rounding (R138). -/
def fFma (f : Fmt) (rm : Rm) (sat : Bool) (a b c : Nat) (negP negC : Bool) : Nat × FFlags :=
  match fNan f [a, b, c] with
  | some r => r
  | none => fSumTerms f rm sat [⟨negP, a, f, some (b, f)⟩, ⟨negC, c, f, none⟩]

/-- Is a < b, for patterns that are not NaNs? −0 and +0 are equal. -/
def fLt (f : Fmt) (a b : Nat) : Bool :=
  match fUnpack f a, fUnpack f b with
  | .inf true, .inf true => false
  | .inf true, _ => true
  | _, .inf true => false
  | .inf false, _ => false
  | _, .inf false => true
  | _, _ => dyLt (fDy f a) (fDy f b)

def fEq (f : Fmt) (a b : Nat) : Bool := !(fIsNan f a) && !(fIsNan f b) && !(fLt f a b) && !(fLt f b a)

/-- minimumNumber and maximumNumber (R138): one NaN gives the other operand, two give the propagated NaN, −0 < +0; a
signalling NaN sets NV (R137). -/
def fMinMax (f : Fmt) (a b : Nat) (isMax : Bool) : Nat × FFlags :=
  let nv := if fIsSnan f a || fIsSnan f b then flagNV else 0
  if fIsNan f a && fIsNan f b then (fQuiet f a, nv)
  else if fIsNan f a then (b, nv)
  else if fIsNan f b then (a, nv)
  else
    let lt := if fIsZero f a && fIsZero f b then fSign f a && !(fSign f b) else fLt f a b
    (if lt != isMax then a else b, nv)

/-- A real given by integer part and remainder of a division: rounded to an integer under rm (R144, R148). -/
def roundInt (rm : Rm) (d : Dy) : Int × Bool :=
  let (n, ix) := roundAt rm (d.m < 0) d.m.natAbs d.e 0
  (if d.m < 0 then -(n : Int) else n, ix)

/-- Float to integer or bq (R144): NaN gives 0; the rounded value is clamped; NV if NaN or clamped, else NX. -/
def fToInt (f : Fmt) (rm : Rm) (lo hi : Int) (x : Nat) : Int × FFlags :=
  match fUnpack f x with
  | .nan => (0, flagNV)
  | .inf s => (if s then lo else hi, flagNV)
  | .fin _ _ _ =>
    let (n, ix) := roundInt rm (fDy f x)
    if n < lo then (lo, flagNV) else if n > hi then (hi, flagNV) else (n, if ix then flagNX else 0)

/-- Integer or bq to float (R144). -/
def fOfInt (f : Fmt) (rm : Rm) (sat : Bool) (n : Int) : Nat × FFlags := fOfDy f rm sat ⟨n, 0⟩ false

/-- A NaN carried from one format to another: sign kept, payload aligned at the top of the fraction and cut to fit,
quieted; NV if it was signalling (R144, R146). DESIGN CHOICE (log entry 81): a payload that is carried to a wider fraction, bf16's to f16's
too, stands at its top, and one that is cut, in a drain too (R230), keeps its top bits. -/
def fNanTo (g f : Fmt) (x : Nat) : Nat × FFlags :=
  let fr := if g.fb ≤ f.fb then fFrac g x * 2 ^ (f.fb - g.fb) else fFrac g x / 2 ^ (g.fb - f.fb)
  (fQuiet f (fSignBit f (fSign g x) + (2 ^ f.eb - 1) * 2 ^ f.fb + fr), if fIsSnan g x then flagNV else 0)

/-- Float of format g to float of format f (R144, R146). -/
def fConvert (g f : Fmt) (rm : Rm) (sat : Bool) (x : Nat) : Nat × FFlags :=
  match fUnpack g x with
  | .nan => fNanTo g f x
  | .inf s => (fInf f s, 0)
  | .fin s m e => if m = 0 then (fZero f s, 0) else fRound f rm sat s m e

/-- Round to an integral value of the same format (R148): NX when the value changes. -/
def fIntegral (f : Fmt) (rm : Rm) (x : Nat) : Nat × FFlags :=
  match fUnpack f x with
  | .nan => (fQuiet f x, if fIsSnan f x then flagNV else 0)
  | .inf _ => (x, 0)
  | .fin s _ _ =>
    let (n, ix) := roundInt rm (fDy f x)
    (if n = 0 then fZero f s else (fRound f rm false s n.natAbs 0).1, if ix then flagNX else 0)

/-- Bits that a quotient or root is computed to before its one rounding. -/
def workBits (f : Fmt) : Nat := f.fb + 8

/-- a / b (R165, VDIVF). -/
def fDiv (f : Fmt) (rm : Rm) (sat : Bool) (a b : Nat) : Nat × FFlags :=
  match fNan f [a, b] with
  | some r => r
  | none =>
    let s := fSign f a != fSign f b
    match fUnpack f a, fUnpack f b with
    | .inf _, .inf _ => fInvalid f
    | .inf _, _ => (fInf f s, 0)
    | _, .inf _ => (fZero f s, 0)
    | .fin _ ma ea, .fin _ mb eb =>
      if mb = 0 then (if ma = 0 then fInvalid f else (fInf f s, flagDZ))
      else if ma = 0 then (fZero f s, 0)
      else
        let sh := workBits f + Nat.log2 mb + 2
        let n := ma * 2 ^ sh
        fRound f rm sat s (n / mb) (ea - eb - sh) (n % mb ≠ 0)
    | _, _ => fInvalid f

/-- 1 / a (R165, VRCP): ±0 gives ±∞ with DZ. -/
def fRcp (f : Fmt) (rm : Rm) (sat : Bool) (a : Nat) : Nat × FFlags := fDiv f rm sat (f.bias * 2 ^ f.fb) a

/-- The integer square root, bit by bit. -/
def isqrt (n : Nat) : Nat :=
  (List.range (Nat.log2 n / 2 + 1)).reverse.foldl
    (fun r i => if (r + 2 ^ i) * (r + 2 ^ i) ≤ n then r + 2 ^ i else r) 0

/-- √a (R165, VSQRT). -/
def fSqrt (f : Fmt) (rm : Rm) (sat : Bool) (a : Nat) : Nat × FFlags :=
  match fNan f [a] with
  | some r => r
  | none =>
    match fUnpack f a with
    | .fin s m e =>
      if m = 0 then (a, 0)
      else if s then fInvalid f
      else
        let sh := 2 * workBits f + (if (e - (0 : Int)) % 2 = 0 then 0 else 1)
        let n := m * 2 ^ sh
        let r := isqrt n
        fRound f rm sat false r ((e - sh) / 2) (r * r ≠ n)
    | .inf s => if s then fInvalid f else (a, 0)
    | .nan => fInvalid f

/-- 1/√a (R165, VRSQ). -/
def fRsqrt (f : Fmt) (rm : Rm) (sat : Bool) (a : Nat) : Nat × FFlags :=
  match fNan f [a] with
  | some r => r
  | none =>
    match fUnpack f a with
    | .fin s m e =>
      if m = 0 then (fInf f s, flagDZ)
      else if s then fInvalid f
      else
        let odd := e % 2 ≠ 0
        let m' := if odd then 2 * m else m
        let e' := if odd then e - 1 else e
        let j := workBits f + Nat.log2 m'
        let r := isqrt (2 ^ (2 * j) / m')
        fRound f rm sat false r (-(e' / 2) - j) (r * r * m' ≠ 2 ^ (2 * j))
    | .inf s => if s then fInvalid f else (fZero f false, 0)
    | .nan => fInvalid f

end Sys2Proof.Machine
end

