-- ==== Sys2Proof/Syntax.lean ====
section
/-! DEFINITION. The abstract syntax of the machine's steps: one constructor for each row of the opcode table.
The first four groups are the words of the S, V, M and X streams with the fields of R47, R53, R56 and R57;
the last group holds the device's steps that have no encoding, each with the unit it happens at. -/
namespace Sys2Proof

/-- The three engines of a core (R11, R14). -/
inductive Eng where
  | v | m | x
  deriving DecidableEq, Repr

/-- The queues whose heads complete through tokens: the vector load queue, the vector store queue (R159) and
the Exact-Sign Unit's operand buffer (R205). -/
inductive VQueue where
  | load | store | esu
  deriving DecidableEq, Repr

/-- What of a token-completed word lands before the word completes (R18, R158): lanes of vd and its tag, and lanes and tag
of vd + 1 where the word writes it (R201). -/
structure Early where
  lanes   : Mask := 0
  tag     : Bool := false
  lanes'  : Mask := 0
  tag'    : Bool := false
  deriving DecidableEq, Repr

/-- What an uncorrectable error fences (R314, R358). -/
inductive EccUnit where
  | core (c : Nat) (array : Bool) | cluster (k : Nat) | channel (stack : BitVec 4) (ch : BitVec 6)
  deriving DecidableEq, Repr

/-- The collectives of the package engine (R355). -/
inductive CollKind where
  | barrier | allGather | allReduceF32 | allReduceBf16 | allReduceI32
  | reduceScatterF32 | reduceScatterBf16 | reduceScatterI32
  deriving DecidableEq, Repr

/-- What happens to collectives (R335, R355, R356): a control program calls one; a peer arrives with its buffer; a peer is halted, or held
by its debugger; the oldest collective is performed; clocks are lowered for one whose arrivals are on record. -/
inductive CollAct where
  | call (k : CollKind)
  | arrive (buf : List (BitVec 8))
  | peer (halted held : Bool)
  | finish
  | balance
  deriving DecidableEq, Repr

/-- The buffers of a call of a collective (R355): n bytes at src, and what arrives at dst. -/
structure CollBufs where
  src : BitVec 48
  dst : BitVec 48
  n   : Nat
  deriving DecidableEq, Repr

/-- Which store queue of a core performs its head: a strand's; near: a store to HBM performs in the cluster's cache only (R101). -/
structure QueueHead where
  strand : BitVec 2
  near   : Bool
  deriving DecidableEq, Repr

/-- How an M step finishes: stale, its reads of memory are served from the cluster cache, and its writes perform there (R101); with a
number of blocks, a drain's conversions have ended up to there and it goes on (R248). -/
structure Finish where
  stale  : Bool
  blocks : Option Nat
  deriving DecidableEq, Repr

/-- How bring-up's training ends (R351). -/
inductive Training where
  | ok | hbmFails | ucieFails
  deriving DecidableEq, Repr

/-- One step of the machine: a word of one of the four streams, or a device step of the table. -/
inductive Instr where
  -- S stream (R47 to R52)
  /-- ADD (R68): Writes the 64-bit sum of s[ra] and s[rb] to rd, with latency 2. -/
  | add (ctl : BitVec 2) (rd ra rb : BitVec 5)
  /-- SUB (R68): Writes s[ra] minus s[rb], mod 2^64, to rd. -/
  | sub (ctl : BitVec 2) (rd ra rb : BitVec 5)
  /-- AND (R68): Writes the bitwise AND of s[ra] and s[rb] to rd. -/
  | and (ctl : BitVec 2) (rd ra rb : BitVec 5)
  /-- OR (R68): Writes the bitwise OR of s[ra] and s[rb] to rd. -/
  | or (ctl : BitVec 2) (rd ra rb : BitVec 5)
  /-- XOR (R68): Writes the bitwise XOR of s[ra] and s[rb] to rd. -/
  | xor (ctl : BitVec 2) (rd ra rb : BitVec 5)
  /-- ANDN (R68): Writes s[ra] AND NOT s[rb] to rd. -/
  | andn (ctl : BitVec 2) (rd ra rb : BitVec 5)
  /-- SHL (R68): Writes s[ra] shifted left by s[rb][5:0] to rd. -/
  | shl (ctl : BitVec 2) (rd ra rb : BitVec 5)
  /-- SHR (R68): Writes s[ra] shifted right logically by s[rb][5:0] to rd. -/
  | shr (ctl : BitVec 2) (rd ra rb : BitVec 5)
  /-- SRA (R68): Writes s[ra] shifted right arithmetically by s[rb][5:0] to rd. -/
  | sra (ctl : BitVec 2) (rd ra rb : BitVec 5)
  /-- MUL (R68): Writes the low 64 bits of the product to rd, with latency 4. -/
  | mul (ctl : BitVec 2) (rd ra rb : BitVec 5)
  /-- MULH (R68): Writes bits 127:64 of the signed 128-bit product to rd. -/
  | mulh (ctl : BitVec 2) (rd ra rb : BitVec 5)
  /-- MULHN (R68): Writes bits 127:64 of the unsigned 128-bit product to rd. -/
  | mulhn (ctl : BitVec 2) (rd ra rb : BitVec 5)
  /-- DIV (R68): Writes the signed quotient to rd, with the stated results for a zero divisor and for overflow, at latency 20. -/
  | div (ctl : BitVec 2) (rd ra rb : BitVec 5)
  /-- DIVN (R68): Writes the unsigned quotient to rd, or all ones when the divisor is zero. -/
  | divn (ctl : BitVec 2) (rd ra rb : BitVec 5)
  /-- REM (R68): Writes the signed remainder, which takes the sign of a, to rd. -/
  | rem (ctl : BitVec 2) (rd ra rb : BitVec 5)
  /-- REMN (R68): Writes the unsigned remainder to rd. -/
  | remn (ctl : BitVec 2) (rd ra rb : BitVec 5)
  /-- MIN (R68): Writes the signed minimum of the two operands to rd. -/
  | min (ctl : BitVec 2) (rd ra rb : BitVec 5)
  /-- MAX (R68): Writes the signed maximum of the two operands to rd. -/
  | max (ctl : BitVec 2) (rd ra rb : BitVec 5)
  /-- MINN (R68): Writes the unsigned minimum of the two operands to rd. -/
  | minn (ctl : BitVec 2) (rd ra rb : BitVec 5)
  /-- MAXN (R68): Writes the unsigned maximum of the two operands to rd. -/
  | maxn (ctl : BitVec 2) (rd ra rb : BitVec 5)
  /-- CLZ (R68): Writes the count of leading zero bits of s[ra] to rd. -/
  | clz (ctl : BitVec 2) (rd ra : BitVec 5)
  /-- CTZ (R68): Writes the count of trailing zero bits of s[ra] to rd. -/
  | ctz (ctl : BitVec 2) (rd ra : BitVec 5)
  /-- POPC (R68): Writes the count of one bits of s[ra] to rd. -/
  | popc (ctl : BitVec 2) (rd ra : BitVec 5)
  /-- ADDW (R68): Writes the 32-bit sum, sign-extended to 64 bits, to rd. -/
  | addw (ctl : BitVec 2) (rd ra rb : BitVec 5)
  /-- SUBW (R68): Writes the 32-bit difference, sign-extended to 64 bits, to rd. -/
  | subw (ctl : BitVec 2) (rd ra rb : BitVec 5)
  /-- SEL (R73): Writes s[ra] to rd if the guard is true, and s[rb] otherwise. -/
  | sel (ctl : BitVec 2) (rd ra rb : BitVec 5) (g : BitVec 3)
  /-- CMP (R71): Sets guard gd to the chosen signed or unsigned comparison of two registers. -/
  | cmp (ctl gd : BitVec 2) (ra rb : BitVec 5) (cond : BitVec 6)
  /-- CMPI (R71): Sets guard gd to the comparison of a register with a sign-extended immediate. -/
  | cmpi (ctl gd : BitVec 2) (ra : BitVec 5) (imm : BitVec 12) (cond : BitVec 2)
  /-- GAND (R72): Sets gd to ga AND gb. -/
  | gand (ctl gd ga gb : BitVec 2)
  /-- GOR (R72): Sets gd to ga OR gb. -/
  | gor (ctl gd ga gb : BitVec 2)
  /-- GXOR (R72): Sets gd to ga XOR gb. -/
  | gxor (ctl gd ga gb : BitVec 2)
  /-- GANDN (R72): Sets gd to ga AND NOT gb. -/
  | gandn (ctl gd ga gb : BitVec 2)
  /-- ENTER (R327): Pushes a region number onto the strand's region stack and raises the depth; may also write a trace record or take a pending cut halt. -/
  | enter (ctl : BitVec 2) (num : BitVec 14)
  /-- LEAVE (R327): Pops the region stack and lowers the depth; may also write a trace record or take a pending cut halt. -/
  | leave (ctl : BitVec 2)
  /-- ADDI (R69): Writes s[ra] plus the sign-extended imm12 to rd. -/
  | addi (ctl : BitVec 2) (rd ra : BitVec 5) (imm : BitVec 12)
  /-- ANDI (R69): Writes s[ra] AND the sign-extended imm12 to rd. -/
  | andi (ctl : BitVec 2) (rd ra : BitVec 5) (imm : BitVec 12)
  /-- ORI (R69): Writes s[ra] OR the sign-extended imm12 to rd. -/
  | ori (ctl : BitVec 2) (rd ra : BitVec 5) (imm : BitVec 12)
  /-- XORI (R69): Writes s[ra] XOR the sign-extended imm12 to rd. -/
  | xori (ctl : BitVec 2) (rd ra : BitVec 5) (imm : BitVec 12)
  /-- SHLI (R69): Writes s[ra] shifted left by an immediate count to rd. -/
  | shli (ctl : BitVec 2) (rd ra : BitVec 5) (sh : BitVec 6)
  /-- SHRI (R69): Writes s[ra] shifted right logically by an immediate count to rd. -/
  | shri (ctl : BitVec 2) (rd ra : BitVec 5) (sh : BitVec 6)
  /-- SRAI (R69): Writes s[ra] shifted right arithmetically by an immediate count to rd. -/
  | srai (ctl : BitVec 2) (rd ra : BitVec 5) (sh : BitVec 6)
  /-- ADDWI (R69): Writes the 32-bit sum of s[ra] and the immediate, sign-extended, to rd. -/
  | addwi (ctl : BitVec 2) (rd ra : BitVec 5) (imm : BitVec 12)
  /-- LD (R93): Enters the load queue and loads 1 to 8 bytes, sign-extended, into rd at a variable latency. -/
  | ld (ctl : BitVec 2) (rd ra : BitVec 5) (imm : BitVec 9) (sz : BitVec 2)
  /-- LDN (R93): Enters the load queue and loads 1 to 8 bytes, zero-extended, into rd. -/
  | ldn (ctl : BitVec 2) (rd ra : BitVec 5) (imm : BitVec 9) (sz : BitVec 2)
  /-- ST (R94): Enters the store queue and stores the low bytes of rs, under a guard. -/
  | st (ctl : BitVec 2) (rs ra : BitVec 5) (imm : BitVec 9) (sz : BitVec 2) (g : BitVec 3)
  /-- MARK (R95): Orders every earlier scalar access of the strand before every later one, at strand scope. -/
  | mark (ctl : BitVec 2)
  /-- ATM (R96): Performs an indivisible read-modify-write at the location, chosen by its operation code, and returns the old value to rd. -/
  | atm (ctl : BitVec 2) (rd ra rb : BitVec 5) (op : BitVec 4) (sz : BitVec 2) (g : BitVec 3)
  /-- ACAS (R97): Compares the location with rd, swaps in rb when they are equal, and returns the old value to rd. -/
  | acas (ctl : BitVec 2) (rd ra rb : BitVec 5) (sz : BitVec 2) (g : BitVec 3)
  /-- FENCE (R99): Enters both scalar queues as an acquire, release, acquire-release or SC fence at the named scope. -/
  | fence (ctl kind : BitVec 2) (scope : BitVec 3)
  /-- WAITC (R102): Blocks until each named outstanding-operation counter is at or below its limit, then acquires their effects. -/
  | waitc (ctl : BitVec 2) (limL limS limV limM limX : BitVec 4)
  /-- MFS (R76): Reads a system register into rd, with latency 2. -/
  | mfs (ctl : BitVec 2) (rd : BitVec 5) (num : BitVec 14)
  /-- MTS (R76): Writes the RW fields of a strand system register from ra, 2 slots later, or stops with PRIV. -/
  | mts (ctl : BitVec 2) (ra : BitVec 5) (num : BitVec 14)
  /-- SYSC (R307): Stops the strand with SYSC so that Skyo performs system call n and resumes it. -/
  | sysc (ctl : BitVec 2) (num : BitVec 14)
  /-- TRAP (R307): Stops the strand with TRAP and records the trap number in TNUM. -/
  | trap (ctl : BitVec 2) (num : BitVec 14)
  /-- BRK (R307): Stops the strand with BRK and saves its own address as the PC. -/
  | brk (ctl : BitVec 2)
  /-- RESUME (R310): Handler-only blocking word that checks the target's record list, sets RSTAT, and resumes or discards the target strand. -/
  | resume (ctl : BitVec 2)
  /-- HALT (R307): Lets in-flight fixed-latency writes land, then stops the strand with HALT. -/
  | halt (ctl : BitVec 2)
  /-- END (R123): Ends the strand's kernel; the queues named in its mask must drain before the next kernel starts. -/
  | endK (ctl : BitVec 2) (mask : BitVec 3)
  /-- BR (R74): Branches PC-relative under a guard; a taken branch owes 2 empty slots. -/
  | br (ctl : BitVec 2) (g : BitVec 3) (off : BitVec 21)
  /-- CALL (R74): Branches PC-relative under a guard and links the return address to s31. -/
  | call (ctl : BitVec 2) (g : BitVec 3) (off : BitVec 21)
  /-- JR (R74): Jumps to the address in s[ra] under a guard, or stops with ALIGN. -/
  | jr (ctl : BitVec 2) (ra : BitVec 5) (g : BitVec 3)
  /-- CALLR (R74): Jumps to the address in s[ra] under a guard and links the return address to s31. -/
  | callr (ctl : BitVec 2) (ra : BitVec 5) (g : BitVec 3)
  /-- DISP (R110): Blocks while the named engine queue is full, then pushes an entry with block, parameters, copied sync slot and strand, and counts it. -/
  | disp (ctl en : BitVec 2) (blk : BitVec 8) (ra rb : BitVec 5) (ss : BitVec 4)
  /-- SEMW (R117): Blocks until the semaphore is at least n, then subtracts n as an acquire. -/
  | semw (ctl : BitVec 2) (ra : BitVec 5) (num : BitVec 8)
  /-- SEMS (R118): Adds n to a semaphore of the core as a release through the store queue. -/
  | sems (ctl : BitVec 2) (ra : BitVec 5) (num : BitVec 8)
  /-- SEMS_ADDRESS (R118): Adds n to the semaphore at a window address, as a release at the scope of its distance. -/
  | semsAddress (ctl : BitVec 2) (rd ra : BitVec 5)
  /-- SEMR (R119): Reads a semaphore into rd without acquiring. -/
  | semr (ctl : BitVec 2) (rd : BitVec 5) (num : BitVec 8)
  /-- SEMI (R118): Sets a semaphore to n through the store queue and wakes every waiter it satisfies. -/
  | semi (ctl : BitVec 2) (ra : BitVec 5) (num : BitVec 8)
  /-- EVW (R289): Blocks until the named event is SET or POISONed, and acquires if it is SET. -/
  | evw (ctl : BitVec 2) (ra : BitVec 5)
  /-- EVP (R289): Posts an event as a release at device scope: decrements COUNT and sets SET at zero. -/
  | evp (ctl : BitVec 2) (ra : BitVec 5)
  /-- EVA (R289): Arms an event with a COUNT and clears POISON. -/
  | eva (ctl : BitVec 2) (ra rb : BitVec 5)
  /-- EVT (R289): Writes SET plus 2 times POISON of an event to rd. -/
  | evt (ctl : BitVec 2) (rd ra : BitVec 5)
  /-- QPOST (R284): Copies a 64-byte task record into the target queue bank, spilling to the ring when the bank is full, as a release. -/
  | qpost (ctl : BitVec 2) (ra : BitVec 5)
  /-- QTAKE (R284): Blocks until a task is takeable from its own bank or by stealing, then takes it and returns its address. -/
  | qtake (ctl : BitVec 2) (rd : BitVec 5)
  /-- QDONE (R284): Posts the task's PEVENT as EVP does. -/
  | qdone (ctl : BitVec 2) (ra : BitVec 5)
  /-- LPAT (R277): Writes one field of an IDLE launch record when the word performs. -/
  | lpat (ctl : BitVec 2) (ra rb : BitVec 5) (field : BitVec 6)
  /-- LARM (R278): Judges a launch record and arms it, rejects it, or completes it as EMPTY, as a release at device scope. -/
  | larm (ctl : BitVec 2) (ra : BitVec 5)
  /-- LWAIT (R279): Blocks until the record is IDLE or DONE, returns STATUS, moves DONE to IDLE and acquires the completion. -/
  | lwait (ctl : BitVec 2) (rd ra : BitVec 5)
  /-- TALC (R258): Queues an allocation request on a pool partition and blocks until it is served with a handle. -/
  | talc (ctl : BitVec 2) (rd ra rb : BitVec 5)
  /-- TSEAL (R259): Seals an OPEN slot with its declared reads, as a release at cluster scope. -/
  | tseal (ctl : BitVec 2) (ra : BitVec 5)
  /-- TDROP (R260): Abandons m reads of a SEALED slot and frees the slot at zero. -/
  | tdrop (ctl : BitVec 2) (ra rb : BitVec 5)
  /-- TADR (R261): Writes the window address of a handle's slot to rd. -/
  | tadr (ctl : BitVec 2) (rd ra : BitVec 5)
  /-- TCNT (R261): Writes the remaining reads of a current local slot to rd, or all ones. -/
  | tcnt (ctl : BitVec 2) (rd ra : BitVec 5)
  /-- TSTAT (R247): Reads tile status register tsN into rd. -/
  | tstat (ctl : BitVec 2) (rd : BitVec 5) (ts : BitVec 4)
  /-- OVPOP (R249): Removes the oldest overflow event from the core's queue and writes it to rd, or writes 0 when the queue is empty. -/
  | ovpop (ctl : BitVec 2) (rd : BitVec 5)
  /-- PWQ (R324): Requests a power lease of n units and blocks until the die's power manager grants it. -/
  | pwq (ctl : BitVec 2) (ra : BitVec 5)
  /-- PWREL (R324): Releases the strand's power lease and changes the core's level. -/
  | pwrel (ctl : BitVec 2)
  /-- LIH (R70): Writes sext32(imm20 << 12) to rd. -/
  | lih (ctl : BitVec 2) (rd : BitVec 5) (imm : BitVec 20)
  /-- LIHP (R70): Writes PC plus sext32(imm20 << 12) to rd. -/
  | lihp (ctl : BitVec 2) (rd : BitVec 5) (imm : BitVec 20)
  -- V stream (R53 to R55)
  /-- VADD (R135): Lanewise add, integer or float according to TYPE. -/
  | vadd (e : Bool) (vd va vb : BitVec 5)
  /-- VSUB (R135): Lanewise subtract, integer or float. -/
  | vsub (e : Bool) (vd va vb : BitVec 5)
  /-- VMUL (R135): Lanewise multiply, integer or float. -/
  | vmul (e : Bool) (vd va vb : BitVec 5)
  /-- VMULH (R135): Lanewise high half of the integer product. -/
  | vmulh (e : Bool) (vd va vb : BitVec 5)
  /-- VFMA (R138): Lanewise a·b + c with one rounding. -/
  | vfma (e : Bool) (vd va vb vc : BitVec 5)
  /-- VFMS (R138): Lanewise a·b − c with one rounding. -/
  | vfms (e : Bool) (vd va vb vc : BitVec 5)
  /-- VFNMA (R138): Lanewise −(a·b) + c with one rounding. -/
  | vfnma (e : Bool) (vd va vb vc : BitVec 5)
  /-- VMIN (R135): Lanewise minimum; minimumNumber on floats. -/
  | vmin (e : Bool) (vd va vb : BitVec 5)
  /-- VMAX (R135): Lanewise maximum; maximumNumber on floats. -/
  | vmax (e : Bool) (vd va vb : BitVec 5)
  /-- VABS (R135): Lanewise absolute value. -/
  | vabs (e : Bool) (vd va : BitVec 5)
  /-- VNEG (R135): Lanewise negation. -/
  | vneg (e : Bool) (vd va : BitVec 5)
  /-- VADDS (R135): Lanewise saturating integer add. -/
  | vadds (e : Bool) (vd va vb : BitVec 5)
  /-- VSUBS (R135): Lanewise saturating integer subtract. -/
  | vsubs (e : Bool) (vd va vb : BitVec 5)
  /-- VAVG (R135): Lanewise rounded integer average. -/
  | vavg (e : Bool) (vd va vb : BitVec 5)
  /-- VAND (R139): Lanewise bitwise AND. -/
  | vand (e : Bool) (vd va vb : BitVec 5)
  /-- VOR (R139): Lanewise bitwise OR. -/
  | vor (e : Bool) (vd va vb : BitVec 5)
  /-- VXOR (R139): Lanewise bitwise XOR. -/
  | vxor (e : Bool) (vd va vb : BitVec 5)
  /-- VANDN (R139): Lanewise a AND NOT b. -/
  | vandn (e : Bool) (vd va vb : BitVec 5)
  /-- VNOT (R139): Lanewise bitwise NOT. -/
  | vnot (e : Bool) (vd va : BitVec 5)
  /-- VSHL (R135): Lanewise shift left by the lanes of vb. -/
  | vshl (e : Bool) (vd va vb : BitVec 5)
  /-- VSHR (R135): Lanewise logical shift right. -/
  | vshr (e : Bool) (vd va vb : BitVec 5)
  /-- VSRA (R135): Lanewise arithmetic shift right. -/
  | vsra (e : Bool) (vd va vb : BitVec 5)
  /-- VMOV (R139): Copies lane patterns and re-tags the destination. -/
  | vmov (e : Bool) (vd va : BitVec 5)
  /-- VSEL (R140): Selects each lane from va or vb by mask kN. -/
  | vsel (e : Bool) (vd va vb : BitVec 5) (kn : BitVec 3)
  /-- VCMP (R141): Sets mask kd to a lanewise comparison. -/
  | vcmp (e : Bool) (kd : BitVec 3) (va vb : BitVec 5) (cond : BitVec 4)
  /-- VCLZ (R135): Lanewise leading-zero count. -/
  | vclz (e : Bool) (vd va : BitVec 5)
  /-- VPOPC (R135): Lanewise population count. -/
  | vpopc (e : Bool) (vd va : BitVec 5)
  /-- VCPYS (R138): Lanewise magnitude of a with the sign of b. -/
  | vcpys (e : Bool) (vd va vb : BitVec 5)
  /-- VADDI (R142): Lanewise add of a sign-extended immediate. -/
  | vaddi (e : Bool) (vd va : BitVec 5) (imm : BitVec 14)
  /-- VMULI (R142): Lanewise multiply by an immediate. -/
  | vmuli (e : Bool) (vd va : BitVec 5) (imm : BitVec 14)
  /-- VANDI (R142): Lanewise AND with an immediate. -/
  | vandi (e : Bool) (vd va : BitVec 5) (imm : BitVec 14)
  /-- VORI (R142): Lanewise OR with an immediate. -/
  | vori (e : Bool) (vd va : BitVec 5) (imm : BitVec 14)
  /-- VXORI (R142): Lanewise XOR with an immediate. -/
  | vxori (e : Bool) (vd va : BitVec 5) (imm : BitVec 14)
  /-- VSHLI (R142): Lanewise shift left by an immediate count. -/
  | vshli (e : Bool) (vd va sh : BitVec 5)
  /-- VSHRI (R142): Lanewise logical shift right by an immediate count. -/
  | vshri (e : Bool) (vd va sh : BitVec 5)
  /-- VSRAI (R142): Lanewise arithmetic shift right by an immediate count. -/
  | vsrai (e : Bool) (vd va sh : BitVec 5)
  /-- VSPLI (R143): Splats an immediate into every active lane. -/
  | vspli (e : Bool) (vd : BitVec 5) (imm : BitVec 14)
  /-- VIOTA (R143): Writes imm plus the lane index into each active lane. -/
  | viota (e : Bool) (vd : BitVec 5) (imm : BitVec 14)
  /-- VSPLB (R143): Splats a b-register's low bits into every active lane. -/
  | vsplb (e : Bool) (vd : BitVec 5) (bn : BitVec 3)
  /-- VCVT (R144): Converts each lane from the source type to TYPE at the same width. -/
  | vcvt (e : Bool) (vd va : BitVec 5) (src : BitVec 4)
  /-- VWID (R146): Widens one register into an aligned group. -/
  | vwid (e : Bool) (vd va : BitVec 5)
  /-- VNAR (R146): Narrows a group into one register with clamping. -/
  | vnar (e : Bool) (vd va : BitVec 5)
  /-- VQNT (R147): Quantises a float group to a bq type with per-row multipliers. -/
  | vqnt (e : Bool) (vd va vb : BitVec 5)
  /-- VDQN (R147): Dequantises a bq register to a float group. -/
  | vdqn (e : Bool) (vd va vb : BitVec 5)
  /-- VRND (R148): Rounds float lanes to integral values under RM. -/
  | vrnd (e : Bool) (vd va : BitVec 5)
  /-- VPERM (R163): Permutes lanes by indices in vb. -/
  | vperm (e : Bool) (vd va vb : BitVec 5)
  /-- VBCST (R163): Broadcasts lane L to every active lane. -/
  | vbcst (e : Bool) (vd va : BitVec 5) (lane : BitVec 10)
  /-- VSLUP (R163): Slides lanes up by d. -/
  | vslup (e : Bool) (vd va : BitVec 5) (lane : BitVec 10)
  /-- VSLDN (R163): Slides lanes down by d. -/
  | vsldn (e : Bool) (vd va : BitVec 5) (lane : BitVec 10)
  /-- VREV (R163): Reverses the first min(VL, N) lanes. -/
  | vrev (e : Bool) (vd va : BitVec 5)
  /-- VCMPR (R163): Compresses the active lanes to the bottom of vd. -/
  | vcmpr (e : Bool) (vd va : BitVec 5)
  /-- VEXPN (R163): Expands source lanes by rank into the active lanes. -/
  | vexpn (e : Bool) (vd va : BitVec 5)
  /-- VSCAN (R164): Writes the inclusive prefix sum of the active lanes. -/
  | vscan (e : Bool) (vd va : BitVec 5)
  /-- VRSUM (R164): Sums the active lanes into lane 0 by a fixed tree. -/
  | vrsum (e : Bool) (vd va : BitVec 5)
  /-- VRMIN (R164): Writes the minimum of the active lanes into lane 0. -/
  | vrmin (e : Bool) (vd va : BitVec 5)
  /-- VRMAX (R164): Writes the maximum of the active lanes into lane 0. -/
  | vrmax (e : Bool) (vd va : BitVec 5)
  /-- VDOT4 (R164): Accumulates 4-element dot products into 32-bit lanes. -/
  | vdot4 (e : Bool) (vd va vb : BitVec 5)
  /-- VRCP (R165): Lanewise reciprocal, correctly rounded. -/
  | vrcp (e : Bool) (vd va : BitVec 5)
  /-- VRSQ (R165): Lanewise reciprocal square root. -/
  | vrsq (e : Bool) (vd va : BitVec 5)
  /-- VSQRT (R165): Lanewise square root. -/
  | vsqrt (e : Bool) (vd va : BitVec 5)
  /-- VDIVF (R165): Lanewise IEEE division. -/
  | vdivf (e : Bool) (vd va vb : BitVec 5)
  /-- VEXP2 (R165): Lanewise 2 to the power a. -/
  | vexp2 (e : Bool) (vd va : BitVec 5)
  /-- VLOG2 (R165): Lanewise base-2 logarithm. -/
  | vlog2 (e : Bool) (vd va : BitVec 5)
  /-- VSIN (R165): Lanewise sine. -/
  | vsin (e : Bool) (vd va : BitVec 5)
  /-- VTANH (R165): Lanewise hyperbolic tangent. -/
  | vtanh (e : Bool) (vd va : BitVec 5)
  /-- VLD (R152): Loads the active lanes from contiguous addresses, completing through a token. -/
  | vld (e : Bool) (vd : BitVec 5) (bn : BitVec 3) (off : BitVec 13) (tok : BitVec 3)
  /-- VLDC (R153): Loads like VLD, then makes one consuming access of the pool slot. -/
  | vldc (e : Bool) (vd : BitVec 5) (bn : BitVec 3) (off : BitVec 13) (tok : BitVec 3)
  /-- VST (R154): Stores the active lanes in ascending order, completing through a token. -/
  | vst (e : Bool) (vd : BitVec 5) (bn : BitVec 3) (off : BitVec 13) (tok : BitVec 3)
  /-- VLDX (R152): Gathers the active lanes by index. -/
  | vldx (e : Bool) (vd : BitVec 5) (bn : BitVec 3) (vi : BitVec 5) (sc : BitVec 2) (z : BitVec 6) (tok : BitVec 3)
  /-- VSTX (R154): Scatters the active lanes by index. -/
  | vstx (e : Bool) (vd : BitVec 5) (bn : BitVec 3) (vi : BitVec 5) (sc : BitVec 2) (z : BitVec 6) (tok : BitVec 3)
  /-- VLDS (R151): Loads the active lanes with a byte stride taken from b(N+1). -/
  | vlds (e : Bool) (vd : BitVec 5) (bn : BitVec 3) (off : BitVec 13) (tok : BitVec 3)
  /-- VATM (R155): Performs a lanewise atomic at indexed addresses, returning old values. -/
  | vatm (e : Bool) (vd : BitVec 5) (bn : BitVec 3) (vi : BitVec 5) (sc : BitVec 2) (z : BitVec 6) (tok : BitVec 3)
  /-- VMARK (R160): Orders the entry's earlier vector memory words before its later ones. -/
  | vmark (e : Bool)
  /-- TKW (R157): Waits until every named token count is zero, as an acquire at core scope. -/
  | tkw (e : Bool) (mask : BitVec 8)
  /-- KAND (R149): Sets kd to ka AND kb over all 1,024 bits. -/
  | kand (e : Bool) (kd ka kb : BitVec 3)
  /-- KOR (R149): Sets kd to ka OR kb. -/
  | kor (e : Bool) (kd ka kb : BitVec 3)
  /-- KXOR (R149): Sets kd to ka XOR kb. -/
  | kxor (e : Bool) (kd ka kb : BitVec 3)
  /-- KANDN (R149): Sets kd to ka AND NOT kb. -/
  | kandn (e : Bool) (kd ka kb : BitVec 3)
  /-- KNOT (R149): Sets kd to NOT ka. -/
  | knot (e : Bool) (kd ka : BitVec 3)
  /-- KSET (R149): Sets the bits of kd below min(VL, N) and clears the rest. -/
  | kset (e : Bool) (kd : BitVec 3)
  /-- KPOP (R150): Counts the set bits of ka below min(VL, N) into lane 0 of vd. -/
  | kpop (e : Bool) (vd : BitVec 5) (ka : BitVec 3)
  /-- KMOV (R149): Copies ka to kd. -/
  | kmov (e : Bool) (kd ka : BitVec 3)
  /-- VBLI (R129): Sets a b-register to a sign-extended imm21. -/
  | vbli (e : Bool) (bn : BitVec 3) (imm : BitVec 21)
  /-- VBADD (R129): Adds a sign-extended imm21 to a b-register. -/
  | vbadd (e : Bool) (bn : BitVec 3) (imm : BitVec 21)
  /-- VBMOV (R129): Copies one b-register to another. -/
  | vbmov (e : Bool) (vd ba : BitVec 3)
  /-- VSHP (R129): Sets vshape bits 23:0 from bN and clears SLIP. -/
  | vshp (e : Bool) (bn : BitVec 3)
  /-- VSHPB (R129): Sets vshape bits 27:0, SLIP included, from bN. -/
  | vshpb (e : Bool) (bn : BitVec 3)
  /-- VFLG (R129): Writes the strand's floating-point flags, including those of this entry that have landed, to bN. -/
  | vflg (e : Bool) (bn : BitVec 3)
  /-- VNOP (R129): Does nothing for one entry slot. -/
  | vnop (e : Bool)
  /-- GO2D (R199): Computes the exact 2D orientation sign per lane in the ESU. -/
  | go2d (e : Bool) (vd vq vA : BitVec 5)
  /-- GO3D (R199): Computes the exact 3D orientation sign per lane. -/
  | go3d (e : Bool) (vd vq vA : BitVec 5)
  /-- GIC (R199): Computes the exact in-circle sign per lane. -/
  | gic (e : Bool) (vd vq vA : BitVec 5)
  /-- GIS (R199): Computes the exact in-sphere sign per lane. -/
  | gis (e : Bool) (vd vq vA : BitVec 5)
  /-- GSX (R200): Computes the exact segment-crossing code per lane. -/
  | gsx (e : Bool) (vd vA : BitVec 5)
  -- M stream (R56)
  /-- MNOP (R236): M-stream no operation. -/
  | mnop (e : Bool)
  /-- MZRO (R237): Clears every cell of an accumulator tile and sets its scales to +1.0. -/
  | mzro (e : Bool) (acc : BitVec 2)
  /-- MMA (R239): Checks two tile objects and folds their 64x64x64 residue product into a tile, optionally latching scales, consuming, or multicasting B. -/
  | mma (e : Bool) (acc : BitVec 2) (ea eb : BitVec 4) (cna cnb byp ls : Bool) (mc : BitVec 3)
  /-- MDRN (R242): Reconstructs, scales and converts a tile into its destination in store, add or bypass mode, writing tile status and overflow events. -/
  | mdrn (e : Bool) (acc : BitVec 2) (ed dt ts : BitVec 4) (md : BitVec 2) (er : BitVec 4)
  /-- MLDA (R243): Loads 4,096 raw accumulator words into a tile, making them canonical. -/
  | mlda (e : Bool) (acc : BitVec 2) (ea : BitVec 4)
  /-- MSTA (R243): Stores a tile's 4,096 raw accumulator words to memory. -/
  | msta (e : Bool) (acc : BitVec 2) (ea : BitVec 4)
  /-- MEADD (R236): Adds two M entry registers. -/
  | meadd (e : Bool) (ed ea eb : BitVec 4)
  /-- MELI (R236): Loads a sign-extended imm22 into an M entry register. -/
  | meli (e : Bool) (ed : BitVec 4) (imm : BitVec 22)
  /-- MEMOV (R236): Copies one M entry register to another. -/
  | memov (e : Bool) (ed ea : BitVec 4)
  /-- MREP (R60): Repeats the next n M words k times. -/
  | mrep (e : Bool) (n : BitVec 4) (k : BitVec 12)
  -- X stream (R57)
  /-- XNOP (R168): X-stream no operation. -/
  | xnop (e : Bool)
  /-- XCPY (R170): Copies n bytes, optionally as a consuming access and with an early byte signal. -/
  | xcpy (e : Bool) (ed es en : BitVec 4) (cn cb : Bool)
  /-- XTEN (R181): Moves one tile between a tensor described by a layout record and a dense tile. -/
  | xten (e : Bool) (eh ed ec : BitVec 4) (xp : BitVec 2) (dir : Bool)
  /-- XFIL (R172): Fills n bytes with a repeating 8-byte pattern. -/
  | xfil (e : Bool) (ed ev en : BitVec 4)
  /-- XGAT (R173): Gathers elements by a 32-bit index list. -/
  | xgat (e : Bool) (ed es ei : BitVec 4)
  /-- XSCT (R173): Scatters elements by a 32-bit index list. -/
  | xsct (e : Bool) (ed es ei : BitVec 4)
  /-- XBRD (R174): Multicasts n bytes into the scratchpads of a cluster group. -/
  | xbrd (e : Bool) (ed es en : BitVec 4) (mc : BitVec 3)
  /-- XRED (R175): Adds source elements indivisibly into the destination as f32 or i32. -/
  | xred (e : Bool) (ed es en : BitVec 4) (ty : Bool)
  /-- XSIG (R176): Adds to a semaphore at a window address as a release, after the entry's earlier steps. -/
  | xsig (e : Bool) (ea en : BitVec 4)
  /-- XRFL (R185): Drops a cached layout record from the cluster's cache. -/
  | xrfl (e : Bool) (eh : BitVec 4)
  /-- XALC (R177): Allocates a pool slot as TALC does, blocking the XE until the request is served. -/
  | xalc (e : Bool) (ed ea eb : BitVec 4)
  /-- XMRK (R178): Orders the transfer steps before it ahead of those after it. -/
  | xmrk (e : Bool)
  /-- XEADD (R168): Adds two X entry registers. -/
  | xeadd (e : Bool) (ed ea eb : BitVec 4)
  /-- XELI (R168): Loads a sign-extended imm22 into an X entry register. -/
  | xeli (e : Bool) (ed : BitVec 4) (imm : BitVec 22)
  /-- XEMOV (R168): Copies one X entry register to another. -/
  | xemov (e : Bool) (ed ea : BitVec 4)
  /-- XREP (R168): Repeats the next n X words k times. -/
  | xrep (e : Bool) (n : BitVec 4) (k : BitVec 12)
  -- device steps without an encoding
  /-- ILLEGAL_S_WORD (R44): An S word whose encoding is illegal issues, performs nothing and stops the strand with ILLEGAL. -/
  | illegalSWord (w : BitVec 32)
  /-- ILLEGAL_ENGINE_WORD (R45): An entry reaches an illegal V, M or X word, a missing end bit or the section end, and stops with ILLEGAL. -/
  | illegalEngineWord (c : Nat) (en : Eng)
  /-- EMPTY_SLOT (R63): In a core slot, a strand that owes empty slots spends one, which counts as one of its own slots. -/
  | emptySlot (c : Nat) (t : BitVec 2)
  /-- FIXED_LATENCY_WRITE_LANDS (R17): A fixed-latency result writes its destination L own or entry slots after issue. -/
  | fixedLatencyWriteLands (c : Nat) (u : BitVec 3)
  /-- SQ_FORCED_SWITCH (R64): After 64 own slots as current strand, the SQ moves to the next eligible strand. -/
  | sqForcedSwitch (c : Nat)
  /-- SCALAR_LOAD_COMPLETE (R93): An outstanding scalar load or atomic writes rd and leaves the l counter. -/
  | scalarLoadComplete (c : Nat) (t : BitVec 2) (stale : Bool)
  /-- STORE_QUEUE_PERFORM (R92): A queued store-queue word performs at its target scope and leaves the s counter. -/
  | storeQueuePerform (c : Nat) (h : QueueHead)
  /-- ENTRY_HEAD_WAIT (R111): The entry at the head of a queue is granted its head wait and subtracts WCNT as an acquire. -/
  | entryHeadWait (c : Nat) (en : Eng)
  /-- ENTRY_START (R111): An engine starts the head entry, sets its registers from p0 and p1 and issues word 0. -/
  | entryStart (c : Nat) (en : Eng)
  /-- ENTRY_COMPLETION (R111): An entry whose accesses, landings and tokens have all finished becomes complete. -/
  | entryCompletion (c : Nat) (en : Eng)
  /-- TOKEN_COMPLETE (R157): A token-completed vector memory word or predicate completes and its token count drops;
  with a part, the word's named lanes land first and it completes later (R18, R158). -/
  | tokenComplete (c : Nat) (q : VQueue) (stale : Bool) (part : Option Early)
  /-- M_STEP_FINISH (R235): An MMA, MZRO or MLDA updates its tile at its finish, or a drain's last conversion ends;
  with a number, a drain has converted so many of its 64 blocks and goes on (R248). -/
  | mStepFinish (c : Nat) (k : Nat) (f : Finish)
  /-- TRANSFER_MOVE_PHASE_DONE (R167): A transfer step's move phase has performed;
  with a part, so many of its bytes from a place on are read (true) or land (false) first (R22, R178). -/
  | transferMovePhaseDone (c : Nat) (k : Nat) (stale : Bool) (part : Option (Bool × Nat × Nat))
  /-- CONSUMING_CHECK (R262): A consuming access is checked against its slot's state and raises PEND. -/
  | consumingCheck (c : Nat) (en : Eng) (a : BitVec 48) (n : Nat)
  /-- CONSUMING_COUNT (R256): Once all bytes are read, a consuming access decrements READS and frees the slot at zero. -/
  | consumingCount (c : Nat) (en : Eng) (a : BitVec 48) (n : Nat)
  /-- POOLSTALL (R258): An allocation blocked for LIMIT ticks leaves its queue and stops the strand or entry with POOLSTALL. -/
  | poolstall (c : Nat) (u : BitVec 3)
  /-- KERNEL_START (R122): Once the previous team has finished and its named queues have drained, the loader sets sync slots and semaphores and starts the team's strands. -/
  | kernelStart (c : Nat)
  /-- TEAM_ENTRY_GENERATE (R280): An armed launch emits its next team entry into a bank that has room. -/
  | teamEntryGenerate (p : Nat) (r : BitVec 10) (cl : Nat)
  /-- TEAM_TAKE (R281): A core with no resident team takes the first team entry of its bank, or steals one. -/
  | teamTake (c : Nat)
  /-- LAUNCH_COMPLETION (R273): When every team has ended and every entry has retired, the device reclaims the pool, writes STATUS and DONE and posts CEVENT. -/
  | launchCompletion (p : Nat) (r : BitVec 10)
  /-- TEAM_SWAP (R292): A team blocked for the swap quantum is swapped to memory whole. -/
  | teamSwap (c : Nat)
  /-- SWAPPED_TEAM_REENTER (R282): A swapped team re-enters its bank once the bank has room. -/
  | swappedTeamReenter (p : Nat) (k : Nat)
  /-- STOP_DELIVERY (R297): Once accepted accesses have performed, a stop's descriptor and records are written and the stop goes to the handler or to Skyo. -/
  | stopDelivery (c : Nat) (t : BitVec 2)
  /-- WATCHDOG (R299): The expiry of a watchdog stops the strand with WATCHDOG at an own slot the device chooses. -/
  | watchdog (c : Nat) (t : BitVec 2)
  /-- STOPNEXT_READ (R308): An MFS of STOPNEXT pops the oldest delivered stop and acquires its records. -/
  | stopnextRead (ctl : BitVec 2) (rd : BitVec 5)
  /-- RECORD_REISSUE (R310): The resumed strand reacquires its lease, reissues its records, requeues its entries and continues at its PC. -/
  | recordReissue (c : Nat) (t : BitVec 2)
  /-- PREEMPT (R312): Skyo halts a partition's cores, takes PREEMPT stops and saves their context to shadow storage. -/
  | preempt (p : Nat)
  /-- PARTITION_RESTORE (R312): A saved partition context is restored as an acquire at system scope. -/
  | partitionRestore (p : Nat)
  /-- PARTITION_CLEAR (R313): Skyo clears a core's state before the core runs another partition. -/
  | partitionClear (c : Nat)
  /-- ECC_UNCORRECTABLE (R314): An uncorrectable error fences its unit and kills the owning launch with CAUSE ECC. -/
  | eccUncorrectable (u : EccUnit) (c : Nat) (t : BitVec 2)
  /-- CORRECTED_SOFT_ERROR (R314): A corrected error advances the die's corrected-error counter. -/
  | correctedSoftError (d : BitVec 2)
  /-- HOST_READ_ERROR_COMPLETION (R353): A host-region read that completes with UR or CA stops with ECC subcause 4 and kills the launch. -/
  | hostReadErrorCompletion (c : Nat) (t : BitVec 2)
  /-- HOST_READ_TIMEOUT (R353): A host-region read with no completion in 50 ms stops with ECC subcause 4. -/
  | hostReadTimeout (c : Nat) (t : BitVec 2)
  /-- LINK_REPLAY_FAIL (R357): A UCIe link that fails replay is fenced, and accesses across it stop with ECC. -/
  | linkReplayFail (a b : BitVec 3)
  /-- RAIL_OVERCURRENT (R359): A core rail above its budget drops the die's clock to 400 MHz, or in locked-clock mode delays grants. -/
  | railOvercurrent (d : BitVec 2)
  /-- WINDOW_REGISTER_WRITE (R84): A window write to a scalar, system, sync-slot or tile-status register lands at the owning core. -/
  | windowRegisterWrite (c : Nat) (off : BitVec 22) (v : BitVec 64)
  /-- WINDOW_VREG_WRITE (R22): A window write lands one 64-byte granule of a vector register between VE slots and sets the tag. -/
  | windowVregWrite (c : Nat) (gran : BitVec 10) (v : BitVec 512) (tag : BitVec 4)
  /-- WINDOW_TAG_WRITE (R83): A store to a tag byte sets the register's tag. -/
  | windowTagWrite (c : Nat) (tag : BitVec 7) (v : BitVec 8)
  /-- SEMAPHORE_WINDOW_STORE (R85): A plain window store replaces a semaphore count and wakes the waiters it satisfies. -/
  | semaphoreWindowStore (c : Nat) (m : BitVec 8) (v : BitVec 32)
  /-- ACCUMULATOR_WINDOW_ACCESS (R187): A window access to an accumulator tile performs once no M entry is using the tile. -/
  | accumulatorWindowAccess (c : Nat) (cell : BitVec 15) (wr : Option (BitVec 64))
  /-- DBGCTL_LULL (R330): Setting or clearing LULL halts or releases every strand of the core without records. -/
  | dbgctlLull (c : Nat) (v : Bool)
  /-- DBGCTL_CUT (R331): Setting CUT requests a DEBUG stop of each strand at its next ENTER or LEAVE. -/
  | dbgctlCut (c : Nat) (v : Bool)
  /-- CUT_HALT_TIMEOUT (R331): A strand that issues no ENTER or LEAVE within 10 ms of a cut request is cut at a device-chosen slot. -/
  | cutHaltTimeout (c : Nat) (t : BitVec 2)
  /-- TRCTL_ENABLE (R328): Writing EN turns region tracing on or off, setting ERR when LOG2N is out of range. -/
  | trctlEnable (c : Nat) (en : Bool) (log2n : BitVec 5)
  /-- TRCTL_ERR_CLEAR (R328): Writing 1 to ERR clears it. -/
  | trctlErrClear (c : Nat)
  /-- COUNTER_LATCH (R334): Every 2^k ticks each die latches its counters and writes a record to the ring. -/
  | counterLatch
  /-- COLLECTIVE (R355): The package collective engine performs a barrier, gather, reduce or reduce-scatter over RoCEv2.
  A call is for partition p, place j of a ring of m packages, with the buffers b; an arrival or a report comes from place j; clocks are
  lowered for the j-th of those whose arrivals are on record. -/
  | collective (a : CollAct) (p j m : Nat) (b : CollBufs)
  /-- COLLECTIVE_TIMEOUT (R335): A collective with a halted participant completes with TIMEOUT after COLLTO. -/
  | collectiveTimeout
  /-- PACKAGE_RESET (R351): Package reset zeroes the tick counter and resets the C-die state. -/
  | packageReset
  /-- BOOTDB_WRITE (R351): A nonzero SIZE written at stage 0 starts bring-up. -/
  | bootdbWrite (v : BitVec 64)
  /-- TRAINING_COMPLETE (R351): HBM and UCIe training ends, the C-dies leave reset and Skyo starts, or bring-up stops with an error. -/
  | trainingComplete (res : Training)
  /-- OBJ_LOAD (R341): System call that verifies, places, relocates and publishes a container and builds its launch records. -/
  | objLoad (p : Nat) (a size : BitVec 64)
  /-- OBJ_UNLOAD (R345): System call that frees an object's records and unmaps its image unless a record is in use. -/
  | objUnload (p : Nat) (h : BitVec 64)
  /-- LREC_GET (R346): System call that returns the record index of a template. -/
  | lrecGet (p : Nat) (h idx : BitVec 64)
  /-- LREC_ARM (R346): System call that performs LARM on the hart's behalf as a release at system scope. -/
  | lrecArm (p : Nat) (idx : BitVec 64)
  /-- LREC_WAIT (R346): System call that blocks as LWAIT and acquires the completion at system scope. -/
  | lrecWait (p : Nat) (idx : BitVec 64)
  /-- LAUNCH_KILL (R315): Kills a launch: stops strands, flushes entries, restores semaphores, reclaims the pool, poisons events and writes KILLED. -/
  | launchKill (p : Nat) (idx : BitVec 64)
  /-- MEM_MAP (R90): System call that maps pages and returns once every TLB has dropped the changed entries. -/
  | memMap (p : Nat) (va pa size bits : BitVec 64)
  /-- MEM_UNMAP (R90): System call that unmaps pages and returns once every TLB has dropped them. -/
  | memUnmap (p : Nat) (va size : BitVec 64)
  /-- EVENT_RESERVE (R288): System call that reserves consecutive event names, each with COUNT, SET and POISON at 0. -/
  | eventReserve (p : Nat) (n : BitVec 64)
  /-- POOL_CONFIG (R251): System call that sets a pool partition of an IDLE record. -/
  | poolConfig (p : Nat) (idx part half : BitVec 64)
  /-- CODE_PATCH (R332): System call that runs ICINV everywhere and posts its event when done. -/
  | codePatch (p : Nat) (a w ev : BitVec 64)
  /-- CLOCK_LOCK (R326): System call that enters or leaves locked-clock mode. -/
  | clockLock (v : BitVec 64)
  /-- COUNTERS_START (R334): System call that starts counter latching into a ring. -/
  | countersStart (p : Nat) (a size k : BitVec 64)
  /-- STOP_HANDLER_SET (R346): System call that sets the handler strand of an IDLE record. -/
  | stopHandlerSet (p : Nat) (idx h : BitVec 64)
  /-- RESUME_STRAND (R346): System call by which Skyo resumes or discards a stopped strand and returns RSTAT. -/
  | resumeStrand (p : Nat) (desc discard : BitVec 64)
  /-- CHARGE_BUCKET_REFILL (R322): At every tick each core's charge bucket gains 16·L charge, up to its capacity, releasing steps that wait for balance. -/
  | chargeBucketRefill
  /-- LOCKED_CLOCK_GRANT (R326): In locked-clock mode a fitting lease request is granted at the first tick after arrival that is a multiple of 64. -/
  | lockedClockGrant (d : BitVec 2)
  /-- DIE_FREQUENCY_CHANGE (R326): A die's power manager changes the C-die clock within 400 to 1,000 MHz, including the return after rail current falls. -/
  | dieFrequencyChange (d : BitVec 2) (mhz : Nat)
  /-- HBM_REFRESH (R358): An HBM stack performs per-bank refresh, at a doubled rate above 85 °C, delaying accesses. -/
  | hbmRefresh (stack : BitVec 4)
  /-- QUEUE_PAIR_ERROR (R355): A RoCEv2 queue pair enters the error state, and the collective ends with status LINK. -/
  | queuePairError
  /-- BAR2_IMAGE_WRITE (R351): The chassis host writes boot-image bytes into BAR2, which are ignored once SIZE has been written. -/
  | bar2ImageWrite (off : BitVec 28) (v : BitVec 8)
  /-- FUSE_COUNTER_RAISE (R342): A raise of the fuse security counter purges every cached digest whose SVN lies below it. -/
  | fuseCounterRaise (svn : BitVec 32)
  deriving DecidableEq, Repr

end Sys2Proof
end

