-- ==== Sys2Proof/WellFormed.lean ====
section
/-! DEFINITION. Which instructions are well formed: the last column of the opcode maps (R49 to R57), the allocated
system registers (R77), and for the device steps that the unit they name exists (R9). -/
namespace Sys2Proof

/-- Why a 32-bit value is no instruction of its stream (R43, items 1 to 5). -/
inductive DecodeError where
  /-- Item 1: the major opcode is not allocated. -/
  | unallocated
  /-- Item 2: a function, condition, kind, scope, mode, type or operation field holds a value its row does not allow. -/
  | badFunction
  /-- Item 3: a field that the row does not name, or marks as 0, is nonzero. -/
  | reservedField
  /-- Item 4: a register group runs past v31. -/
  | groupPastV31
  /-- Item 5: g0 as a guard destination or k0 as a mask destination. -/
  | constDestination
  deriving DecidableEq, Repr

/-- The system-register numbers that the tables of the manual allocate (R77, R255, R270, R308, R325, R327 to R329, R333). -/
def sysRegAllocated (num : BitVec 14) : Bool :=
  let n := num.toNat
  n ≤ 3 || (8 ≤ n && n ≤ 0x17) || (0x20 ≤ n && n ≤ 0x27) || n == 0x40
    || (0x100 ≤ n && n ≤ 0x102)
    || (0x200 ≤ n && n ≤ 0x202) || (0x208 ≤ n && n ≤ 0x20B) || n == 0x210 || n == 0x212 || n == 0x213
    || n == 0x300 || n == 0x340 || n == 0x341

/-- The destination types a drain may name (R56). -/
def drainType (dt : BitVec 4) : Bool :=
  dt == 3 || dt == 5 || dt == 7 || (9 ≤ dt.toNat && dt.toNat ≤ 14)

/-- The rule an instruction's fields break, none if it is well formed (R43, R49 to R57). -/
def Instr.fault? : Instr → Option DecodeError
  | .add _ _ _ _ => none
  | .sub _ _ _ _ => none
  | .and _ _ _ _ => none
  | .or _ _ _ _ => none
  | .xor _ _ _ _ => none
  | .andn _ _ _ _ => none
  | .shl _ _ _ _ => none
  | .shr _ _ _ _ => none
  | .sra _ _ _ _ => none
  | .mul _ _ _ _ => none
  | .mulh _ _ _ _ => none
  | .mulhn _ _ _ _ => none
  | .div _ _ _ _ => none
  | .divn _ _ _ _ => none
  | .rem _ _ _ _ => none
  | .remn _ _ _ _ => none
  | .min _ _ _ _ => none
  | .max _ _ _ _ => none
  | .minn _ _ _ _ => none
  | .maxn _ _ _ _ => none
  | .clz _ _ _ => none
  | .ctz _ _ _ => none
  | .popc _ _ _ => none
  | .addw _ _ _ _ => none
  | .subw _ _ _ _ => none
  | .sel _ _ _ _ _ => none
  | .cmp _ gd _ _ cond => if cond.toNat ≤ 5 then if gd ≠ 0 then none else some .constDestination else some .badFunction
  | .cmpi _ gd _ _ _ => if gd ≠ 0 then none else some .constDestination
  | .gand _ gd _ _ => if gd ≠ 0 then none else some .constDestination
  | .gor _ gd _ _ => if gd ≠ 0 then none else some .constDestination
  | .gxor _ gd _ _ => if gd ≠ 0 then none else some .constDestination
  | .gandn _ gd _ _ => if gd ≠ 0 then none else some .constDestination
  | .enter _ _ => none
  | .leave _ => none
  | .addi _ _ _ _ => none
  | .andi _ _ _ _ => none
  | .ori _ _ _ _ => none
  | .xori _ _ _ _ => none
  | .shli _ _ _ _ => none
  | .shri _ _ _ _ => none
  | .srai _ _ _ _ => none
  | .addwi _ _ _ _ => none
  | .ld _ _ _ _ _ => none
  | .ldn _ _ _ _ _ => none
  | .st _ _ _ _ _ _ => none
  | .mark _ => none
  | .atm _ _ _ _ op sz _ => if op.toNat ≤ 9 then if 2 ≤ sz.toNat then if (op.toNat = 9 → sz = 2) then none else some .badFunction else some .badFunction else some .badFunction
  | .acas _ _ _ _ sz _ => if 2 ≤ sz.toNat then none else some .badFunction
  | .fence _ _ scope => if scope.toNat ≤ 5 then none else some .badFunction
  | .waitc _ _ _ _ _ _ => none
  | .mfs _ _ num => if sysRegAllocated num then none else some .badFunction
  | .mts _ _ num => if sysRegAllocated num then none else some .badFunction
  | .sysc _ _ => none
  | .trap _ _ => none
  | .brk _ => none
  | .resume _ => none
  | .halt _ => none
  | .endK _ _ => none
  | .br _ _ _ => none
  | .call _ _ _ => none
  | .jr _ _ _ => none
  | .callr _ _ _ => none
  | .disp _ en _ _ _ _ => if en.toNat ≤ 2 then none else some .badFunction
  | .semw _ _ _ => none
  | .sems _ _ _ => none
  | .semsAddress _ _ _ => none
  | .semr _ _ _ => none
  | .semi _ _ _ => none
  | .evw _ _ => none
  | .evp _ _ => none
  | .eva _ _ _ => none
  | .evt _ _ _ => none
  | .qpost _ _ => none
  | .qtake _ _ => none
  | .qdone _ _ => none
  | .lpat _ _ _ field => if field.toNat ≤ 19 then none else some .badFunction
  | .larm _ _ => none
  | .lwait _ _ _ => none
  | .talc _ _ _ _ => none
  | .tseal _ _ => none
  | .tdrop _ _ _ => none
  | .tadr _ _ _ => none
  | .tcnt _ _ _ => none
  | .tstat _ _ _ => none
  | .ovpop _ _ => none
  | .pwq _ _ => none
  | .pwrel _ => none
  | .lih _ _ _ => none
  | .lihp _ _ _ => none
  | .vadd _ _ _ _ => none
  | .vsub _ _ _ _ => none
  | .vmul _ _ _ _ => none
  | .vmulh _ _ _ _ => none
  | .vfma _ _ _ _ _ => none
  | .vfms _ _ _ _ _ => none
  | .vfnma _ _ _ _ _ => none
  | .vmin _ _ _ _ => none
  | .vmax _ _ _ _ => none
  | .vabs _ _ _ => none
  | .vneg _ _ _ => none
  | .vadds _ _ _ _ => none
  | .vsubs _ _ _ _ => none
  | .vavg _ _ _ _ => none
  | .vand _ _ _ _ => none
  | .vor _ _ _ _ => none
  | .vxor _ _ _ _ => none
  | .vandn _ _ _ _ => none
  | .vnot _ _ _ => none
  | .vshl _ _ _ _ => none
  | .vshr _ _ _ _ => none
  | .vsra _ _ _ _ => none
  | .vmov _ _ _ => none
  | .vsel _ _ _ _ _ => none
  | .vcmp _ kd _ _ cond => if cond.toNat ≤ 7 then if kd ≠ 0 then none else some .constDestination else some .badFunction
  | .vclz _ _ _ => none
  | .vpopc _ _ _ => none
  | .vcpys _ _ _ _ => none
  | .vaddi _ _ _ _ => none
  | .vmuli _ _ _ _ => none
  | .vandi _ _ _ _ => none
  | .vori _ _ _ _ => none
  | .vxori _ _ _ _ => none
  | .vshli _ _ _ _ => none
  | .vshri _ _ _ _ => none
  | .vsrai _ _ _ _ => none
  | .vspli _ _ _ => none
  | .viota _ _ _ => none
  | .vsplb _ _ _ => none
  | .vcvt _ _ _ src => if src ≠ 0 then if src ≠ 15 then none else some .badFunction else some .badFunction
  | .vwid _ _ _ => none
  | .vnar _ _ _ => none
  | .vqnt _ _ _ _ => none
  | .vdqn _ _ _ _ => none
  | .vrnd _ _ _ => none
  | .vperm _ _ _ _ => none
  | .vbcst _ _ _ _ => none
  | .vslup _ _ _ _ => none
  | .vsldn _ _ _ _ => none
  | .vrev _ _ _ => none
  | .vcmpr _ _ _ => none
  | .vexpn _ _ _ => none
  | .vscan _ _ _ => none
  | .vrsum _ _ _ => none
  | .vrmin _ _ _ => none
  | .vrmax _ _ _ => none
  | .vdot4 _ _ _ _ => none
  | .vrcp _ _ _ => none
  | .vrsq _ _ _ => none
  | .vsqrt _ _ _ => none
  | .vdivf _ _ _ _ => none
  | .vexp2 _ _ _ => none
  | .vlog2 _ _ _ => none
  | .vsin _ _ _ => none
  | .vtanh _ _ _ => none
  | .vld _ _ _ _ _ => none
  | .vldc _ _ _ _ _ => none
  | .vst _ _ _ _ _ => none
  | .vldx _ _ _ _ _ _ _ => none
  | .vstx _ _ _ _ _ _ _ => none
  | .vlds _ _ bn _ _ => if bn ≠ 7 then none else some .badFunction
  | .vatm _ _ _ _ _ z _ => if z.toNat ≤ 9 then none else some .badFunction
  | .vmark _ => none
  | .tkw _ mask => if mask ≠ 0 then none else some .badFunction
  | .kand _ kd _ _ => if kd ≠ 0 then none else some .constDestination
  | .kor _ kd _ _ => if kd ≠ 0 then none else some .constDestination
  | .kxor _ kd _ _ => if kd ≠ 0 then none else some .constDestination
  | .kandn _ kd _ _ => if kd ≠ 0 then none else some .constDestination
  | .knot _ kd _ => if kd ≠ 0 then none else some .constDestination
  | .kset _ kd => if kd ≠ 0 then none else some .constDestination
  | .kpop _ _ _ => none
  | .kmov _ kd _ => if kd ≠ 0 then none else some .constDestination
  | .vbli _ _ _ => none
  | .vbadd _ _ _ => none
  | .vbmov _ _ _ => none
  | .vshp _ _ => none
  | .vshpb _ _ => none
  | .vflg _ _ => none
  | .vnop _ => none
  | .go2d _ _ vq vA => if vq.toNat + 1 ≤ 31 then if vA.toNat + 3 ≤ 31 then none else some .groupPastV31 else some .groupPastV31
  | .go3d _ _ vq vA => if vq.toNat + 2 ≤ 31 then if vA.toNat + 8 ≤ 31 then none else some .groupPastV31 else some .groupPastV31
  | .gic _ _ vq vA => if vq.toNat + 1 ≤ 31 then if vA.toNat + 5 ≤ 31 then none else some .groupPastV31 else some .groupPastV31
  | .gis _ _ vq vA => if vq.toNat + 2 ≤ 31 then if vA.toNat + 11 ≤ 31 then none else some .groupPastV31 else some .groupPastV31
  | .gsx _ _ vA => if vA.toNat + 7 ≤ 31 then none else some .groupPastV31
  | .mnop _ => none
  | .mzro _ _ => none
  | .mma _ _ _ _ _ _ _ _ _ => none
  | .mdrn _ _ _ dt _ md er => if md.toNat ≤ 2 then if drainType dt then if (md = 2 → dt = 13) then if (er ≠ 0 → dt.toNat ≤ 7 ∨ 12 ≤ dt.toNat) then none else some .badFunction else some .badFunction else some .badFunction else some .badFunction
  | .mlda _ _ _ => none
  | .msta _ _ _ => none
  | .meadd _ _ _ _ => none
  | .meli _ _ _ => none
  | .memov _ _ _ => none
  | .mrep _ n k => if n ≠ 0 then if k ≠ 0 then none else some .badFunction else some .badFunction
  | .xnop _ => none
  | .xcpy _ _ _ _ _ _ => none
  | .xten _ _ _ _ xp _ => if xp.toNat ≤ 2 then none else some .badFunction
  | .xfil _ _ _ _ => none
  | .xgat _ _ _ _ => none
  | .xsct _ _ _ _ => none
  | .xbrd _ _ _ _ mc => if mc ≠ 0 then none else some .badFunction
  | .xred _ _ _ _ _ => none
  | .xsig _ _ _ => none
  | .xrfl _ _ => none
  | .xalc _ _ _ _ => none
  | .xmrk _ => none
  | .xeadd _ _ _ _ => none
  | .xeli _ _ _ => none
  | .xemov _ _ _ => none
  | .xrep _ n k => if n ≠ 0 then if k ≠ 0 then none else some .badFunction else some .badFunction
  | .fixedLatencyWriteLands c u => if c < 3072 then if u.toNat ≤ 4 then none else some .badFunction else some .badFunction
  | .sqForcedSwitch c => if c < 3072 then none else some .badFunction
  | .scalarLoadComplete c _ _ => if c < 3072 then none else some .badFunction
  | .storeQueuePerform c _ => if c < 3072 then none else some .badFunction
  | .entryHeadWait c _ => if c < 3072 then none else some .badFunction
  | .entryStart c _ => if c < 3072 then none else some .badFunction
  | .entryCompletion c _ => if c < 3072 then none else some .badFunction
  | .tokenComplete c _ _ _ => if c < 3072 then none else some .badFunction
  | .mStepFinish c _ _ => if c < 3072 then none else some .badFunction
  | .transferMovePhaseDone c _ _ _ => if c < 3072 then none else some .badFunction
  | .consumingCheck c _ _ _ => if c < 3072 then none else some .badFunction
  | .consumingCount c _ _ _ => if c < 3072 then none else some .badFunction
  | .poolstall c u => if c < 3072 then if u.toNat ≤ 4 then none else some .badFunction else some .badFunction
  | .kernelStart c => if c < 3072 then none else some .badFunction
  | .teamEntryGenerate _ _ cl => if cl < 384 then none else some .badFunction
  | .teamTake c => if c < 3072 then none else some .badFunction
  | .launchCompletion _ _ => none
  | .teamSwap c => if c < 3072 then none else some .badFunction
  | .swappedTeamReenter _ _ => none
  | .stopDelivery c _ => if c < 3072 then none else some .badFunction
  | .watchdog c _ => if c < 3072 then none else some .badFunction
  | .stopnextRead _ _ => none
  | .recordReissue c _ => if c < 3072 then none else some .badFunction
  | .preempt _ => none
  | .partitionRestore _ => none
  | .partitionClear c => if c < 3072 then none else some .badFunction
  | .eccUncorrectable _ c _ => if c < 3072 then none else some .badFunction
  | .correctedSoftError _ => none
  | .hostReadErrorCompletion c _ => if c < 3072 then none else some .badFunction
  | .hostReadTimeout c _ => if c < 3072 then none else some .badFunction
  | .linkReplayFail a b => if a ≠ b ∧ a.toNat ≤ 4 ∧ b.toNat ≤ 4 then none else some .badFunction
  | .railOvercurrent _ => none
  | .windowRegisterWrite c _ _ => if c < 3072 then none else some .badFunction
  | .windowVregWrite c _ _ _ => if c < 3072 then none else some .badFunction
  | .windowTagWrite c _ _ => if c < 3072 then none else some .badFunction
  | .semaphoreWindowStore c _ _ => if c < 3072 then none else some .badFunction
  | .accumulatorWindowAccess c _ _ => if c < 3072 then none else some .badFunction
  | .dbgctlLull c _ => if c < 3072 then none else some .badFunction
  | .dbgctlCut c _ => if c < 3072 then none else some .badFunction
  | .cutHaltTimeout c _ => if c < 3072 then none else some .badFunction
  | .trctlEnable c _ _ => if c < 3072 then none else some .badFunction
  | .trctlErrClear c => if c < 3072 then none else some .badFunction
  | .counterLatch => none
  | .collective _ _ _ _ _ => none
  | .collectiveTimeout => none
  | .packageReset => none
  | .bootdbWrite _ => none
  | .trainingComplete _ => none
  | .objLoad _ _ _ => none
  | .objUnload _ _ => none
  | .lrecGet _ _ _ => none
  | .lrecArm _ _ => none
  | .lrecWait _ _ => none
  | .launchKill _ _ => none
  | .memMap _ _ _ _ _ => none
  | .memUnmap _ _ _ => none
  | .eventReserve _ _ => none
  | .poolConfig _ _ _ _ => none
  | .codePatch _ _ _ _ => none
  | .clockLock _ => none
  | .countersStart _ _ _ _ => none
  | .stopHandlerSet _ _ _ => none
  | .resumeStrand _ _ _ => none
  | .illegalSWord _ => none
  | .illegalEngineWord c _ => if c < 3072 then none else some .badFunction
  | .emptySlot c _ => if c < 3072 then none else some .badFunction
  | .chargeBucketRefill => none
  | .lockedClockGrant _ => none
  | .dieFrequencyChange _ mhz => if 400 ≤ mhz ∧ mhz ≤ 1000 then none else some .badFunction
  | .hbmRefresh _ => none
  | .queuePairError => none
  | .bar2ImageWrite _ _ => none
  | .fuseCounterRaise _ => none

/-- An instruction whose fields keep every rule of its row. -/
def Instr.wf (i : Instr) : Bool := i.fault? == none

end Sys2Proof
end

