-- ==== Sys2Proof/Decode.lean ====
section
/-! DEFINITION. Decoding and encoding the 32-bit words of the four streams (R42 to R61). decodeS, decodeV, decodeM and
decodeX are total: every value is one instruction of the stream or is rejected by the item of R43 it breaks. encode
is written from the same layouts, field by field. -/
namespace Sys2Proof

/-- Read an instruction whose named fields are taken already: the bits the row marks as fixed (mask) must hold the
row's value (R43, item 3), and the fields must keep the row's constraints (items 2, 4 and 5). -/
def reservedClear (w : Code) (mask value : Code) (i : Instr) : Except DecodeError Instr :=
  if w &&& mask = value then
    match i.fault? with
    | none => .ok i
    | some e => .error e
  else .error .reservedField

/-- The ALU function codes of major 0x00 (R50); fn is bits [8:3]. -/
def decodeAlu (w : Code) : Except DecodeError Instr :=
  match (w.extractLsb' 3 6).toNat with
  | 0 => reservedClear w 0x3F0001FF 0x00000000 (.add (w.extractLsb' 30 2) (w.extractLsb' 19 5) (w.extractLsb' 14 5) (w.extractLsb' 9 5))
  | 1 => reservedClear w 0x3F0001FF 0x00000008 (.sub (w.extractLsb' 30 2) (w.extractLsb' 19 5) (w.extractLsb' 14 5) (w.extractLsb' 9 5))
  | 2 => reservedClear w 0x3F0001FF 0x00000010 (.and (w.extractLsb' 30 2) (w.extractLsb' 19 5) (w.extractLsb' 14 5) (w.extractLsb' 9 5))
  | 3 => reservedClear w 0x3F0001FF 0x00000018 (.or (w.extractLsb' 30 2) (w.extractLsb' 19 5) (w.extractLsb' 14 5) (w.extractLsb' 9 5))
  | 4 => reservedClear w 0x3F0001FF 0x00000020 (.xor (w.extractLsb' 30 2) (w.extractLsb' 19 5) (w.extractLsb' 14 5) (w.extractLsb' 9 5))
  | 5 => reservedClear w 0x3F0001FF 0x00000028 (.andn (w.extractLsb' 30 2) (w.extractLsb' 19 5) (w.extractLsb' 14 5) (w.extractLsb' 9 5))
  | 6 => reservedClear w 0x3F0001FF 0x00000030 (.shl (w.extractLsb' 30 2) (w.extractLsb' 19 5) (w.extractLsb' 14 5) (w.extractLsb' 9 5))
  | 7 => reservedClear w 0x3F0001FF 0x00000038 (.shr (w.extractLsb' 30 2) (w.extractLsb' 19 5) (w.extractLsb' 14 5) (w.extractLsb' 9 5))
  | 8 => reservedClear w 0x3F0001FF 0x00000040 (.sra (w.extractLsb' 30 2) (w.extractLsb' 19 5) (w.extractLsb' 14 5) (w.extractLsb' 9 5))
  | 9 => reservedClear w 0x3F0001FF 0x00000048 (.mul (w.extractLsb' 30 2) (w.extractLsb' 19 5) (w.extractLsb' 14 5) (w.extractLsb' 9 5))
  | 10 => reservedClear w 0x3F0001FF 0x00000050 (.mulh (w.extractLsb' 30 2) (w.extractLsb' 19 5) (w.extractLsb' 14 5) (w.extractLsb' 9 5))
  | 11 => reservedClear w 0x3F0001FF 0x00000058 (.mulhn (w.extractLsb' 30 2) (w.extractLsb' 19 5) (w.extractLsb' 14 5) (w.extractLsb' 9 5))
  | 12 => reservedClear w 0x3F0001FF 0x00000060 (.div (w.extractLsb' 30 2) (w.extractLsb' 19 5) (w.extractLsb' 14 5) (w.extractLsb' 9 5))
  | 13 => reservedClear w 0x3F0001FF 0x00000068 (.divn (w.extractLsb' 30 2) (w.extractLsb' 19 5) (w.extractLsb' 14 5) (w.extractLsb' 9 5))
  | 14 => reservedClear w 0x3F0001FF 0x00000070 (.rem (w.extractLsb' 30 2) (w.extractLsb' 19 5) (w.extractLsb' 14 5) (w.extractLsb' 9 5))
  | 15 => reservedClear w 0x3F0001FF 0x00000078 (.remn (w.extractLsb' 30 2) (w.extractLsb' 19 5) (w.extractLsb' 14 5) (w.extractLsb' 9 5))
  | 16 => reservedClear w 0x3F0001FF 0x00000080 (.min (w.extractLsb' 30 2) (w.extractLsb' 19 5) (w.extractLsb' 14 5) (w.extractLsb' 9 5))
  | 17 => reservedClear w 0x3F0001FF 0x00000088 (.max (w.extractLsb' 30 2) (w.extractLsb' 19 5) (w.extractLsb' 14 5) (w.extractLsb' 9 5))
  | 18 => reservedClear w 0x3F0001FF 0x00000090 (.minn (w.extractLsb' 30 2) (w.extractLsb' 19 5) (w.extractLsb' 14 5) (w.extractLsb' 9 5))
  | 19 => reservedClear w 0x3F0001FF 0x00000098 (.maxn (w.extractLsb' 30 2) (w.extractLsb' 19 5) (w.extractLsb' 14 5) (w.extractLsb' 9 5))
  | 20 => reservedClear w 0x3F003FFF 0x000000A0 (.clz (w.extractLsb' 30 2) (w.extractLsb' 19 5) (w.extractLsb' 14 5))
  | 21 => reservedClear w 0x3F003FFF 0x000000A8 (.ctz (w.extractLsb' 30 2) (w.extractLsb' 19 5) (w.extractLsb' 14 5))
  | 22 => reservedClear w 0x3F003FFF 0x000000B0 (.popc (w.extractLsb' 30 2) (w.extractLsb' 19 5) (w.extractLsb' 14 5))
  | 23 => reservedClear w 0x3F0001FF 0x000000B8 (.addw (w.extractLsb' 30 2) (w.extractLsb' 19 5) (w.extractLsb' 14 5) (w.extractLsb' 9 5))
  | 24 => reservedClear w 0x3F0001FF 0x000000C0 (.subw (w.extractLsb' 30 2) (w.extractLsb' 19 5) (w.extractLsb' 14 5) (w.extractLsb' 9 5))
  | _ => .error .badFunction

/-- The guard operations of major 0x04 (R72); fn is bits [8:3]. -/
def decodeGop (w : Code) : Except DecodeError Instr :=
  match (w.extractLsb' 3 6).toNat with
  | 0 => reservedClear w 0x3FE739FF 0x04000000 (.gand (w.extractLsb' 30 2) (w.extractLsb' 19 2) (w.extractLsb' 14 2) (w.extractLsb' 9 2))
  | 1 => reservedClear w 0x3FE739FF 0x04000008 (.gor (w.extractLsb' 30 2) (w.extractLsb' 19 2) (w.extractLsb' 14 2) (w.extractLsb' 9 2))
  | 2 => reservedClear w 0x3FE739FF 0x04000010 (.gxor (w.extractLsb' 30 2) (w.extractLsb' 19 2) (w.extractLsb' 14 2) (w.extractLsb' 9 2))
  | 3 => reservedClear w 0x3FE739FF 0x04000018 (.gandn (w.extractLsb' 30 2) (w.extractLsb' 19 2) (w.extractLsb' 14 2) (w.extractLsb' 9 2))
  | _ => .error .badFunction

/-- The S opcode map (R49 to R51); the major number is OP, bits [29:24] (R47). -/
def decodeS (w : Code) : Except DecodeError Instr :=
  match (w.extractLsb' 24 6).toNat with
  | 0 => decodeAlu w
  | 1 => reservedClear w 0x3F0001F8 0x01000000 (.sel (w.extractLsb' 30 2) (w.extractLsb' 19 5) (w.extractLsb' 14 5) (w.extractLsb' 9 5) (w.extractLsb' 0 3))
  | 2 => reservedClear w 0x3FE00007 0x02000000 (.cmp (w.extractLsb' 30 2) (w.extractLsb' 19 2) (w.extractLsb' 14 5) (w.extractLsb' 9 5) (w.extractLsb' 3 6))
  | 3 => reservedClear w 0x3FE00000 0x03000000 (.cmpi (w.extractLsb' 30 2) (w.extractLsb' 19 2) (w.extractLsb' 14 5) (w.extractLsb' 2 12) (w.extractLsb' 0 2))
  | 4 => decodeGop w
  | 5 => reservedClear w 0x3FFFC000 0x05000000 (.enter (w.extractLsb' 30 2) (w.extractLsb' 0 14))
  | 6 => reservedClear w 0x3FFFFFFF 0x06000000 (.leave (w.extractLsb' 30 2))
  | 8 => reservedClear w 0x3F000003 0x08000000 (.addi (w.extractLsb' 30 2) (w.extractLsb' 19 5) (w.extractLsb' 14 5) (w.extractLsb' 2 12))
  | 9 => reservedClear w 0x3F000003 0x09000000 (.andi (w.extractLsb' 30 2) (w.extractLsb' 19 5) (w.extractLsb' 14 5) (w.extractLsb' 2 12))
  | 10 => reservedClear w 0x3F000003 0x0A000000 (.ori (w.extractLsb' 30 2) (w.extractLsb' 19 5) (w.extractLsb' 14 5) (w.extractLsb' 2 12))
  | 11 => reservedClear w 0x3F000003 0x0B000000 (.xori (w.extractLsb' 30 2) (w.extractLsb' 19 5) (w.extractLsb' 14 5) (w.extractLsb' 2 12))
  | 12 => reservedClear w 0x3F003F03 0x0C000000 (.shli (w.extractLsb' 30 2) (w.extractLsb' 19 5) (w.extractLsb' 14 5) (w.extractLsb' 2 6))
  | 13 => reservedClear w 0x3F003F03 0x0D000000 (.shri (w.extractLsb' 30 2) (w.extractLsb' 19 5) (w.extractLsb' 14 5) (w.extractLsb' 2 6))
  | 14 => reservedClear w 0x3F003F03 0x0E000000 (.srai (w.extractLsb' 30 2) (w.extractLsb' 19 5) (w.extractLsb' 14 5) (w.extractLsb' 2 6))
  | 15 => reservedClear w 0x3F000003 0x0F000000 (.addwi (w.extractLsb' 30 2) (w.extractLsb' 19 5) (w.extractLsb' 14 5) (w.extractLsb' 2 12))
  | 16 => reservedClear w 0x3F000007 0x10000000 (.ld (w.extractLsb' 30 2) (w.extractLsb' 19 5) (w.extractLsb' 14 5) (w.extractLsb' 5 9) (w.extractLsb' 3 2))
  | 17 => reservedClear w 0x3F000007 0x11000000 (.ldn (w.extractLsb' 30 2) (w.extractLsb' 19 5) (w.extractLsb' 14 5) (w.extractLsb' 5 9) (w.extractLsb' 3 2))
  | 18 => reservedClear w 0x3F000000 0x12000000 (.st (w.extractLsb' 30 2) (w.extractLsb' 19 5) (w.extractLsb' 14 5) (w.extractLsb' 5 9) (w.extractLsb' 3 2) (w.extractLsb' 0 3))
  | 19 => reservedClear w 0x3FFFFFFF 0x13000000 (.mark (w.extractLsb' 30 2))
  | 20 => reservedClear w 0x3F000000 0x14000000 (.atm (w.extractLsb' 30 2) (w.extractLsb' 19 5) (w.extractLsb' 14 5) (w.extractLsb' 9 5) (w.extractLsb' 5 4) (w.extractLsb' 3 2) (w.extractLsb' 0 3))
  | 21 => reservedClear w 0x3F0001E0 0x15000000 (.acas (w.extractLsb' 30 2) (w.extractLsb' 19 5) (w.extractLsb' 14 5) (w.extractLsb' 9 5) (w.extractLsb' 3 2) (w.extractLsb' 0 3))
  | 22 => reservedClear w 0x3F07FFFF 0x16000000 (.fence (w.extractLsb' 30 2) (w.extractLsb' 22 2) (w.extractLsb' 19 3))
  | 23 => reservedClear w 0x3F00000F 0x17000000 (.waitc (w.extractLsb' 30 2) (w.extractLsb' 20 4) (w.extractLsb' 16 4) (w.extractLsb' 12 4) (w.extractLsb' 8 4) (w.extractLsb' 4 4))
  | 24 => reservedClear w 0x3F07C000 0x18000000 (.mfs (w.extractLsb' 30 2) (w.extractLsb' 19 5) (w.extractLsb' 0 14))
  | 25 => reservedClear w 0x3FF80000 0x19000000 (.mts (w.extractLsb' 30 2) (w.extractLsb' 14 5) (w.extractLsb' 0 14))
  | 26 => reservedClear w 0x3FFFC000 0x1A000000 (.sysc (w.extractLsb' 30 2) (w.extractLsb' 0 14))
  | 27 => reservedClear w 0x3FFFC000 0x1B000000 (.trap (w.extractLsb' 30 2) (w.extractLsb' 0 14))
  | 28 => reservedClear w 0x3FFFFFFF 0x1C000000 (.brk (w.extractLsb' 30 2))
  | 29 => reservedClear w 0x3FFFFFFF 0x1D000000 (.resume (w.extractLsb' 30 2))
  | 30 => reservedClear w 0x3FFFFFFF 0x1E000000 (.halt (w.extractLsb' 30 2))
  | 31 => reservedClear w 0x3FFFFFF8 0x1F000000 (.endK (w.extractLsb' 30 2) (w.extractLsb' 0 3))
  | 32 => reservedClear w 0x3F000000 0x20000000 (.br (w.extractLsb' 30 2) (w.extractLsb' 21 3) (w.extractLsb' 0 21))
  | 33 => reservedClear w 0x3F000000 0x21000000 (.call (w.extractLsb' 30 2) (w.extractLsb' 21 3) (w.extractLsb' 0 21))
  | 34 => reservedClear w 0x3FF83FF8 0x22000000 (.jr (w.extractLsb' 30 2) (w.extractLsb' 14 5) (w.extractLsb' 0 3))
  | 35 => reservedClear w 0x3FF83FF8 0x23000000 (.callr (w.extractLsb' 30 2) (w.extractLsb' 14 5) (w.extractLsb' 0 3))
  | 36 => reservedClear w 0x3F000000 0x24000000 (.disp (w.extractLsb' 30 2) (w.extractLsb' 22 2) (w.extractLsb' 14 8) (w.extractLsb' 9 5) (w.extractLsb' 4 5) (w.extractLsb' 0 4))
  | 37 => reservedClear w 0x3FF83F00 0x25000000 (.semw (w.extractLsb' 30 2) (w.extractLsb' 14 5) (w.extractLsb' 0 8))
  | 38 =>
    if w.getLsbD 13 then reservedClear w 0x3F003FFF 0x26002000 (.semsAddress (w.extractLsb' 30 2) (w.extractLsb' 19 5) (w.extractLsb' 14 5))
    else reservedClear w 0x3FF83F00 0x26000000 (.sems (w.extractLsb' 30 2) (w.extractLsb' 14 5) (w.extractLsb' 0 8))
  | 39 => reservedClear w 0x3F07FF00 0x27000000 (.semr (w.extractLsb' 30 2) (w.extractLsb' 19 5) (w.extractLsb' 0 8))
  | 40 => reservedClear w 0x3FF83F00 0x28000000 (.semi (w.extractLsb' 30 2) (w.extractLsb' 14 5) (w.extractLsb' 0 8))
  | 41 => reservedClear w 0x3FF83FFF 0x29000000 (.evw (w.extractLsb' 30 2) (w.extractLsb' 14 5))
  | 42 => reservedClear w 0x3FF83FFF 0x2A000000 (.evp (w.extractLsb' 30 2) (w.extractLsb' 14 5))
  | 43 => reservedClear w 0x3FF801FF 0x2B000000 (.eva (w.extractLsb' 30 2) (w.extractLsb' 14 5) (w.extractLsb' 9 5))
  | 44 => reservedClear w 0x3F003FFF 0x2C000000 (.evt (w.extractLsb' 30 2) (w.extractLsb' 19 5) (w.extractLsb' 14 5))
  | 45 => reservedClear w 0x3FF83FFF 0x2D000000 (.qpost (w.extractLsb' 30 2) (w.extractLsb' 14 5))
  | 46 => reservedClear w 0x3F07FFFF 0x2E000000 (.qtake (w.extractLsb' 30 2) (w.extractLsb' 19 5))
  | 47 => reservedClear w 0x3FF83FFF 0x2F000000 (.qdone (w.extractLsb' 30 2) (w.extractLsb' 14 5))
  | 48 => reservedClear w 0x3FF80007 0x30000000 (.lpat (w.extractLsb' 30 2) (w.extractLsb' 14 5) (w.extractLsb' 9 5) (w.extractLsb' 3 6))
  | 49 => reservedClear w 0x3FF83FFF 0x31000000 (.larm (w.extractLsb' 30 2) (w.extractLsb' 14 5))
  | 50 => reservedClear w 0x3F003FFF 0x32000000 (.lwait (w.extractLsb' 30 2) (w.extractLsb' 19 5) (w.extractLsb' 14 5))
  | 51 => reservedClear w 0x3F0001FF 0x33000000 (.talc (w.extractLsb' 30 2) (w.extractLsb' 19 5) (w.extractLsb' 14 5) (w.extractLsb' 9 5))
  | 52 => reservedClear w 0x3FF83FFF 0x34000000 (.tseal (w.extractLsb' 30 2) (w.extractLsb' 14 5))
  | 53 => reservedClear w 0x3FF801FF 0x35000000 (.tdrop (w.extractLsb' 30 2) (w.extractLsb' 14 5) (w.extractLsb' 9 5))
  | 54 => reservedClear w 0x3F003FFF 0x36000000 (.tadr (w.extractLsb' 30 2) (w.extractLsb' 19 5) (w.extractLsb' 14 5))
  | 55 => reservedClear w 0x3F003FFF 0x37000000 (.tcnt (w.extractLsb' 30 2) (w.extractLsb' 19 5) (w.extractLsb' 14 5))
  | 56 => reservedClear w 0x3F043FFF 0x38000000 (.tstat (w.extractLsb' 30 2) (w.extractLsb' 19 5) (w.extractLsb' 14 4))
  | 57 => reservedClear w 0x3F07FFFF 0x39000000 (.ovpop (w.extractLsb' 30 2) (w.extractLsb' 19 5))
  | 58 => reservedClear w 0x3FF83FFF 0x3A000000 (.pwq (w.extractLsb' 30 2) (w.extractLsb' 14 5))
  | 59 => reservedClear w 0x3FFFFFFF 0x3B000000 (.pwrel (w.extractLsb' 30 2))
  | 60 => reservedClear w 0x3E000000 0x3C000000 (.lih (w.extractLsb' 30 2) (w.extractLsb' 20 5) (w.extractLsb' 0 20))
  | 61 => reservedClear w 0x3E000000 0x3C000000 (.lih (w.extractLsb' 30 2) (w.extractLsb' 20 5) (w.extractLsb' 0 20))
  | 62 => reservedClear w 0x3E000000 0x3E000000 (.lihp (w.extractLsb' 30 2) (w.extractLsb' 20 5) (w.extractLsb' 0 20))
  | 63 => reservedClear w 0x3E000000 0x3E000000 (.lihp (w.extractLsb' 30 2) (w.extractLsb' 20 5) (w.extractLsb' 0 20))
  | _ => .error .unallocated

/-- The V opcode map (R55); OP is bits [30:24] (R53). -/
def decodeV (w : Code) : Except DecodeError Instr :=
  match (w.extractLsb' 24 7).toNat with
  | 0 => reservedClear w 0x7F0001FF 0x00000000 (.vadd (w.getLsbD 31) (w.extractLsb' 19 5) (w.extractLsb' 14 5) (w.extractLsb' 9 5))
  | 1 => reservedClear w 0x7F0001FF 0x01000000 (.vsub (w.getLsbD 31) (w.extractLsb' 19 5) (w.extractLsb' 14 5) (w.extractLsb' 9 5))
  | 2 => reservedClear w 0x7F0001FF 0x02000000 (.vmul (w.getLsbD 31) (w.extractLsb' 19 5) (w.extractLsb' 14 5) (w.extractLsb' 9 5))
  | 3 => reservedClear w 0x7F0001FF 0x03000000 (.vmulh (w.getLsbD 31) (w.extractLsb' 19 5) (w.extractLsb' 14 5) (w.extractLsb' 9 5))
  | 4 => reservedClear w 0x7F00000F 0x04000000 (.vfma (w.getLsbD 31) (w.extractLsb' 19 5) (w.extractLsb' 14 5) (w.extractLsb' 9 5) (w.extractLsb' 4 5))
  | 5 => reservedClear w 0x7F00000F 0x05000000 (.vfms (w.getLsbD 31) (w.extractLsb' 19 5) (w.extractLsb' 14 5) (w.extractLsb' 9 5) (w.extractLsb' 4 5))
  | 6 => reservedClear w 0x7F00000F 0x06000000 (.vfnma (w.getLsbD 31) (w.extractLsb' 19 5) (w.extractLsb' 14 5) (w.extractLsb' 9 5) (w.extractLsb' 4 5))
  | 7 => reservedClear w 0x7F0001FF 0x07000000 (.vmin (w.getLsbD 31) (w.extractLsb' 19 5) (w.extractLsb' 14 5) (w.extractLsb' 9 5))
  | 8 => reservedClear w 0x7F0001FF 0x08000000 (.vmax (w.getLsbD 31) (w.extractLsb' 19 5) (w.extractLsb' 14 5) (w.extractLsb' 9 5))
  | 9 => reservedClear w 0x7F003FFF 0x09000000 (.vabs (w.getLsbD 31) (w.extractLsb' 19 5) (w.extractLsb' 14 5))
  | 10 => reservedClear w 0x7F003FFF 0x0A000000 (.vneg (w.getLsbD 31) (w.extractLsb' 19 5) (w.extractLsb' 14 5))
  | 11 => reservedClear w 0x7F0001FF 0x0B000000 (.vadds (w.getLsbD 31) (w.extractLsb' 19 5) (w.extractLsb' 14 5) (w.extractLsb' 9 5))
  | 12 => reservedClear w 0x7F0001FF 0x0C000000 (.vsubs (w.getLsbD 31) (w.extractLsb' 19 5) (w.extractLsb' 14 5) (w.extractLsb' 9 5))
  | 13 => reservedClear w 0x7F0001FF 0x0D000000 (.vavg (w.getLsbD 31) (w.extractLsb' 19 5) (w.extractLsb' 14 5) (w.extractLsb' 9 5))
  | 14 => reservedClear w 0x7F0001FF 0x0E000000 (.vand (w.getLsbD 31) (w.extractLsb' 19 5) (w.extractLsb' 14 5) (w.extractLsb' 9 5))
  | 15 => reservedClear w 0x7F0001FF 0x0F000000 (.vor (w.getLsbD 31) (w.extractLsb' 19 5) (w.extractLsb' 14 5) (w.extractLsb' 9 5))
  | 16 => reservedClear w 0x7F0001FF 0x10000000 (.vxor (w.getLsbD 31) (w.extractLsb' 19 5) (w.extractLsb' 14 5) (w.extractLsb' 9 5))
  | 17 => reservedClear w 0x7F0001FF 0x11000000 (.vandn (w.getLsbD 31) (w.extractLsb' 19 5) (w.extractLsb' 14 5) (w.extractLsb' 9 5))
  | 18 => reservedClear w 0x7F003FFF 0x12000000 (.vnot (w.getLsbD 31) (w.extractLsb' 19 5) (w.extractLsb' 14 5))
  | 19 => reservedClear w 0x7F0001FF 0x13000000 (.vshl (w.getLsbD 31) (w.extractLsb' 19 5) (w.extractLsb' 14 5) (w.extractLsb' 9 5))
  | 20 => reservedClear w 0x7F0001FF 0x14000000 (.vshr (w.getLsbD 31) (w.extractLsb' 19 5) (w.extractLsb' 14 5) (w.extractLsb' 9 5))
  | 21 => reservedClear w 0x7F0001FF 0x15000000 (.vsra (w.getLsbD 31) (w.extractLsb' 19 5) (w.extractLsb' 14 5) (w.extractLsb' 9 5))
  | 22 => reservedClear w 0x7F003FFF 0x16000000 (.vmov (w.getLsbD 31) (w.extractLsb' 19 5) (w.extractLsb' 14 5))
  | 23 => reservedClear w 0x7F0001F8 0x17000000 (.vsel (w.getLsbD 31) (w.extractLsb' 19 5) (w.extractLsb' 14 5) (w.extractLsb' 9 5) (w.extractLsb' 0 3))
  | 24 => reservedClear w 0x7FC001F0 0x18000000 (.vcmp (w.getLsbD 31) (w.extractLsb' 19 3) (w.extractLsb' 14 5) (w.extractLsb' 9 5) (w.extractLsb' 0 4))
  | 25 => reservedClear w 0x7F003FFF 0x19000000 (.vclz (w.getLsbD 31) (w.extractLsb' 19 5) (w.extractLsb' 14 5))
  | 26 => reservedClear w 0x7F003FFF 0x1A000000 (.vpopc (w.getLsbD 31) (w.extractLsb' 19 5) (w.extractLsb' 14 5))
  | 27 => reservedClear w 0x7F0001FF 0x1B000000 (.vcpys (w.getLsbD 31) (w.extractLsb' 19 5) (w.extractLsb' 14 5) (w.extractLsb' 9 5))
  | 32 => reservedClear w 0x7F000000 0x20000000 (.vaddi (w.getLsbD 31) (w.extractLsb' 19 5) (w.extractLsb' 14 5) (w.extractLsb' 0 14))
  | 33 => reservedClear w 0x7F000000 0x21000000 (.vmuli (w.getLsbD 31) (w.extractLsb' 19 5) (w.extractLsb' 14 5) (w.extractLsb' 0 14))
  | 34 => reservedClear w 0x7F000000 0x22000000 (.vandi (w.getLsbD 31) (w.extractLsb' 19 5) (w.extractLsb' 14 5) (w.extractLsb' 0 14))
  | 35 => reservedClear w 0x7F000000 0x23000000 (.vori (w.getLsbD 31) (w.extractLsb' 19 5) (w.extractLsb' 14 5) (w.extractLsb' 0 14))
  | 36 => reservedClear w 0x7F000000 0x24000000 (.vxori (w.getLsbD 31) (w.extractLsb' 19 5) (w.extractLsb' 14 5) (w.extractLsb' 0 14))
  | 37 => reservedClear w 0x7F003FE0 0x25000000 (.vshli (w.getLsbD 31) (w.extractLsb' 19 5) (w.extractLsb' 14 5) (w.extractLsb' 0 5))
  | 38 => reservedClear w 0x7F003FE0 0x26000000 (.vshri (w.getLsbD 31) (w.extractLsb' 19 5) (w.extractLsb' 14 5) (w.extractLsb' 0 5))
  | 39 => reservedClear w 0x7F003FE0 0x27000000 (.vsrai (w.getLsbD 31) (w.extractLsb' 19 5) (w.extractLsb' 14 5) (w.extractLsb' 0 5))
  | 40 => reservedClear w 0x7F07C000 0x28000000 (.vspli (w.getLsbD 31) (w.extractLsb' 19 5) (w.extractLsb' 0 14))
  | 41 => reservedClear w 0x7F07C000 0x29000000 (.viota (w.getLsbD 31) (w.extractLsb' 19 5) (w.extractLsb' 0 14))
  | 42 => reservedClear w 0x7F07FFF8 0x2A000000 (.vsplb (w.getLsbD 31) (w.extractLsb' 19 5) (w.extractLsb' 0 3))
  | 48 => reservedClear w 0x7F003FF0 0x30000000 (.vcvt (w.getLsbD 31) (w.extractLsb' 19 5) (w.extractLsb' 14 5) (w.extractLsb' 0 4))
  | 49 => reservedClear w 0x7F003FFF 0x31000000 (.vwid (w.getLsbD 31) (w.extractLsb' 19 5) (w.extractLsb' 14 5))
  | 50 => reservedClear w 0x7F003FFF 0x32000000 (.vnar (w.getLsbD 31) (w.extractLsb' 19 5) (w.extractLsb' 14 5))
  | 51 => reservedClear w 0x7F0001FF 0x33000000 (.vqnt (w.getLsbD 31) (w.extractLsb' 19 5) (w.extractLsb' 14 5) (w.extractLsb' 9 5))
  | 52 => reservedClear w 0x7F0001FF 0x34000000 (.vdqn (w.getLsbD 31) (w.extractLsb' 19 5) (w.extractLsb' 14 5) (w.extractLsb' 9 5))
  | 53 => reservedClear w 0x7F003FFF 0x35000000 (.vrnd (w.getLsbD 31) (w.extractLsb' 19 5) (w.extractLsb' 14 5))
  | 56 => reservedClear w 0x7F0001FF 0x38000000 (.vperm (w.getLsbD 31) (w.extractLsb' 19 5) (w.extractLsb' 14 5) (w.extractLsb' 9 5))
  | 57 => reservedClear w 0x7F003C00 0x39000000 (.vbcst (w.getLsbD 31) (w.extractLsb' 19 5) (w.extractLsb' 14 5) (w.extractLsb' 0 10))
  | 58 => reservedClear w 0x7F003C00 0x3A000000 (.vslup (w.getLsbD 31) (w.extractLsb' 19 5) (w.extractLsb' 14 5) (w.extractLsb' 0 10))
  | 59 => reservedClear w 0x7F003C00 0x3B000000 (.vsldn (w.getLsbD 31) (w.extractLsb' 19 5) (w.extractLsb' 14 5) (w.extractLsb' 0 10))
  | 60 => reservedClear w 0x7F003FFF 0x3C000000 (.vrev (w.getLsbD 31) (w.extractLsb' 19 5) (w.extractLsb' 14 5))
  | 61 => reservedClear w 0x7F003FFF 0x3D000000 (.vcmpr (w.getLsbD 31) (w.extractLsb' 19 5) (w.extractLsb' 14 5))
  | 62 => reservedClear w 0x7F003FFF 0x3E000000 (.vexpn (w.getLsbD 31) (w.extractLsb' 19 5) (w.extractLsb' 14 5))
  | 63 => reservedClear w 0x7F003FFF 0x3F000000 (.vscan (w.getLsbD 31) (w.extractLsb' 19 5) (w.extractLsb' 14 5))
  | 64 => reservedClear w 0x7F003FFF 0x40000000 (.vrsum (w.getLsbD 31) (w.extractLsb' 19 5) (w.extractLsb' 14 5))
  | 65 => reservedClear w 0x7F003FFF 0x41000000 (.vrmin (w.getLsbD 31) (w.extractLsb' 19 5) (w.extractLsb' 14 5))
  | 66 => reservedClear w 0x7F003FFF 0x42000000 (.vrmax (w.getLsbD 31) (w.extractLsb' 19 5) (w.extractLsb' 14 5))
  | 67 => reservedClear w 0x7F0001FF 0x43000000 (.vdot4 (w.getLsbD 31) (w.extractLsb' 19 5) (w.extractLsb' 14 5) (w.extractLsb' 9 5))
  | 72 => reservedClear w 0x7F003FFF 0x48000000 (.vrcp (w.getLsbD 31) (w.extractLsb' 19 5) (w.extractLsb' 14 5))
  | 73 => reservedClear w 0x7F003FFF 0x49000000 (.vrsq (w.getLsbD 31) (w.extractLsb' 19 5) (w.extractLsb' 14 5))
  | 74 => reservedClear w 0x7F003FFF 0x4A000000 (.vsqrt (w.getLsbD 31) (w.extractLsb' 19 5) (w.extractLsb' 14 5))
  | 75 => reservedClear w 0x7F0001FF 0x4B000000 (.vdivf (w.getLsbD 31) (w.extractLsb' 19 5) (w.extractLsb' 14 5) (w.extractLsb' 9 5))
  | 76 => reservedClear w 0x7F003FFF 0x4C000000 (.vexp2 (w.getLsbD 31) (w.extractLsb' 19 5) (w.extractLsb' 14 5))
  | 77 => reservedClear w 0x7F003FFF 0x4D000000 (.vlog2 (w.getLsbD 31) (w.extractLsb' 19 5) (w.extractLsb' 14 5))
  | 78 => reservedClear w 0x7F003FFF 0x4E000000 (.vsin (w.getLsbD 31) (w.extractLsb' 19 5) (w.extractLsb' 14 5))
  | 79 => reservedClear w 0x7F003FFF 0x4F000000 (.vtanh (w.getLsbD 31) (w.extractLsb' 19 5) (w.extractLsb' 14 5))
  | 80 => reservedClear w 0x7F000000 0x50000000 (.vld (w.getLsbD 31) (w.extractLsb' 19 5) (w.extractLsb' 16 3) (w.extractLsb' 3 13) (w.extractLsb' 0 3))
  | 81 => reservedClear w 0x7F000000 0x51000000 (.vldc (w.getLsbD 31) (w.extractLsb' 19 5) (w.extractLsb' 16 3) (w.extractLsb' 3 13) (w.extractLsb' 0 3))
  | 82 => reservedClear w 0x7F000000 0x52000000 (.vst (w.getLsbD 31) (w.extractLsb' 19 5) (w.extractLsb' 16 3) (w.extractLsb' 3 13) (w.extractLsb' 0 3))
  | 83 => reservedClear w 0x7F000000 0x53000000 (.vldx (w.getLsbD 31) (w.extractLsb' 19 5) (w.extractLsb' 16 3) (w.extractLsb' 11 5) (w.extractLsb' 9 2) (w.extractLsb' 3 6) (w.extractLsb' 0 3))
  | 84 => reservedClear w 0x7F000000 0x54000000 (.vstx (w.getLsbD 31) (w.extractLsb' 19 5) (w.extractLsb' 16 3) (w.extractLsb' 11 5) (w.extractLsb' 9 2) (w.extractLsb' 3 6) (w.extractLsb' 0 3))
  | 85 => reservedClear w 0x7F000000 0x55000000 (.vlds (w.getLsbD 31) (w.extractLsb' 19 5) (w.extractLsb' 16 3) (w.extractLsb' 3 13) (w.extractLsb' 0 3))
  | 86 => reservedClear w 0x7F000000 0x56000000 (.vatm (w.getLsbD 31) (w.extractLsb' 19 5) (w.extractLsb' 16 3) (w.extractLsb' 11 5) (w.extractLsb' 9 2) (w.extractLsb' 3 6) (w.extractLsb' 0 3))
  | 87 => reservedClear w 0x7FFFFFFF 0x57000000 (.vmark (w.getLsbD 31))
  | 88 => reservedClear w 0x7FFFFF00 0x58000000 (.tkw (w.getLsbD 31) (w.extractLsb' 0 8))
  | 96 => reservedClear w 0x7F007FFF 0x60000000 (.kand (w.getLsbD 31) (w.extractLsb' 21 3) (w.extractLsb' 18 3) (w.extractLsb' 15 3))
  | 97 => reservedClear w 0x7F007FFF 0x61000000 (.kor (w.getLsbD 31) (w.extractLsb' 21 3) (w.extractLsb' 18 3) (w.extractLsb' 15 3))
  | 98 => reservedClear w 0x7F007FFF 0x62000000 (.kxor (w.getLsbD 31) (w.extractLsb' 21 3) (w.extractLsb' 18 3) (w.extractLsb' 15 3))
  | 99 => reservedClear w 0x7F007FFF 0x63000000 (.kandn (w.getLsbD 31) (w.extractLsb' 21 3) (w.extractLsb' 18 3) (w.extractLsb' 15 3))
  | 100 => reservedClear w 0x7F03FFFF 0x64000000 (.knot (w.getLsbD 31) (w.extractLsb' 21 3) (w.extractLsb' 18 3))
  | 101 => reservedClear w 0x7F1FFFFF 0x65000000 (.kset (w.getLsbD 31) (w.extractLsb' 21 3))
  | 102 => reservedClear w 0x7F063FFF 0x66000000 (.kpop (w.getLsbD 31) (w.extractLsb' 19 5) (w.extractLsb' 14 3))
  | 103 => reservedClear w 0x7F03FFFF 0x67000000 (.kmov (w.getLsbD 31) (w.extractLsb' 21 3) (w.extractLsb' 18 3))
  | 104 => reservedClear w 0x7F000000 0x68000000 (.vbli (w.getLsbD 31) (w.extractLsb' 21 3) (w.extractLsb' 0 21))
  | 105 => reservedClear w 0x7F000000 0x69000000 (.vbadd (w.getLsbD 31) (w.extractLsb' 21 3) (w.extractLsb' 0 21))
  | 106 => reservedClear w 0x7F1FFFF8 0x6A000000 (.vbmov (w.getLsbD 31) (w.extractLsb' 21 3) (w.extractLsb' 0 3))
  | 107 => reservedClear w 0x7F1FFFFF 0x6B000000 (.vshp (w.getLsbD 31) (w.extractLsb' 21 3))
  | 108 => reservedClear w 0x7F1FFFFF 0x6C000000 (.vshpb (w.getLsbD 31) (w.extractLsb' 21 3))
  | 109 => reservedClear w 0x7F1FFFFF 0x6D000000 (.vflg (w.getLsbD 31) (w.extractLsb' 21 3))
  | 110 => reservedClear w 0x7FFFFFFF 0x6E000000 (.vnop (w.getLsbD 31))
  | 112 => reservedClear w 0x7F0001FF 0x70000000 (.go2d (w.getLsbD 31) (w.extractLsb' 19 5) (w.extractLsb' 14 5) (w.extractLsb' 9 5))
  | 113 => reservedClear w 0x7F0001FF 0x71000000 (.go3d (w.getLsbD 31) (w.extractLsb' 19 5) (w.extractLsb' 14 5) (w.extractLsb' 9 5))
  | 114 => reservedClear w 0x7F0001FF 0x72000000 (.gic (w.getLsbD 31) (w.extractLsb' 19 5) (w.extractLsb' 14 5) (w.extractLsb' 9 5))
  | 115 => reservedClear w 0x7F0001FF 0x73000000 (.gis (w.getLsbD 31) (w.extractLsb' 19 5) (w.extractLsb' 14 5) (w.extractLsb' 9 5))
  | 116 => reservedClear w 0x7F07C1FF 0x74000000 (.gsx (w.getLsbD 31) (w.extractLsb' 19 5) (w.extractLsb' 9 5))
  | _ => .error .unallocated

/-- The M opcode map (R56); OP is bits [30:26]. -/
def decodeM (w : Code) : Except DecodeError Instr :=
  match (w.extractLsb' 26 5).toNat with
  | 0 => reservedClear w 0x7FFFFFFF 0x00000000 (.mnop (w.getLsbD 31))
  | 1 => reservedClear w 0x7CFFFFFF 0x04000000 (.mzro (w.getLsbD 31) (w.extractLsb' 24 2))
  | 2 => reservedClear w 0x7C0001FF 0x08000000 (.mma (w.getLsbD 31) (w.extractLsb' 24 2) (w.extractLsb' 20 4) (w.extractLsb' 16 4) (w.getLsbD 15) (w.getLsbD 14) (w.getLsbD 13) (w.getLsbD 12) (w.extractLsb' 9 3))
  | 3 => reservedClear w 0x7C0F0003 0x0C000000 (.mdrn (w.getLsbD 31) (w.extractLsb' 24 2) (w.extractLsb' 20 4) (w.extractLsb' 12 4) (w.extractLsb' 8 4) (w.extractLsb' 6 2) (w.extractLsb' 2 4))
  | 4 => reservedClear w 0x7C0FFFFF 0x10000000 (.mlda (w.getLsbD 31) (w.extractLsb' 24 2) (w.extractLsb' 20 4))
  | 5 => reservedClear w 0x7C0FFFFF 0x14000000 (.msta (w.getLsbD 31) (w.extractLsb' 24 2) (w.extractLsb' 20 4))
  | 6 => reservedClear w 0x7C003FFF 0x18000000 (.meadd (w.getLsbD 31) (w.extractLsb' 22 4) (w.extractLsb' 18 4) (w.extractLsb' 14 4))
  | 7 => reservedClear w 0x7C000000 0x1C000000 (.meli (w.getLsbD 31) (w.extractLsb' 22 4) (w.extractLsb' 0 22))
  | 8 => reservedClear w 0x7C03FFFF 0x20000000 (.memov (w.getLsbD 31) (w.extractLsb' 22 4) (w.extractLsb' 18 4))
  | 9 => reservedClear w 0x7C0003FF 0x24000000 (.mrep (w.getLsbD 31) (w.extractLsb' 22 4) (w.extractLsb' 10 12))
  | _ => .error .unallocated

/-- The X opcode map (R57); OP is bits [30:26]. -/
def decodeX (w : Code) : Except DecodeError Instr :=
  match (w.extractLsb' 26 5).toNat with
  | 0 => reservedClear w 0x7FFFFFFF 0x00000000 (.xnop (w.getLsbD 31))
  | 1 => reservedClear w 0x7C000FFF 0x04000000 (.xcpy (w.getLsbD 31) (w.extractLsb' 22 4) (w.extractLsb' 18 4) (w.extractLsb' 14 4) (w.getLsbD 13) (w.getLsbD 12))
  | 2 => reservedClear w 0x7C0007FF 0x08000000 (.xten (w.getLsbD 31) (w.extractLsb' 22 4) (w.extractLsb' 18 4) (w.extractLsb' 14 4) (w.extractLsb' 12 2) (w.getLsbD 11))
  | 3 => reservedClear w 0x7C003FFF 0x0C000000 (.xfil (w.getLsbD 31) (w.extractLsb' 22 4) (w.extractLsb' 18 4) (w.extractLsb' 14 4))
  | 4 => reservedClear w 0x7C003FFF 0x10000000 (.xgat (w.getLsbD 31) (w.extractLsb' 22 4) (w.extractLsb' 18 4) (w.extractLsb' 14 4))
  | 5 => reservedClear w 0x7C003FFF 0x14000000 (.xsct (w.getLsbD 31) (w.extractLsb' 22 4) (w.extractLsb' 18 4) (w.extractLsb' 14 4))
  | 6 => reservedClear w 0x7C0007FF 0x18000000 (.xbrd (w.getLsbD 31) (w.extractLsb' 22 4) (w.extractLsb' 18 4) (w.extractLsb' 14 4) (w.extractLsb' 11 3))
  | 7 => reservedClear w 0x7C001FFF 0x1C000000 (.xred (w.getLsbD 31) (w.extractLsb' 22 4) (w.extractLsb' 18 4) (w.extractLsb' 14 4) (w.getLsbD 13))
  | 8 => reservedClear w 0x7C03FFFF 0x20000000 (.xsig (w.getLsbD 31) (w.extractLsb' 22 4) (w.extractLsb' 18 4))
  | 9 => reservedClear w 0x7C3FFFFF 0x24000000 (.xrfl (w.getLsbD 31) (w.extractLsb' 22 4))
  | 10 => reservedClear w 0x7C003FFF 0x28000000 (.xalc (w.getLsbD 31) (w.extractLsb' 22 4) (w.extractLsb' 18 4) (w.extractLsb' 14 4))
  | 11 => reservedClear w 0x7FFFFFFF 0x2C000000 (.xmrk (w.getLsbD 31))
  | 12 => reservedClear w 0x7C003FFF 0x30000000 (.xeadd (w.getLsbD 31) (w.extractLsb' 22 4) (w.extractLsb' 18 4) (w.extractLsb' 14 4))
  | 13 => reservedClear w 0x7C000000 0x34000000 (.xeli (w.getLsbD 31) (w.extractLsb' 22 4) (w.extractLsb' 0 22))
  | 14 => reservedClear w 0x7C03FFFF 0x38000000 (.xemov (w.getLsbD 31) (w.extractLsb' 22 4) (w.extractLsb' 18 4))
  | 15 => reservedClear w 0x7C0003FF 0x3C000000 (.xrep (w.getLsbD 31) (w.extractLsb' 22 4) (w.extractLsb' 10 12))
  | _ => .error .unallocated

/-- The stream whose section holds an instruction's word (R11); none for a device step. -/
inductive Stream where
  | s | v | m | x
  deriving DecidableEq, Repr

/-- The word of an instruction, its fields laid out from bit 31 down as R47 to R57 give them. A device step has no
word: its value here is 0, but for ILLEGAL_S_WORD, which carries the illegal word itself (R44). -/
def encode : Instr → Code
  | .add ctl rd ra rb => ctl ++ 0#6 ++ rd ++ ra ++ rb ++ 0#9
  | .sub ctl rd ra rb => ctl ++ 0#6 ++ rd ++ ra ++ rb ++ 8#9
  | .and ctl rd ra rb => ctl ++ 0#6 ++ rd ++ ra ++ rb ++ 0x10#9
  | .or ctl rd ra rb => ctl ++ 0#6 ++ rd ++ ra ++ rb ++ 0x18#9
  | .xor ctl rd ra rb => ctl ++ 0#6 ++ rd ++ ra ++ rb ++ 0x20#9
  | .andn ctl rd ra rb => ctl ++ 0#6 ++ rd ++ ra ++ rb ++ 0x28#9
  | .shl ctl rd ra rb => ctl ++ 0#6 ++ rd ++ ra ++ rb ++ 0x30#9
  | .shr ctl rd ra rb => ctl ++ 0#6 ++ rd ++ ra ++ rb ++ 0x38#9
  | .sra ctl rd ra rb => ctl ++ 0#6 ++ rd ++ ra ++ rb ++ 0x40#9
  | .mul ctl rd ra rb => ctl ++ 0#6 ++ rd ++ ra ++ rb ++ 0x48#9
  | .mulh ctl rd ra rb => ctl ++ 0#6 ++ rd ++ ra ++ rb ++ 0x50#9
  | .mulhn ctl rd ra rb => ctl ++ 0#6 ++ rd ++ ra ++ rb ++ 0x58#9
  | .div ctl rd ra rb => ctl ++ 0#6 ++ rd ++ ra ++ rb ++ 0x60#9
  | .divn ctl rd ra rb => ctl ++ 0#6 ++ rd ++ ra ++ rb ++ 0x68#9
  | .rem ctl rd ra rb => ctl ++ 0#6 ++ rd ++ ra ++ rb ++ 0x70#9
  | .remn ctl rd ra rb => ctl ++ 0#6 ++ rd ++ ra ++ rb ++ 0x78#9
  | .min ctl rd ra rb => ctl ++ 0#6 ++ rd ++ ra ++ rb ++ 0x80#9
  | .max ctl rd ra rb => ctl ++ 0#6 ++ rd ++ ra ++ rb ++ 0x88#9
  | .minn ctl rd ra rb => ctl ++ 0#6 ++ rd ++ ra ++ rb ++ 0x90#9
  | .maxn ctl rd ra rb => ctl ++ 0#6 ++ rd ++ ra ++ rb ++ 0x98#9
  | .clz ctl rd ra => ctl ++ 0#6 ++ rd ++ ra ++ 0xa0#14
  | .ctz ctl rd ra => ctl ++ 0#6 ++ rd ++ ra ++ 0xa8#14
  | .popc ctl rd ra => ctl ++ 0#6 ++ rd ++ ra ++ 0xb0#14
  | .addw ctl rd ra rb => ctl ++ 0#6 ++ rd ++ ra ++ rb ++ 0xb8#9
  | .subw ctl rd ra rb => ctl ++ 0#6 ++ rd ++ ra ++ rb ++ 0xc0#9
  | .sel ctl rd ra rb g => ctl ++ 1#6 ++ rd ++ ra ++ rb ++ 0#6 ++ g
  | .cmp ctl gd ra rb cond => ctl ++ 0x10#9 ++ gd ++ ra ++ rb ++ cond ++ 0#3
  | .cmpi ctl gd ra imm cond => ctl ++ 0x18#9 ++ gd ++ ra ++ imm ++ cond
  | .gand ctl gd ga gb => ctl ++ 0x20#9 ++ gd ++ 0#3 ++ ga ++ 0#3 ++ gb ++ 0#9
  | .gor ctl gd ga gb => ctl ++ 0x20#9 ++ gd ++ 0#3 ++ ga ++ 0#3 ++ gb ++ 8#9
  | .gxor ctl gd ga gb => ctl ++ 0x20#9 ++ gd ++ 0#3 ++ ga ++ 0#3 ++ gb ++ 0x10#9
  | .gandn ctl gd ga gb => ctl ++ 0x20#9 ++ gd ++ 0#3 ++ ga ++ 0#3 ++ gb ++ 0x18#9
  | .enter ctl num => ctl ++ 0x1400#16 ++ num
  | .leave ctl => ctl ++ 0x6000000#30
  | .addi ctl rd ra imm => ctl ++ 8#6 ++ rd ++ ra ++ imm ++ 0#2
  | .andi ctl rd ra imm => ctl ++ 9#6 ++ rd ++ ra ++ imm ++ 0#2
  | .ori ctl rd ra imm => ctl ++ 0xa#6 ++ rd ++ ra ++ imm ++ 0#2
  | .xori ctl rd ra imm => ctl ++ 0xb#6 ++ rd ++ ra ++ imm ++ 0#2
  | .shli ctl rd ra sh => ctl ++ 0xc#6 ++ rd ++ ra ++ 0#6 ++ sh ++ 0#2
  | .shri ctl rd ra sh => ctl ++ 0xd#6 ++ rd ++ ra ++ 0#6 ++ sh ++ 0#2
  | .srai ctl rd ra sh => ctl ++ 0xe#6 ++ rd ++ ra ++ 0#6 ++ sh ++ 0#2
  | .addwi ctl rd ra imm => ctl ++ 0xf#6 ++ rd ++ ra ++ imm ++ 0#2
  | .ld ctl rd ra imm sz => ctl ++ 0x10#6 ++ rd ++ ra ++ imm ++ sz ++ 0#3
  | .ldn ctl rd ra imm sz => ctl ++ 0x11#6 ++ rd ++ ra ++ imm ++ sz ++ 0#3
  | .st ctl rs ra imm sz g => ctl ++ 0x12#6 ++ rs ++ ra ++ imm ++ sz ++ g
  | .mark ctl => ctl ++ 0x13000000#30
  | .atm ctl rd ra rb op sz g => ctl ++ 0x14#6 ++ rd ++ ra ++ rb ++ op ++ sz ++ g
  | .acas ctl rd ra rb sz g => ctl ++ 0x15#6 ++ rd ++ ra ++ rb ++ 0#4 ++ sz ++ g
  | .fence ctl kind scope => ctl ++ 0x16#6 ++ kind ++ scope ++ 0#19
  | .waitc ctl limL limS limV limM limX => ctl ++ 0x17#6 ++ limL ++ limS ++ limV ++ limM ++ limX ++ 0#4
  | .mfs ctl rd num => ctl ++ 0x18#6 ++ rd ++ 0#5 ++ num
  | .mts ctl ra num => ctl ++ 0x320#11 ++ ra ++ num
  | .sysc ctl num => ctl ++ 0x6800#16 ++ num
  | .trap ctl num => ctl ++ 0x6c00#16 ++ num
  | .brk ctl => ctl ++ 0x1c000000#30
  | .resume ctl => ctl ++ 0x1d000000#30
  | .halt ctl => ctl ++ 0x1e000000#30
  | .endK ctl mask => ctl ++ 0x3e00000#27 ++ mask
  | .br ctl g off => ctl ++ 0x20#6 ++ g ++ off
  | .call ctl g off => ctl ++ 0x21#6 ++ g ++ off
  | .jr ctl ra g => ctl ++ 0x440#11 ++ ra ++ 0#11 ++ g
  | .callr ctl ra g => ctl ++ 0x460#11 ++ ra ++ 0#11 ++ g
  | .disp ctl en blk ra rb ss => ctl ++ 0x24#6 ++ en ++ blk ++ ra ++ rb ++ ss
  | .semw ctl ra num => ctl ++ 0x4a0#11 ++ ra ++ 0#6 ++ num
  | .sems ctl ra num => ctl ++ 0x4c0#11 ++ ra ++ 0#6 ++ num
  | .semsAddress ctl rd ra => ctl ++ 0x26#6 ++ rd ++ ra ++ 0x2000#14
  | .semr ctl rd num => ctl ++ 0x27#6 ++ rd ++ 0#11 ++ num
  | .semi ctl ra num => ctl ++ 0x500#11 ++ ra ++ 0#6 ++ num
  | .evw ctl ra => ctl ++ 0x520#11 ++ ra ++ 0#14
  | .evp ctl ra => ctl ++ 0x540#11 ++ ra ++ 0#14
  | .eva ctl ra rb => ctl ++ 0x560#11 ++ ra ++ rb ++ 0#9
  | .evt ctl rd ra => ctl ++ 0x2c#6 ++ rd ++ ra ++ 0#14
  | .qpost ctl ra => ctl ++ 0x5a0#11 ++ ra ++ 0#14
  | .qtake ctl rd => ctl ++ 0x2e#6 ++ rd ++ 0#19
  | .qdone ctl ra => ctl ++ 0x5e0#11 ++ ra ++ 0#14
  | .lpat ctl ra rb field => ctl ++ 0x600#11 ++ ra ++ rb ++ field ++ 0#3
  | .larm ctl ra => ctl ++ 0x620#11 ++ ra ++ 0#14
  | .lwait ctl rd ra => ctl ++ 0x32#6 ++ rd ++ ra ++ 0#14
  | .talc ctl rd ra rb => ctl ++ 0x33#6 ++ rd ++ ra ++ rb ++ 0#9
  | .tseal ctl ra => ctl ++ 0x680#11 ++ ra ++ 0#14
  | .tdrop ctl ra rb => ctl ++ 0x6a0#11 ++ ra ++ rb ++ 0#9
  | .tadr ctl rd ra => ctl ++ 0x36#6 ++ rd ++ ra ++ 0#14
  | .tcnt ctl rd ra => ctl ++ 0x37#6 ++ rd ++ ra ++ 0#14
  | .tstat ctl rd ts => ctl ++ 0x38#6 ++ rd ++ 0#1 ++ ts ++ 0#14
  | .ovpop ctl rd => ctl ++ 0x39#6 ++ rd ++ 0#19
  | .pwq ctl ra => ctl ++ 0x740#11 ++ ra ++ 0#14
  | .pwrel ctl => ctl ++ 0x3b000000#30
  | .lih ctl rd imm => ctl ++ 0x1e#5 ++ rd ++ imm
  | .lihp ctl rd imm => ctl ++ 0x1f#5 ++ rd ++ imm
  | .vadd e vd va vb => BitVec.ofBool e ++ 0#7 ++ vd ++ va ++ vb ++ 0#9
  | .vsub e vd va vb => BitVec.ofBool e ++ 1#7 ++ vd ++ va ++ vb ++ 0#9
  | .vmul e vd va vb => BitVec.ofBool e ++ 2#7 ++ vd ++ va ++ vb ++ 0#9
  | .vmulh e vd va vb => BitVec.ofBool e ++ 3#7 ++ vd ++ va ++ vb ++ 0#9
  | .vfma e vd va vb vc => BitVec.ofBool e ++ 4#7 ++ vd ++ va ++ vb ++ vc ++ 0#4
  | .vfms e vd va vb vc => BitVec.ofBool e ++ 5#7 ++ vd ++ va ++ vb ++ vc ++ 0#4
  | .vfnma e vd va vb vc => BitVec.ofBool e ++ 6#7 ++ vd ++ va ++ vb ++ vc ++ 0#4
  | .vmin e vd va vb => BitVec.ofBool e ++ 7#7 ++ vd ++ va ++ vb ++ 0#9
  | .vmax e vd va vb => BitVec.ofBool e ++ 8#7 ++ vd ++ va ++ vb ++ 0#9
  | .vabs e vd va => BitVec.ofBool e ++ 9#7 ++ vd ++ va ++ 0#14
  | .vneg e vd va => BitVec.ofBool e ++ 0xa#7 ++ vd ++ va ++ 0#14
  | .vadds e vd va vb => BitVec.ofBool e ++ 0xb#7 ++ vd ++ va ++ vb ++ 0#9
  | .vsubs e vd va vb => BitVec.ofBool e ++ 0xc#7 ++ vd ++ va ++ vb ++ 0#9
  | .vavg e vd va vb => BitVec.ofBool e ++ 0xd#7 ++ vd ++ va ++ vb ++ 0#9
  | .vand e vd va vb => BitVec.ofBool e ++ 0xe#7 ++ vd ++ va ++ vb ++ 0#9
  | .vor e vd va vb => BitVec.ofBool e ++ 0xf#7 ++ vd ++ va ++ vb ++ 0#9
  | .vxor e vd va vb => BitVec.ofBool e ++ 0x10#7 ++ vd ++ va ++ vb ++ 0#9
  | .vandn e vd va vb => BitVec.ofBool e ++ 0x11#7 ++ vd ++ va ++ vb ++ 0#9
  | .vnot e vd va => BitVec.ofBool e ++ 0x12#7 ++ vd ++ va ++ 0#14
  | .vshl e vd va vb => BitVec.ofBool e ++ 0x13#7 ++ vd ++ va ++ vb ++ 0#9
  | .vshr e vd va vb => BitVec.ofBool e ++ 0x14#7 ++ vd ++ va ++ vb ++ 0#9
  | .vsra e vd va vb => BitVec.ofBool e ++ 0x15#7 ++ vd ++ va ++ vb ++ 0#9
  | .vmov e vd va => BitVec.ofBool e ++ 0x16#7 ++ vd ++ va ++ 0#14
  | .vsel e vd va vb kn => BitVec.ofBool e ++ 0x17#7 ++ vd ++ va ++ vb ++ 0#6 ++ kn
  | .vcmp e kd va vb cond => BitVec.ofBool e ++ 0x60#9 ++ kd ++ va ++ vb ++ 0#5 ++ cond
  | .vclz e vd va => BitVec.ofBool e ++ 0x19#7 ++ vd ++ va ++ 0#14
  | .vpopc e vd va => BitVec.ofBool e ++ 0x1a#7 ++ vd ++ va ++ 0#14
  | .vcpys e vd va vb => BitVec.ofBool e ++ 0x1b#7 ++ vd ++ va ++ vb ++ 0#9
  | .vaddi e vd va imm => BitVec.ofBool e ++ 0x20#7 ++ vd ++ va ++ imm
  | .vmuli e vd va imm => BitVec.ofBool e ++ 0x21#7 ++ vd ++ va ++ imm
  | .vandi e vd va imm => BitVec.ofBool e ++ 0x22#7 ++ vd ++ va ++ imm
  | .vori e vd va imm => BitVec.ofBool e ++ 0x23#7 ++ vd ++ va ++ imm
  | .vxori e vd va imm => BitVec.ofBool e ++ 0x24#7 ++ vd ++ va ++ imm
  | .vshli e vd va sh => BitVec.ofBool e ++ 0x25#7 ++ vd ++ va ++ 0#9 ++ sh
  | .vshri e vd va sh => BitVec.ofBool e ++ 0x26#7 ++ vd ++ va ++ 0#9 ++ sh
  | .vsrai e vd va sh => BitVec.ofBool e ++ 0x27#7 ++ vd ++ va ++ 0#9 ++ sh
  | .vspli e vd imm => BitVec.ofBool e ++ 0x28#7 ++ vd ++ 0#5 ++ imm
  | .viota e vd imm => BitVec.ofBool e ++ 0x29#7 ++ vd ++ 0#5 ++ imm
  | .vsplb e vd bn => BitVec.ofBool e ++ 0x2a#7 ++ vd ++ 0#16 ++ bn
  | .vcvt e vd va src => BitVec.ofBool e ++ 0x30#7 ++ vd ++ va ++ 0#10 ++ src
  | .vwid e vd va => BitVec.ofBool e ++ 0x31#7 ++ vd ++ va ++ 0#14
  | .vnar e vd va => BitVec.ofBool e ++ 0x32#7 ++ vd ++ va ++ 0#14
  | .vqnt e vd va vb => BitVec.ofBool e ++ 0x33#7 ++ vd ++ va ++ vb ++ 0#9
  | .vdqn e vd va vb => BitVec.ofBool e ++ 0x34#7 ++ vd ++ va ++ vb ++ 0#9
  | .vrnd e vd va => BitVec.ofBool e ++ 0x35#7 ++ vd ++ va ++ 0#14
  | .vperm e vd va vb => BitVec.ofBool e ++ 0x38#7 ++ vd ++ va ++ vb ++ 0#9
  | .vbcst e vd va lane => BitVec.ofBool e ++ 0x39#7 ++ vd ++ va ++ 0#4 ++ lane
  | .vslup e vd va lane => BitVec.ofBool e ++ 0x3a#7 ++ vd ++ va ++ 0#4 ++ lane
  | .vsldn e vd va lane => BitVec.ofBool e ++ 0x3b#7 ++ vd ++ va ++ 0#4 ++ lane
  | .vrev e vd va => BitVec.ofBool e ++ 0x3c#7 ++ vd ++ va ++ 0#14
  | .vcmpr e vd va => BitVec.ofBool e ++ 0x3d#7 ++ vd ++ va ++ 0#14
  | .vexpn e vd va => BitVec.ofBool e ++ 0x3e#7 ++ vd ++ va ++ 0#14
  | .vscan e vd va => BitVec.ofBool e ++ 0x3f#7 ++ vd ++ va ++ 0#14
  | .vrsum e vd va => BitVec.ofBool e ++ 0x40#7 ++ vd ++ va ++ 0#14
  | .vrmin e vd va => BitVec.ofBool e ++ 0x41#7 ++ vd ++ va ++ 0#14
  | .vrmax e vd va => BitVec.ofBool e ++ 0x42#7 ++ vd ++ va ++ 0#14
  | .vdot4 e vd va vb => BitVec.ofBool e ++ 0x43#7 ++ vd ++ va ++ vb ++ 0#9
  | .vrcp e vd va => BitVec.ofBool e ++ 0x48#7 ++ vd ++ va ++ 0#14
  | .vrsq e vd va => BitVec.ofBool e ++ 0x49#7 ++ vd ++ va ++ 0#14
  | .vsqrt e vd va => BitVec.ofBool e ++ 0x4a#7 ++ vd ++ va ++ 0#14
  | .vdivf e vd va vb => BitVec.ofBool e ++ 0x4b#7 ++ vd ++ va ++ vb ++ 0#9
  | .vexp2 e vd va => BitVec.ofBool e ++ 0x4c#7 ++ vd ++ va ++ 0#14
  | .vlog2 e vd va => BitVec.ofBool e ++ 0x4d#7 ++ vd ++ va ++ 0#14
  | .vsin e vd va => BitVec.ofBool e ++ 0x4e#7 ++ vd ++ va ++ 0#14
  | .vtanh e vd va => BitVec.ofBool e ++ 0x4f#7 ++ vd ++ va ++ 0#14
  | .vld e vd bn off tok => BitVec.ofBool e ++ 0x50#7 ++ vd ++ bn ++ off ++ tok
  | .vldc e vd bn off tok => BitVec.ofBool e ++ 0x51#7 ++ vd ++ bn ++ off ++ tok
  | .vst e vd bn off tok => BitVec.ofBool e ++ 0x52#7 ++ vd ++ bn ++ off ++ tok
  | .vldx e vd bn vi sc z tok => BitVec.ofBool e ++ 0x53#7 ++ vd ++ bn ++ vi ++ sc ++ z ++ tok
  | .vstx e vd bn vi sc z tok => BitVec.ofBool e ++ 0x54#7 ++ vd ++ bn ++ vi ++ sc ++ z ++ tok
  | .vlds e vd bn off tok => BitVec.ofBool e ++ 0x55#7 ++ vd ++ bn ++ off ++ tok
  | .vatm e vd bn vi sc z tok => BitVec.ofBool e ++ 0x56#7 ++ vd ++ bn ++ vi ++ sc ++ z ++ tok
  | .vmark e => BitVec.ofBool e ++ 0x57000000#31
  | .tkw e mask => BitVec.ofBool e ++ 0x580000#23 ++ mask
  | .kand e kd ka kb => BitVec.ofBool e ++ 0x60#7 ++ kd ++ ka ++ kb ++ 0#15
  | .kor e kd ka kb => BitVec.ofBool e ++ 0x61#7 ++ kd ++ ka ++ kb ++ 0#15
  | .kxor e kd ka kb => BitVec.ofBool e ++ 0x62#7 ++ kd ++ ka ++ kb ++ 0#15
  | .kandn e kd ka kb => BitVec.ofBool e ++ 0x63#7 ++ kd ++ ka ++ kb ++ 0#15
  | .knot e kd ka => BitVec.ofBool e ++ 0x64#7 ++ kd ++ ka ++ 0#18
  | .kset e kd => BitVec.ofBool e ++ 0x65#7 ++ kd ++ 0#21
  | .kpop e vd ka => BitVec.ofBool e ++ 0x66#7 ++ vd ++ 0#2 ++ ka ++ 0#14
  | .kmov e kd ka => BitVec.ofBool e ++ 0x67#7 ++ kd ++ ka ++ 0#18
  | .vbli e bn imm => BitVec.ofBool e ++ 0x68#7 ++ bn ++ imm
  | .vbadd e bn imm => BitVec.ofBool e ++ 0x69#7 ++ bn ++ imm
  | .vbmov e vd ba => BitVec.ofBool e ++ 0x6a#7 ++ vd ++ 0#18 ++ ba
  | .vshp e bn => BitVec.ofBool e ++ 0x6b#7 ++ bn ++ 0#21
  | .vshpb e bn => BitVec.ofBool e ++ 0x6c#7 ++ bn ++ 0#21
  | .vflg e bn => BitVec.ofBool e ++ 0x6d#7 ++ bn ++ 0#21
  | .vnop e => BitVec.ofBool e ++ 0x6e000000#31
  | .go2d e vd vq vA => BitVec.ofBool e ++ 0x70#7 ++ vd ++ vq ++ vA ++ 0#9
  | .go3d e vd vq vA => BitVec.ofBool e ++ 0x71#7 ++ vd ++ vq ++ vA ++ 0#9
  | .gic e vd vq vA => BitVec.ofBool e ++ 0x72#7 ++ vd ++ vq ++ vA ++ 0#9
  | .gis e vd vq vA => BitVec.ofBool e ++ 0x73#7 ++ vd ++ vq ++ vA ++ 0#9
  | .gsx e vd vA => BitVec.ofBool e ++ 0x74#7 ++ vd ++ 0#5 ++ vA ++ 0#9
  | .mnop e => BitVec.ofBool e ++ 0#31
  | .mzro e acc => BitVec.ofBool e ++ 1#5 ++ acc ++ 0#24
  | .mma e acc ea eb cna cnb byp ls mc => BitVec.ofBool e ++ 2#5 ++ acc ++ ea ++ eb ++ BitVec.ofBool cna ++ BitVec.ofBool cnb ++ BitVec.ofBool byp ++ BitVec.ofBool ls ++ mc ++ 0#9
  | .mdrn e acc ed dt ts md er => BitVec.ofBool e ++ 3#5 ++ acc ++ ed ++ 0#4 ++ dt ++ ts ++ md ++ er ++ 0#2
  | .mlda e acc ea => BitVec.ofBool e ++ 4#5 ++ acc ++ ea ++ 0#20
  | .msta e acc ea => BitVec.ofBool e ++ 5#5 ++ acc ++ ea ++ 0#20
  | .meadd e ed ea eb => BitVec.ofBool e ++ 6#5 ++ ed ++ ea ++ eb ++ 0#14
  | .meli e ed imm => BitVec.ofBool e ++ 7#5 ++ ed ++ imm
  | .memov e ed ea => BitVec.ofBool e ++ 8#5 ++ ed ++ ea ++ 0#18
  | .mrep e n k => BitVec.ofBool e ++ 9#5 ++ n ++ k ++ 0#10
  | .xnop e => BitVec.ofBool e ++ 0#31
  | .xcpy e ed es en cn cb => BitVec.ofBool e ++ 1#5 ++ ed ++ es ++ en ++ BitVec.ofBool cn ++ BitVec.ofBool cb ++ 0#12
  | .xten e eh ed ec xp dir => BitVec.ofBool e ++ 2#5 ++ eh ++ ed ++ ec ++ xp ++ BitVec.ofBool dir ++ 0#11
  | .xfil e ed ev en => BitVec.ofBool e ++ 3#5 ++ ed ++ ev ++ en ++ 0#14
  | .xgat e ed es ei => BitVec.ofBool e ++ 4#5 ++ ed ++ es ++ ei ++ 0#14
  | .xsct e ed es ei => BitVec.ofBool e ++ 5#5 ++ ed ++ es ++ ei ++ 0#14
  | .xbrd e ed es en mc => BitVec.ofBool e ++ 6#5 ++ ed ++ es ++ en ++ mc ++ 0#11
  | .xred e ed es en ty => BitVec.ofBool e ++ 7#5 ++ ed ++ es ++ en ++ BitVec.ofBool ty ++ 0#13
  | .xsig e ea en => BitVec.ofBool e ++ 8#5 ++ ea ++ en ++ 0#18
  | .xrfl e eh => BitVec.ofBool e ++ 9#5 ++ eh ++ 0#22
  | .xalc e ed ea eb => BitVec.ofBool e ++ 0xa#5 ++ ed ++ ea ++ eb ++ 0#14
  | .xmrk e => BitVec.ofBool e ++ 0x2c000000#31
  | .xeadd e ed ea eb => BitVec.ofBool e ++ 0xc#5 ++ ed ++ ea ++ eb ++ 0#14
  | .xeli e ed imm => BitVec.ofBool e ++ 0xd#5 ++ ed ++ imm
  | .xemov e ed ea => BitVec.ofBool e ++ 0xe#5 ++ ed ++ ea ++ 0#18
  | .xrep e n k => BitVec.ofBool e ++ 0xf#5 ++ n ++ k ++ 0#10
  | .fixedLatencyWriteLands _ _ => 0
  | .sqForcedSwitch _ => 0
  | .scalarLoadComplete _ _ _ => 0
  | .storeQueuePerform _ _ => 0
  | .entryHeadWait _ _ => 0
  | .entryStart _ _ => 0
  | .entryCompletion _ _ => 0
  | .tokenComplete _ _ _ _ => 0
  | .mStepFinish _ _ _ => 0
  | .transferMovePhaseDone _ _ _ _ => 0
  | .consumingCheck _ _ _ _ => 0
  | .consumingCount _ _ _ _ => 0
  | .poolstall _ _ => 0
  | .kernelStart _ => 0
  | .teamEntryGenerate _ _ _ => 0
  | .teamTake _ => 0
  | .launchCompletion _ _ => 0
  | .teamSwap _ => 0
  | .swappedTeamReenter _ _ => 0
  | .stopDelivery _ _ => 0
  | .watchdog _ _ => 0
  | .stopnextRead _ _ => 0
  | .recordReissue _ _ => 0
  | .preempt _ => 0
  | .partitionRestore _ => 0
  | .partitionClear _ => 0
  | .eccUncorrectable _ _ _ => 0
  | .correctedSoftError _ => 0
  | .hostReadErrorCompletion _ _ => 0
  | .hostReadTimeout _ _ => 0
  | .linkReplayFail _ _ => 0
  | .railOvercurrent _ => 0
  | .windowRegisterWrite _ _ _ => 0
  | .windowVregWrite _ _ _ _ => 0
  | .windowTagWrite _ _ _ => 0
  | .semaphoreWindowStore _ _ _ => 0
  | .accumulatorWindowAccess _ _ _ => 0
  | .dbgctlLull _ _ => 0
  | .dbgctlCut _ _ => 0
  | .cutHaltTimeout _ _ => 0
  | .trctlEnable _ _ _ => 0
  | .trctlErrClear _ => 0
  | .counterLatch => 0
  | .collective _ _ _ _ _ => 0
  | .collectiveTimeout => 0
  | .packageReset => 0
  | .bootdbWrite _ => 0
  | .trainingComplete _ => 0
  | .objLoad _ _ _ => 0
  | .objUnload _ _ => 0
  | .lrecGet _ _ _ => 0
  | .lrecArm _ _ => 0
  | .lrecWait _ _ => 0
  | .launchKill _ _ => 0
  | .memMap _ _ _ _ _ => 0
  | .memUnmap _ _ _ => 0
  | .eventReserve _ _ => 0
  | .poolConfig _ _ _ _ => 0
  | .codePatch _ _ _ _ => 0
  | .clockLock _ => 0
  | .countersStart _ _ _ _ => 0
  | .stopHandlerSet _ _ _ => 0
  | .resumeStrand _ _ _ => 0
  | .illegalSWord w => w
  | .illegalEngineWord _ _ => 0
  | .emptySlot _ _ => 0
  | .chargeBucketRefill => 0
  | .lockedClockGrant _ => 0
  | .dieFrequencyChange _ _ => 0
  | .hbmRefresh _ => 0
  | .queuePairError => 0
  | .bar2ImageWrite _ _ => 0
  | .fuseCounterRaise _ => 0

/-- The stream of an instruction (R11). -/
def stream? : Instr → Option Stream
  | .add _ _ _ _ => some .s
  | .sub _ _ _ _ => some .s
  | .and _ _ _ _ => some .s
  | .or _ _ _ _ => some .s
  | .xor _ _ _ _ => some .s
  | .andn _ _ _ _ => some .s
  | .shl _ _ _ _ => some .s
  | .shr _ _ _ _ => some .s
  | .sra _ _ _ _ => some .s
  | .mul _ _ _ _ => some .s
  | .mulh _ _ _ _ => some .s
  | .mulhn _ _ _ _ => some .s
  | .div _ _ _ _ => some .s
  | .divn _ _ _ _ => some .s
  | .rem _ _ _ _ => some .s
  | .remn _ _ _ _ => some .s
  | .min _ _ _ _ => some .s
  | .max _ _ _ _ => some .s
  | .minn _ _ _ _ => some .s
  | .maxn _ _ _ _ => some .s
  | .clz _ _ _ => some .s
  | .ctz _ _ _ => some .s
  | .popc _ _ _ => some .s
  | .addw _ _ _ _ => some .s
  | .subw _ _ _ _ => some .s
  | .sel _ _ _ _ _ => some .s
  | .cmp _ _ _ _ _ => some .s
  | .cmpi _ _ _ _ _ => some .s
  | .gand _ _ _ _ => some .s
  | .gor _ _ _ _ => some .s
  | .gxor _ _ _ _ => some .s
  | .gandn _ _ _ _ => some .s
  | .enter _ _ => some .s
  | .leave _ => some .s
  | .addi _ _ _ _ => some .s
  | .andi _ _ _ _ => some .s
  | .ori _ _ _ _ => some .s
  | .xori _ _ _ _ => some .s
  | .shli _ _ _ _ => some .s
  | .shri _ _ _ _ => some .s
  | .srai _ _ _ _ => some .s
  | .addwi _ _ _ _ => some .s
  | .ld _ _ _ _ _ => some .s
  | .ldn _ _ _ _ _ => some .s
  | .st _ _ _ _ _ _ => some .s
  | .mark _ => some .s
  | .atm _ _ _ _ _ _ _ => some .s
  | .acas _ _ _ _ _ _ => some .s
  | .fence _ _ _ => some .s
  | .waitc _ _ _ _ _ _ => some .s
  | .mfs _ _ _ => some .s
  | .mts _ _ _ => some .s
  | .sysc _ _ => some .s
  | .trap _ _ => some .s
  | .brk _ => some .s
  | .resume _ => some .s
  | .halt _ => some .s
  | .endK _ _ => some .s
  | .br _ _ _ => some .s
  | .call _ _ _ => some .s
  | .jr _ _ _ => some .s
  | .callr _ _ _ => some .s
  | .disp _ _ _ _ _ _ => some .s
  | .semw _ _ _ => some .s
  | .sems _ _ _ => some .s
  | .semsAddress _ _ _ => some .s
  | .semr _ _ _ => some .s
  | .semi _ _ _ => some .s
  | .evw _ _ => some .s
  | .evp _ _ => some .s
  | .eva _ _ _ => some .s
  | .evt _ _ _ => some .s
  | .qpost _ _ => some .s
  | .qtake _ _ => some .s
  | .qdone _ _ => some .s
  | .lpat _ _ _ _ => some .s
  | .larm _ _ => some .s
  | .lwait _ _ _ => some .s
  | .talc _ _ _ _ => some .s
  | .tseal _ _ => some .s
  | .tdrop _ _ _ => some .s
  | .tadr _ _ _ => some .s
  | .tcnt _ _ _ => some .s
  | .tstat _ _ _ => some .s
  | .ovpop _ _ => some .s
  | .pwq _ _ => some .s
  | .pwrel _ => some .s
  | .lih _ _ _ => some .s
  | .lihp _ _ _ => some .s
  | .vadd _ _ _ _ => some .v
  | .vsub _ _ _ _ => some .v
  | .vmul _ _ _ _ => some .v
  | .vmulh _ _ _ _ => some .v
  | .vfma _ _ _ _ _ => some .v
  | .vfms _ _ _ _ _ => some .v
  | .vfnma _ _ _ _ _ => some .v
  | .vmin _ _ _ _ => some .v
  | .vmax _ _ _ _ => some .v
  | .vabs _ _ _ => some .v
  | .vneg _ _ _ => some .v
  | .vadds _ _ _ _ => some .v
  | .vsubs _ _ _ _ => some .v
  | .vavg _ _ _ _ => some .v
  | .vand _ _ _ _ => some .v
  | .vor _ _ _ _ => some .v
  | .vxor _ _ _ _ => some .v
  | .vandn _ _ _ _ => some .v
  | .vnot _ _ _ => some .v
  | .vshl _ _ _ _ => some .v
  | .vshr _ _ _ _ => some .v
  | .vsra _ _ _ _ => some .v
  | .vmov _ _ _ => some .v
  | .vsel _ _ _ _ _ => some .v
  | .vcmp _ _ _ _ _ => some .v
  | .vclz _ _ _ => some .v
  | .vpopc _ _ _ => some .v
  | .vcpys _ _ _ _ => some .v
  | .vaddi _ _ _ _ => some .v
  | .vmuli _ _ _ _ => some .v
  | .vandi _ _ _ _ => some .v
  | .vori _ _ _ _ => some .v
  | .vxori _ _ _ _ => some .v
  | .vshli _ _ _ _ => some .v
  | .vshri _ _ _ _ => some .v
  | .vsrai _ _ _ _ => some .v
  | .vspli _ _ _ => some .v
  | .viota _ _ _ => some .v
  | .vsplb _ _ _ => some .v
  | .vcvt _ _ _ _ => some .v
  | .vwid _ _ _ => some .v
  | .vnar _ _ _ => some .v
  | .vqnt _ _ _ _ => some .v
  | .vdqn _ _ _ _ => some .v
  | .vrnd _ _ _ => some .v
  | .vperm _ _ _ _ => some .v
  | .vbcst _ _ _ _ => some .v
  | .vslup _ _ _ _ => some .v
  | .vsldn _ _ _ _ => some .v
  | .vrev _ _ _ => some .v
  | .vcmpr _ _ _ => some .v
  | .vexpn _ _ _ => some .v
  | .vscan _ _ _ => some .v
  | .vrsum _ _ _ => some .v
  | .vrmin _ _ _ => some .v
  | .vrmax _ _ _ => some .v
  | .vdot4 _ _ _ _ => some .v
  | .vrcp _ _ _ => some .v
  | .vrsq _ _ _ => some .v
  | .vsqrt _ _ _ => some .v
  | .vdivf _ _ _ _ => some .v
  | .vexp2 _ _ _ => some .v
  | .vlog2 _ _ _ => some .v
  | .vsin _ _ _ => some .v
  | .vtanh _ _ _ => some .v
  | .vld _ _ _ _ _ => some .v
  | .vldc _ _ _ _ _ => some .v
  | .vst _ _ _ _ _ => some .v
  | .vldx _ _ _ _ _ _ _ => some .v
  | .vstx _ _ _ _ _ _ _ => some .v
  | .vlds _ _ _ _ _ => some .v
  | .vatm _ _ _ _ _ _ _ => some .v
  | .vmark _ => some .v
  | .tkw _ _ => some .v
  | .kand _ _ _ _ => some .v
  | .kor _ _ _ _ => some .v
  | .kxor _ _ _ _ => some .v
  | .kandn _ _ _ _ => some .v
  | .knot _ _ _ => some .v
  | .kset _ _ => some .v
  | .kpop _ _ _ => some .v
  | .kmov _ _ _ => some .v
  | .vbli _ _ _ => some .v
  | .vbadd _ _ _ => some .v
  | .vbmov _ _ _ => some .v
  | .vshp _ _ => some .v
  | .vshpb _ _ => some .v
  | .vflg _ _ => some .v
  | .vnop _ => some .v
  | .go2d _ _ _ _ => some .v
  | .go3d _ _ _ _ => some .v
  | .gic _ _ _ _ => some .v
  | .gis _ _ _ _ => some .v
  | .gsx _ _ _ => some .v
  | .mnop _ => some .m
  | .mzro _ _ => some .m
  | .mma _ _ _ _ _ _ _ _ _ => some .m
  | .mdrn _ _ _ _ _ _ _ => some .m
  | .mlda _ _ _ => some .m
  | .msta _ _ _ => some .m
  | .meadd _ _ _ _ => some .m
  | .meli _ _ _ => some .m
  | .memov _ _ _ => some .m
  | .mrep _ _ _ => some .m
  | .xnop _ => some .x
  | .xcpy _ _ _ _ _ _ => some .x
  | .xten _ _ _ _ _ _ => some .x
  | .xfil _ _ _ _ => some .x
  | .xgat _ _ _ _ => some .x
  | .xsct _ _ _ _ => some .x
  | .xbrd _ _ _ _ _ => some .x
  | .xred _ _ _ _ _ => some .x
  | .xsig _ _ _ => some .x
  | .xrfl _ _ => some .x
  | .xalc _ _ _ _ => some .x
  | .xmrk _ => some .x
  | .xeadd _ _ _ _ => some .x
  | .xeli _ _ _ => some .x
  | .xemov _ _ _ => some .x
  | .xrep _ _ _ => some .x
  | .fixedLatencyWriteLands _ _ => none
  | .sqForcedSwitch _ => none
  | .scalarLoadComplete _ _ _ => none
  | .storeQueuePerform _ _ => none
  | .entryHeadWait _ _ => none
  | .entryStart _ _ => none
  | .entryCompletion _ _ => none
  | .tokenComplete _ _ _ _ => none
  | .mStepFinish _ _ _ => none
  | .transferMovePhaseDone _ _ _ _ => none
  | .consumingCheck _ _ _ _ => none
  | .consumingCount _ _ _ _ => none
  | .poolstall _ _ => none
  | .kernelStart _ => none
  | .teamEntryGenerate _ _ _ => none
  | .teamTake _ => none
  | .launchCompletion _ _ => none
  | .teamSwap _ => none
  | .swappedTeamReenter _ _ => none
  | .stopDelivery _ _ => none
  | .watchdog _ _ => none
  | .stopnextRead _ _ => none
  | .recordReissue _ _ => none
  | .preempt _ => none
  | .partitionRestore _ => none
  | .partitionClear _ => none
  | .eccUncorrectable _ _ _ => none
  | .correctedSoftError _ => none
  | .hostReadErrorCompletion _ _ => none
  | .hostReadTimeout _ _ => none
  | .linkReplayFail _ _ => none
  | .railOvercurrent _ => none
  | .windowRegisterWrite _ _ _ => none
  | .windowVregWrite _ _ _ _ => none
  | .windowTagWrite _ _ _ => none
  | .semaphoreWindowStore _ _ _ => none
  | .accumulatorWindowAccess _ _ _ => none
  | .dbgctlLull _ _ => none
  | .dbgctlCut _ _ => none
  | .cutHaltTimeout _ _ => none
  | .trctlEnable _ _ _ => none
  | .trctlErrClear _ => none
  | .counterLatch => none
  | .collective _ _ _ _ _ => none
  | .collectiveTimeout => none
  | .packageReset => none
  | .bootdbWrite _ => none
  | .trainingComplete _ => none
  | .objLoad _ _ _ => none
  | .objUnload _ _ => none
  | .lrecGet _ _ _ => none
  | .lrecArm _ _ => none
  | .lrecWait _ _ => none
  | .launchKill _ _ => none
  | .memMap _ _ _ _ _ => none
  | .memUnmap _ _ _ => none
  | .eventReserve _ _ => none
  | .poolConfig _ _ _ _ => none
  | .codePatch _ _ _ _ => none
  | .clockLock _ => none
  | .countersStart _ _ _ _ => none
  | .stopHandlerSet _ _ _ => none
  | .resumeStrand _ _ _ => none
  | .illegalSWord _ => none
  | .illegalEngineWord _ _ => none
  | .emptySlot _ _ => none
  | .chargeBucketRefill => none
  | .lockedClockGrant _ => none
  | .dieFrequencyChange _ _ => none
  | .hbmRefresh _ => none
  | .queuePairError => none
  | .bar2ImageWrite _ _ => none
  | .fuseCounterRaise _ => none

/-- Decode a word fetched from a section of the stream (R42). -/
def decode (st : Stream) (w : Code) : Except DecodeError Instr :=
  match st with
  | .s => decodeS w
  | .v => decodeV w
  | .m => decodeM w
  | .x => decodeX w

/-- The instruction of a word, none where it is illegal in its stream. -/
def decode? (st : Stream) (w : Code) : Option Instr :=
  match decode st w with
  | .ok i => some i
  | .error _ => none

/-- The four bytes of a word as memory holds them, lowest address first (R3, R42). -/
def codeBytes (w : Code) : List Byte :=
  [w.extractLsb' 0 8, w.extractLsb' 8 8, w.extractLsb' 16 8, w.extractLsb' 24 8]

/-- The word that four bytes hold, lowest address first (R3); a missing byte reads 0. -/
def codeOfBytes (bs : List Byte) : Code :=
  bs.getD 3 0 ++ bs.getD 2 0 ++ bs.getD 1 0 ++ bs.getD 0 0

/-- Bits of a word that the opcode table fixes for an instruction. -/
def tableFixed : Instr → Nat := fun i => match i with
  | .lih .. | .lihp .. | .meli .. | .xeli .. => 5
  | .st .. | .atm .. | .br .. | .call .. | .disp .. => 6
  | .vaddi .. | .vmuli .. | .vandi .. | .vori .. | .vxori .. | .vld .. | .vldc .. | .vst .. => 7
  | .vldx .. | .vstx .. | .vlds .. | .vatm .. | .vbli .. | .vbadd .. => 7
  | .addi .. | .andi .. | .ori .. | .xori .. | .addwi .. => 8
  | .cmpi .. | .ld .. | .ldn .. => 9
  | .acas .. | .waitc .. => 10
  | .mfs .. | .mts .. | .vfma .. | .vfms .. | .vfnma .. | .vbcst .. | .vslup .. | .vsldn .. => 11
  | .mdrn .. => 11
  | .sel .. | .cmp .. | .vspli .. | .viota .. => 12
  | .vsel .. => 13
  | .shli .. | .shri .. | .srai .. | .lpat .. | .vcmp .. | .mma .. => 14
  | .add .. | .sub .. | .and .. | .or .. | .xor .. | .andn .. | .shl .. | .shr .. => 15
  | .sra .. | .mul .. | .mulh .. | .mulhn .. | .div .. | .divn .. | .rem .. | .remn .. => 15
  | .min .. | .max .. | .minn .. | .maxn .. | .addw .. | .subw .. | .talc .. | .mrep .. => 15
  | .xrep .. => 15
  | .semw .. | .sems .. | .semr .. | .semi .. | .vcvt .. | .xcpy .. => 17
  | .xred .. => 18
  | .meadd .. | .xfil .. | .xgat .. | .xsct .. | .xalc .. | .xeadd .. => 19
  | .clz .. | .ctz .. | .popc .. | .semsAddress .. | .eva .. | .evt .. | .lwait .. | .tdrop .. => 20
  | .tadr .. | .tcnt .. => 20
  | .tstat .. | .vabs .. | .vneg .. | .vnot .. | .vmov .. | .vclz .. | .vpopc .. | .vwid .. => 21
  | .vnar .. | .vrnd .. | .vrev .. | .vcmpr .. | .vexpn .. | .vscan .. | .vrsum .. | .vrmin .. => 21
  | .vrmax .. | .vrcp .. | .vrsq .. | .vsqrt .. | .vexp2 .. | .vlog2 .. | .vsin .. | .vtanh .. => 21
  | .gsx .. => 21
  | .jr .. | .callr .. | .kand .. | .kor .. | .kxor .. | .kandn .. => 22
  | .vsplb .. | .tkw .. | .kpop .. | .memov .. | .xsig .. | .xemov .. => 23
  | .gand .. | .gor .. | .gxor .. | .gandn .. => 24
  | .fence .. | .evw .. | .evp .. | .qpost .. | .qtake .. | .qdone .. | .larm .. | .tseal .. => 25
  | .ovpop .. | .pwq .. | .knot .. | .kmov .. | .vbmov .. | .mlda .. | .msta .. => 25
  | .endK .. | .xrfl .. => 27
  | .kset .. | .vshp .. | .vshpb .. | .vflg .. => 28
  | .mzro .. => 29
  | .leave .. | .mark .. | .brk .. | .resume .. | .halt .. | .pwrel .. => 30
  | .vmark .. | .vnop .. | .mnop .. | .xnop .. | .xmrk .. => 31
  | _ => 16

/-- The stream in which a table word stands. The table numbers the words of four streams alike and a word does not
name its stream (R42); the model reads it in the stream that accepts it with the most bits fixed, and among equals in the
first of S, V, M and X (log entry 1). -/
def tableStream (w : Code) : Option Stream :=
  ([Stream.s, .v, .m, .x].foldl (fun (b : Option (Stream × Nat)) st =>
    match decode? st w, b with
    | some i, some (st', n) => if n < tableFixed i then some (st, tableFixed i) else some (st', n)
    | some i, none => some (st, tableFixed i)
    | none, _ => b) none).map (·.1)

/-- The instruction the decoder reads from a word numbered as the opcode table numbers it. -/
def decodeTableWord (nbits w : Nat) : Option Instr :=
  let code := codeOfBytes (codeBytes (BitVec.ofNat 32 (w % 2 ^ nbits)))
  match tableStream code with
  | some st => decode? st code
  | none => none

end Sys2Proof
end

