-- ==== Sys2Proof/Config.lean ====
section
/-! DEFINITION. What the package fixes for every program, and the free values: quantities the manual leaves open,
which nothing in the model can evaluate. -/
namespace Sys2Proof.Config

/-- The n-th byte a collective leaves in a destination that status LINK does not define (R355); free (log entry 20). -/
opaque freeByte : Nat → BitVec 8

/-- The value VDOT4 under f32 takes for lane l of its first (side 0) or second (side 1) source, where that register has no
lane l: R164 reads lanes 4j + k of a 16-bit register for j up to 127 and states none past 255. n numbers the draw; free
(log entry 23). -/
opaque freeLane : (n side l : Nat) → BitVec 16

/-- The n-th choice between two outcomes that the manual leaves open for one byte or element of a step: whether a part of a transfer
step meets what another part of it has written (R170, R173, R175), which of two elements at one address stands (R181), whether RESUME sees
an outstanding store (R319) and an early load a cached line (R101), and the choices of log entries 86, 88 and 95; free (log entry 19). -/
opaque freeBit : (n : Nat) → Bool

/-- Which of two writes that were under way together stands in lane l of a vector register (lane 1,024: its tag), and which of an old
and a new value a read of a slipped load's destination returns (R158, R162): the choice of word seq of the V entry that draw numbers;
free (log entry 76). -/
opaque freeLand : (draw seq l : Nat) → Bool

/-- Cores of the package (R9). -/
def coreCount : Nat := 3072

/-- Clusters of the package (R9). -/
def clusterCount : Nat := 384

/-- Base of the window aperture (R20, R80). -/
def windowBase : Nat := 0x1000_0000_0000

/-- Depth of each scalar queue (R92). -/
def scalarQueueDepth : Nat := 16

/-- Depths of VQ, MQ and XQ (R110). -/
def queueDepth : List Nat := [16, 16, 32]

/-- Depth of the two vector queues (R159). -/
def vectorQueueDepth : Nat := 32

/-- Predicate words the ESU accepts (R205). -/
def esuDepth : Nat := 4

/-- Transfer steps in their move phase at once (R167). -/
def moveDepth : Nat := 8

/-- Entries of a queue bank and of its memory ring (R282). -/
def bankDepth : Nat := 512
def ringDepth : Nat := 65536

/-- The swap quantum in ticks (R25). -/
def swapQuantum : Nat := 1_700_000

/-- Ticks before a host read without completion stops (R353). -/
def hostReadTimeout : Nat := 42_500_000

/-- Ticks before a strand that issues no region mark is cut (R331). -/
def cutTimeout : Nat := 8_500_000

/-- COLLTO, the default timeout of a collective in ticks (R335). -/
def collTimeout : Nat := 8_500_000_000

/-- Level of a core without a lease, and the full level, in units of 50 mA (R321). -/
def defaultLevel : Nat := 12
def fullLevel : Nat := 48

/-- Power budget of a die in units of 50 mA (R321). -/
def dieBudget : Nat := 37_500

/-- Bytes of a counter record (R334). -/
def counterRecord : Nat := 24_768

/-- The walkers of a die that are busy in a tick, at most 192 (R90, R334), and the current freed when its clock falls from one frequency
to another (R356), which the manual leaves open; free (log entries 33 and 61). -/
opaque walkersBusy : (tick d : Nat) → Nat
opaque freedCurrent : (old new : Nat) → Nat

end Sys2Proof.Config
end

