-- ==== Sys2Proof/Machine/Map.lean ====
section
/-! DEFINITION. Sparse tables: lists of (index, value) pairs in one canonical form, indexes strictly rising and no
entry equal to what an unlisted index reads as. Memory, scratchpads, semaphores, accumulator cells and the lists of
cores, clusters and partitions are such tables. -/
namespace Sys2Proof.Machine

/-- A sparse table. Every operation takes the value d that an unlisted index reads as. -/
abbrev Sparse (α : Type) := List (Nat × α)

/-- Memory as a table of bytes (Host.Cell). -/
abbrev Mem := List Host.Cell

variable {α : Type}

/-- The value at index k. -/
def Sparse.get (d : α) : Sparse α → Nat → α
  | [], _ => d
  | (k, v) :: m, a => if k = a then v else Sparse.get d m a

/-- The values at indexes a, a + 1, …, a + n − 1. -/
def Sparse.getRange (d : α) (m : Sparse α) (a n : Nat) : List α :=
  let near := m.filter (fun e => a ≤ e.1 && e.1 < a + n)
  (List.range n).map (fun i => Sparse.get d near (a + i))

/-- The entries that a run of values starting at index a needs: those that differ from d. -/
def Sparse.run [DecidableEq α] (d : α) : Nat → List α → Sparse α
  | _, [] => []
  | a, v :: vs => if v = d then Sparse.run d (a + 1) vs else (a, v) :: Sparse.run d (a + 1) vs

/-- Write the values vs at indexes a, a + 1, …; an entry that would equal d is not listed. -/
def Sparse.setRange [DecidableEq α] (d : α) (m : Sparse α) (a : Nat) (vs : List α) : Sparse α :=
  m.filter (fun e => e.1 < a) ++ Sparse.run d a vs ++ m.filter (fun e => a + vs.length ≤ e.1)

/-- Write one value. -/
def Sparse.set [DecidableEq α] (d : α) (m : Sparse α) (a : Nat) (v : α) : Sparse α :=
  Sparse.setRange d m a [v]

/-- Write one value and list it whatever it is: for the tables of cores, clusters and partitions, whose unlisted
entries stand at reset. -/
def Sparse.put (m : Sparse α) (a : Nat) (v : α) : Sparse α :=
  m.filter (fun e => e.1 < a) ++ (a, v) :: m.filter (fun e => a < e.1)

/-- Canonical form: indexes strictly rising, above a bound, and no listed default. -/
def Sparse.wfFrom [DecidableEq α] (d : α) : Nat → Sparse α → Bool
  | _, [] => true
  | lo, (k, v) :: m => lo ≤ k && v ≠ d && Sparse.wfFrom d (k + 1) m

/-- Canonical form of a table. -/
def Sparse.wf [DecidableEq α] (d : α) (m : Sparse α) : Bool := Sparse.wfFrom d 0 m

/-- What a byte of memory that nothing has written reads as (log entry 3, DESIGN CHOICE). -/
def unwritten : Byte := 0

/-- The canonical form of a memory. -/
def Memory.wf (m : Mem) : Bool := Sparse.wf unwritten m

/-- The byte at an address of a memory. -/
def Memory.byte (m : Mem) (a : Nat) : Byte := Sparse.get unwritten m a

/-- n bytes from address a on. -/
def Memory.bytes (m : Mem) (a n : Nat) : List Byte := Sparse.getRange unwritten m a n

/-- Store bytes from address a on. -/
def Memory.store (m : Mem) (a : Nat) (bs : List Byte) : Mem := Sparse.setRange unwritten m a bs

/-- The value that bytes hold, lowest address first (R3). -/
def leValue : List Byte → Nat
  | [] => 0
  | b :: bs => b.toNat + 256 * leValue bs

/-- The n bytes of a value, lowest address first (R3). -/
def leBytes : Nat → Nat → List Byte
  | 0, _ => []
  | n + 1, v => BitVec.ofNat 8 v :: leBytes n (v / 256)

end Sys2Proof.Machine
end

