-- ==== Sys2Proof/Machine/State.lean ====
section
/-! DEFINITION. The state of the machine as plain data: the package, its dies, partitions, clusters, cores, strands
and engines, and the reset state (R351). Every field names the rule that gives it. -/
namespace Sys2Proof.Machine

/-- Why the machine itself stops for good. The FN-D4160 never does: R8 gives every case a result, and every fault of
the manual is a stop of one strand, which is a next state (R296 to R302). -/
inductive Fault where
  /-- Raised by nobody: no step of the model ends in it. It is safe, for a state that is never reached claims nothing. -/
  | machineCheck
  deriving DecidableEq, Repr

/-- Why the model gives an instruction no meaning. -/
inductive Refusal where
  /-- Raised by an arm of exec whose instruction the model does not give a meaning to; it is safe, for nothing is claimed
  of what the instruction would do. -/
  | notModelled (mnemonic : String)
  deriving DecidableEq, Repr

/-- The cause of a stop (R296), with code? none for causes that are never written. -/
inductive Cause where
  | none | illegal | format | pool | poolstall | geom | xlate | align | window | semovf
  | event | power | priv | ecc | trap | brk | sysc | halt | preempt | debug | watchdog
  deriving DecidableEq, Repr

/-- A cause with its subcause and the faulting address (R296, R302 VADDR). -/
structure Trouble where
  cause : Cause
  sub   : BitVec 8 := 0
  addr  : Word := 0
  deriving DecidableEq, Repr

/-- Where a fixed-latency S result goes (R66). -/
inductive Dest where
  | sreg (r : BitVec 5) | guard (g : BitVec 2) | sysreg (n : BitVec 14) (v : Word)
  deriving DecidableEq, Repr

/-- The loads and atomics that an operand of a word was read from while they were outstanding, the one that LINK names first
(R306): the operand, 1 for OPA and 2 for OPB, and the issue number. -/
abbrev Links := List (BitVec 2 × Nat)

/-- A fixed-latency S operation in flight: it lands val at own slot due (R17). The captured operands and the link
serve its record (R304, R306). -/
structure Landing where
  due  : Nat
  dest : Dest
  val  : Word
  op   : Instr
  opa  : Word
  opb  : Word
  links : Links := []
  id   : Nat := 0
  deriving DecidableEq, Repr

/-- A word in a scalar queue (R92): its issue number, the word, the operands it read at issue, and the tick (R353) and the
core slot (R318) of its issue. links names the loads an operand was read from, the operand's number first (R306). -/
structure QItem where
  id   : Nat
  op   : Instr
  opa  : Word
  opb  : Word
  ext  : Word := 0
  links : Links := []
  flt  : Option Trouble := none
  tick : Nat := 0
  slot : Nat := 0
  deriving DecidableEq, Repr

/-- A MARK or FENCE that has not retired (R92, R95, R99), or a semaphore wait that earlier accesses have not performed before
(R103); fired once its acquire half has taken effect (R101). -/
structure FenceItem where
  id : Nat
  op : Instr
  fired : Bool := false
  deriving DecidableEq, Repr

/-- Life of a strand (R64, R123, R124). -/
inductive Life where
  | idle | running | stopped | resuming | ended
  deriving DecidableEq, Repr

/-- The operation a stop was found in (R299). -/
inductive StopAt where
  /-- an S word at its issue; it becomes the last S-op record where rec is set (R300, R301) -/
  | issue (rec : Option Landing)
  /-- a word of a scalar queue, by its issue number -/
  | queue (id : Nat)
  /-- an entry of an engine -/
  | entry (en : Eng)
  /-- the S instruction fetch, PREEMPT, DEBUG or WATCHDOG -/
  | outside
  deriving DecidableEq, Repr

/-- A stop that is not yet delivered (R297 to R300), with the core slot it was found in (R301) and the tick of its cut (R302). -/
structure Stop where
  why  : Trouble
  at_  : StopAt
  tnum : BitVec 14 := 0
  slot : Nat := 0
  tick : Nat := 0
  deriving DecidableEq, Repr

/-- The request a blocked TALC or PWQ has placed (R258, R324), with the operands it read and what it was granted. -/
structure Request where
  talc    : Bool
  opa     : Word := 0
  opb     : Word := 0
  links   : Links := []
  target  : Nat := 0
  part    : Nat := 0
  tick    : Nat := 0
  limit   : Nat := 0
  granted : Option Word := none
  deriving DecidableEq, Repr

/-- What a V word captured at its issue: shape, tags, b-register, source registers and mask (R304, R305). -/
structure Capture where
  shape : BitVec 32
  tagA  : BitVec 4
  tagB  : BitVec 4
  b     : Word
  regs  : List (BitVec 5)
  vals  : List VReg
  kval  : Mask
  dirty : BitVec 16 := 0
  deriving DecidableEq, Repr

/-- A record of the unfinished-operation list as RESUME reads it back from the record area (R303, R304); cap holds the
operands of a V-op record as its resume has read them (R310). -/
structure Rec where
  kind  : BitVec 4
  flt   : Bool
  hw    : Bool
  lop   : BitVec 2
  cause : BitVec 8
  sub   : BitVec 8
  seq   : Nat
  link  : Nat
  word  : BitVec 32
  prog  : BitVec 32
  opa   : Word
  opb   : Word
  ext   : List Byte
  cap   : Option Capture := none
  deriving DecidableEq, Repr

/-- One of the four strands of a core (R12). done: END has issued (R123). since: the acquire of its cluster that its entries come after
(R104, R363). cutDone: the standing cut request has stopped it (R331). issuedAt: the core slot in which the record that its resume has come
to has issued (R310, R318). -/
structure Strand where
  life    : Life := .idle
  pc      : Word := 0
  s       : Vector Word 32 := Vector.replicate 32 0
  g       : BitVec 4 := 0
  v       : Vector VReg 32 := Vector.replicate 32 0
  tag     : Vector (BitVec 4) 32 := Vector.replicate 32 0
  k       : Vector Mask 8 := Vector.replicate 8 0
  vshape  : BitVec 32 := 0
  tok     : Vector Nat 8 := Vector.replicate 8 0
  sync    : Vector Word 16 := Vector.replicate 16 0
  ts      : Vector (BitVec 16) 16 := Vector.replicate 16 0
  slots   : Nat := 0
  owed    : Nat := 0
  flight  : List Landing := []
  loads   : List QItem := []
  stores  : List QItem := []
  fences  : List FenceItem := []
  nextId  : Nat := 0
  cntV    : Nat := 0
  cntM    : Nat := 0
  cntX    : Nat := 0
  wid     : Vector (BitVec 16) 8 := Vector.replicate 8 0
  wext    : Vector (BitVec 17) 8 := Vector.replicate 8 1
  lparam  : Vector Word 8 := Vector.replicate 8 0
  fflags  : BitVec 6 := 0
  limit   : BitVec 32 := 0x0100_0000
  lease   : Nat := 0
  relend  : Nat := 0
  region  : List (BitVec 14) := []
  depth   : Nat := 0
  fifo    : List (BitVec 2) := []
  rstrand : BitVec 4 := 0
  rstat   : BitVec 24 := 0
  lridx   : BitVec 10 := 0
  accmap  : BitVec 12 := 0
  stop    : Option Stop := none
  request : Option Request := none
  area    : Mem := []
  reissue : List Rec := []
  noBrk   : Bool := false
  recv    : Option (BitVec 2) := none
  lastTick : Nat := 0
  done    : Bool := false
  since   : Nat := 0
  cutDone : Bool := false
  issuedAt : Option Nat := none
  deriving DecidableEq, Repr

/-- What a running entry continues with after a resume (R304, R310). -/
structure Resume where
  run   : Bool
  idx   : Nat
  pass  : Nat
  regs  : List Word
  bytes : Nat
  byp   : Option (List Byte) := none
  recs  : List Rec := []
  deriving DecidableEq, Repr

/-- A queue entry (R14, R110, R233): block, parameters, the copied sync slot and tile numbers, the strand and launch
that pushed it, and where its block lies (R343); after: the scalar accesses of its strand issued before this number come before its
own accesses (R104), and since the acquire of its cluster that they come after (R363), none while that is still to be found. -/
structure Entry where
  blk    : BitVec 8
  p0     : Word
  p1     : Word
  sync   : Word
  strand : BitVec 2
  map    : BitVec 12
  launch : BitVec 10
  base   : Word
  words  : Nat
  start  : Nat
  hw     : Bool := false
  after  : Nat := 0
  since  : Option Nat := none
  resume : Option Resume := none
  deriving DecidableEq, Repr

/-- One write of a V word: the selected bits of a register with its new tag, the selected bits of a mask, a
b-register, or vshape. -/
inductive VWrite where
  | vreg (r : BitVec 5) (sel data : VReg) (tag : BitVec 4)
  | mask (k : BitVec 3) (sel data : Mask)
  | breg (b : BitVec 3) (v : Word)
  | shape (v : BitVec 32)
  deriving DecidableEq, Repr

/-- Bits of registers, and whether their tag, that a word of the other kind has written while a fixed-latency word and a load, atomic or
predicate of one destination were both under way: each lane ends as either leaves it (R158, R162). -/
abbrev Over := List (BitVec 5 × VReg × Bool)

/-- A fixed-latency V operation in flight: its data, tag and flags land together at entry slot due (R134); crossed is what token words have
landed in its destination meanwhile. -/
structure VLanding where
  due    : Nat
  seq    : Nat
  op     : Instr
  writes : List VWrite
  flags  : BitVec 6
  cap    : Capture
  crossed : Over := []
  deriving DecidableEq, Repr

/-- A token-completed V word that has not completed (R18, R157): a memory word of VLQ or VSQ or a predicate of the
ESU; lane is the first lane still to perform (R156), held the byte range whose consuming check VLDC has passed (R262), early
what has landed before completion (R18, R158), found the lanes' physical addresses once any lane of a load has been read, lines
the HBM lines it has counted (R91); data the lanes that a load has read (R158, R159, R161), olds the old values of
the lanes VATM has performed (R155), crossed what fixed-latency words have landed in its destination meanwhile. -/
structure VOp where
  seq    : Nat
  op     : Instr
  tok    : BitVec 3
  cap    : Capture
  stride : Word := 0
  lane   : Nat := 0
  flt    : Option Trouble := none
  skipTH : Bool := false
  held   : Option (Nat × Nat) := none
  early  : Early := {}
  found  : Option (List (Nat × Nat)) := none
  lines  : List Nat := []
  tick   : Nat := 0
  data   : List (Nat × Nat) := []
  olds   : List (Nat × Nat) := []
  crossed : Over := []
  deriving DecidableEq, Repr

/-- A slipped load that has started: its word index and the b-registers, index register and mask it read, the lanes it has read and their
physical addresses if it has made its access, its destination, and what has landed there since (R161, R162). -/
structure Slipped where
  idx    : Nat
  b      : Vector Word 8
  vals   : List VReg
  kval   : BitVec 1024 := 0
  dest   : BitVec 5 := 0
  width  : Nat := 32
  data   : Option (List (Nat × Nat)) := none
  found  : Option (List (Nat × Nat)) := none
  crossed : Over := []
  deriving DecidableEq, Repr

/-- A VMARK with earlier memory words of its entry outstanding (R160): its place in issue order, vshape as it issued and its end
bit, for its record (R304). -/
structure VMark where
  seq   : Nat
  shape : BitVec 32 := 0
  last  : Bool := false
  deriving DecidableEq, Repr

/-- The running V entry (R14, R111, R157 to R162); flags are those of its operations that have landed (R129), draw numbers the free
choices of its words. -/
structure VRun where
  entry  : Entry
  b      : Vector Word 8
  idx    : Nat := 0
  ended  : Bool := false
  slot   : Nat := 0
  seq    : Nat := 0
  flight : List VLanding := []
  vlq    : List VOp := []
  vsq    : List VOp := []
  esu    : List VOp := []
  marks  : List VMark := []
  slip   : List Slipped := []
  bytes  : Nat := 0
  flt    : Option Trouble := none
  flags  : BitVec 6 := 0
  draw   : Nat := 0
  deriving DecidableEq, Repr

/-- A repeat under way: n words from index first on, k passes in all (R60). -/
structure Repeat where
  first : Nat
  n     : Nat
  k     : Nat
  deriving DecidableEq, Repr

/-- A step of the ME that has issued and not finished (R235): its tile, the type of an MMA's objects, the physical ranges
it reads (A's object, the requantisation record or MLDA's words; then B's object), those it writes, the window ranges it
consumes, a drain's sequence number, the tick it issued at, and the ME slot of its entry it finishes in at the earliest; the
blocks a drain has converted, in order, and whether one of their overflow events was lost (R248). -/
structure MStep where
  op   : Instr
  tile : BitVec 3
  tag  : Nat := 0
  src  : List (Nat × Nat) := []
  src2 : List (Nat × Nat) := []
  dst  : List (Nat × Nat) := []
  held : List (Nat × Nat) := []
  seq  : BitVec 16 := 0
  issued : Nat := 0
  fin    : Nat := 0
  blocks : Nat := 0
  lost   : Bool := false
  deriving DecidableEq, Repr

/-- The running M entry (R14, R233 to R245); uses lists the tiles its words name (R187); slot counts its ME slots and mmaEnd
holds the slot its last finished MMA ended in (R235). late: its fault was found while its strand was already stopping (R301). -/
structure MRun where
  entry : Entry
  e     : Vector Word 16
  idx   : Nat := 0
  pass  : Nat := 0
  rep   : Option Repeat := none
  ended : Bool := false
  steps : List MStep := []
  byp   : Option (List Byte) := none
  bytes : Nat := 0
  uses  : List Nat := []
  flt   : Option Trouble := none
  slot  : Nat := 0
  mmaEnd : Nat := 0
  late  : Bool := false
  deriving DecidableEq, Repr

/-- A transfer step in its move phase (R167): the physical ranges it reads and writes as its check phase translated them,
XFIL's pattern, the layout record XTEN read with the in-range elements of each dense row (R181) and the physical ranges of
its tensor rows, the window range it consumes (R170), the bytes it counts (R188), and the word index and pass after it
(R171). Of a step that moves in parts (R22, R178): whether its requests have been counted (R91), the source bytes it has read, each
run with its place among them, and which ranges of its output have landed. -/
structure XMove where
  op   : Instr
  src  : List (Nat × Nat) := []
  dst  : List (Nat × Nat) := []
  fill : Word := 0
  desc : List Byte := []
  rows : List (Nat × List (Nat × Nat)) := []
  scl  : List (Nat × Nat) := []
  held : Option (Nat × Nat) := none
  bytes : Nat := 0
  after : Nat × Nat := (0, 0)
  counted : Bool := false
  got   : List (Nat × List Byte) := []
  landed : List (Nat × Nat) := []
  tick  : Nat := 0
  deriving DecidableEq, Repr

/-- The running X entry (R14, R167 to R171); late as in MRun. -/
structure XRun where
  entry : Entry
  e     : Vector Word 16
  idx   : Nat := 0
  pass  : Nat := 0
  rep   : Option Repeat := none
  ended : Bool := false
  moves : List XMove := []
  bytes : Nat := 0
  request : Option Request := none
  flt   : Option Trouble := none
  late  : Bool := false
  deriving DecidableEq, Repr

/-- A wait on a semaphore in the unit's order (R121): a strand's SEMW or the head wait of an engine's queue. -/
inductive Waiter where
  | strand (t : BitVec 2) | head (en : Eng)
  deriving DecidableEq, Repr

/-- n is the count waited for; a SEMW's is what its register holds at its own slot (R117), reg. granted: the unit has subtracted
it, and the word has still to issue. -/
structure SemWait where
  sem : BitVec 8
  who : Waiter
  n   : BitVec 32
  reg : Option (BitVec 5) := none
  granted : Bool := false
  deriving DecidableEq, Repr

/-- An accumulator tile: 4,096 cells of 48 bits in the layout of R222 and 64 f32 scales each way (R233). -/
structure Tile where
  cells : Sparse (BitVec 48) := []
  rows  : Sparse (BitVec 32) := []
  cols  : Sparse (BitVec 32) := []
  deriving DecidableEq, Repr

/-- State of a pool slot (R254, R256). -/
inductive SlotState where
  | free | open_ | sealed
  deriving DecidableEq, Repr

structure Slot where
  st    : SlotState := .free
  gen   : BitVec 9 := 0
  reads : Nat := 0
  pend  : Nat := 0
  owner : BitVec 10 := 0
  tag   : BitVec 4 := 0
  deriving DecidableEq, Repr

/-- An allocation queued on a partition of a pool (R258): its core, its strand or (4) its core's XE, and n. -/
structure Alloc where
  core   : Nat
  unit   : BitVec 3
  n      : Nat
  deriving DecidableEq, Repr

/-- One partition of a core's pool (R251). -/
structure PoolPart where
  sz      : BitVec 4 := 0
  count   : Nat := 0
  shared  : Bool := false
  base    : Nat := 0
  slots   : Sparse Slot := []
  queue   : List Alloc := []
  abandon : BitVec 32 := 0
  deriving DecidableEq, Repr

/-- A core's pool for a launch (R252, R254, R268). -/
structure Pool where
  launch   : BitVec 10
  live     : Bool := true
  parts    : Vector PoolPart 8 := Vector.replicate 8 {}
  deriving DecidableEq, Repr

/-- The team resident on a core (R24, R281). -/
structure Team where
  launch  : BitVec 10
  index   : Nat
  strands : Nat
  started : Bool := false
  masks   : Vector (BitVec 3) 4 := Vector.replicate 4 0
  deriving DecidableEq, Repr

/-- One core (R11, R12, R20). semFar marks the semaphores that have taken a release of die scope or wider (R117, R120); cutAt is the
tick of the latest cut request (R331); blocked says that no strand was eligible in the latest core slot (R334); ovq holds each
event with the arm sequence number of its launch (R248); debit is the core slot of the latest debit and the engine that made it, V before M before X (R323). -/
structure Core where
  strands : Vector Strand 4 := Vector.replicate 4 {}
  cur     : BitVec 2 := 0
  held    : Nat := 0
  switch  : Bool := false
  slotNo  : Nat := 0
  spad    : Mem := []
  sem     : Sparse (BitVec 32) := []
  semFar  : Sparse Bool := []
  waits   : List SemWait := []
  vq      : List Entry := []
  mq      : List Entry := []
  xq      : List Entry := []
  vrun    : Option VRun := none
  mrun    : Option MRun := none
  xrun    : Option XRun := none
  tiles   : Vector Tile 8 := Vector.replicate 8 {}
  ovq     : List (Word × Nat) := []
  drainSeq : BitVec 16 := 0
  pool    : Option Pool := none
  away    : List Pool := []
  balance : Nat := 768
  debit   : Nat × Nat := (0, 0)
  lull    : Bool := false
  cut     : Bool := false
  cutAt   : Nat := 0
  blocked : Bool := false
  brkb    : Vector Word 4 := Vector.replicate 4 0
  trbase  : Word := 0
  tren    : Bool := false
  trerr   : Bool := false
  trhead  : BitVec 32 := 0
  trlog   : BitVec 5 := 0
  team    : Option Team := none
  fenced  : Bool := false
  counters : Vector (BitVec 32) 8 := Vector.replicate 8 0
  deriving DecidableEq, Repr

/-- A core in its reset state (R126, R233, R248, R325). -/
def Core.reset : Core := {}

/-- A swapped team in memory (R292): its strands, entries and pool. -/
structure TeamCtx where
  core : Nat
  team : Team
  saved : Core
  deriving DecidableEq, Repr

/-- An entry of a queue bank (R281 to R283): a team, with its context when it was swapped, or a task with its place in
the order of posts. -/
inductive BankEntry where
  | team (launch : BitVec 10) (prio : BitVec 3) (armseq : Nat) (index : Nat) (ctx : Option TeamCtx)
  | task (prio : BitVec 3) (seq : Nat) (addr : Word) (rec : List Byte)
  deriving DecidableEq, Repr

/-- A store to HBM that has reached its cluster's cache and not yet its home (R101): its bytes, its home stack, and the strand whose
store queue it left, if one did. -/
structure Pending where
  pa    : Nat
  bytes : List Byte
  stack : Nat
  by_   : Option (Nat × BitVec 2) := none
  deriving DecidableEq, Repr

/-- A line that an acquire has dropped from a cluster's cache: which acquire, and what an access that does not come after it may still
return (R101, R363). -/
structure PastLine where
  line  : Nat
  drop  : Nat
  bytes : List Byte
  deriving DecidableEq, Repr

/-- One cluster (R21, R101, R185, R282); pending holds the stores on their way home, the oldest first, and epoch numbers the acquires that
have dropped its cache's lines. -/
structure Cluster where
  part    : Nat := 0
  cache   : Sparse (Option (List Byte)) := []
  epoch   : Nat := 0
  past    : List PastLine := []
  pending : List Pending := []
  layouts : List (Nat × List Byte) := []
  bank    : List BankEntry := []
  ring    : List BankEntry := []
  postSeq : Nat := 0
  fenced  : Bool := false
  deriving DecidableEq, Repr

/-- A lease request at a die's power manager (R324). -/
structure LeaseReq where
  core   : Nat
  strand : BitVec 2
  n      : Nat
  tick   : Nat
  deriving DecidableEq, Repr

/-- One C-die (R91, R321, R326, R334). -/
structure Die where
  lreq    : BitVec 64 := 0
  rreq    : BitVec 64 := 0
  spills  : BitVec 64 := 0
  softErr : BitVec 64 := 0
  walker  : BitVec 64 := 0
  budget  : Nat := Config.dieBudget
  queue   : List LeaseReq := []
  mhz     : Nat := 850
  dropped : BitVec 16 := 0
  deriving DecidableEq, Repr

/-- An event (R288), with the launch whose strand armed it last (R291). -/
structure Event where
  count  : BitVec 32 := 0
  set    : Bool := false
  poison : Bool := false
  armer  : Option (BitVec 10) := none
  deriving DecidableEq, Repr

/-- A launch between its arming and its completion (R280): the next team to emit, the instance fixed for each index of
a bound level, and the CODE, CAUSE and SUB of a kill of it that has begun (R314, R315). -/
structure Launch where
  armseq : Nat
  next   : Nat := 0
  placed : List (List Nat × Nat) := []
  kill   : Option (Nat × Nat × Nat) := none
  deriving DecidableEq, Repr

/-- A stop of an entry that outlived its strand's launch (R364): where its descriptor and records lie in memory, and the strands that
pushed the entries of its records, in their order. -/
structure Orphan where
  launch : BitVec 10
  core   : Nat
  en     : Eng
  addr   : Nat
  owners : List (BitVec 2)
  deriving DecidableEq, Repr

/-- A loaded object (R341): its image, its records and its descriptors. -/
structure Object where
  handle  : Nat
  base    : Nat
  size    : Nat
  records : List (BitVec 10)
  deriving DecidableEq, Repr

/-- One partition (R21). share: in locked-clock mode it has one part in so many of every die's budget (R326). -/
structure Partition where
  lrbase  : Word := 0xFF_F000_0000
  lrphys  : Nat := 0x00F0_0000_0000
  root    : Nat := 0x00E0_0000_0000
  tnext   : Nat := 0x00E0_0000_1000
  tables  : Sparse Word := []
  images  : Nat := 0x4000_0000
  armseq  : Nat := 0
  share   : Nat := 1
  launches : Sparse (Option Launch) := []
  events  : Sparse (Option Event) := []
  nextEvent : Nat := 0
  objects : List Object := []
  nextHandle : Nat := 1
  swapped : List TeamCtx := []
  saved   : List (Nat × Core) := []
  orphans : List Orphan := []
  nextStop : Nat := 0
  deriving DecidableEq, Repr

/-- Bring-up and the management controller (R350, R351), Skyo's next free memory for objects (R341), fuses and loader cache (R341,
R342), the translations of foreign binaries by the digests of these (R344), fenced units (R314). -/
structure Package where
  stage   : BitVec 4 := 0
  err     : BitVec 8 := 0
  size    : BitVec 32 := 0
  bar2    : Mem := []
  rom     : Mem := []
  frames  : Nat := 0x00D0_0000_0000
  svn     : BitVec 32 := 0
  keys    : List (Option (BitVec 384)) := [none, none, none, none]
  digests : List (BitVec 384 × BitVec 32) := []
  translations : List (BitVec 384 × List Byte) := []
  links   : List (Nat × Nat) := []
  channels : List (Nat × Nat) := []
  deriving DecidableEq, Repr

/-- Skyo as the manual meets it: the hart that makes the calls and the result of the last one (R346), and the stops it has received, by
core and strand (R297). -/
structure Skyo where
  caller : BitVec 5 := 0
  a0    : Word := 0
  a1    : Word := 0
  stops : List (Nat × BitVec 2) := []
  deriving DecidableEq, Repr

/-- A copy of a code word in the instruction caches that serve a core (R332, R345): the word at physical address pa as a fetch of the core
finds it while hit is set; before: ICINV has run over it, and launches of a later arm sequence number do not fetch it. -/
structure CodeCopy where
  core   : Nat
  pa     : Nat
  word   : Code
  hit    : Bool
  before : Option Nat := none
  deriving DecidableEq, Repr

/-- The counter ring (R334); last is the tick of the last latch. -/
structure CounterRing where
  on    : Bool := false
  part  : Nat := 0
  addr  : Word := 0
  slots : Nat := 0
  k     : Nat := 10
  next  : Nat := 0
  last  : Option Nat := none
  seqs  : Vector (BitVec 32) 4 := Vector.replicate 4 0
  deriving DecidableEq, Repr

/-- A collective that has not ended (R335, R355): this package stands at place me of a ring of m, its participant is a partition, and it
arrived at tick start; peers holds the ring place, the arrival tick and the buffer of each other package that has arrived, halted and held
the places of those that are halted and that the debugger holds, waited the ticks that count towards COLLTO. -/
structure Collective where
  kind   : CollKind
  part   : Nat
  me     : Nat
  m      : Nat
  src    : BitVec 48
  dst    : BitVec 48
  n      : Nat
  start  : Nat
  peers  : List (Nat × Nat × List Byte) := []
  halted : List Nat := []
  held   : List Nat := []
  waited : Nat := 0
  deriving DecidableEq, Repr

/-- The arrival ticks of the last instance of a collective, by ring place (R335, R356), none for a package that
has not arrived: base and done are the ticks at which the instance
before it and it itself ended, asked says that clocks have been lowered for it. -/
structure Arrivals where
  kind  : CollKind
  part  : Nat
  n     : Nat
  me    : Nat
  ticks : List (Option Nat)
  base  : Nat
  done  : Nat
  asked : Bool := false
  deriving DecidableEq, Repr

/-- A memory access of a hart at a physical address, or a RISC-V fence with its predecessor and successor sets (R105, R352): n bytes, the
operation of an AMO as R96 numbers them, and the .aq and .rl annotations. -/
inductive HartOp where
  | load (pa n : Nat)
  | store (pa n : Nat) (v : Word)
  | amo (pa n op : Nat) (v : Word) (aq rl : Bool)
  | lr (pa n : Nat) (aq rl : Bool)
  | sc (pa n : Nat) (v : Word) (aq rl : Bool)
  | fence (pr pw sr sw : Bool)
  deriving DecidableEq, Repr

/-- The earlier accesses of its hart that an access depends on, by number: in its address, in the value it writes, and through the branch
that led to it (R105). -/
structure HartDeps where
  addr : List Nat := []
  data : List Nat := []
  ctrl : List Nat := []
  deriving DecidableEq, Repr

/-- An access of a hart that has issued and not performed: its number in program order, and what it depends on. -/
structure HartItem where
  id   : Nat
  op   : HartOp
  deps : HartDeps := {}
  deriving DecidableEq, Repr

/-- A hart's reservation of n bytes at pa, which a load-reserved took and no store of another party has met (R105). -/
structure Reserved where
  hart : BitVec 5
  pa   : Nat
  n    : Nat
  deriving DecidableEq, Repr

/-- A hart as the manual meets it (R2, R105): its accesses under way in program order, and what those that performed returned (none: its
own core reports the access). -/
structure Hart where
  items : List HartItem := []
  next  : Nat := 0
  got   : List (Nat × Option Word) := []
  deriving DecidableEq, Repr

/-- What a hart does next (R105, R346). -/
inductive HartAct where
  | issue (op : HartOp) (deps : HartDeps)
  | perform (k : Nat)
  | call
  deriving DecidableEq, Repr

/-- What the chassis host does: a read or write of n bytes of BAR0 (R350), or a byte of host memory stored (R353). -/
inductive HostOp where
  | read (off n : Nat)
  | write (off n : Nat) (v : Word)
  | memory (pa : Nat) (v : Byte)
  deriving DecidableEq, Repr

/-- What Skyo sets (R81, R321, R335), and a translation of a foreign binary that it has made: an ADK container (R344). -/
inductive SkyoOp where
  | memsplit (u : Nat)
  | budget (d : BitVec 2) (n : Nat)
  | translate (adk : List Byte)
  | collto (n : Nat)
  deriving DecidableEq, Repr

/-- The agents of the machine: which of them moves is data of the state (log entry 7). sq, ve, me and xe are the units
of a core; home is the i-th store under way in cluster k reaching its home (R101); code is a fetch of core c from now on finding, or not finding, a cached copy of the word at pa (R332); slip is the VE starting the load at word index j of its block early (R161), with its access when now is set; ev is a device
step. -/
inductive Agent where
  | sq (c : Nat) | ve (c : Nat) | me (c : Nat) | xe (c : Nat)
  | slip (c : Nat) (j : Nat) (now : Bool)
  | home (k : Nat) (i : Nat)
  | hart (h : BitVec 5) (a : HartAct)
  | host (a : HostOp)
  | skyo (a : SkyoOp)
  | code (c pa : Nat) (hit : Bool)
  | ev (i : Instr)
  deriving DecidableEq, Repr

/-- The state of the whole machine. agenda lists which agents move next, first one first; with none listed the SQ of
core focus moves. focus is the core whose word exec runs. freeIx numbers the free values drawn so far. -/
structure State where
  agenda   : List Agent := []
  focus    : Nat := 0
  freeIx   : Nat := 0
  tick     : Nat := 0
  mem      : Mem := []
  cores    : Sparse Core := []
  clusters : Sparse Cluster := []
  dies     : Vector Die 4 := Vector.replicate 4 {}
  parts    : Sparse Partition := []
  memsplit : Nat := 8
  locked   : Bool := false
  ring     : CounterRing := {}
  collto   : Nat := Config.collTimeout
  colls    : List Collective := []
  arrivals : List Arrivals := []
  collStat : BitVec 8 := 0
  pkg      : Package := {}
  skyo     : Skyo := {}
  lastRead : Word := 0
  hostUr   : Bool := false
  harts    : Sparse Hart := []
  resvs    : List Reserved := []
  icache   : List CodeCopy := []
  deriving DecidableEq, Repr

/-- The machine right after package reset (R351): the tick counter 0, every core in its reset state, memory with
nothing listed, the management controller waiting for an image, MEMSPLIT at its default. -/
def State.reset : State := {}

end Sys2Proof.Machine
end

