-- ==== Sys2Proof/Machine/Access.lean ====
section
/-! DEFINITION. Named reads and writes of the state: cores, strands, clusters, dies, partitions, registers, and the
landing of fixed-latency results. -/
namespace Sys2Proof.Machine

/-- Element i of a vector (d past its end), and the vector with element i replaced. -/
def vget {α : Type} {n : Nat} (v : Vector α n) (d : α) (i : Nat) : α := v.getD i d
def vset {α : Type} {n : Nat} (v : Vector α n) (i : Nat) (x : α) : Vector α n := v.setIfInBounds i x

/-- The cluster (0 to 383) and the die of a package-wide core number (R9). -/
def clusterOf (c : Nat) : Nat := c / 8
def dieOf (c : Nat) : Nat := c / 768

def State.core (s : State) (c : Nat) : Core := Sparse.get Core.reset s.cores c
def State.setCore (s : State) (c : Nat) (k : Core) : State := { s with cores := Sparse.put s.cores c k }
def State.onCore (s : State) (c : Nat) (f : Core → Core) : State := s.setCore c (f (s.core c))

def Core.strand (k : Core) (t : BitVec 2) : Strand := vget k.strands {} t.toNat
def Core.setStrand (k : Core) (t : BitVec 2) (x : Strand) : Core := { k with strands := vset k.strands t.toNat x }

def State.strand (s : State) (c : Nat) (t : BitVec 2) : Strand := (s.core c).strand t
def State.setStrand (s : State) (c : Nat) (t : BitVec 2) (x : Strand) : State :=
  s.onCore c (fun k => k.setStrand t x)
def State.onStrand (s : State) (c : Nat) (t : BitVec 2) (f : Strand → Strand) : State :=
  s.setStrand c t (f (s.strand c t))

def State.cluster (s : State) (k : Nat) : Cluster := Sparse.get {} s.clusters k
def State.onCluster (s : State) (k : Nat) (f : Cluster → Cluster) : State :=
  { s with clusters := Sparse.put s.clusters k (f (s.cluster k)) }

def State.part (s : State) (p : Nat) : Partition := Sparse.get {} s.parts p
def State.onPart (s : State) (p : Nat) (f : Partition → Partition) : State :=
  { s with parts := Sparse.put s.parts p (f (s.part p)) }

def State.die (s : State) (d : Nat) : Die := vget s.dies {} d
def State.onDie (s : State) (d : Nat) (f : Die → Die) : State := { s with dies := vset s.dies d (f (s.die d)) }

/-- The partition a core belongs to (R21). -/
def State.partOf (s : State) (c : Nat) : Nat := (s.cluster (clusterOf c)).part

/-- The four strand numbers. -/
def allStrands : List (BitVec 2) := [0, 1, 2, 3]

/-- The listed cores: every other core is in its reset state. -/
def State.coreList (s : State) : List Nat := s.cores.map (·.1)

/-- The listed cores of a partition, and of a die. -/
def State.partCores (s : State) (p : Nat) : List Nat := s.coreList.filter (fun c => s.partOf c = p)
def State.dieCores (s : State) (d : Nat) : List Nat := s.coreList.filter (fun c => dieOf c = d)

/-- The arm sequence number of a launch of core c's partition, 0 for none (R271). -/
def State.armOf (s : State) (c : Nat) (r : BitVec 10) : Nat :=
  match Sparse.get none (s.part (s.partOf c)).launches r.toNat with | some l => l.armseq | none => 0

/-- The window base of a core (R20). -/
def coreWindow (c : Nat) : Nat :=
  Config.windowBase + dieOf c * 2 ^ 32 + (clusterOf c % 96) * 2 ^ 25 + (c % 8) * 2 ^ 22

/-- Bits [47:0] of an address (R80). -/
def addr48 (a : Nat) : Nat := a % 2 ^ 48

/-- A scalar register: s0 reads 0 (R32). -/
def Strand.sreg (x : Strand) (r : BitVec 5) : Word := if r = 0 then 0 else vget x.s 0 r.toNat

/-- Write a scalar register: a write to s0 is discarded (R32, R84). -/
def Strand.setSreg (x : Strand) (r : BitVec 5) (v : Word) : Strand :=
  if r = 0 then x else { x with s := vset x.s r.toNat v }

/-- A guard: g0 is true (R32). -/
def Strand.guardBit (x : Strand) (n : BitVec 2) : Bool := n = 0 || x.g.getLsbD n.toNat

def Strand.setGuard (x : Strand) (n : BitVec 2) (v : Bool) : Strand :=
  if n = 0 then x
  else { x with g := (x.g &&& ~~~((1 : BitVec 4) <<< n.toNat)) ||| ((if v then 1 else 0 : BitVec 4) <<< n.toNat) }

/-- A guard operand: bits [1:0] name the guard, bit [2] negates it (R33). -/
def Strand.guard (x : Strand) (g : BitVec 3) : Bool := x.guardBit (g.setWidth 2) != g.getLsbD 2

/-- A mask register: k0 is all ones (R126). -/
def Strand.kreg (x : Strand) (k : BitVec 3) : Mask := if k = 0 then BitVec.allOnes 1024 else vget x.k 0 k.toNat

def Strand.vreg (x : Strand) (r : BitVec 5) : VReg := vget x.v 0 r.toNat
def Strand.vtag (x : Strand) (r : BitVec 5) : BitVec 4 := vget x.tag 0 r.toNat

/-- The system registers a strand may write with MTS: those of strand scope with an RW field (R76, R77, R255, R308). -/
def strandWritable (n : BitVec 14) : Bool := n = 0x040 || n = 0x101 || n = 0x300

/-- Write the RW fields of a strand-scope system register (R77, R255, R308). -/
def Strand.setSysreg (x : Strand) (n : BitVec 14) (v : Word) : Strand :=
  if n = 0x040 then { x with fflags := v.setWidth 6 }
  else if n = 0x101 then { x with rstrand := v.setWidth 4 }
  else if n = 0x300 then { x with limit := v.setWidth 32 }
  else x

/-- Write a result to its destination (R66). -/
def Strand.write (x : Strand) (d : Dest) (v : Word) : Strand :=
  match d with
  | .sreg r => x.setSreg r v
  | .guard g => x.setGuard g (v.getLsbD 0)
  | .sysreg n w => x.setSysreg n w

/-- Land a list of results in their issue order: of two that write one destination the later issued stands (R17). -/
def Strand.landList (x : Strand) (l : List Landing) : Strand :=
  l.foldl (fun y w => y.write w.dest w.val) x

/-- Every write due by the strand's own slot lands (R17, R66). -/
def Strand.landDue (x : Strand) : Strand :=
  { x.landList (x.flight.filter (fun w => w.due ≤ x.slots)) with
    flight := x.flight.filter (fun w => x.slots < w.due) }

/-- Insert into a list sorted by a key, behind equal keys; sort by a key, equal keys in their order. -/
def insertBy {α : Type} (f : α → Nat) (x : α) : List α → List α
  | [] => [x]
  | y :: ys => if f x < f y then x :: y :: ys else y :: insertBy f x ys

def sortBy {α : Type} (f : α → Nat) (l : List α) : List α := l.foldl (fun r x => insertBy f x r) []

/-- Every write still in flight lands (R66: END, HALT), in landing order. -/
def Strand.landAll (x : Strand) : Strand :=
  { x.landList (sortBy (·.due) x.flight) with flight := [] }

/-- Is the word one that counts in the l counter while in the store queue (R92)? -/
def isAtomic : Instr → Bool
  | .atm .. => true
  | .acas .. => true
  | _ => false

/-- Entries of strand t that Skyo keeps for an engine of core c after their stop, those of launch r apart (R114, R364): they have not
retired. -/
def State.kept (s : State) (c : Nat) (en : Eng) (t : BitVec 2) (r : Option (BitVec 10)) : Nat :=
  (((s.part (s.partOf c)).orphans.filter (fun o => o.core = c && o.en = en && r ≠ some o.launch)).map (fun o => o.owners.count t)).sum

/-- The l counter, and what the store queue adds to the s counter (R92). -/
def Strand.cntL (x : Strand) : Nat := x.loads.length + (x.stores.filter (fun q => isAtomic q.op)).length
def Strand.cntS (x : Strand) : Nat := x.stores.length

/-- A strand's stores that have left its queue and not reached their homes: they still count in its s counter (R92, R101). -/
def State.homing (s : State) (c : Nat) (t : BitVec 2) : Nat :=
  ((s.cluster (clusterOf c)).pending.filter (fun p => p.by_ = some (c, t))).length

/-- The s counter (R92). -/
def State.cntS (s : State) (c : Nat) (t : BitVec 2) : Nat := (s.strand c t).cntS + s.homing c t

/-- The counter of an engine (R114). -/
def Strand.cnt (x : Strand) (en : Eng) : Nat :=
  match en with | .v => x.cntV | .m => x.cntM | .x => x.cntX

def Strand.addCnt (x : Strand) (en : Eng) (f : Nat → Nat) : Strand :=
  match en with
  | .v => { x with cntV := f x.cntV }
  | .m => { x with cntM := f x.cntM }
  | .x => { x with cntX := f x.cntX }

/-- The queue of an engine (R14). -/
def Core.queue (k : Core) (en : Eng) : List Entry := match en with | .v => k.vq | .m => k.mq | .x => k.xq
def Core.setQueue (k : Core) (en : Eng) (q : List Entry) : Core :=
  match en with
  | .v => { k with vq := q }
  | .m => { k with mq := q }
  | .x => { k with xq := q }

/-- Is an entry of the engine running? It stands at the head of its queue until it retires (R111). -/
def Core.running (k : Core) (en : Eng) : Bool :=
  match en with | .v => k.vrun.isSome | .m => k.mrun.isSome | .x => k.xrun.isSome

/-- The engine that the field en of DISP names (R110). -/
def engOf (b : BitVec 2) : Eng := if b = 0 then .v else if b = 1 then .m else .x

/-- Depth of an engine's queue (R110). -/
def engDepth (en : Eng) : Nat := match en with | .v => 16 | .m => 16 | .x => 32

/-- A strand other than idle whose kernel has not ended belongs to the resident team's launch (R24). -/
def State.launchOf (s : State) (c : Nat) : Option (BitVec 10) := (s.core c).team.map (·.launch)

/-- Does the strand run a kernel of this launch now (R364)? -/
def State.runs (s : State) (c : Nat) (t : BitVec 2) (l : BitVec 10) : Bool :=
  let k := s.core c
  s.launchOf c = some l && (match (k.strand t).life with
    | .running => true | .stopped => true | .resuming => true | .idle => false | .ended => false)

/-- The core scope distances (R120): 1 core, 2 cluster, 3 die, 4 device. -/
def distance (c d : Nat) : Nat :=
  if c = d then 1 else if clusterOf c = clusterOf d then 2 else if dieOf c = dieOf d then 3 else 4

/-- A cluster's cache drops its lines (R101); an entry that does not come after that may still meet them (R104, R363). -/
def Cluster.dropLines (k : Cluster) : Cluster :=
  { k with cache := [], epoch := k.epoch + 1
           past := k.past ++ k.cache.filterMap (fun e => e.2.map (fun l => { line := e.1, drop := k.epoch, bytes := l })) }

/-- An acquire by a party of a core: at die scope or wider it drops the lines of its cluster's cache (R101). -/
def State.acquire (s : State) (c scope : Nat) : State := if 3 ≤ scope then s.onCluster (clusterOf c) Cluster.dropLines else s

/-- The strands and entries of a core come after every acquire that its cluster has made. -/
def Core.upToDate (k : Core) (epoch : Nat) : Core :=
  let e (l : List Entry) : List Entry := l.map (fun e => { e with since := some epoch })
  { k with
    strands := k.strands.map (fun x => { x with since := epoch }), vq := e k.vq, mq := e k.mq, xq := e k.xq
    vrun := k.vrun.map (fun r => { r with entry := { r.entry with since := some epoch } })
    mrun := k.mrun.map (fun r => { r with entry := { r.entry with since := some epoch } })
    xrun := k.xrun.map (fun r => { r with entry := { r.entry with since := some epoch } }) }

/-- What stands on a core has come from elsewhere: what it has seen there it sees here too (R103, R312). -/
def State.moveIn (s : State) (c : Nat) (moved : Bool) : State :=
  if moved then
    let s := s.acquire c 4
    s.onCore c (fun k => k.upToDate (s.cluster (clusterOf c)).epoch)
  else s

-- Semaphores

def Core.semCount (k : Core) (m : Nat) : BitVec 32 := Sparse.get 0 k.sem m
def Core.setSem (k : Core) (m : Nat) (v : BitVec 32) : Core := { k with sem := Sparse.set 0 k.sem m v }

/-- The count a wait waits for now (R117). -/
def Core.waitCount (k : Core) (w : SemWait) : BitVec 32 :=
  match w.who, w.reg with
  | .strand t, some r => ((k.strand t).landDue.sreg r).setWidth 32
  | _, _ => w.n

def Core.dropWait (k : Core) (who : Waiter) : Core := { k with waits := k.waits.filter (fun x => x.who ≠ who) }

/-- A wait is granted (R111, R117): the head entry of a queue has its wait taken, and a SEMW issues next. -/
def Core.grantWait (k : Core) (w : SemWait) : Core :=
  match w.who with
  | .strand _ => { k with waits := k.waits.map (fun x => if x.who = w.who then { x with granted := true } else x) }
  | .head en => (match k.queue en with
      | e :: rest => k.setQueue en ({ e with hw := true } :: rest)
      | [] => k).dropWait w.who

/-- Grant the waits of a core in the order of arrival, each time from the first, until none holds (R121); fuel bounds them. DESIGN
CHOICE: a grant takes its counts at once, and a granted SEMW issues in a later slot without a new test (log entry 104). -/
def wakeWaits : Nat → Core → Core
  | 0, k => k
  | fuel + 1, k =>
    match k.waits.find? (fun w => !w.granted && k.waitCount w ≤ k.semCount w.sem.toNat) with
    | none => k
    | some w => wakeWaits fuel ((k.setSem w.sem.toNat (k.semCount w.sem.toNat - k.waitCount w)).grantWait w)

/-- What the semaphore unit does on a change of a count (R121). -/
def Core.wake (k : Core) : Core := wakeWaits k.waits.length k

/-- Clamp to a bit-vector's unsigned range when counting. -/
def satAdd32 (a b : Nat) : BitVec 32 := BitVec.ofNat 32 (min (2 ^ 32 - 1) (a + b))

end Sys2Proof.Machine
end

