-- ==== Sys2Proof/Machine/Operands.lean ====
section
/-! DEFINITION. Operand forms of the S stream: the arithmetic of each word as a function of its operands (R68 to R73),
latencies (R66), and the operands a word's record holds (R304). -/
namespace Sys2Proof.Machine

def allOnes64 : Word := 0xFFFF_FFFF_FFFF_FFFF
def minInt64 : Word := 0x8000_0000_0000_0000

/-- Multiply, high halves (R68). -/
def mulHigh (a b : Word) : Word := BitVec.ofInt 64 (a.toInt * b.toInt / 2 ^ 64)
def mulHighN (a b : Word) : Word := BitVec.ofNat 64 (a.toNat * b.toNat / 2 ^ 64)

/-- Signed and unsigned division (R68, DIV, DIVN, REM, REMN). -/
def divS (a b : Word) : Word :=
  if b = 0 then allOnes64
  else if a = minInt64 ∧ b = allOnes64 then minInt64
  else BitVec.ofInt 64 (Int.tdiv a.toInt b.toInt)

def divU (a b : Word) : Word := if b = 0 then allOnes64 else BitVec.ofNat 64 (a.toNat / b.toNat)

def remS (a b : Word) : Word :=
  if b = 0 then a
  else if a = minInt64 ∧ b = allOnes64 then 0
  else BitVec.ofInt 64 (Int.tmod a.toInt b.toInt)

def remU (a b : Word) : Word := if b = 0 then a else BitVec.ofNat 64 (a.toNat % b.toNat)

/-- Minima and maxima (R68). -/
def minS (a b : Word) : Word := if b.slt a then b else a
def maxS (a b : Word) : Word := if a.slt b then b else a
def minU (a b : Word) : Word := if b.ult a then b else a
def maxU (a b : Word) : Word := if a.ult b then b else a

/-- Bit counts (R68, CLZ, CTZ, POPC); w bits. -/
def clzNat (w n : Nat) : Nat := if n = 0 then w else w - 1 - Nat.log2 n
def ctzNat (w n : Nat) : Nat := ((List.range w).find? (fun i => n.testBit i)).getD w
def popNat (w n : Nat) : Nat := ((List.range w).filter (fun i => n.testBit i)).length

/-- The low 32 bits, sign-extended (R68, R69, R70). -/
def sext32 (a : Word) : Word := (a.setWidth 32).signExtend 64

/-- Shifts by a count of 0 to 63 (R68, R69). -/
def shlW (a : Word) (n : Nat) : Word := a <<< n
def shrW (a : Word) (n : Nat) : Word := a >>> n
def sraW (a : Word) (n : Nat) : Word := a.sshiftRight n

/-- The comparison codes of CMP and CMPI (R71). -/
def compare (code : Nat) (a b : Word) : Bool :=
  match code with
  | 0 => a = b
  | 1 => a ≠ b
  | 2 => a.slt b
  | 3 => !a.slt b
  | 4 => a.ult b
  | _ => !a.ult b

def boolWord (b : Bool) : Word := if b then 1 else 0

/-- Effective addresses (R93, R94): base plus the scaled offset. -/
def effAddr (base : Word) (imm : BitVec 9) (sz : BitVec 2) : Word := base + (imm.signExtend 64 <<< sz.toNat)

/-- The destination and the value of a fixed-latency S word, from the two operands its record holds (R304): s[ra] and
s[rb], or the result itself in the first for the words R304 names. none for the other words. -/
def fixedResult (i : Instr) (a b : Word) : Option (Dest × Word) :=
  match i with
  | .add _ rd _ _ => some (.sreg rd, a + b)
  | .sub _ rd _ _ => some (.sreg rd, a - b)
  | .and _ rd _ _ => some (.sreg rd, a &&& b)
  | .or _ rd _ _ => some (.sreg rd, a ||| b)
  | .xor _ rd _ _ => some (.sreg rd, a ^^^ b)
  | .andn _ rd _ _ => some (.sreg rd, a &&& ~~~b)
  | .shl _ rd _ _ => some (.sreg rd, shlW a (b.toNat % 64))
  | .shr _ rd _ _ => some (.sreg rd, shrW a (b.toNat % 64))
  | .sra _ rd _ _ => some (.sreg rd, sraW a (b.toNat % 64))
  | .mul _ rd _ _ => some (.sreg rd, a * b)
  | .mulh _ rd _ _ => some (.sreg rd, mulHigh a b)
  | .mulhn _ rd _ _ => some (.sreg rd, mulHighN a b)
  | .div _ rd _ _ => some (.sreg rd, divS a b)
  | .divn _ rd _ _ => some (.sreg rd, divU a b)
  | .rem _ rd _ _ => some (.sreg rd, remS a b)
  | .remn _ rd _ _ => some (.sreg rd, remU a b)
  | .min _ rd _ _ => some (.sreg rd, minS a b)
  | .max _ rd _ _ => some (.sreg rd, maxS a b)
  | .minn _ rd _ _ => some (.sreg rd, minU a b)
  | .maxn _ rd _ _ => some (.sreg rd, maxU a b)
  | .clz _ rd _ => some (.sreg rd, BitVec.ofNat 64 (clzNat 64 a.toNat))
  | .ctz _ rd _ => some (.sreg rd, BitVec.ofNat 64 (ctzNat 64 a.toNat))
  | .popc _ rd _ => some (.sreg rd, BitVec.ofNat 64 (popNat 64 a.toNat))
  | .addw _ rd _ _ => some (.sreg rd, sext32 (a + b))
  | .subw _ rd _ _ => some (.sreg rd, sext32 (a - b))
  | .addi _ rd _ imm => some (.sreg rd, a + imm.signExtend 64)
  | .andi _ rd _ imm => some (.sreg rd, a &&& imm.signExtend 64)
  | .ori _ rd _ imm => some (.sreg rd, a ||| imm.signExtend 64)
  | .xori _ rd _ imm => some (.sreg rd, a ^^^ imm.signExtend 64)
  | .shli _ rd _ sh => some (.sreg rd, shlW a sh.toNat)
  | .shri _ rd _ sh => some (.sreg rd, shrW a sh.toNat)
  | .srai _ rd _ sh => some (.sreg rd, sraW a sh.toNat)
  | .addwi _ rd _ imm => some (.sreg rd, sext32 (a + imm.signExtend 64))
  | .cmp _ gd _ _ cond => some (.guard gd, boolWord (compare cond.toNat a b))
  | .cmpi _ gd _ imm cond => some (.guard gd, boolWord (compare cond.toNat a (imm.signExtend 64)))
  | .gand _ gd _ _ => some (.guard gd, a &&& b)
  | .gor _ gd _ _ => some (.guard gd, a ||| b)
  | .gxor _ gd _ _ => some (.guard gd, a ^^^ b)
  | .gandn _ gd _ _ => some (.guard gd, a &&& ~~~b)
  | .mts _ _ num => some (.sysreg num a, a)
  | .sel _ rd _ _ _ => some (.sreg rd, a)
  | .lih _ rd _ => some (.sreg rd, a)
  | .lihp _ rd _ => some (.sreg rd, a)
  | .mfs _ rd _ => some (.sreg rd, a)
  | .stopnextRead _ rd => some (.sreg rd, a)
  | .semr _ rd _ => some (.sreg rd, a)
  | .evt _ rd _ => some (.sreg rd, a)
  | .tstat _ rd _ => some (.sreg rd, a)
  | .tcnt _ rd _ => some (.sreg rd, a)
  | .tadr _ rd _ => some (.sreg rd, a)
  | .ovpop _ rd => some (.sreg rd, a)
  | .talc _ rd _ _ => some (.sreg rd, a)
  | .qtake _ rd => some (.sreg rd, a)
  | .lwait _ rd _ => some (.sreg rd, a)
  | .call _ _ _ => some (.sreg 31, a)
  | .callr _ _ _ => some (.sreg 31, a)
  | _ => none

/-- The latencies of R66. -/
def fixedLatency (i : Instr) : Nat :=
  match i with
  | .mul .. => 4
  | .mulh .. => 4
  | .mulhn .. => 4
  | .div .. => 20
  | .divn .. => 20
  | .rem .. => 20
  | .remn .. => 20
  | .talc .. => 1
  | .qtake .. => 1
  | .lwait .. => 1
  | _ => 2

/-- The destination register of a word that completes through the l counter (R306). -/
def loadDest (i : Instr) : Option (BitVec 5) :=
  match i with
  | .ld _ rd _ _ _ => some rd
  | .ldn _ rd _ _ _ => some rd
  | .atm _ rd _ _ _ _ _ => some rd
  | .acas _ rd _ _ _ _ => some rd
  | _ => none

/-- The outstanding loads and atomics of a strand whose destination is r, the newest first (R306). -/
def Strand.feeders (x : Strand) (r : BitVec 5) : List Nat :=
  if r = 0 then []
  else ((sortBy (·.id) (x.loads ++ x.stores)).filter (fun q => loadDest q.op = some r)).reverse.map (·.id)

/-- The links of a word that reads ra as its first and rb as its second operand (R306). -/
def Strand.linkOf (x : Strand) (ra rb : BitVec 5) : Links :=
  (x.feeders ra).map (fun n => (1, n)) ++ (x.feeders rb).map (fun n => (2, n))

/-- Own slots left empty by a CTL mark (R63). -/
def gapOf (ctl : BitVec 2) : Nat := if ctl = 1 then 1 else if ctl = 2 then 3 else 0

end Sys2Proof.Machine
end

