-- ==== Sys2Proof/Machine/Memory.lean ====
section
/-! DEFINITION. The 48-bit map (R80 to R82), core windows (R83 to R85, R187), translation (R86 to R89), the request
counters (R91) and the cluster cache (R101). -/
namespace Sys2Proof.Machine

/-- Bits [hi:lo] of a natural number. -/
def bitsOf (n hi lo : Nat) : Nat := n / 2 ^ lo % 2 ^ (hi + 1 - lo)

/-- How an access uses a page (R88). -/
inductive Acc where
  | load | store | atomic | fetch
  deriving DecidableEq, Repr

def xlate (sub : Nat) (a : Nat) : Trouble := ⟨.xlate, BitVec.ofNat 8 sub, BitVec.ofNat 64 a⟩
def alignTrouble (a : Nat) : Trouble := ⟨.align, 0, BitVec.ofNat 64 a⟩
def windowTrouble (a : Nat) : Trouble := ⟨.window, 0, BitVec.ofNat 64 a⟩

/-- Regions of the physical map (R80); the host region ends at the hole of R353. -/
def isHbm (a : Nat) : Bool := a < 0x0100_0000_0000
def isWindow (a : Nat) : Bool := 0x1000_0000_0000 ≤ a && a < 0x2000_0000_0000
def isHost (a : Nat) : Bool := 0x2000_0000_0000 ≤ a && a < 0x2900_0000_0000

/-- The home die of an HBM address (R81, R82). -/
def homeDie (memsplit a : Nat) : Nat :=
  let g := a / 4096
  if a < memsplit * 2 ^ 36 then (g % 4) ^^^ (g / 4 % 4) ^^^ (g / 16 % 4) ^^^ (g / 64 % 4)
  else (a - memsplit * 2 ^ 36) / ((16 - memsplit) * 2 ^ 34)

/-- The stack of an HBM address within its home die (R81, R82). -/
def homeStack (a : Nat) : Nat :=
  let g := a / 4096
  (g / 256 % 4) ^^^ (g / 1024 % 4)

-- Core windows

/-- The ranges of a core window (R20, R83). -/
inductive WRange where
  | spad | vreg | vtag | acc | sreg | sem | sync | ts | ovq | pool | area | sysreg | outside
  deriving DecidableEq, Repr

def winRange (off : Nat) : WRange :=
  if off < 0x08_0000 then .spad
  else if 0x10_0000 ≤ off ∧ off < 0x11_0000 then .vreg
  else if 0x11_0000 ≤ off ∧ off < 0x11_0080 then .vtag
  else if 0x20_0000 ≤ off ∧ off < 0x24_0000 then .acc
  else if 0x30_0000 ≤ off ∧ off < 0x30_0400 then .sreg
  else if 0x30_1000 ≤ off ∧ off < 0x30_1400 then .sem
  else if 0x30_2000 ≤ off ∧ off < 0x30_2200 then .sync
  else if 0x30_3000 ≤ off ∧ off < 0x30_3080 then .ts
  else if 0x30_4000 ≤ off ∧ off < 0x30_8000 then .ovq
  else if 0x30_8000 ≤ off ∧ off < 0x34_0000 then .pool
  else if 0x34_0000 ≤ off ∧ off < 0x38_0000 then .area
  else if 0x38_0000 ≤ off ∧ off < 0x40_0000 then .sysreg
  else .outside

/-- The element of a range at an offset: its first offset and its size (R83). The scratchpad is one element. -/
def winElem (off : Nat) : Nat × Nat :=
  match winRange off with
  | .spad => (0, 0x8_0000)
  | .vreg => (off / 512 * 512, 512)
  | .vtag => (off, 1)
  | .sem => (off / 4 * 4, 4)
  | .ts => (off / 2 * 2, 2)
  | .area => (off / 0x1_0000 * 0x1_0000, 0x1_0000)
  | _ => (off / 8 * 8, 8)

/-- May a scalar access of this size perform at this offset (R83)? Natural alignment is checked before. -/
def winSizeOk (off size : Nat) : Bool :=
  match winRange off with
  | .spad | .vreg | .area | .outside => true
  | .vtag => off + size ≤ 0x11_0080
  | .sem => size = 4
  | .ts => size = 2
  | _ => size = 8

/-- The core and the offset of a window address, when it lies in a core's window (R20). -/
def winSplit (a : Nat) : Option (Nat × Nat) :=
  let x := a - Config.windowBase
  let k := bitsOf x 31 25
  if isWindow a ∧ x < 2 ^ 34 ∧ k < 96 then some (x / 2 ^ 32 * 768 + k * 8 + bitsOf x 24 22, x % 2 ^ 22) else none

/-- The window address checked against R20 and the partition's bounds (R21). -/
def winCheck (s : State) (p a : Nat) : Except Trouble (Nat × Nat) :=
  match winSplit a with
  | none => .error (windowTrouble a)
  | some (c, off) =>
    if winRange off = .outside ∨ s.partOf c ≠ p then .error (windowTrouble a) else .ok (c, off)

/-- A core's power level L (R321): the sum of its leases, else the default allowance. -/
def Core.level (k : Core) : Nat :=
  let l := (k.strands.toList.map (·.lease)).sum
  if l = 0 then Config.defaultLevel else l

/-- Is a core quiet under a lull halt (R329)? -/
def State.quiet (s : State) (c : Nat) : Bool :=
  (s.core c).lull && allStrands.all (fun t =>
    let x := s.strand c t
    x.cntL = 0 && s.cntS c t = 0 && x.cntV = 0 && x.cntM = 0 && x.cntX = 0)

/-- The window address of a strand's stop descriptor (R302). -/
def descAddr (c : Nat) (t : BitVec 2) : Nat := coreWindow c + 0x34_0000 + t.toNat * 0x1_0000

/-- Entries below the top of a region stack (R327). -/
def Strand.top0 (x : Strand) : BitVec 14 := x.region.headD 0
def Strand.top1 (x : Strand) : BitVec 14 := (x.region.drop 1).headD 0

def b2n (b : Bool) : Nat := if b then 1 else 0

/-- The value of a system register (R77, R255, R270, R308, R325, R327 to R329, R333); 0 for a number that no table
allocates (R84). -/
def sysregValue (s : State) (c : Nat) (t : BitVec 2) (n : Nat) : Word :=
  let k := s.core c
  let x := k.strand t
  let v : Nat :=
    if n = 0x000 then dieOf c * 2 ^ 12 + (clusterOf c % 96) * 2 ^ 5 + (c % 8) * 4 + t.toNat
    else if n = 0x001 then coreWindow c
    else if n = 0x002 then s.tick
    else if n = 0x003 then x.slots
    else if 0x008 ≤ n ∧ n < 0x010 then (vget x.wid 0 (n - 0x008)).toNat
    else if 0x010 ≤ n ∧ n < 0x018 then (vget x.wext 0 (n - 0x010)).toNat
    else if 0x020 ≤ n ∧ n < 0x028 then (vget x.lparam 0 (n - 0x020)).toNat
    else if n = 0x040 then x.fflags.toNat
    else if n = 0x100 then
      match x.fifo with
      | [] => 0
      | u :: _ => 2 ^ 63 + u.toNat * 2 ^ 48 + descAddr c u
    else if n = 0x101 then x.rstrand.toNat
    else if n = 0x102 then x.rstat.toNat
    else if n = 0x200 then x.lease + 128 * b2n (match x.request with | some r => !r.talc && r.granted.isNone | none => false)
    else if n = 0x201 then x.depth * 2 ^ 28 + (if x.depth < 2 then 0 else x.top1.toNat * 2 ^ 14)
      + (if x.depth = 0 then 0 else x.top0.toNat)
    else if n = 0x202 then k.level * 2 ^ 40 + k.balance
    else if 0x208 ≤ n ∧ n < 0x20C then (vget k.brkb 0 (n - 0x208)).toNat
    else if n = 0x210 then b2n k.lull + 2 * b2n k.cut + 4 * b2n (s.quiet c)
    else if n = 0x212 then k.trbase.toNat
    else if n = 0x213 then b2n k.tren * 2 ^ 63 + b2n k.trerr * 2 ^ 62 + k.trhead.toNat * 2 ^ 8 + k.trlog.toNat
    else if n = 0x300 then x.limit.toNat
    else if n = 0x340 then (s.part (s.partOf c)).lrbase.toNat
    else if n = 0x341 then x.lridx.toNat
    else 0
  BitVec.ofNat 64 v

/-- An accumulator cell as a word of 64 bits, and a word made canonical as it is stored (R222, R223). -/
def accWord (x : BitVec 48) : Word := x.setWidth 64

def accCanon (w : Word) : BitVec 48 :=
  let ra := w.toNat % 2 ^ 13
  let g := bitsOf w.toNat 33 13
  let rc := bitsOf w.toNat 47 34
  BitVec.ofNat 48 ((if ra = 8191 then 0 else ra) + g * 2 ^ 13 + (if 8193 ≤ rc then rc - 8193 else rc) * 2 ^ 34)

def Core.tile (k : Core) (n : Nat) : Tile := vget k.tiles {} n
def Core.setTile (k : Core) (n : Nat) (x : Tile) : Core := { k with tiles := vset k.tiles n x }

/-- Free slots of a pool partition, and where slot n lies (R251, R254). -/
def PoolPart.slot (q : PoolPart) (n : Nat) : Slot := Sparse.get {} q.slots n
def PoolPart.setSlot (q : PoolPart) (n : Nat) (x : Slot) : PoolPart := { q with slots := Sparse.set {} q.slots n x }
def PoolPart.size (q : PoolPart) : Nat := 256 * 2 ^ q.sz.toNat
def PoolPart.freeSlots (q : PoolPart) : List Nat := (List.range q.count).filter (fun n => (q.slot n).st = .free)

def SlotState.code : SlotState → Nat
  | .free => 0
  | .open_ => 1
  | .sealed => 2

/-- The slot word of R254. -/
def Slot.word (x : Slot) : Nat :=
  x.tag.toNat * 2 ^ 60 + x.owner.toNat * 2 ^ 44 + x.gen.toNat * 2 ^ 32 + x.reads * 2 ^ 16 + x.pend * 4 + x.st.code

/-- The doubleword of the tile-pool metadata range at an offset (R254). -/
def poolWord (k : Core) (off : Nat) : Nat :=
  match k.pool with
  | none => 0
  | some po =>
    let a := off - 0x30_8000
    if a < 0x200 then
      let q := vget po.parts {} (a / 0x40)
      if a % 0x40 = 0 then q.sz.toNat * 2 ^ 25 + b2n q.shared * 2 ^ 24 + q.count * 2 ^ 15 + q.base / 256
      else if a % 0x40 = 8 then q.queue.length * 2 ^ 16 + q.freeSlots.length
      else if a % 0x40 = 16 then q.abandon.toNat
      else 0
    else if 0x1000 ≤ a ∧ a < 0x5000 then
      let q := vget po.parts {} ((a - 0x1000) / 0x800)
      let n := (a - 0x1000) % 0x800 / 8
      if n < q.count then (q.slot n).word else 0
    else 0

/-- The value of the element of a register range that starts at an offset (R83). -/
def winValue (s : State) (c off : Nat) : Nat :=
  let k := s.core c
  match winRange off with
  | .vreg =>
    let x := k.strand (BitVec.ofNat 2 ((off - 0x10_0000) / 0x4000))
    (x.vreg (BitVec.ofNat 5 ((off - 0x10_0000) / 512))).toNat
  | .vtag =>
    let x := k.strand (BitVec.ofNat 2 ((off - 0x11_0000) / 32))
    (x.vtag (BitVec.ofNat 5 (off - 0x11_0000))).toNat
  | .acc => (Sparse.get 0 (k.tile ((off - 0x20_0000) / 0x8000)).cells ((off - 0x20_0000) % 0x8000 / 8)).toNat
  | .sreg => ((k.strand (BitVec.ofNat 2 ((off - 0x30_0000) / 0x100))).sreg (BitVec.ofNat 5 ((off - 0x30_0000) / 8))).toNat
  | .sem => (Sparse.get 0 k.sem ((off - 0x30_1000) / 4)).toNat
  | .sync => (vget (k.strand (BitVec.ofNat 2 ((off - 0x30_2000) / 0x80))).sync 0 ((off - 0x30_2000) / 8 % 16)).toNat
  | .ts => (vget (k.strand (BitVec.ofNat 2 ((off - 0x30_3000) / 0x20))).ts 0 ((off - 0x30_3000) / 2 % 16)).toNat
  | .ovq =>
    let i := (off - 0x30_4000) / 8
    if i < 32 then (k.ovq.getD i (0, 0)).1.toNat else if i = 32 then k.ovq.length else 0
  | .pool => poolWord k off
  | .sysreg =>
    (sysregValue s c (BitVec.ofNat 2 ((off - 0x38_0000) / 0x2_0000)) ((off - 0x38_0000) % 0x2_0000 / 8)).toNat
  | _ => 0

/-- One byte of a window (R83, R84). -/
def winByte (s : State) (c off : Nat) : Byte :=
  match winRange off with
  | .spad => Memory.byte (s.core c).spad off
  | .area => Memory.byte ((s.core c).strand (BitVec.ofNat 2 ((off - 0x34_0000) / 0x1_0000))).area (off % 0x1_0000)
  | _ =>
    let b := (winElem off).1
    BitVec.ofNat 8 (winValue s c b / 256 ^ (off - b))

/-- n bytes of a window. -/
def winBytes (s : State) (c off n : Nat) : List Byte :=
  if winRange off = .spad then Memory.bytes (s.core c).spad off n
  else (List.range n).map (fun i => winByte s c (off + i))

/-- Mark as written since their issue the source registers r of the V words in flight (R305). -/
def Capture.markReg (p : Capture) (r : BitVec 5) : Capture :=
  let d := (List.range p.regs.length).foldl
    (fun d i => if p.regs.getD i 0 = r then d ||| (1#16 <<< i) else d) p.dirty
  { p with dirty := d }

/-- The same for the mask register the shape selects; it is bit 15 (R305). -/
def Capture.markMask (p : Capture) (k : BitVec 3) : Capture :=
  if p.shape.extractLsb' 15 3 = k then { p with dirty := p.dirty ||| 0x8000 } else p

def VRun.mark (r : VRun) (f : Capture → Capture) : VRun :=
  { r with
    flight := r.flight.map (fun w => { w with cap := f w.cap })
    vlq := r.vlq.map (fun w => { w with cap := f w.cap })
    vsq := r.vsq.map (fun w => { w with cap := f w.cap })
    esu := r.esu.map (fun w => { w with cap := f w.cap }) }

/-- Mark the operands that a V-op record has read for its reissue (R305, R310). -/
def Rec.mark (r : Rec) (f : Capture → Capture) : Rec := { r with cap := r.cap.map f }

/-- Apply a mark to the V words of strand t: those of the running entry, and those whose records are still to be reissued. -/
def Core.markV (k : Core) (t : BitVec 2) (f : Capture → Capture) : Core :=
  let x := k.strand t
  let entry (e : Entry) : Entry :=
    if e.strand = t then { e with resume := e.resume.map (fun u => { u with recs := u.recs.map (·.mark f) }) } else e
  { k.setStrand t { x with reissue := x.reissue.map (·.mark f) } with
    vq := k.vq.map entry
    vrun := k.vrun.map (fun r => if r.entry.strand = t then r.mark f else r) }

/-- Write a vector register and its tag (R22, R127). -/
def Core.putVreg (k : Core) (t : BitVec 2) (r : BitVec 5) (v : VReg) (tag : BitVec 4) : Core :=
  let x := k.strand t
  (k.setStrand t { x with v := vset x.v r.toNat v, tag := vset x.tag r.toNat tag }).markV t (·.markReg r)

/-- Write the control register TRCTL through the window (R328): EN and LOG2N are written, a 1 clears ERR, and EN with
LOG2N out of range sets it; HEAD starts at 0 when EN is set. -/
def Core.writeTrctl (k : Core) (en : Bool) (log : BitVec 5) (clear : Bool) : Core :=
  let bad := en && (log.toNat < 8 || 20 < log.toNat)
  { k with tren := en, trlog := log, trerr := (k.trerr && !clear) || bad, trhead := if en && !k.tren then 0 else k.trhead }

/-- Has the strand nothing to stop for: it neither runs nor resumes, and no stop of it is undelivered? -/
def Strand.settled (x : Strand) : Bool := x.life ≠ .running && x.life ≠ .resuming && x.stop.isNone

/-- Clear CUT once every strand of the core has stopped (R331): it stands stopped, or the request has stopped it before. -/
def Core.endCut (k : Core) : Core :=
  if k.cut && k.strands.toList.all (fun x => x.settled || x.cutDone) then { k with cut := false } else k

/-- Set or clear the cut request (R329, R331): a new request counts from the tick it is set at and has stopped no strand. -/
def Core.writeCut (k : Core) (v : Bool) (tick : Nat) : Core :=
  Core.endCut (if v && !k.cut then { k with cut := v, cutAt := tick, strands := k.strands.map (fun x => { x with cutDone := false } ) }
    else { k with cut := v })

/-- Write a system register through the window (R84): RW fields only. -/
def writeSysreg (s : State) (c : Nat) (t : BitVec 2) (n : Nat) (v : Word) : State :=
  s.onCore c (fun k =>
    if 0x208 ≤ n ∧ n < 0x20C then { k with brkb := vset k.brkb (n - 0x208) (v &&& 0x8000_0000_0000_F3FF) }
    else if n = 0x210 then { k with lull := v.getLsbD 0 }.writeCut (v.getLsbD 1) s.tick
    else if n = 0x212 then { k with trbase := v &&& 0x0000_FFFF_FFFF_FFC0 }
    else if n = 0x213 then k.writeTrctl (v.getLsbD 63) (v.setWidth 5) (v.getLsbD 62)
    else k.setStrand t ((k.strand t).setSysreg (BitVec.ofNat 14 n) v))

/-- Write the element of a register range that starts at an offset (R83, R84, R85, R108, R223, R246). A vector register
takes the tag the write names (R22); the ranges that are read-only stay as they are. -/
def writeValue (s : State) (c off v : Nat) (tag : BitVec 4) : State :=
  let w : Word := BitVec.ofNat 64 v
  match winRange off with
  | .vreg =>
    s.onCore c (fun k => k.putVreg (BitVec.ofNat 2 ((off - 0x10_0000) / 0x4000)) (BitVec.ofNat 5 ((off - 0x10_0000) / 512))
      (BitVec.ofNat 4096 v) tag)
  | .vtag =>
    let r : BitVec 5 := BitVec.ofNat 5 (off - 0x11_0000)
    s.onStrand c (BitVec.ofNat 2 ((off - 0x11_0000) / 32)) (fun x => { x with tag := vset x.tag r.toNat (w.setWidth 4) })
  | .acc =>
    let n := (off - 0x20_0000) / 0x8000
    s.onCore c (fun k => k.setTile n { k.tile n with
      cells := Sparse.set 0 (k.tile n).cells ((off - 0x20_0000) % 0x8000 / 8) (accCanon w) })
  | .sreg =>
    s.onStrand c (BitVec.ofNat 2 ((off - 0x30_0000) / 0x100)) (fun x => x.setSreg (BitVec.ofNat 5 ((off - 0x30_0000) / 8)) w)
  | .sem => s.onCore c (fun k => (k.setSem ((off - 0x30_1000) / 4) (w.setWidth 32)).wake)
  | .sync =>
    s.onStrand c (BitVec.ofNat 2 ((off - 0x30_2000) / 0x80))
      (fun x => { x with sync := vset x.sync ((off - 0x30_2000) / 8 % 16) (w &&& 0x0007_FFFF_FFFF_FFFF) })
  | .ts =>
    s.onStrand c (BitVec.ofNat 2 ((off - 0x30_3000) / 0x20))
      (fun x => { x with ts := vset x.ts ((off - 0x30_3000) / 2 % 16) (w.setWidth 16 &&& 0xFF0F) })
  | .sysreg => writeSysreg s c (BitVec.ofNat 2 ((off - 0x38_0000) / 0x2_0000)) ((off - 0x38_0000) % 0x2_0000 / 8) w
  | _ => s

/-- Store bytes within one element of a window (R83). A stop-record area takes them only while its DSTATE is 1 (R302). -/
def writeElem (s : State) (c off : Nat) (bs : List Byte) (tag : BitVec 4) : State :=
  match winRange off with
  | .spad => s.onCore c (fun k => { k with spad := Memory.store k.spad off bs })
  | .area =>
    s.onStrand c (BitVec.ofNat 2 ((off - 0x34_0000) / 0x1_0000)) (fun x =>
      if Memory.byte x.area 0 = 1 then { x with area := Memory.store x.area (off % 0x1_0000) bs } else x)
  | _ =>
    let (b, n) := winElem off
    let old := leBytes n (winValue s c b)
    writeValue s c b (leValue (old.take (off - b) ++ bs ++ old.drop (off - b + bs.length))) tag

/-- Store a run of bytes in a window, element by element; fuel bounds the elements. -/
def winStore : Nat → State → Nat → Nat → List Byte → BitVec 4 → State
  | 0, s, _, _, _, _ => s
  | fuel + 1, s, c, off, bs, tag =>
    if bs = [] then s
    else
      let (b, n) := winElem off
      let m := b + n - off
      winStore fuel (writeElem s c off (bs.take m) tag) c (off + m) (bs.drop m) tag

-- Translation

/-- A walk's level (R86): index bits, page bits of a leaf, whether leaf and pointer are allowed, and the pointer bits
[11:8] that must be 0 (R87). -/
structure WalkLevel where
  hi : Nat
  lo : Nat
  leaf : Bool
  ptr : Bool
  wide : Bool

def walkLevels : List WalkLevel :=
  [⟨47, 39, false, true, true⟩, ⟨38, 30, true, true, true⟩, ⟨29, 21, true, true, false⟩, ⟨20, 16, true, false, false⟩]

/-- Walk the tables from table address tab: the leaf entry and its page bits, or the subcause of XLATE (R86 to R88). DESIGN CHOICE (log entry
78): the walk ends with FORMAT at the first malformed entry, also above a level whose entry has V = 0. -/
def walk (tables : Sparse Word) (a : Nat) : List WalkLevel → Nat → Except Nat (Nat × Nat)
  | [], _ => .error 1
  | l :: ls, tab =>
    let e := (Sparse.get 0 tables (tab + 8 * bitsOf a l.hi l.lo)).toNat
    let adr := bitsOf e 47 8 * 256
    if e % 2 = 0 then .error 0
    else if bitsOf e 63 48 ≠ 0 then .error 1
    else if bitsOf e 1 1 = 1 then
      if l.leaf ∧ adr % 2 ^ l.lo = 0 ∧ bitsOf e 7 6 ≠ 3 then .ok (e, l.lo) else .error 1
    else if l.ptr ∧ bitsOf e 7 2 = 0 ∧ (l.wide → adr % 4096 = 0) then walk tables a ls adr
    else .error 1

/-- The tables of a walk while a page is mapped: their entries, the next free table and the table the walk stands at. -/
structure Tables where
  entries : Sparse Word
  next    : Nat
  table   : Nat

/-- Follow the pointer of one level for an address, first placing one to a fresh table where the entry is invalid. -/
def Tables.down (t : Tables) (a hi lo : Nat) : Tables :=
  let at_ := t.table + 8 * bitsOf a hi lo
  let e := (Sparse.get 0 t.entries at_).toNat
  if e % 2 = 1 then { t with table := bitsOf e 47 8 * 256 }
  else { entries := Sparse.set 0 t.entries at_ (BitVec.ofNat 64 (t.next + 1)), next := t.next + 0x1000, table := t.next }

/-- Set the level-3 entry of a 64 KiB page of a partition's tables (R86, R90). -/
def State.setPage (s : State) (p a entry : Nat) : State :=
  s.onPart p (fun q =>
    let t := ((Tables.down ⟨q.tables, q.tnext, q.root⟩ a 47 39).down a 38 30).down a 29 21
    { q with tables := Sparse.set 0 t.entries (t.table + 8 * bitsOf a 20 16) (BitVec.ofNat 64 entry), tnext := t.next })

/-- The PLACE bits of a leaf that suit its frame (R87, R88). -/
def State.placeBits (s : State) (frame : Nat) : Nat := if isHost frame then 128 else if frame < s.memsplit * 2 ^ 36 then 0 else 64

/-- Translate an address for an access of a partition (R88): the physical address, or the trouble of the first check
that fails; th says whether the TH check is made (R89). -/
def translate (s : State) (p a : Nat) (acc : Acc) (th : Bool) : Except Trouble Nat :=
  match walk (s.part p).tables a walkLevels (s.part p).root with
  | .error sub => .error (xlate sub a)
  | .ok (e, lo) =>
    let frame := bitsOf e 47 8 * 256
    let place := bitsOf e 7 6
    let r := bitsOf e 2 2 = 1
    let w := bitsOf e 3 3 = 1
    let x := bitsOf e 4 4 = 1
    if !isHbm frame && !isHost frame then .error (xlate 2 a)
    else if (place = 0 ∧ s.memsplit * 2 ^ 36 ≤ frame) ∨ (place = 1 ∧ (frame < s.memsplit * 2 ^ 36 ∨ !isHbm frame))
        ∨ (place = 2 ∧ !isHost frame) then .error (xlate 3 a)
    else if !(match acc with | .load => r | .store => w | .atomic => r && w | .fetch => x) then .error (xlate 4 a)
    else if th ∧ bitsOf e 5 5 = 1 then .error (xlate 5 a)
    else if acc = .atomic ∧ isHost frame then .error (xlate 6 a)
    else .ok (frame + a % 2 ^ lo)

/-- The physical address of an access within one page or window element (R80): a window address is checked under R20,
every other one translated. -/
def resolveIn (s : State) (p a : Nat) (acc : Acc) (th : Bool) : Except Trouble Nat :=
  let a := addr48 a
  if isWindow a then (match winCheck s p a with | .ok _ => .ok a | .error e => .error e)
  else translate s p a acc th

-- Fenced units

/-- Is the link between two dies fenced (R357)? The H-die is number 4. -/
def State.linkDown (s : State) (d e : Nat) : Bool := d ≠ e && s.pkg.links.contains (min d e, max d e)

/-- The ECC subcause of an access from die d to a physical address in a fenced unit, or across a fenced link (R296, R314,
R353, R357, R358); none when it reaches no fenced unit. -/
def State.eccAt (s : State) (d pa : Nat) : Option Nat :=
  match winSplit pa with
  | some (c, off) =>
    if s.linkDown d (dieOf c) then some 4
    else if (s.cluster (clusterOf c)).fenced then some 3
    else if (s.core c).fenced then some (if winRange off = .spad then 0 else 1)
    else none
  | none =>
    if isHbm pa then
      let h := homeDie s.memsplit pa
      if s.linkDown d h then some 4
      else if s.pkg.channels.contains (4 * h + homeStack pa, bitsOf pa 11 6) then some 2
      else none
    else if isHost pa && s.linkDown d 4 then some 4
    else none

def eccTrouble (sub : Nat) : Trouble := ⟨.ecc, BitVec.ofNat 8 sub, 0⟩

/-- The same over a range of physical bytes, line by line. -/
def State.eccRange (s : State) (d pa n : Nat) : Option Nat :=
  if s.pkg.channels = [] ∧ s.pkg.links = [] then s.eccAt d pa
  else (List.range ((pa + n - 1) / 64 - pa / 64 + 1)).findSome? (fun i => s.eccAt d (pa / 64 * 64 + 64 * i))

/-- The physical address of an access by core c, which stops with ECC when it reaches a fenced unit (R314). -/
def resolve (s : State) (c a : Nat) (acc : Acc) (th : Bool) : Except Trouble Nat :=
  match resolveIn s (s.partOf c) a acc th with
  | .error e => .error e
  | .ok pa => match s.eccAt (dieOf c) pa with
    | some n => .error (eccTrouble n)
    | none => .ok pa

/-- Does a write by core c into the windows of core d wait (R330)? Every core of another cluster is lull-halted. -/
def State.portClosed (s : State) (c d : Nat) : Bool :=
  clusterOf c ≠ clusterOf d && (List.range 8).all (fun i => (s.core (8 * clusterOf d + i)).lull)

def State.portShut (s : State) (c pa : Nat) : Bool := match winSplit pa with | some (d, _) => s.portClosed c d | none => false

/-- Do two ranges share a byte? -/
def overlap (a b : Nat × Nat) : Bool := a.1 < b.1 + b.2 && b.1 < a.1 + a.2

/-- A store to n bytes at pa ends the harts' reservations that it meets (R105). -/
def State.unreserve (s : State) (pa n : Nat) : State := { s with resvs := s.resvs.filter (fun r => !overlap (r.pa, r.n) (pa, n)) }

/-- Bytes that Skyo or the package lays down in memory. -/
def State.putMem (s : State) (pa : Nat) (bs : List Byte) : State :=
  { s.unreserve pa bs.length with mem := Memory.store s.mem pa bs }

/-- Bytes at a physical address. -/
def physRead (s : State) (pa n : Nat) : List Byte :=
  match winSplit pa with
  | some (c, off) => winBytes s c off n
  | none => Memory.bytes s.mem pa n

/-- Store bytes at a physical address; tag is what a vector register takes (R22, R186). -/
def physWrite (s : State) (pa : Nat) (bs : List Byte) (tag : BitVec 4) : State :=
  let s := s.unreserve pa bs.length
  match winSplit pa with
  | some (c, off) => winStore (bs.length + 1) s c off bs tag
  | none => { s with mem := Memory.store s.mem pa bs }

/-- Count the lines of HBM that an access by a unit on die d touches (R91). -/
def countLines (s : State) (d pa n : Nat) : State :=
  if !isHbm pa || n = 0 then s
  else
    let ls := (List.range ((pa + n - 1) / 64 - pa / 64 + 1)).map (fun i => (pa / 64 + i) * 64)
    let near := (ls.filter (fun l => homeDie s.memsplit l = d)).length
    s.onDie d (fun x => { x with
      lreq := x.lreq + BitVec.ofNat 64 near
      rreq := x.rreq + BitVec.ofNat 64 (ls.length - near) })

/-- Count one request for an atomic (R91). -/
def countAtomic (s : State) (d pa : Nat) : State := countLines s d pa 1

-- The cluster cache

/-- The bytes old from address a on, with those from address b on replaced by new. -/
def patch (a : Nat) (old : List Byte) (b : Nat) (new : List Byte) : List Byte :=
  (List.range old.length).map (fun i => if b ≤ a + i ∧ a + i < b + new.length then new.getD (a + i - b) 0 else old.getD i 0)

/-- Bytes from an address on as the stores under way leave them. -/
def overlay (l : List Pending) (pa : Nat) (bs : List Byte) : List Byte := l.foldl (fun bs p => patch pa bs p.pa p.bytes) bs

/-- Bytes at a physical address as a party of cluster k sees them: the stores that have reached its cluster's cache stand over their
homes (R101). -/
def viewRead (s : State) (k pa n : Nat) : List Byte := overlay (s.cluster k).pending pa (physRead s pa n)

/-- May a party that comes after the acquires below since, none for one that comes after all, still meet this line (R363)? -/
def PastLine.stands (e : PastLine) (since : Option Nat) : Bool := match since with | some n => n ≤ e.drop | none => false

/-- A line as a party of a cluster may find it in the cache: the cache's copy, else one that an acquire which the party need not come after
has dropped. -/
def Cluster.copy (x : Cluster) (since : Option Nat) (line : Nat) : Option (List Byte) :=
  match Sparse.get none x.cache line with
  | some l => some l
  | none => (x.past.find? (fun e => e.line = line && e.stands since)).map (·.bytes)

/-- Bytes of HBM as such a party finds them where there is a copy of the line, and as memory holds them elsewhere (R101). -/
def cachedBytes (s : State) (k : Nat) (since : Option Nat) (pa n : Nat) : List Byte :=
  overlay (s.cluster k).pending pa ((List.range n).map (fun i =>
    match (s.cluster k).copy since ((pa + i) / 64) with
    | some l => l.getD ((pa + i) % 64) 0
    | none => Memory.byte s.mem (pa + i)))

/-- The lines of a range that a load reads from memory are met in no older copy again (R103): those that the party does not find are
dropped for good. -/
def forgetLines (s : State) (k : Nat) (since : Option Nat) (pa n : Nat) : State :=
  if (s.cluster k).past = [] then s
  else s.onCluster k (fun x => { x with past := x.past.filter (fun e => e.stands since || e.line < pa / 64 || (pa + n - 1) / 64 < e.line) })

/-- Fill the lines of an HBM range into a cluster's cache, as a load that goes to memory does (R101). -/
def fillLines (s : State) (k pa n : Nat) : State :=
  if !isHbm pa || n = 0 then s
  else s.onCluster k (fun x =>
    let c := (List.range ((pa + n - 1) / 64 - pa / 64 + 1)).foldl
      (fun m i => Sparse.put m (pa / 64 + i) (some (Memory.bytes s.mem ((pa / 64 + i) * 64) 64))) x.cache
    { x with cache := c, past := x.past.filter (fun e => e.line < pa / 64 || (pa + n - 1) / 64 < e.line) })

/-- A store of some bytes brings a cluster's cached copies up to date (R98, R101). -/
def updateLines (s : State) (k pa : Nat) (bs : List Byte) : State :=
  if !isHbm pa || bs = [] then s
  else s.onCluster k (fun x => { x with
    cache := x.cache.map (fun e => (e.1, e.2.map (fun l => patch (64 * e.1) l pa bs)))
    past := x.past.map (fun e => { e with bytes := patch (64 * e.line) e.bytes pa bs }) })

/-- The home stack of an HBM address in the package (R81, R82). -/
def stackOf (s : State) (pa : Nat) : Nat := 4 * homeDie s.memsplit pa + homeStack pa

/-- Must store p reach its home before store q: they share a byte, or one strand's stores go to one stack (R101)? -/
def Pending.precedes (p q : Pending) : Bool :=
  overlap (p.pa, p.bytes.length) (q.pa, q.bytes.length) || (p.by_.isSome && p.by_ = q.by_ && p.stack = q.stack)

/-- The stores of a list that must reach their homes before store q. -/
def neededFirst (l : List Pending) (q : Pending) : List Pending :=
  l.foldr (fun e need => if e.precedes q || need.any (e.precedes ·) then e :: need else need) []

/-- A store of cluster k reaches its home, in memory and in the cluster's own copy (R101). -/
def State.reachHome (s : State) (k : Nat) (p : Pending) : State :=
  updateLines { s.unreserve p.pa p.bytes.length with mem := Memory.store s.mem p.pa p.bytes } k p.pa p.bytes

/-- Some of the stores under way in cluster k reach their homes, in order. -/
def State.bringHome (s : State) (k : Nat) (l : List Pending) : State :=
  if l = [] then s
  else l.foldl (fun s p => s.reachHome k p) (s.onCluster k (fun x => { x with pending := l.foldl List.erase x.pending }))

/-- All of them do: what a release at die scope or wider waits for (R101; log entry 13). -/
def State.drainHome (s : State) (k : Nat) : State := s.bringHome k (s.cluster k).pending

/-- A release by a party of core c (R101): at die scope (3) or wider every store of its cluster has reached its home. -/
def State.release (s : State) (c scope : Nat) : State := if 3 ≤ scope then s.drainHome (clusterOf c) else s

/-- The i-th store under way in cluster k reaches its home, if none must go first. -/
def State.homeStep (s : State) (k i : Nat) : State :=
  let l := (s.cluster k).pending
  match l[i]? with
  | none => s
  | some p => if neededFirst (l.take i) p = [] then s.bringHome k [p] else s

/-- A load by a party of core c at a physical address: the bytes, served from its cluster's cache when stale is set and
from memory otherwise, and the state with the request counted (R91, R101). since: which acquires the party comes after (R363). -/
def loadPhys (s : State) (c pa n : Nat) (stale : Bool) (since : Option Nat := none) : List Byte × State :=
  let s' := countLines s (dieOf c) pa n
  if stale && isHbm pa then (cachedBytes s' (clusterOf c) since pa n, forgetLines s' (clusterOf c) since pa n)
  else (viewRead s' (clusterOf c) pa n, fillLines s' (clusterOf c) pa n)

/-- A store by a party of core c, a strand by_ or an entry, at a physical address, without counting it. near: it performs in its
cluster's cache and reaches its home later; otherwise it is there at once (R101). -/
def storeAt (s : State) (c pa : Nat) (bs : List Byte) (tag : BitVec 4) (near : Bool) (by_ : Option (BitVec 2)) : State :=
  let k := clusterOf c
  let p : Pending := { pa := pa, bytes := bs, stack := stackOf s pa, by_ := by_.map (fun t => (c, t)) }
  if near && isHbm pa then updateLines (s.onCluster k (fun x => { x with pending := x.pending ++ [p] })) k pa bs
  else updateLines (physWrite (s.bringHome k (neededFirst (s.cluster k).pending p)) pa bs tag) k pa bs

/-- The same, counted (R91). -/
def storePhys (s : State) (c pa : Nat) (bs : List Byte) (tag : BitVec 4) (near : Bool) (by_ : Option (BitVec 2)) : State :=
  storeAt (countLines s (dieOf c) pa bs.length) c pa bs tag near by_

/-- Does a running M entry use the accumulator tile that a window address names (R187)? busy gives the tiles in use. -/
def accTile (a : Nat) : Option (Nat × Nat) :=
  match winSplit a with
  | some (c, off) => if winRange off = .acc then some (c, (off - 0x20_0000) / 0x8000) else none
  | none => none

-- Code

/-- May core c fetch a copy for launch r: does its launch come from before an ICINV over it (R332)? -/
def CodeCopy.serves (e : CodeCopy) (s : State) (c pa : Nat) (r : BitVec 10) : Bool :=
  e.core = c && e.pa = pa && e.hit && (match e.before with | none => true | some n => s.armOf c r ≤ n)

/-- The code word at physical address pa as core c fetches it for launch r (R332, R345): a cached copy, else memory's. -/
def State.codeAt (s : State) (c pa : Nat) (r : BitVec 10) : Code :=
  match s.icache.find? (fun e => e.serves s c pa r) with
  | some e => e.word
  | none => BitVec.ofNat 32 (leValue (physRead s pa 4))

/-- From now on core c finds its copies of the word at pa, or it does not; it takes one from memory when it has none that ICINV has not
run over. -/
def State.codeStep (s : State) (c pa : Nat) (hit : Bool) : State :=
  let l := s.icache.map (fun e => if e.core = c ∧ e.pa = pa then { e with hit := hit } else e)
  { s with icache := if l.any (fun e => e.core = c && e.pa = pa && e.before.isNone) then l
      else l ++ [{ core := c, pa := pa, word := BitVec.ofNat 32 (leValue (physRead s pa 4)), hit := hit }] }

/-- ICINV over n bytes at pa, in the caches of every die (R332, R341, R345): launches armed from now on do not fetch a copy taken before
it. -/
def State.icinv (s : State) (pa n : Nat) : State :=
  { s with icache := s.icache.map (fun e => if pa ≤ e.pa ∧ e.pa < pa + n ∧ e.before.isNone
      then { e with before := some (s.part (s.partOf e.core)).armseq } else e) }

end Sys2Proof.Machine
end

