-- ==== Sys2Proof/Machine/Units.lean ====
section
/-! DEFINITION. The units that synchronise: semaphores (R116 to R121), events (R288 to R291), tile pools (R251 to R268),
power leases (R321 to R325), launch records (R270 to R279) and queue banks (R280 to R287). -/
namespace Sys2Proof.Machine

-- Semaphores

/-- Add n to a semaphore; none when the sum passes 2^32 − 1 (R118, R113). -/
def Core.semAdd (k : Core) (m n : Nat) : Option Core :=
  if (k.semCount m).toNat + n < 2 ^ 32 then some (k.setSem m (BitVec.ofNat 32 ((k.semCount m).toNat + n))).wake else none

/-- Would the unit grant this wait now (R121)? Its condition holds, and no wait ahead of it on the semaphore could be
granted first. ahead are the waits that arrived before it. -/
def Core.semGrants (k : Core) (ahead : List SemWait) (m : BitVec 8) (n : BitVec 32) : Bool :=
  n ≤ k.semCount m.toNat && ahead.all (fun w => w.sem ≠ m || w.granted || k.semCount m.toNat < k.waitCount w)

/-- The waits that arrived before those of who, all of them when it has not arrived yet. -/
def Core.waitsAhead (k : Core) (who : Waiter) : List SemWait := k.waits.takeWhile (fun w => w.who ≠ who)

/-- Register a wait in arrival order (R121); one that stands keeps its place. -/
def Core.addWait (k : Core) (w : SemWait) : Core :=
  if k.waits.any (fun x => x.who = w.who) then { k with waits := k.waits.map (fun x => if x.who = w.who then w else x) }
  else { k with waits := k.waits ++ [w] }

/-- Has the unit granted a strand's wait that has still to issue? -/
def Core.semGranted (k : Core) (who : Waiter) : Bool := k.waits.any (fun x => x.who = who && x.granted)

/-- Try to take n from a semaphore: the grant subtracts n and is part of the wait's completion (R111, R117); one granted before is
taken up. none: the wait stands in the order. -/
def Core.semTake (k : Core) (who : Waiter) (m : BitVec 8) (n : BitVec 32) : Option Core :=
  if k.semGranted who then some (k.dropWait who)
  else if k.semGrants (k.waitsAhead who) m n then some ((k.dropWait who).setSem m.toNat (k.semCount m.toNat - n)).wake
  else none

-- Events

/-- An event of a partition; none when the name is not reserved (R288). 0xFFFF names no event. -/
def State.event (s : State) (p n : Nat) : Option Event :=
  if n = 0xFFFF then none else Sparse.get none (s.part p).events n

def State.setEvent (s : State) (p n : Nat) (e : Event) : State :=
  s.onPart p (fun x => { x with events := Sparse.put x.events n (some e) })

/-- Post an event as EVP does (R289): nothing on a poisoned event; COUNT falls to 0 and then SET is 1. -/
def Event.post (e : Event) : Event :=
  if e.poison then e
  else
    let c := if 0 < e.count.toNat then e.count - 1 else 0
    { e with count := c, set := e.set || c = 0 }

/-- Arm an event (R289, EVA). -/
def Event.arm (e : Event) (n : BitVec 32) (by_ : Option (BitVec 10)) : Event :=
  { e with count := n, set := n = 0, poison := false, armer := by_ }

/-- Post a name when it is reserved; nothing otherwise (R273, R298). -/
def State.postEvent (s : State) (p n : Nat) : State :=
  match s.event p n with
  | some e => s.setEvent p n e.post
  | none => s

-- Bank entries

def BankEntry.prio : BankEntry → BitVec 3
  | .team _ p _ _ _ => p
  | .task p _ _ _ => p

def BankEntry.isTask : BankEntry → Bool
  | .task .. => true
  | .team .. => false

/-- Fields of a task record (R283). -/
def taskField (r : List Byte) (off n : Nat) : Nat := leValue ((r.drop off).take n)

/-- Dispense order of tasks: higher class first, then the order of posts (R282). -/
def taskBefore (a b : BankEntry) : Bool :=
  match a, b with
  | .task p i _ _, .task q j _ _ => q < p || (p = q && i < j)
  | _, _ => false

/-- The tasks of a list in dispense order. -/
def tasksInOrder (l : List BankEntry) : List BankEntry :=
  (l.filter (·.isTask)).foldl (fun r x => r.takeWhile (taskBefore · x) ++ x :: r.dropWhile (taskBefore · x)) []

/-- Put a team entry into dispense order (R281): by class, then ARMSEQ and team index; a swapped team goes to the tail of
its class (R292). -/
def insertTeam (l : List BankEntry) (e : BankEntry) : List BankEntry :=
  let before (x : BankEntry) : Bool :=
    match x, e with
    | .team _ q aq iq cq, .team _ p a i c => p < q || (p = q && (c.isSome || cq.isSome || aq < a || (aq = a && iq < i)))
    | _, _ => true
  l.takeWhile before ++ e :: l.dropWhile before

/-- Ring entries return while the bank holds fewer than 256 (R282); fuel bounds the moves. -/
def ringReturn : Nat → Cluster → Cluster
  | 0, k => k
  | fuel + 1, k =>
    if k.bank.length < 256 then
      match tasksInOrder k.ring with
      | [] => k
      | e :: _ => ringReturn fuel { k with bank := k.bank ++ [e], ring := k.ring.erase e }
    else k

/-- Return entries when the bank has fallen below 256. -/
def Cluster.refill (k : Cluster) : Cluster := if k.bank.length < 256 then ringReturn 256 k else k

/-- Are the bank and its ring both full for an arriving task (R282, R284)? -/
def Cluster.full (k : Cluster) : Bool := Config.bankDepth ≤ k.bank.length && Config.ringDepth ≤ k.ring.length

/-- Move the bank's last task in dispense order to the ring, with e ranked among them (R282, RING_SPILL). -/
def Cluster.spillWith (k : Cluster) (e : BankEntry) : Cluster :=
  let all := tasksInOrder (k.bank ++ [e])
  match all.getLast? with
  | none => k
  | some last =>
    if last = e then { k with ring := k.ring ++ [e] }
    else { k with bank := k.bank.erase last ++ [e], ring := k.ring ++ [last] }

/-- A task arrives at a bank (R282). -/
def Cluster.postTask (k : Cluster) (p : BitVec 3) (addr : Word) (rec : List Byte) : Cluster :=
  let e := BankEntry.task p k.postSeq addr rec
  let k' := { k with postSeq := k.postSeq + 1 }
  if k.bank.length < Config.bankDepth then { k' with bank := k.bank ++ [e] } else k'.spillWith e

-- Poison

/-- The clusters of a partition (R21). -/
def State.partClusters (s : State) (p : Nat) : List Nat :=
  (List.range Config.clusterCount).filter (fun k => (s.cluster k).part = p)

/-- Is this a task that waits on a poisoned event (R291)? -/
def taskPoisoned (s : State) (p : Nat) (e : BankEntry) : Bool :=
  match e with
  | .task _ _ _ r => (match s.event p (taskField r 32 2) with | some v => v.poison | none => false)
  | _ => false

/-- Discard tasks whose wait event is poisoned and poison their post events in turn (R291); fuel bounds the chain. -/
def discardPoisoned : Nat → Nat → State → State
  | 0, _, s => s
  | fuel + 1, p, s =>
    let all : List (Nat × BankEntry) := (s.clusters.filter (fun e => e.2.part = p)).flatMap
      (fun e => (e.2.bank ++ e.2.ring).map (fun b => (e.1, b)))
    match all.find? (fun kb => taskPoisoned s p kb.2) with
    | none => s
    | some (k, .task q i a r) =>
      let s := s.onCluster k (fun c => { c with
        bank := c.bank.erase (.task q i a r), ring := c.ring.erase (.task q i a r) }.refill)
      let s := match s.event p (taskField r 34 2) with
        | some v => s.setEvent p (taskField r 34 2) { v with poison := true }
        | none => s
      discardPoisoned fuel p s
    | some _ => s

/-- Number of task entries in the banks and rings. -/
def State.taskCount (s : State) : Nat := (s.clusters.map (fun e => e.2.bank.length + e.2.ring.length)).sum

/-- Poison an event; tasks that wait on it are discarded (R291). -/
def State.poisonEvent (s : State) (p n : Nat) : State :=
  match s.event p n with
  | some e => discardPoisoned (s.taskCount + 1) p (s.setEvent p n { e with poison := true })
  | none => s

-- Launch records

/-- Where record i of a partition lies in memory (R270), and its fields (R271). -/
def State.recAddr (s : State) (p i : Nat) : Nat := (s.part p).lrphys + 0x4_0000 * p + 256 * i
def State.recField (s : State) (p i off n : Nat) : Nat := leValue (Memory.bytes s.mem (s.recAddr p i + off) n)
def State.setRecField (s : State) (p i off n v : Nat) : State :=
  s.putMem (s.recAddr p i + off) (leBytes n v)

def State.recState (s : State) (p i : Nat) : Nat := s.recField p i 1 1
def State.recUsable (s : State) (p i : Nat) : Bool := i < 1024 && s.recField p i 0 1 = 1
def State.recLevels (s : State) (p i : Nat) : Nat := s.recField p i 2 1
def State.recExt (s : State) (p i n : Nat) : Nat := s.recField p i (80 + 4 * n) 4
def State.recBind (s : State) (p i n : Nat) : Nat := s.recField p i (112 + n) 1 % 8

/-- Extents and bindings of the declared levels, outermost first. DESIGN CHOICE (log entry 91): NLEV outside 1 to 8 has no status of its
own; NLEV 0 gives one team, and a level beyond 7 the bytes that lie where its fields would. -/
def State.recShape (s : State) (p i : Nat) : List (Nat × Nat) :=
  (List.range (s.recLevels p i)).map (fun n => (s.recExt p i n, s.recBind p i n))

/-- Are the bound domains non-increasing in size from outer to inner (R23)? 5 is none. DESIGN CHOICE (log entry 92): the binding codes 6
and 7, which R271 does not define, break the order. -/
def bindOrder : List Nat → Bool
  | [] => true
  | b :: bs => b ≤ 5 && bs.all (fun d => b = 5 || d = 5 || b ≤ d) && bindOrder bs

/-- Strands of a team: the product of the strand-bound extents when a level is bound to core, else 1 (R24). -/
def teamStrands (sh : List (Nat × Nat)) : Nat :=
  if sh.any (fun e => e.2 = 3) then (sh.filter (fun e => e.2 = 4)).foldl (fun n e => n * e.1) 1 else 1

/-- Teams of a launch: the product of the other extents (R24). -/
def teamCount (sh : List (Nat × Nat)) : Nat :=
  if sh.any (fun e => e.2 = 3) then (sh.filter (fun e => e.2 ≠ 4)).foldl (fun n e => n * e.1) 1
  else sh.foldl (fun n e => n * e.1) 1

/-- The indices of a work unit, innermost level first, from its team index and its strand number; grouped says that
strand-bound levels count strands of a team. -/
def unitIndexFrom (grouped : Bool) : List (Nat × Nat) → Nat → Nat → List Nat
  | [], _, _ => []
  | (e, b) :: ls, team, strand =>
    if grouped && b = 4 then strand % e :: unitIndexFrom grouped ls team (strand / e)
    else team % e :: unitIndexFrom grouped ls (team / e) strand

/-- The index of a work unit at every level, outermost first; the outermost level varies slowest (R280). -/
def unitIndex (sh : List (Nat × Nat)) (team strand : Nat) : List Nat :=
  (unitIndexFrom (sh.any (fun e => e.2 = 3)) sh.reverse team strand).reverse

/-- What LARM writes to STATUS, and whether the record arms, completes empty or is rejected (R278). -/
inductive Judged where
  | extent | levels | empty | arm
  deriving DecidableEq, Repr

def judge (sh : List (Nat × Nat)) : Judged :=
  if sh.any (fun e => 65536 < e.1) then .extent
  else if !(bindOrder (sh.map (·.2))) || 4 < teamStrands sh then .levels
  else if sh.any (fun e => e.1 = 0) then .empty
  else .arm

/-- LARM's action on an IDLE record (R278). -/
def State.armRecord (s : State) (p i : Nat) : State :=
  match judge (s.recShape p i) with
  | .extent => s.setRecField p i 12 4 2
  | .levels => s.setRecField p i 12 4 3
  | .empty => ((s.setRecField p i 12 4 1).setRecField p i 1 1 3).postEvent p (s.recField p i 4 2)
  | .arm =>
    let n := (s.part p).armseq + 1
    let s := (((s.setRecField p i 12 4 0).setRecField p i 168 8 n).setRecField p i 1 1 1)
    s.onPart p (fun x => { x with armseq := n, launches := Sparse.put x.launches i (some { armseq := n }) })

/-- LARM by record index (R276, R278): PRIV on an unusable index or a record that is not IDLE. -/
def State.larm (s : State) (p i : Nat) : Except Trouble State :=
  if !(s.recUsable p i) || s.recState p i ≠ 0 then .error ⟨.priv, 0, 0⟩ else .ok (s.armRecord p i)

/-- LPAT (R276, R277). -/
def State.lpat (s : State) (p i fn : Nat) (v : Word) : Except Trouble State :=
  if !(s.recUsable p i) || s.recState p i ≠ 0 then .error ⟨.priv, 0, 0⟩
  else .ok (
    if fn < 8 then s.setRecField p i (16 + 8 * fn) 8 v.toNat
    else if fn < 16 then s.setRecField p i (80 + 4 * (fn - 8)) 4 (if v.toNat < 2 ^ 32 then v.toNat else 0xFFFF_FFFF)
    else if fn = 16 then s.setRecField p i 3 1 (min v.toNat 7)
    else if fn = 17 then s.setRecField p i 4 2 v.toNat
    else if fn = 18 then s.setRecField p i 6 2 v.toNat
    else s.setRecField p i 8 1 (v.toNat % 8))

-- Tile pools

/-- The core, partition and slot of a handle, and its generation (R253). -/
def handleCore (h : Nat) : Nat := bitsOf h 31 30 * 768 + bitsOf h 29 23 * 8 + bitsOf h 22 20
def handlePart (h : Nat) : Nat := bitsOf h 19 17
def handleSlot (h : Nat) : Nat := bitsOf h 16 9
def handleGen (h : Nat) : Nat := h % 512

def handleOf (c p n : Nat) (gen : BitVec 9) : Word :=
  BitVec.ofNat 64 (dieOf c * 2 ^ 30 + (clusterOf c % 96) * 2 ^ 23 + (c % 8) * 2 ^ 20 + p * 2 ^ 17 + n * 2 ^ 9 + gen.toNat)

def poolTrouble (sub : Nat) (a : Nat := 0) : Trouble := ⟨.pool, BitVec.ofNat 8 sub, BitVec.ofNat 64 a⟩

/-- A pool partition of a core; unconfigured when the core has no pool. -/
def Core.poolPart (k : Core) (p : Nat) : PoolPart :=
  match k.pool with
  | some po => vget po.parts {} p
  | none => {}

def Core.setPoolPart (k : Core) (p : Nat) (q : PoolPart) : Core :=
  match k.pool with
  | some po => { k with pool := some { po with parts := vset po.parts p q } }
  | none => k

/-- Does core k hold a live pool of the launch (R252)? -/
def Core.poolOf (k : Core) (l : BitVec 10) : Bool :=
  match k.pool with
  | some po => po.launch = l && po.live
  | none => false

/-- Tell the requester of an allocation its handle (R258). Unit 4 is the XE. -/
def State.grant (s : State) (a : Alloc) (h : Word) : State :=
  let give (r : Option Request) : Option Request := r.map (fun x => { x with granted := some h })
  if a.unit.toNat = 4 then
    s.onCore a.core (fun k => { k with xrun := k.xrun.map (fun x => { x with request := give x.request }) })
  else s.onStrand a.core (a.unit.setWidth 2) (fun x => { x with request := give x.request })

/-- Serve a partition's queue: its oldest allocation takes the lowest FREE slot, while there are both (R256); fuel
bounds the allocations. -/
def servePool : Nat → State → Nat → Nat → State
  | 0, s, _, _ => s
  | fuel + 1, s, c, p =>
    let k := s.core c
    let q := k.poolPart p
    match q.queue, q.freeSlots with
    | a :: rest, n :: _ =>
      let x := q.slot n
      let own : BitVec 10 := match k.pool with | some po => po.launch | none => 0
      let q' := { q.setSlot n { x with st := .open_, reads := a.n, pend := 0, owner := own } with queue := rest }
      servePool fuel ((s.setCore c (k.setPoolPart p q')).grant a (handleOf c p n x.gen)) c p
    | _, _ => s

def State.serve (s : State) (c p : Nat) : State := servePool (((s.core c).poolPart p).queue.length) s c p

/-- A slot becomes FREE: its generation advances and every other field is 0 (R256). -/
def Slot.freed (x : Slot) : Slot := { gen := x.gen + 1 }

/-- Change one slot, and serve the queue when the slot has become FREE. -/
def State.putSlot (s : State) (c p n : Nat) (x : Slot) : State :=
  let s := s.onCore c (fun k => k.setPoolPart p ((k.poolPart p).setSlot n x))
  if x.st = .free then s.serve c p else s

/-- The pool of a launch on a core: its live pool there, or one that went away with a swapped team (R268). -/
def Core.poolFor (k : Core) (l : BitVec 10) : Option Pool :=
  if k.poolOf l then k.pool else k.away.find? (fun po => po.launch = l)

/-- The target of an allocation by core c (R258): its core and partition, or POOL(TARGET). -/
def poolTarget (s : State) (c : Nat) (l : BitVec 10) (t : Nat) : Except Trouble (Nat × Nat) :=
  if 2 ^ 7 ≤ t ∨ (bitsOf t 3 3 = 0 ∧ bitsOf t 6 4 ≠ 0) then .error (poolTrouble 7)
  else
    let d := if bitsOf t 3 3 = 1 then clusterOf c * 8 + bitsOf t 6 4 else c
    let p := t % 8
    match (s.core d).poolFor l with
    | none => .error (poolTrouble 7)
    | some po =>
      let q := vget po.parts {} p
      if q.count = 0 || (d ≠ c && !q.shared) then .error (poolTrouble 7) else .ok (d, p)

/-- Change the queue of one partition of a pool. -/
def Pool.onQueue (po : Pool) (p : Nat) (f : List Alloc → List Alloc) : Pool :=
  let q := vget po.parts {} p
  { po with parts := vset po.parts p { q with queue := f q.queue } }

/-- Queue an allocation of launch l on a partition and serve it (R256, R258); at a pool that is away it waits (R268). -/
def State.allocate (s : State) (d p : Nat) (l : BitVec 10) (a : Alloc) : State :=
  (s.onCore d (fun k =>
    if k.poolOf l then { k with pool := k.pool.map (·.onQueue p (· ++ [a])) }
    else { k with away := k.away.map (fun po => if po.launch = l then po.onQueue p (· ++ [a]) else po) })).serve d p

/-- Withdraw the allocation of a unit (R258, R299). -/
def State.withdraw (s : State) (d p c : Nat) (u : BitVec 3) : State :=
  let f (po : Pool) : Pool := po.onQueue p (fun l => l.filter (fun a => !(a.core = c && a.unit = u)))
  s.onCore d (fun k => { k with pool := k.pool.map f, away := k.away.map f })

/-- The checks TSEAL and TDROP make of a handle at the pool unit (R259, R260): the slot, or POOL(HANDLE), POOL(STATE) or
POOL(OWNER). -/
def handleSlotFor (s : State) (c h : Nat) (l : BitVec 10) (want : SlotState) : Except Trouble (Nat × Nat × Nat × Slot) :=
  let d := handleCore h
  let p := handlePart h
  let n := handleSlot h
  let q := (s.core d).poolPart p
  let x := q.slot n
  if bitsOf h 29 23 ≥ 96 ∨ clusterOf d ≠ clusterOf c ∨ q.count ≤ n ∨ x.st = .free ∨ x.gen.toNat ≠ handleGen h then
    .error (poolTrouble 3)
  else if x.st ≠ want then .error (poolTrouble 4)
  else if x.owner ≠ l then .error (poolTrouble 5)
  else .ok (d, p, n, x)

/-- TSEAL at the pool unit (R256, R259). -/
def State.seal (s : State) (c h : Nat) (l : BitVec 10) : Except Trouble State :=
  match handleSlotFor s c h l .open_ with
  | .error e => .error e
  | .ok (d, p, n, x) =>
    if x.reads = 0 then .ok (s.putSlot d p n x.freed)
    else
      let q := (s.core d).poolPart p
      let tag := (Memory.byte (s.core d).spad (q.base + n * q.size)).setWidth 4
      .ok (s.putSlot d p n { x with st := .sealed, tag := tag })

/-- m reads fewer on a SEALED slot; at 0 it becomes FREE (R256). -/
def Slot.less (x : Slot) (m : Nat) : Slot := if x.reads - m = 0 then x.freed else { x with reads := x.reads - m }

/-- TDROP at the pool unit (R256, R260). -/
def State.dropReads (s : State) (c h m : Nat) (l : BitVec 10) : Except Trouble State :=
  match handleSlotFor s c h l .sealed with
  | .error e => .error e
  | .ok (d, p, n, x) =>
    if x.reads - x.pend < m then .error (poolTrouble 6)
    else if m = 0 then .ok s
    else .ok (s.putSlot d p n (x.less m))

/-- The partition and slot of a pool that hold a range of scratchpad offsets wholly (R251, R262). -/
def Pool.slotOver (po : Pool) (off n : Nat) : Option (Nat × Nat) :=
  (List.range 8).findSome? (fun p =>
    let q := vget po.parts {} p
    let i := (off - q.base) / q.size
    if q.count ≠ 0 ∧ q.base ≤ off ∧ i < q.count ∧ off + n ≤ q.base + (i + 1) * q.size then some (p, i) else none)

/-- The core and offset of a byte range in a scratchpad of core c's cluster. -/
def spadPlace (c a : Nat) : Option (Nat × Nat) :=
  match winSplit (addr48 a) with
  | none => none
  | some (d, off) => if clusterOf d ≠ clusterOf c ∨ winRange off ≠ .spad then none else some (d, off)

/-- The slot of a launch's pool that holds a byte range wholly, for an access by core c (R262). -/
def slotHolding (s : State) (c : Nat) (l : BitVec 10) (a n : Nat) : Option (Nat × Nat × Nat) :=
  match spadPlace c a with
  | none => none
  | some (d, off) =>
    if !((s.core d).poolOf l) then none
    else match (s.core d).pool with
      | none => none
      | some po => (po.slotOver off n).map (fun e => (d, e.1, e.2))

/-- Does a check of the launch reach a core whose pool for the launch is away (R268)? -/
def slotAway (s : State) (c : Nat) (l : BitVec 10) (a : Nat) : Bool :=
  match spadPlace c a with
  | none => false
  | some (d, _) => !(s.core d).poolOf l && (s.core d).away.any (fun po => po.launch = l)

/-- What a consuming check answers (R256, R262). -/
inductive Consumed where
  | ok (s : State)
  | wait
  | stop (w : Trouble)

/-- The check of a consuming access (R262): PEND rises, or a POOL stop; at PEND 16,383, and while the pool is away
(R268), it waits. -/
def State.consumeCheck (s : State) (c : Nat) (l : BitVec 10) (a n : Nat) : Consumed :=
  match slotHolding s c l a n with
  | none => if slotAway s c l a then .wait else .stop (poolTrouble 2 (addr48 a))
  | some (d, p, i) =>
    let x := ((s.core d).poolPart p).slot i
    match x.st with
    | .open_ => .stop (poolTrouble 0 (addr48 a))
    | .free => .stop (poolTrouble 1 (addr48 a))
    | .sealed =>
      if x.reads ≤ x.pend then .stop (poolTrouble 1 (addr48 a))
      else if 16383 ≤ x.pend then .wait
      else .ok (s.putSlot d p i { x with pend := x.pend + 1 })

/-- The count of a consuming access (R256, R262): it cannot fail. -/
def State.consumeCount (s : State) (c : Nat) (l : BitVec 10) (a n : Nat) : State :=
  match slotHolding s c l a n with
  | none => s
  | some (d, p, i) =>
    let x := ((s.core d).poolPart p).slot i
    if x.st = .sealed ∧ 0 < x.pend then s.putSlot d p i ({ x with pend := x.pend - 1 }.less 1) else s

/-- Release the share of PEND of a check whose access is given up (R267). -/
def State.consumeRelease (s : State) (c : Nat) (l : BitVec 10) (a n : Nat) : State :=
  match slotHolding s c l a n with
  | none => s
  | some (d, p, i) =>
    let x := ((s.core d).poolPart p).slot i
    if 0 < x.pend then s.putSlot d p i { x with pend := x.pend - 1 } else s

/-- Reclaim a pool partition (R267): its OPEN and SEALED slots become FREE and their reads are abandoned. -/
def PoolPart.reclaim (q : PoolPart) : PoolPart :=
  let used := (List.range q.count).filter (fun n => (q.slot n).st ≠ .free)
  let lost := (used.map (fun n => (q.slot n).reads)).sum
  let q' := used.foldl (fun r n => r.setSlot n (r.slot n).freed) q
  { q' with abandon := satAdd32 q.abandon.toNat lost, queue := [] }

/-- Reads a reclaim of the pool would abandon. -/
def Pool.abandoned (po : Pool) : Nat :=
  (po.parts.toList.map (fun q => ((List.range q.count).map (fun n =>
    if (q.slot n).st = .free then 0 else (q.slot n).reads)).sum)).sum

def Pool.reclaim (po : Pool) : Pool := { po with live := false, parts := po.parts.map (·.reclaim) }

/-- The pool layout of a record (R251, R271): the configured partitions packed downward from the top of the scratchpad. -/
def layoutParts (cfg : List Nat) : List PoolPart :=
  (cfg.foldl (fun (r : List PoolPart × Nat) h =>
    let sz : BitVec 4 := BitVec.ofNat 4 h
    let n := bitsOf h 12 4
    let base := r.2 - n * (256 * 2 ^ sz.toNat)
    if n = 0 then (r.1 ++ [({} : PoolPart)], r.2)
    else (r.1 ++ [({ sz := sz, count := n, shared := bitsOf h 13 13 = 1, base := base } : PoolPart)], base)) ([], 524288)).1

/-- Bytes a layout takes (R251). -/
def layoutBytes (cfg : List Nat) : Nat := (cfg.map (fun h => bitsOf h 12 4 * (256 * 2 ^ (h % 16)))).sum

/-- The pool of a launch as its first team's start creates it (R252). -/
def State.newPool (s : State) (p i : Nat) : Pool :=
  let ps := layoutParts ((List.range 8).map (fun n => s.recField p i (144 + 2 * n) 2))
  { launch := BitVec.ofNat 10 i, parts := Vector.ofFn (fun j => ps.getD j.val {}) }

-- Power

/-- The capacity of a core's charge bucket at level L, and the refill of one tick (R322). -/
def capacity (l : Nat) : Nat := 64 * l
def refill (l : Nat) : Nat := 16 * l

/-- Set a strand's lease; when the level changes the balance is the new capacity (R322). -/
def Core.setLease (k : Core) (t : BitVec 2) (n : Nat) : Core :=
  let k' := k.setStrand t { k.strand t with lease := n }
  if k'.level = k.level then k' else { k' with balance := capacity k'.level }

/-- Leases granted on a die, and on a partition's share of it (R321, R326). -/
def State.leased (s : State) (d : Nat) : Nat :=
  ((s.dieCores d).map (fun c => ((s.core c).strands.toList.map (·.lease)).sum)).sum

def State.leasedPart (s : State) (d p : Nat) : Nat :=
  (((s.dieCores d).filter (fun c => s.partOf c = p)).map (fun c => ((s.core c).strands.toList.map (·.lease)).sum)).sum

/-- Grant a lease request (R324). -/
def State.grantLease (s : State) (d : Nat) (r : LeaseReq) : State :=
  let s := s.onDie d (fun x => { x with queue := x.queue.erase r })
  s.onCore r.core (fun k =>
    let k := k.setLease r.strand r.n
    k.setStrand r.strand { k.strand r.strand with
      request := (k.strand r.strand).request.map (fun q => { q with granted := some (BitVec.ofNat 64 r.n) }) })

/-- The power manager grants the head of its queue while it fits the remaining budget (R324); fuel bounds the grants. In
locked-clock mode it grants only at its own steps (R326). -/
def grantLeases : Nat → State → Nat → State
  | 0, s, _ => s
  | fuel + 1, s, d =>
    match (s.die d).queue with
    | [] => s
    | r :: _ => if s.leased d + r.n ≤ (s.die d).budget then grantLeases fuel (s.grantLease d r) d else s

def State.serveLeases (s : State) (d : Nat) : State :=
  if s.locked then s else grantLeases (s.die d).queue.length s d

/-- Release a strand's lease (R324, R325). -/
def State.releaseLease (s : State) (c : Nat) (t : BitVec 2) : State :=
  (s.onCore c (fun k => k.setLease t 0)).serveLeases (dieOf c)

/-- Withdraw a strand's request for a lease (R299); the requests it held back are served (R324). -/
def State.withdrawLease (s : State) (c : Nat) (t : BitVec 2) : State :=
  (s.onDie (dieOf c) (fun x => { x with queue := x.queue.filter (fun r => !(r.core = c && r.strand = t)) })).serveLeases (dieOf c)

/-- How a step of some cost meets the charge bucket of its core (R322, R323). -/
inductive Charge where
  | paid (k : Core)
  | wait
  | over

def Core.leased (k : Core) : Bool := k.strands.toList.any (fun x => x.lease ≠ 0)

/-- The debit of one step (R323); rank is its engine's place in the order V, M, X. A step whose engine comes before that of a debit of the
same core slot waits for the next slot. -/
def Core.charge (k : Core) (rank cost : Nat) : Charge :=
  let cap := capacity k.level
  let cost := if k.leased then cost else min cost cap
  if cap < cost then .over
  else if cost = 0 then .paid k
  else if k.balance < cost || (k.debit.1 = k.slotNo && rank < k.debit.2) then .wait
  else .paid { k with balance := k.balance - cost, debit := (k.slotNo, rank) }

end Sys2Proof.Machine
end

