-- ==== Sys2Proof/Machine/Lanes.lean ====
section
/-! DEFINITION. Vector lanes: types and widths (R127), active lanes and merging (R130), and what a V word reads at its
issue (R305). -/
namespace Sys2Proof.Machine

-- Types

/-- Element width of a type code (R127). -/
def tWidth (ty : Nat) : Nat :=
  match ty with
  | 0 => 8 | 1 => 4 | 2 => 4 | 3 => 8 | 4 => 8 | 5 => 16 | 6 => 16 | 7 => 32 | 8 => 32
  | 9 => 16 | 10 => 16 | 11 => 32 | 12 => 4 | 13 => 8 | 14 => 16 | _ => 64

/-- Lanes of a register (R127). -/
def tLanes (ty : Nat) : Nat := 4096 / tWidth ty

/-- Classes of types, and signedness (R127). -/
def tInt (ty : Nat) : Bool := 1 ≤ ty && ty ≤ 8
def tFloat (ty : Nat) : Bool := 9 ≤ ty && ty ≤ 11
def tBq (ty : Nat) : Bool := 12 ≤ ty && ty ≤ 14
def tSigned (ty : Nat) : Bool := (tInt ty && ty % 2 = 1) || tBq ty

/-- The binary format of a float type. -/
def tFmt (ty : Nat) : Fmt := if ty = 9 then fmtF16 else if ty = 10 then fmtBf16 else fmtF32

/-- Bits of a type's value: bq12 has 12 of its container's 16. -/
def tBits (ty : Nat) : Nat := if ty = 14 then 12 else tWidth ty

/-- The range of an integer or bq type. -/
def tMin (ty : Nat) : Int := if tSigned ty then -(2 ^ (tBits ty - 1)) else 0
def tMax (ty : Nat) : Int := if tSigned ty then 2 ^ (tBits ty - 1) - 1 else 2 ^ (tBits ty) - 1

/-- The integer of a lane pattern under a type (R127), and the pattern of an integer reduced mod 2^w. -/
def laneInt (ty n : Nat) : Int :=
  let m := n % 2 ^ tBits ty
  if tSigned ty && 2 ^ (tBits ty - 1) ≤ m then (m : Int) - 2 ^ tBits ty else m

def lanePattern (w : Nat) (z : Int) : Nat := (z % 2 ^ w).toNat

def clampTo (ty : Nat) (z : Int) : Int := max (tMin ty) (min (tMax ty) z)

-- Shape

/-- Fields of vshape (R128). -/
def shType (sh : BitVec 32) : Nat := bitsOf sh.toNat 3 0
def shVl (sh : BitVec 32) : Nat := bitsOf sh.toNat 14 4
def shKsel (sh : BitVec 32) : BitVec 3 := sh.extractLsb' 15 3
def shRm (sh : BitVec 32) : Rm := rmOf (sh.extractLsb' 18 2)
def shGmode (sh : BitVec 32) : Nat := bitsOf sh.toNat 21 20
def shGstat (sh : BitVec 32) : Bool := sh.getLsbD 22
def shSat (sh : BitVec 32) : Bool := sh.getLsbD 23
def shSlip (sh : BitVec 32) : Nat := bitsOf sh.toNat 27 24

-- Lanes

/-- Lane i of a register at width w (R126). -/
def laneOf (v : VReg) (w i : Nat) : Nat := v.toNat / 2 ^ (w * i) % 2 ^ w

/-- The i-th source lane of a captured word: register j, width w. -/
def Capture.lane (p : Capture) (j w i : Nat) : Nat := laneOf (p.vals.getD j 0) w i

/-- Is lane i active for a lane count n (R130)? -/
def Capture.active (p : Capture) (n i : Nat) : Bool := i < shVl p.shape && i < n && p.kval.getLsbD i

/-- The active lanes in ascending order. -/
def Capture.lanes (p : Capture) (n : Nat) : List Nat := (List.range n).filter (p.active n)

/-- Lane values laid into a register: the bits of the given lanes, and those bits' values. -/
def packLanes (w : Nat) : List (Option Nat) → Nat × Nat
  | [] => (0, 0)
  | o :: os =>
    let r := packLanes w os
    match o with
    | none => (r.1 * 2 ^ w, r.2 * 2 ^ w)
    | some v => (r.1 * 2 ^ w + (2 ^ w - 1), r.2 * 2 ^ w + v % 2 ^ w)

/-- A register write of the lanes that f gives a value. -/
def laneWrite (r : BitVec 5) (w n ty : Nat) (f : Nat → Option Nat) : VWrite :=
  let q := packLanes w ((List.range n).map f)
  .vreg r (BitVec.ofNat 4096 q.1) (BitVec.ofNat 4096 q.2) (BitVec.ofNat 4 ty)

/-- What a V word leaves: its writes and its flags. -/
abbrev VResult := List VWrite × FFlags

/-- A lanewise word into one register (R130): f gives an active lane's result and flags. -/
def lanewise (p : Capture) (vd : BitVec 5) (ty : Nat) (f : Nat → Nat × FFlags) : VResult :=
  let w := tWidth ty
  let n := tLanes ty
  let rs := (List.range n).map (fun i => if p.active n i then some (f i) else none)
  let q := packLanes w (rs.map (·.map (·.1)))
  ([.vreg vd (BitVec.ofNat 4096 q.1) (BitVec.ofNat 4096 q.2) (BitVec.ofNat 4 ty)],
    rs.foldl (fun fl o => match o with | some r => fl ||| r.2 | none => fl) 0)

/-- A lanewise word into a group of q registers (R145): element i goes to lane i / q of register vd + i mod q. -/
def groupwise (p : Capture) (vd : BitVec 5) (ty narrow q : Nat) (f : Nat → Nat × FFlags) : VResult :=
  let n := tLanes narrow
  let w := tWidth ty
  let rs := (List.range n).map (fun i => if p.active n i then some (f i) else none)
  let part (j : Nat) : VWrite :=
    laneWrite (vd + BitVec.ofNat 5 j) w (tLanes ty) ty (fun l => ((rs[l * q + j]?).bind id).map (·.1))
  ((List.range q).map part, rs.foldl (fun fl o => match o with | some r => fl ||| r.2 | none => fl) 0)

-- What a word reads at its issue

/-- The operands of a V word: its source registers in record order (R305), the registers whose tags its record holds
(R304), and its b-register. -/
structure VOperands where
  regs : List (BitVec 5) := []
  a    : Option (BitVec 5) := none
  b    : Option (BitVec 5) := none
  bn   : Option (BitVec 3) := none

/-- The q registers of a group from r on. -/
def groupRegs (r : BitVec 5) (q : Nat) : List (BitVec 5) := (List.range q).map (fun j => r + BitVec.ofNat 5 j)

/-- Capture the operands of a word as they stand. -/
def Strand.capture (x : Strand) (b : Vector Word 8) (o : VOperands) : Capture :=
  { shape := x.vshape
    tagA := match o.a with | some r => x.vtag r | none => 0
    tagB := match o.b with | some r => x.vtag r | none => 0
    b := match o.bn with | some n => vget b 0 n.toNat | none => 0
    regs := o.regs
    vals := o.regs.map x.vreg
    kval := x.kreg (shKsel x.vshape) }

/-- Merge selected bits of a register or mask. -/
def mergeBits {n : Nat} (old sel data : BitVec n) : BitVec n := (old &&& ~~~sel) ||| (data &&& sel)

/-- Apply one write of a V word of strand t (R126, R130, R134): a mask k0 takes no write. -/
def Core.applyV (k : Core) (t : BitVec 2) (w : VWrite) : Core :=
  match w with
  | .vreg r sel data tag => k.putVreg t r (mergeBits ((k.strand t).vreg r) sel data) tag
  | .mask n sel data =>
    let x := k.strand t
    if n = 0 then k
    else (k.setStrand t { x with k := vset x.k n.toNat (mergeBits (x.kreg n) sel data) }).markV t (·.markMask n)
  | .breg n v => { k with vrun := k.vrun.map (fun r => { r with b := vset r.b n.toNat v }) }
  | .shape v => k.setStrand t { k.strand t with vshape := v }

/-- A result lands: its writes, and its flags into FFLAGS (R78, R134) and among those of the entry (R129). -/
def Core.landResult (k : Core) (t : BitVec 2) (r : VResult) : Core :=
  let k := r.1.foldl (fun k w => k.applyV t w) k
  { k.setStrand t { k.strand t with fflags := (k.strand t).fflags ||| r.2 } with
    vrun := k.vrun.map (fun u => { u with flags := u.flags ||| r.2 }) }

-- Words of one destination that are under way together (R158, R162)

/-- The destination register of a load or VATM. -/
def vDest (i : Instr) : BitVec 5 :=
  match i with
  | .vld _ vd _ _ _ => vd
  | .vldc _ vd _ _ _ => vd
  | .vldx _ vd _ _ _ _ _ => vd
  | .vlds _ vd _ _ _ => vd
  | .vatm _ vd _ _ _ _ _ => vd
  | _ => 0

/-- The destination register of a predicate. -/
def predDest (i : Instr) : BitVec 5 :=
  match i with
  | .go2d _ vd _ _ => vd
  | .go3d _ vd _ _ => vd
  | .gic _ vd _ _ => vd
  | .gis _ vd _ _ => vd
  | .gsx _ vd _ => vd
  | _ => 0

/-- The vector registers that a token-completed word writes. -/
def VOp.dests (q : VOp) : List (BitVec 5) :=
  match q.op with
  | .vst .. => [] | .vstx .. => []
  | .go2d .. | .go3d .. | .gic .. | .gis .. | .gsx .. => if shGstat q.cap.shape then [predDest q.op, predDest q.op + 1] else [predDest q.op]
  | i => [vDest i]

def Over.bits (o : Over) (r : BitVec 5) : VReg := (o.filter (fun e => e.1 = r)).foldl (fun m e => m ||| e.2.1) 0
def Over.tag (o : Over) (r : BitVec 5) : Bool := o.any (fun e => e.1 = r && e.2.2)

/-- The bits of the lanes of width w that f chooses. -/
def lanesWhere (w : Nat) (f : Nat → Bool) : VReg :=
  BitVec.ofNat 4096 (packLanes w ((List.range (4096 / w)).map (fun i => if f i then some 0 else none))).1

/-- What a register write leaves where o says that another word has written its destination meanwhile: f chooses for each lane, and for
the tag as lane 1,024, whether the other's value stays. -/
def VWrite.meets (w : VWrite) (o : Over) (old : BitVec 5 → BitVec 4) (f : Nat → Bool) : VWrite :=
  match w with
  | .vreg r sel data tag =>
    if o.all (fun e => e.1 ≠ r) then w
    else .vreg r (sel &&& ~~~(o.bits r &&& lanesWhere (tWidth tag.toNat) f)) data (if o.tag r && f 1024 then old r else tag)
  | _ => w

/-- What a list of writes leaves for other words of their destinations to meet; tag: the tags have been written too. -/
def overOf (ws : List VWrite) (tag : Bool := true) : Over :=
  ws.filterMap (fun w => match w with | .vreg r sel _ _ => some (r, sel, tag) | _ => none)

/-- A fixed-latency word's writes have landed: the token words and the slipped loads of their destinations meet them. -/
def VRun.fixedLanded (r : VRun) (o : Over) : VRun :=
  let q (u : VOp) : VOp := { u with crossed := u.crossed ++ o.filter (fun e => u.dests.contains e.1) }
  { r with vlq := r.vlq.map q, vsq := r.vsq.map q, esu := r.esu.map q
           slip := r.slip.map (fun u => { u with crossed := u.crossed ++ o.filter (fun e => u.dest = e.1) }) }

/-- A token word's lanes have landed: the fixed-latency words of their destinations that are in flight meet them. -/
def VRun.tokenLanded (r : VRun) (o : Over) : VRun :=
  { r with flight := r.flight.map (fun u => { u with crossed := u.crossed ++ o.filter (fun e => (overOf u.writes).any (fun d => d.1 = e.1)) }) }

/-- Land the lanes of a register write that m selects, and its tag if tag says so (R18, R158). -/
def Core.landSome (k : Core) (t : BitVec 2) (w : VWrite) (m : VReg) (tag : Bool) : Core :=
  match w with
  | .vreg r sel data g =>
    if sel &&& m = 0 && !tag then k
    else k.applyV t (.vreg r (sel &&& m) data (if tag then g else (k.strand t).vtag r))
  | _ => k

/-- The part of a token word's register write that m selects lands, with its tag if tag says so (R18, R158); q is the word. -/
def Core.landToken (k : Core) (t : BitVec 2) (q : VOp) (w : VWrite) (m : VReg) (tag : Bool) : Core :=
  match k.vrun with
  | none => k
  | some r =>
    let w := w.meets q.crossed (k.strand t).vtag (Config.freeLand r.draw q.seq)
    let o := ((overOf [w] tag).map (fun e => (e.1, e.2.1 &&& m, e.2.2))).filter (fun e => e.2.1 ≠ 0 || e.2.2)
    { k with vrun := some (r.tokenLanded o) }.landSome t w m tag

/-- What has landed of a word once p has landed too. -/
def landedToo (a p : Early) : Early :=
  { lanes := a.lanes ||| p.lanes, tag := a.tag || p.tag, lanes' := a.lanes' ||| p.lanes', tag' := a.tag' || p.tag' }

/-- What lands at a step of a word of which a has landed: the part named, or at completion all the rest. -/
def landsNow (a : Early) (part : Option Early) : Early :=
  let p := part.getD { lanes := BitVec.allOnes 1024, tag := true, lanes' := BitVec.allOnes 1024, tag' := true }
  { lanes := p.lanes &&& ~~~a.lanes, tag := p.tag && !a.tag, lanes' := p.lanes' &&& ~~~a.lanes', tag' := p.tag' && !a.tag' }

/-- Write lanes of a load or of VATM, with the tag TYPE if tag says so (R158). -/
def Core.putSome (k : Core) (t : BitVec 2) (q : VOp) (l : List (Nat × Nat)) (tag : Bool) : Core :=
  let ty := shType q.cap.shape
  k.landToken t q (laneWrite (vDest q.op) (tWidth ty) (tLanes ty) ty (fun i => (l.find? (fun e => e.1 = i)).map (·.2)))
    (BitVec.allOnes 4096) tag

/-- The old values that VATM has read and that have not landed yet land: at a cut, and as it completes (R155, R156). -/
def VOp.landOlds (q : VOp) (k : Core) (t : BitVec 2) : Core :=
  if q.olds = [] then k else k.putSome t q (q.olds.filter (fun e => !q.early.lanes.getLsbD e.1)) (!q.early.tag)

/-- The same for the words of the running V entry that mine selects. -/
def Core.landOlds (k : Core) (mine : Entry → Bool) : Core :=
  match k.vrun with
  | none => k
  | some r => if mine r.entry then r.vsq.foldl (fun k q => q.landOlds k r.entry.strand) k else k

/-- Every fixed-latency write of the running V entry that is due by its slot lands, earlier slots first, in issue order
within a slot (R17, R134); where a load of the same destination has landed meanwhile, lane by lane either value stays (R158). -/
def Core.landV (k : Core) : Core :=
  match k.vrun with
  | none => k
  | some r =>
    let due := sortBy (·.due) (r.flight.filter (fun w => w.due ≤ r.slot))
    let k := { k with vrun := some { r with flight := r.flight.filter (fun w => r.slot < w.due) } }
    due.foldl (fun k w =>
      let t := r.entry.strand
      let ws := w.writes.map (fun x => x.meets w.crossed (k.strand t).vtag (Config.freeLand r.draw w.seq))
      let k := k.landResult t (ws, w.flags)
      { k with vrun := k.vrun.map (fun u => u.fixedLanded (overOf ws)) }) k

end Sys2Proof.Machine
end

