-- ==== Sys2Proof/Machine/Ops.lean ====
section
/-! DEFINITION. The shared operations of the steps: the issue of an S word (R62 to R66), the scalar queues (R92 to R104),
the end of an entry (R111 to R114), taking a stop (R296 to R308) and the checks of RESUME (R309, R310). -/
namespace Sys2Proof.Machine

/-- What a meaning answers: exec always gives a next state (log entry 10). -/
abbrev Out := Host.Outcome State Fault Refusal

-- Issue of an S word

/-- Advance one of a core's eight counters (R334). -/
def Core.tally (k : Core) (i n : Nat) : Core :=
  { k with counters := vset k.counters i (vget k.counters 0 i + BitVec.ofNat 32 n) }

/-- The current strand of the core in focus. -/
def State.curStrand (s : State) : BitVec 2 := (s.core s.focus).cur
def State.cur (s : State) : Strand := s.strand s.focus s.curStrand

/-- The own slot of an issued word (R62, R63): the own-slot number advances, the CTL mark and a taken branch (extra) leave
empty slots owed, and the next word comes from pc. -/
def Strand.advance (x : Strand) (ctl : BitVec 2) (extra : Nat) (pc : Word) (tick : Nat) : Strand :=
  { x with slots := x.slots + 1, owed := x.owed + gapOf ctl + extra, pc := pc, noBrk := false, lastTick := tick }

/-- The core's share of an issued word (R64): the current strand has held one slot more, and CTL 3 marks a switch. -/
def Core.held1 (k : Core) (ctl : BitVec 2) : Core :=
  { k with held := k.held + 1, switch := k.switch || ctl = 3 }.tally 0 1

/-- After its 64th own slot as the current strand a strand gives the SQ up (R64). -/
def Core.forceSwitch (k : Core) : Core := if 64 ≤ k.held then { k with switch := true } else k

/-- A strand that owes empty slots spends one of them as an own slot (R63); the current strand's counts towards its 64
(R64). -/
def Core.spendEmpty (k : Core) (t : BitVec 2) : Core :=
  let x := (k.strand t).landDue
  if x.life ≠ .running ∨ x.owed = 0 then k
  else
    let k := (k.setStrand t { x with slots := x.slots + 1, owed := x.owed - 1 }).tally 1 1
    if k.cur = t then { k with held := k.held + 1 } else k

/-- A word of the current strand of the core in focus issues, with its own effect f on the strand. -/
def State.issue (s : State) (ctl : BitVec 2) (extra : Nat) (pc : Word) (f : Strand → Strand) : State :=
  let t := s.curStrand
  s.onCore s.focus (fun k => (k.setStrand t ((f (k.strand t)).advance ctl extra pc s.tick)).held1 ctl)

/-- The word after the current one. -/
def State.nextPc (s : State) : Word := s.cur.pc + 4

/-- Put a fixed-latency result in flight (R17, R66). -/
def Strand.fly (x : Strand) (i : Instr) (a b : Word) (lk : Links) : Strand :=
  match fixedResult i a b with
  | none => x
  | some (d, v) =>
    { x with
      flight := x.flight ++ [{ due := x.slots + fixedLatency i, dest := d, val := v, op := i, opa := a, opb := b,
                               links := lk, id := x.nextId }]
      nextId := x.nextId + 1 }

/-- A fixed-latency word of the operands a and b, read from the registers ra and rb (s0 where it reads none). -/
def State.fixedWord (s : State) (i : Instr) (ctl : BitVec 2) (a b : Word) (ra rb : BitVec 5) : State :=
  s.issue ctl 0 s.nextPc (fun x => x.fly i a b (x.linkOf ra rb))

/-- A word of two register operands. -/
def State.aluWord (s : State) (i : Instr) (ctl : BitVec 2) (ra rb : BitVec 5) : State :=
  s.fixedWord i ctl (s.cur.sreg ra) (s.cur.sreg rb) ra rb

/-- A word whose record holds its result (R304). -/
def State.resultWord (s : State) (i : Instr) (ctl : BitVec 2) (v : Word) : State := s.fixedWord i ctl v 0 0 0

-- Taking a stop

/-- The code of a cause (R296). -/
def Cause.code : Cause → Nat
  | .none => 0 | .illegal => 1 | .format => 2 | .pool => 3 | .poolstall => 4 | .geom => 5 | .xlate => 6 | .align => 7
  | .window => 8 | .semovf => 9 | .event => 10 | .power => 11 | .priv => 12 | .ecc => 13 | .trap => 16 | .brk => 17
  | .sysc => 18 | .halt => 19 | .preempt => 24 | .debug => 25 | .watchdog => 26

/-- Stop a strand (R299): it issues nothing from now on, so that the cut falls at its next own slot. A strand that is
stopping or stopped takes no further stop (R308); one that resumes takes the stop at its first own slot (log entry 71). The stop is
delivered by STOP_DELIVERY. -/
def Strand.stopFor (x : Strand) (st : Stop) : Strand :=
  if x.stop ≠ none then x
  else if x.life = .running then { x with life := .stopped, stop := some st }
  else if x.life = .resuming then { x with stop := some st }
  else x

/-- A stop found in an access that performs after its strand's END (R106, R124): the strand takes it like any other. -/
def Strand.stopLate (x : Strand) (st : Stop) : Strand :=
  if x.life = .ended ∧ x.stop = none then { x with life := .stopped, stop := some st } else x.stopFor st

def State.stopStrand (s : State) (c : Nat) (t : BitVec 2) (st : Stop) : State :=
  s.onStrand c t (fun x => x.stopFor { st with slot := (s.core c).slotNo, tick := s.tick })

/-- An S word that faults at its issue (R299, R301): it takes its own slot and owes its CTL mark's empty slots, performs
nothing, and is the last S-op record with the operands a and b it read. -/
def State.faultWord (s : State) (i : Instr) (ctl : BitVec 2) (pc : Word) (w : Trouble) (a b : Word)
    (lk : Links := []) : State :=
  s.issue ctl 0 pc (fun x =>
    x.stopFor { why := w, at_ := .issue (some { due := 0, dest := .sreg 0, val := 0, op := i, opa := a, opb := b,
                                                links := lk, id := x.nextId })
                slot := (s.core s.focus).slotNo, tick := s.tick })

/-- A stop word (R307): it takes its own slot and no record stands for it. -/
def State.stopWord (s : State) (ctl : BitVec 2) (pc : Word) (w : Cause) (tnum : BitVec 14) : State :=
  s.issue ctl 0 pc (fun x => x.stopFor { why := ⟨w, 0, 0⟩, at_ := .issue none, tnum := tnum, slot := (s.core s.focus).slotNo, tick := s.tick })

-- The scalar queues

/-- Is the item a MARK or FENCE, which holds an entry in each queue (R92), and not a semaphore wait? -/
def FenceItem.holds (f : FenceItem) : Bool := match f.op with | .semw .. => false | _ => true

/-- Is the load queue or the store queue full (R92)? Every MARK and FENCE holds an entry in each. -/
def Strand.fencesHeld (x : Strand) : Nat := (x.fences.filter (·.holds)).length
def Strand.loadsFull (x : Strand) : Bool := Config.scalarQueueDepth ≤ x.loads.length + x.fencesHeld
def Strand.storesFull (x : Strand) : Bool := Config.scalarQueueDepth ≤ x.stores.length + x.fencesHeld

/-- The kind of a MARK or FENCE: MARK orders all as SC does, at strand scope (R95, R99), and so does a semaphore wait (R103). -/
def fenceKind (i : Instr) : Nat := match i with | .fence _ k _ => k.toNat | _ => 3

/-- Does the fence order an earlier access (a load or atomic when early) before a later one (of the store queue when
late) (R99)? -/
def fenceOrders (kind : Nat) (early late : Bool) : Bool :=
  match kind with
  | 0 => early
  | 1 => late
  | 2 => early || late
  | _ => true

/-- The scope code of a fence's acquire half; 0 when it has none (R95, R99). -/
def fenceAcquire (i : Instr) : Nat :=
  match i with
  | .fence _ k sc => if k = 1 then 0 else sc.toNat
  | _ => 0

/-- The scope code of a fence's release half; 0 when it has none (R99). -/
def fenceRelease (i : Instr) : Nat :=
  match i with
  | .fence _ k sc => if k = 0 then 0 else sc.toNat
  | _ => 0

/-- Accesses of the queues issued before id, with whether each is a load or an atomic. -/
def Strand.earlier (x : Strand) (id : Nat) : List Bool :=
  ((x.loads.filter (fun q => q.id < id)).map (fun _ => true)) ++
  ((x.stores.filter (fun q => q.id < id)).map (fun q => isAtomic q.op))

/-- Has the acquire half of a fence nothing to wait for (R99)? SC and MARK wait for all, the others for loads and
atomics. -/
def Strand.fenceFires (x : Strand) (f : FenceItem) : Bool :=
  if fenceKind f.op = 3 then (x.earlier f.id).isEmpty else (x.earlier f.id).all (fun e => !e)

/-- Has every earlier access the fence orders performed (R92)? -/
def Strand.fenceRetires (x : Strand) (f : FenceItem) : Bool :=
  if fenceKind f.op = 0 then (x.earlier f.id).all (fun e => !e) else (x.earlier f.id).isEmpty

/-- Let the fences of a strand take effect and retire (R92, R99): a release is complete, and an acquire drops the cache's lines (R101).
The entries dispatched after a release of core scope or wider come after every acquire made before it (R104). -/
def State.settleFences (s : State) (c : Nat) (t : BitVec 2) : State :=
  let x := s.strand c t
  let scope := (x.fences.filter (fun f => !f.fired && x.fenceFires f)).foldl (fun m f => max m (fenceAcquire f.op)) 0
  let out := (x.fences.filter (fun f => (f.fired || x.fenceFires f) && x.fenceRetires f)).foldl (fun m f => max m (fenceRelease f.op)) 0
  let s := (s.release c out).acquire c scope
  s.onStrand c t (fun y =>
    let fs := y.fences.map (fun f => { f with fired := f.fired || y.fenceFires f })
    { y with fences := fs.filter (fun f => !(f.fired && y.fenceRetires f))
             since := if 1 ≤ out then (s.cluster (clusterOf c)).epoch else y.since })

/-- Is the word a store or an atomic of R99, or a release, which FENCE.REL holds? SEMI, LPAT and EVA are none of these (R118, R289). -/
def fenceLate (i : Instr) : Bool := match i with | .semi .. | .lpat .. | .eva .. => false | _ => true

/-- Is a queued access held by an earlier MARK or FENCE (R95, R99)? late: it is a store, an atomic or a release. -/
def Strand.fenceHolds (x : Strand) (id : Nat) (late : Bool) : Bool :=
  x.fences.any (fun f => f.id < id &&
    ((!f.fired && fenceAcquire f.op ≠ 0) || (x.earlier f.id).any (fun e => fenceOrders (fenceKind f.op) e late)))

/-- Put a word into the load queue or the store queue (R92). A word whose queue is full waits: nothing changes. -/
def State.enqueue (s : State) (load : Bool) (i : Instr) (ctl : BitVec 2) (a b ext : Word)
    (lk : Links) : State :=
  let x := s.cur
  if (if load then x.loadsFull else x.storesFull) then s
  else s.issue ctl 0 s.nextPc (fun y =>
    let q : QItem :=
      { id := y.nextId, op := i, opa := a, opb := b, ext := ext, links := lk, tick := s.tick, slot := (s.core s.focus).slotNo }
    if load then { y with loads := y.loads ++ [q], nextId := y.nextId + 1 }
    else { y with stores := y.stores ++ [q], nextId := y.nextId + 1 })

/-- Issue a MARK or FENCE into both queues (R92, R95, R99). -/
def State.enterFence (s : State) (i : Instr) (ctl : BitVec 2) : State :=
  let x := s.cur
  if x.loadsFull || x.storesFull then s
  else (s.issue ctl 0 s.nextPc (fun y =>
    { y with fences := y.fences ++ [{ id := y.nextId, op := i }], nextId := y.nextId + 1 })).settleFences s.focus s.curStrand

/-- What performing a queued word comes to: it performs, with the value for its register; it stops; or it waits. -/
inductive Perf where
  | done (s : State) (res : Option Word)
  | fault (w : Trouble)
  | busy

/-- The operation of an atomic on n-byte values (R96). -/
def atomicOp (op n : Nat) (old b : Nat) : Nat :=
  let w := 8 * n
  let sx (v : Nat) : Int := if 2 ^ (w - 1) ≤ v then (v : Int) - 2 ^ w else v
  match op with
  | 0 => (old + b) % 2 ^ w
  | 1 => if sx b < sx old then b else old
  | 2 => if sx old < sx b then b else old
  | 3 => min old b
  | 4 => max old b
  | 5 => old &&& b
  | 6 => old ||| b
  | 7 => old ^^^ b
  | 8 => b
  | _ => (fAdd fmtF32 .rne false old b).1

/-- Sign extension of an n-byte value to 64 bits. -/
def sextBytes (n v : Nat) : Word :=
  if 2 ^ (8 * n - 1) ≤ v then BitVec.ofNat 64 (v + (2 ^ 64 - 2 ^ (8 * n))) else BitVec.ofNat 64 v

/-- Is the accumulator tile that an address names in use by a running M entry (R187)? -/
def State.tileBusy (s : State) (a : Nat) : Bool :=
  match accTile a with
  | some (c, n) => (match (s.core c).mrun with | some r => r.uses.contains n | none => false)
  | none => false

/-- Where a scalar access performs: natural alignment (R93), the window's rules (R83) or translation (R88). -/
def State.scalarTarget (s : State) (c a n : Nat) (acc : Acc) (th : Bool) : Except Trouble Nat :=
  let a := addr48 a
  if a % n ≠ 0 then .error (alignTrouble a)
  else match resolve s c a acc th with
    | .error e => .error e
    | .ok pa =>
      match winSplit pa with
      | none => .ok pa
      | some (_, off) =>
        if acc = .atomic ∧ winRange off ≠ .spad then .error (windowTrouble a)
        else if !winSizeOk off n then .error (alignTrouble a)
        else .ok pa

/-- The atomic action at a location by a strand by_ or an entry of core c (R96 to R98): the stores that go there before it have reached
their homes (R101), and every cluster's copy of the line is brought up to date. -/
def State.atomicAt (s : State) (c pa n : Nat) (by_ : Option (BitVec 2)) (f : Nat → Nat) : Nat × State :=
  let s := countAtomic s (dieOf c) pa
  let k := clusterOf c
  let s := s.bringHome k (neededFirst (s.cluster k).pending
    { pa := pa, bytes := List.replicate n 0, stack := stackOf s pa, by_ := by_.map (fun t => (c, t)) })
  let old := leValue (physRead s pa n)
  let bs := leBytes n (f old)
  let s := physWrite s pa bs 0
  (old, s.clusters.foldl (fun r e => updateLines r e.1 pa bs) s)

/-- A load of n bytes (R93). -/
def performLoad (s : State) (c a n : Nat) (signed th stale : Bool) : Perf :=
  match s.scalarTarget c a n .load th with
  | .error e => .fault e
  | .ok pa =>
    if s.tileBusy pa then .busy
    else
      let (bs, s') := loadPhys s c pa n stale
      .done s' (some (if signed then sextBytes n (leValue bs) else BitVec.ofNat 64 (leValue bs)))

/-- A store of n bytes by strand t (R94). -/
def performStore (s : State) (c : Nat) (t : BitVec 2) (a n : Nat) (v : Word) (th near : Bool) : Perf :=
  match s.scalarTarget c a n .store th with
  | .error e => .fault e
  | .ok pa => if s.tileBusy pa || s.portShut c pa then .busy else .done (storePhys s c pa (leBytes n v.toNat) 0 near (some t)) none

/-- ATM and ACAS (R96, R97). -/
def performAtomic (s : State) (c : Nat) (t : BitVec 2) (a n : Nat) (f : Nat → Nat) (th : Bool) : Perf :=
  match s.scalarTarget c a n .atomic th with
  | .error e => .fault e
  | .ok pa =>
    if s.portShut c pa then .busy
    else
      let (old, s') := s.atomicAt c pa n (some t) f
      .done s' (some (sextBytes n old))

/-- The semaphore a window address names, or the stop of its checks: WINDOW, then ALIGN (R118). -/
def semTarget (s : State) (c a : Nat) : Except Trouble (Nat × Nat) :=
  match winCheck s (s.partOf c) (addr48 a) with
  | .error e => .error e
  | .ok (d, off) =>
    if winRange off ≠ .sem then .error (windowTrouble (addr48 a))
    else if off % 4 ≠ 0 then .error (alignTrouble (addr48 a))
    else match s.eccAt (dieOf c) (addr48 a) with
      | some n => .error (eccTrouble n)
      | none => .ok (d, (off - 0x30_1000) / 4)

/-- A signal from core c to semaphore m of core d (R118, R120): SEMOVF leaves it unchanged; one from another cluster is a
release of die scope or wider (R101). -/
def performSignal (s : State) (c d m n : Nat) : Perf :=
  let s := s.release c (distance c d)
  let k := s.core d
  if s.portClosed c d then .busy
  else match (if 3 ≤ distance c d then { k with semFar := Sparse.set false k.semFar m true } else k).semAdd m n with
  | some k => .done (s.setCore d k) none
  | none => .fault ⟨.semovf, 0, 0⟩

/-- A granted wait on semaphore m of core c (R117): it drops the cluster cache's lines when a release it synchronises with
had die scope or wider. -/
def State.semAcquire (s : State) (c m : Nat) : State :=
  if Sparse.get false (s.core c).semFar m then s.acquire c 3 else s

def ofExcept (r : Except Trouble State) : Perf := match r with | .ok s => .done s none | .error e => .fault e

/-- The event that a word of core c names: EVENT when it is not reserved (R289), ECC when a failed link lies before its table (R288,
R357). -/
def State.reachEvent (s : State) (c n : Nat) : Except Trouble Event :=
  match s.event (s.partOf c) n with
  | none => .error ⟨.event, 0, 0⟩
  | some e => if s.linkDown (dieOf c) (n % 4) then .error (eccTrouble 4) else .ok e

/-- Post or arm an event by name (R289). -/
def performEvent (s : State) (c n : Nat) (f : Event → Event) : Perf :=
  match s.reachEvent c n with
  | .ok e => .done (s.setEvent (s.partOf c) n (f e)) none
  | .error w => .fault w

/-- The bank a task record's TARGET names (R283). -/
def taskTarget (c : Nat) (target : Nat) : Nat :=
  if target = 0xFFFF then clusterOf c else bitsOf target 8 7 * 96 + target % 128

/-- Does a task record break QPOST's rules (R283, R284)? A cluster outside the partition counts as one (log entry 21). -/
def taskBad (s : State) (p : Nat) (c : Nat) (r : List Byte) : Bool :=
  let ev (n : Nat) : Bool := n ≠ 0xFFFF && (s.event p n).isNone
  let tg := taskField r 38 2
  8 ≤ taskField r 36 1 || 3 ≤ taskField r 37 1 || ev (taskField r 32 2) || ev (taskField r 34 2)
    || (tg ≠ 0xFFFF && (2 ^ 9 ≤ tg || 96 ≤ tg % 128)) || (s.cluster (taskTarget c tg)).part ≠ p

/-- Does an address lie in a stop-record area, which only LD, LDN and ST reach (R302)? -/
def inArea (pa : Nat) : Bool := match winSplit pa with | some (_, off) => winRange off = .area | none => false

/-- The ECC subcause of a post from die d to the bank of cluster k: a failed link (R357) or a fenced cluster (R314). -/
def State.eccBank (s : State) (d k : Nat) : Option Nat :=
  if s.linkDown d (k / 96) then some 4 else if (s.cluster k).fenced then some 3 else none

/-- QPOST (R284): FORMAT of the record, and waiting while bank and ring are full, or for a tile in use that holds the record (R187). -/
def performPost (s : State) (c a : Nat) (th : Bool) : Perf :=
  let p := s.partOf c
  if addr48 a % 64 ≠ 0 then .fault (alignTrouble (addr48 a))
  else match resolve s c a .load th with
    | .error e => .fault e
    | .ok pa =>
      if inArea pa then .fault (windowTrouble (addr48 a))
      else if s.tileBusy pa then .busy else
      let (r, s') := loadPhys s c pa 64 false
      if taskBad s p c r then .fault ⟨.format, 0, 0⟩
      else
        let k := taskTarget c (taskField r 38 2)
        match s.eccBank (dieOf c) k with
        | some n => .fault (eccTrouble n)
        | none => if (s.cluster k).full then .busy else
          let s' := s'.onCluster k (fun x => x.postTask (BitVec.ofNat 3 (taskField r 36 1)) (BitVec.ofNat 64 a) r)
          .done (discardPoisoned (s'.taskCount + 1) p s') none

/-- QDONE (R284): post the event the record names; 0xFFFF posts nothing. -/
def performDone (s : State) (c a : Nat) (th : Bool) : Perf :=
  match s.scalarTarget c (a + 34) 2 .load th with
  | .error e => .fault e
  | .ok pa => if inArea pa then .fault (windowTrouble (addr48 (a + 34))) else
  match performLoad s c (a + 34) 2 false th false with
  | .done s' (some n) => if n = 0xFFFF then .done s' none else performEvent s' c n.toNat Event.post
  | .done s' none => .done s' none
  | .fault e => .fault e
  | .busy => .busy

/-- Perform one word of the scalar queues for strand t of core c, with the operands its record would hold (R304). th: the
TH check is made; stale: a load is served from the cluster cache, and a store performs there (R101). -/
def perform (s : State) (c : Nat) (t : BitVec 2) (i : Instr) (a b ext : Word) (th stale : Bool) : Perf :=
  let l := (s.strand c t).lridx
  let p := s.partOf c
  match i with
  | .ld _ _ _ _ sz => performLoad s c a.toNat (2 ^ sz.toNat) true th stale
  | .ldn _ _ _ _ sz => performLoad s c a.toNat (2 ^ sz.toNat) false th stale
  | .st _ _ _ _ sz _ => performStore s c t a.toNat (2 ^ sz.toNat) b th stale
  | .atm _ _ _ _ op sz _ =>
    let n := 2 ^ sz.toNat
    performAtomic s c t a.toNat n (fun old => atomicOp op.toNat n old (b.toNat % 2 ^ (8 * n))) th
  | .acas _ _ _ _ sz _ =>
    let n := 2 ^ sz.toNat
    performAtomic s c t a.toNat n (fun old => if old = ext.toNat % 2 ^ (8 * n) then b.toNat % 2 ^ (8 * n) else old) th
  | .sems _ _ num => performSignal s c c num.toNat (a.toNat % 2 ^ 32)
  | .semsAddress _ _ _ =>
    match semTarget s c a.toNat with
    | .ok (d, m) => performSignal s c d m (b.toNat % 2 ^ 32)
    | .error e => .fault e
  | .semi _ _ num => .done (s.onCore c (fun k => (k.setSem num.toNat (a.setWidth 32)).wake)) none
  | .tseal _ _ => ofExcept (s.seal c (a.toNat % 2 ^ 32) l)
  | .tdrop _ _ _ => ofExcept (s.dropReads c (a.toNat % 2 ^ 32) b.toNat l)
  | .lpat _ _ _ field => ofExcept (s.lpat p a.toNat field.toNat b)
  | .larm _ _ => ofExcept ((s.release c 4).larm p a.toNat)
  | .evp _ _ => performEvent (s.release c 4) c (a.toNat % 2 ^ 16) Event.post
  | .eva _ _ _ => performEvent s c (a.toNat % 2 ^ 16) (fun e => e.arm (b.setWidth 32) (some l))
  | .qpost _ _ => performPost (s.release c 4) c a.toNat th
  | .qdone _ _ => performDone (s.release c 4) c a.toNat th
  | _ => .done s none

/-- Is the word a release that performs after every earlier access of the strand (R118, R259, R278, R284, R289)? -/
def isReleaseWord (i : Instr) : Bool :=
  match i with
  | .sems .. => true | .semsAddress .. => true | .tseal .. => true | .tdrop .. => true | .larm .. => true
  | .evp .. => true | .qpost .. => true | .qdone .. => true
  | _ => false

/-- The bytes a load or store word touches, as a physical range, when its address resolves. -/
def itemRange (s : State) (c : Nat) (q : QItem) : Option (Nat × Nat) :=
  let size : Option (BitVec 2 × Acc) := match q.op with
    | .ld _ _ _ _ sz => some (sz, .load) | .ldn _ _ _ _ sz => some (sz, .load) | .st _ _ _ _ sz _ => some (sz, .store)
    | .atm _ _ _ _ _ sz _ => some (sz, .atomic) | .acas _ _ _ _ sz _ => some (sz, .atomic)
    | _ => none
  match size with
  | none => none
  | some (sz, acc) => match resolveIn s (s.partOf c) q.opa.toNat acc false with
    | .ok pa => some (pa, 2 ^ sz.toNat)
    | .error _ => none

/-- May the head of the store queue perform: no fence holds it, a release follows every earlier access, and no earlier
outstanding load reads what it writes (R99, R103, R118)? -/
def State.storeReady (s : State) (c : Nat) (x : Strand) (q : QItem) : Bool :=
  !(x.fenceHolds q.id (fenceLate q.op)) &&
  (if isReleaseWord q.op then !(x.loads.any (fun l => l.id < q.id))
   else match itemRange s c q with
    | none => true
    | some r => (x.loads.filter (fun l => l.id < q.id)).all (fun l =>
        match itemRange s c l with | some u => !overlap r u | none => true))

/-- Is the strand stopping for a stop found in an earlier core slot than now? In the slot of the first stop others may still be found
(R301). -/
def Strand.halting (x : Strand) (now : Nat) : Bool := match x.stop with | some st => st.slot ≠ now | none => false

/-- A queued word is found to fault (R299, R300): it stays in its queue with its trouble, and its strand stops. -/
def State.queueFault (s : State) (c : Nat) (t : BitVec 2) (load : Bool) (id : Nat) (w : Trouble) : State :=
  s.onStrand c t (fun x =>
    let mark (q : QItem) : QItem := if q.id = id then { q with flt := some w } else q
    (if load then { x with loads := x.loads.map mark } else { x with stores := x.stores.map mark }).stopLate
      { why := w, at_ := .queue id, slot := (s.core c).slotNo, tick := s.tick })

/-- Write a loaded value to its register (R93, R96). -/
def Strand.takeLoad (x : Strand) (i : Instr) (res : Option Word) : Strand :=
  match loadDest i, res with
  | some rd, some v => x.setSreg rd v
  | _, _ => x

/-- May a queued word be checked now? A translated access is checked no earlier than the third core slot after the one it
issued in (R318). -/
def QItem.due (k : Core) (q : QItem) : Bool :=
  match q.op with
  | .ld .. | .ldn .. | .st .. | .atm .. | .acas .. => isWindow (addr48 q.opa.toNat) || q.slot + 3 ≤ k.slotNo
  | _ => true

/-- The head of the load queue performs (R93). -/
def State.loadStep (s : State) (c : Nat) (t : BitVec 2) (stale : Bool) : State :=
  let x := s.strand c t
  match x.loads with
  | [] => s
  | q :: rest =>
    if x.halting (s.core c).slotNo || q.flt.isSome || x.fenceHolds q.id false then s
    else match perform s c t q.op q.opa q.opb q.ext true stale with
      | .busy => s
      | .fault w => s.queueFault c t true q.id w
      | .done s' res => (s'.onStrand c t (fun y => { y.takeLoad q.op res with loads := rest })).settleFences c t

/-- The head of the store queue performs (R92, R94, R96, R97, R118); near: a store performs in the cluster cache (R101), a word that
no release holds performs before the fences ahead of it have taken effect (R99, R289), and those behind it wait for the next step. -/
def State.storeStep (s : State) (c : Nat) (t : BitVec 2) (near : Bool) : State :=
  let s := match (s.strand c t).stores with | q :: _ => if near && !fenceLate q.op then s else s.settleFences c t | [] => s.settleFences c t
  let x := s.strand c t
  match x.stores with
  | [] => s
  | q :: rest =>
    if x.halting (s.core c).slotNo || q.flt.isSome || !(s.storeReady c x q) then s
    else match perform s c t q.op q.opa q.opb q.ext true near with
      | .busy => s
      | .fault w => s.queueFault c t false q.id w
      | .done s' res =>
        let s' := s'.onStrand c t (fun y => { y.takeLoad q.op res with stores := rest })
        if near then s' else s'.settleFences c t

-- Kernel descriptors and blocks

/-- Bytes the device reads for itself at a virtual address; 0 where it does not resolve. -/
def devRead (s : State) (p a n : Nat) : Nat :=
  match resolveIn s p a .load false with
  | .ok pa => leValue (physRead s pa n)
  | .error _ => 0

/-- A field of the kernel descriptor of a launch (R343). -/
def kdescField (s : State) (p : Nat) (l : BitVec 10) (off n : Nat) : Nat :=
  devRead s p (s.recField p l.toNat 160 8 + off) n

def engIndex (en : Eng) : Nat := match en with | .v => 0 | .m => 1 | .x => 2

/-- Where block blk of an engine's section lies (R343): section base, its words and the block's first word; none when the
block does not exist (R59). -/
def blockOf (s : State) (p : Nat) (l : BitVec 10) (en : Eng) (blk : Nat) : Option (Word × Nat × Nat) :=
  if kdescField s p l (48 + 2 * (engIndex en)) 2 ≤ blk then none
  else some (BitVec.ofNat 64 (kdescField s p l (8 + 8 * (engIndex en)) 8), kdescField s p l (36 + 4 * (engIndex en)) 4,
    kdescField s p l (64 + 512 * (engIndex en) + 2 * blk) 2)

/-- An engine's stream. -/
def engStream (en : Eng) : Stream := match en with | .v => .v | .m => .m | .x => .x

/-- The code word at index idx of an entry (R58, R59): the trouble of its fetch, or ILLEGAL past the section or the 256th
word. -/
def entryCode (s : State) (c : Nat) (e : Entry) (idx : Nat) : Except Trouble Code :=
  if 256 ≤ idx ∨ e.words ≤ e.start + idx then .error ⟨.illegal, 0, 0⟩
  else
    match resolve s c (e.base.toNat + 4 * (e.start + idx)) .fetch false with
    | .error w => .error w
    | .ok pa => .ok (s.codeAt c pa e.launch)

/-- What an engine meets at word idx of an entry (R45): a word, the trouble of its fetch, or ILLEGAL. -/
def entryWord (s : State) (c : Nat) (en : Eng) (e : Entry) (idx : Nat) : Except Trouble Instr :=
  match entryCode s c e idx with
  | .error w => .error w
  | .ok w => match decode (engStream en) w with
    | .ok i => .ok i
    | .error _ => .error ⟨.illegal, 0, 0⟩

/-- Where a block goes on after a word with end bit e at index idx, in pass number pass of a repeat (R60): the next index and
pass, the repeat still under way, and whether the block has ended. E counts on a word's final pass only. -/
def blockNext (idx pass : Nat) (rep : Option Repeat) (e : Bool) : Nat × Nat × Option Repeat × Bool :=
  match rep with
  | none => (idx + 1, 0, none, e)
  | some r =>
    if idx + 1 < r.first + r.n then (idx + 1, pass, rep, false)
    else if pass + 1 < r.k then (r.first, pass + 1, rep, false)
    else (idx + 1, 0, none, e)

def MRun.next (r : MRun) (e : Bool) : MRun :=
  let (i, p, rp, en) := blockNext r.idx r.pass r.rep e
  { r with idx := i, pass := p, rep := rp, ended := en }

def XRun.next (r : XRun) (e : Bool) : XRun :=
  let (i, p, rp, en) := blockNext r.idx r.pass r.rep e
  { r with idx := i, pass := p, rep := rp, ended := en }

-- The end of an entry

/-- Fields of a sync slot (R108). -/
def syncSen (w : Word) : Bool := w.getLsbD 50
def syncWen (w : Word) : Bool := w.getLsbD 49
def syncBytes (w : Word) : Bool := w.getLsbD 48
def syncSamt (w : Word) : Nat := bitsOf w.toNat 47 32
def syncSsem (w : Word) : Nat := bitsOf w.toNat 31 24
def syncWcnt (w : Word) : BitVec 32 := BitVec.ofNat 32 (bitsOf w.toNat 23 8)
def syncWsem (w : Word) : BitVec 8 := w.setWidth 8

/-- The running entry of an engine, its bytes so far and its fault. -/
def Core.runEntry (k : Core) (en : Eng) : Option (Entry × Nat × Option Trouble) :=
  match en with
  | .v => k.vrun.map (fun r => (r.entry, r.bytes, r.flt))
  | .m => k.mrun.map (fun r => (r.entry, r.bytes, r.flt))
  | .x => k.xrun.map (fun r => (r.entry, r.bytes, r.flt))

/-- The fault an entry has met and another: the first stands, but one with ECC before any other (R314). -/
def firstFault (old : Option Trouble) (w : Trouble) : Option Trouble := if w.cause = .ecc then some w else some (old.getD w)

/-- The running entry of an engine has met a fault; late: its strand was already stopping (R301). -/
def Core.setFlt (k : Core) (en : Eng) (w : Trouble) (late : Bool) : Core :=
  match en with
  | .v => { k with vrun := k.vrun.map (fun r => { r with flt := firstFault r.flt w }) }
  | .m => { k with mrun := k.mrun.map (fun r => { r with flt := firstFault r.flt w, late := if r.flt.isNone then late else r.late }) }
  | .x => { k with xrun := k.xrun.map (fun r => { r with flt := firstFault r.flt w, late := if r.flt.isNone then late else r.late }) }

/-- No entry runs on an engine any more; the tokens of the V entry's strand then count nothing (R157). -/
def Core.clearRun (k : Core) (en : Eng) : Core :=
  match en with
  | .v => match k.vrun with
    | none => k
    | some r => { k with vrun := none }.setStrand r.entry.strand
        { k.strand r.entry.strand with tok := Vector.replicate 8 0 }
  | .m => { k with mrun := none }
  | .x => { k with xrun := none }

/-- Has the running entry of an engine done everything but signal and retire (R111, step 4)? -/
def Core.finished (k : Core) (en : Eng) : Bool :=
  match en with
  | .v => (match k.vrun with
      | some r => r.ended && r.flight.isEmpty && r.vlq.isEmpty && r.vsq.isEmpty && r.esu.isEmpty && r.flt.isNone
      | none => false)
  | .m => (match k.mrun with | some r => r.ended && r.steps.isEmpty && r.flt.isNone | none => false)
  | .x => (match k.xrun with | some r => r.ended && r.moves.isEmpty && r.flt.isNone | none => false)

/-- An entry stops (R45, R297, R364): the engine goes no further with it, and its strand stops when it still runs a kernel
of the entry's launch. -/
def State.entryStop (s : State) (c : Nat) (en : Eng) (w : Trouble) : State :=
  match (s.core c).runEntry en with
  | none => s
  | some (e, _, _) =>
    let s' := s.onCore c (fun k => k.setFlt en w ((k.strand e.strand).halting k.slotNo))
    if s.runs c e.strand e.launch then s'.stopStrand c e.strand { why := w, at_ := .entry en } else s'

/-- May the engine go on with its entry: it has no fault, and its strand has no stop waiting for its cut (R300)? -/
def State.entryFrozen (s : State) (c : Nat) (e : Entry) (flt : Option Trouble) : Bool :=
  flt.isSome || (s.runs c e.strand e.launch && (s.strand c e.strand).halting (s.core c).slotNo)

/-- The amount an entry signals (R111, R112). -/
def Entry.amount (e : Entry) (bytes : Nat) : Nat := if syncBytes e.sync then bytes else syncSamt e.sync

/-- The entry at the head of a queue leaves it, and its strand's counter drops (R111 step 6, R114). -/
def State.retireEntry (s : State) (c : Nat) (en : Eng) (t : BitVec 2) : State :=
  s.onCore c (fun k =>
    let k := (k.clearRun en).setQueue en ((k.queue en).drop 1)
    k.setStrand t ((k.strand t).addCnt en (· - 1)))

/-- A finished entry signals and retires (R111 steps 5 and 6); a signal past 2^32 − 1 stops it with SEMOVF (R113). -/
def State.completeEntry (s : State) (c : Nat) (en : Eng) : State :=
  if !(s.core c).finished en then s
  else match (s.core c).runEntry en with
    | none => s
    | some (e, bytes, _) =>
      if syncSen e.sync then
        match (s.core c).semAdd (syncSsem e.sync) (e.amount bytes) with
        | some k => (s.setCore c k).retireEntry c en e.strand
        | none => s.entryStop c en ⟨.semovf, 0, 0⟩
      else s.retireEntry c en e.strand

-- The cut and its records

/-- The length of a record in bytes, and its bytes (R303, R304). -/
def Rec.size (r : Rec) : Nat := 32 + r.ext.length

def Rec.toBytes (r : Rec) : List Byte :=
  [BitVec.ofNat 8 (r.kind.toNat + 16 * b2n r.flt + 32 * b2n r.hw + 64 * r.lop.toNat), r.cause, r.sub,
    BitVec.ofNat 8 (r.size / 32)]
  ++ leBytes 2 r.seq ++ leBytes 2 r.link ++ leBytes 4 r.word.toNat ++ leBytes 4 r.prog.toNat
  ++ leBytes 8 r.opa.toNat ++ leBytes 8 r.opb.toNat ++ r.ext

/-- A record before the list is numbered: the issue number of the word it stands for, the words it may be linked to, and its
trouble. -/
structure Draft where
  id   : Nat
  links : Links := []
  why  : Option Trouble := none
  r    : Rec

def blankRec : Rec :=
  { kind := 0, flt := false, hw := false, lop := 0, cause := 0, sub := 0, seq := 0, link := 0xFFFF, word := 0, prog := 0,
    opa := 0, opb := 0, ext := [] }

/-- Mark a draft with its trouble (R303). -/
def Draft.blame (d : Draft) (w : Option Trouble) : Draft :=
  match w with
  | none => d
  | some e => { d with why := w, r := { d.r with flt := true, cause := BitVec.ofNat 8 e.cause.code, sub := e.sub } }

/-- The record of a fixed-latency word in flight at the cut c (R300 row 1, R304). -/
def Landing.draft (w : Landing) (c : Nat) : Draft :=
  { id := w.id, links := w.links,
    r := { blankRec with word := encode w.op, prog := BitVec.ofNat 32 (w.due - c), opa := w.opa, opb := w.opb } }

/-- The record of a word of a scalar queue (R300 row 2, R304): an address mod 2^48 for the memory words. -/
def QItem.draft (q : QItem) : Draft :=
  let ext : List Byte := match q.op with
    | .acas .. => leBytes 8 q.ext.toNat ++ List.replicate 24 0
    | _ => []
  ({ id := q.id, links := q.links,
     r := { blankRec with word := encode q.op, opa := q.opa, opb := q.opb, ext := ext } } : Draft).blame q.flt

/-- The record of a MARK or FENCE (R300 row 3). -/
def FenceItem.draft (f : FenceItem) : Draft := { id := f.id, r := { blankRec with kind := 2, word := encode f.op } }

/-- The snapshots of a V word (R305): each source register written since its issue, in order, and the mask. -/
def Capture.snapshots (p : Capture) : List Byte :=
  ((List.range p.vals.length).filter (fun i => p.dirty.getLsbD i)).flatMap (fun i => leBytes 512 (p.vals.getD i 0).toNat)
  ++ (if p.dirty.getLsbD 15 then leBytes 128 p.kval.toNat else [])

/-- The record of a V word (R304). -/
def vRecord (i : Instr) (p : Capture) (prog : Nat) (ext : List Byte) (w : Option Trouble) : Draft :=
  ({ id := 0, r := { blankRec with
      kind := 1, word := encode i, prog := BitVec.ofNat 32 (prog % 2 ^ 16 + p.dirty.toNat * 2 ^ 16),
      opa := BitVec.ofNat 64 (p.shape.toNat + p.tagA.toNat * 2 ^ 32 + p.tagB.toNat * 2 ^ 36), opb := p.b,
      ext := ext ++ p.snapshots } } : Draft).blame w

def VLanding.draft (w : VLanding) (slot : Nat) : Draft := vRecord w.op w.cap (w.due - slot) [] none

def VOp.draft (q : VOp) : Draft :=
  let ext : List Byte := match q.op with
    | .vlds .. => leBytes 8 q.stride.toNat ++ List.replicate 24 0
    | _ => []
  vRecord q.op q.cap q.lane ext q.flt

def emptyCapture : Capture := { shape := 0, tagA := 0, tagB := 0, b := 0, regs := [], vals := [], kval := 0 }

/-- The V-op records of the running V entry, in issue order (R300, R301). -/
def VRun.drafts (r : VRun) : List Draft :=
  let l : List (Nat × Draft) :=
    r.flight.map (fun w => (w.seq, w.draft r.slot)) ++ (r.vlq ++ r.vsq ++ r.esu).map (fun q => (q.seq, q.draft))
    ++ (r.marks.filter (fun m => (r.vlq ++ r.vsq).any (fun q => q.seq < m.seq))).map
        (fun m => (m.seq, vRecord (.vmark m.last) { emptyCapture with shape := m.shape } 0 [] none))
  (sortBy (·.1) l).map (·.2)

/-- The record of an entry (R304). -/
def Entry.draft (e : Entry) (en : Eng) (run : Bool) (byp : Option (List Byte)) (idx pass bytes : Nat) (regs : List Word)
    (w : Option Trouble) : Draft :=
  ({ id := 0, r := { blankRec with
      kind := BitVec.ofNat 4 (3 + (engIndex en)), hw := run || e.hw,
      word := BitVec.ofNat 32 (e.blk.toNat + 256 * b2n run + 512 * b2n byp.isSome),
      prog := BitVec.ofNat 32 (if run then idx + pass * 2 ^ 9 else 0), opa := e.p0, opb := e.p1,
      ext := leBytes 8 e.sync.toNat ++ leBytes 8 e.map.toNat ++ leBytes 8 bytes ++ List.replicate 8 0
        ++ (if run then regs.flatMap (fun v => leBytes 8 v.toNat) else []) ++ byp.getD [] } } : Draft).blame w

/-- RESUME clears the fault marks of a record (R310, R311). -/
def Rec.cleared (r : Rec) : Rec := { r with flt := false, cause := 0, sub := 0 }

/-- A V-op record that is written again before its reissue: its snapshots are those of the operands it has read that have been
written since the word issued (R305). -/
def Rec.again (r : Rec) : Rec :=
  match r.cap with
  | none => r
  | some p =>
    let stride : List Byte := match decodeV r.word with | .ok (.vlds ..) => r.ext.take 32 | _ => []
    { r with prog := BitVec.ofNat 32 (r.prog.toNat % 2 ^ 16 + p.dirty.toNat * 2 ^ 16), ext := stride ++ p.snapshots }

/-- The records of a queued entry: one that a resume has put back carries what it continues with (R310). -/
def Entry.queuedDrafts (e : Entry) (en : Eng) : List Draft :=
  match e.resume with
  | some u => u.recs.map (fun r => { id := 0, r := r.again })
      ++ [e.draft en u.run u.byp u.idx u.pass u.bytes u.regs none]
  | none => [e.draft en false none 0 0 0 [] none]

/-- The records of the entries that mine selects on one engine: the running entry with its V words, then the queued
entries in queue order (R301). -/
def Core.entryDrafts (k : Core) (en : Eng) (mine : Entry → Bool) : List Draft :=
  let queued := if k.running en then (k.queue en).drop 1 else k.queue en
  let run : List Draft := match en with
    | .v => (match k.vrun with
        | some r => if mine r.entry then
            r.drafts ++ [r.entry.draft .v true none r.idx 0 r.bytes r.b.toList (if r.vlq.any (·.flt.isSome) || r.vsq.any (·.flt.isSome)
              || r.esu.any (·.flt.isSome) then none else r.flt)] else []
        | none => [])
    | .m => (match k.mrun with
        | some r => if mine r.entry then [r.entry.draft .m true r.byp r.idx r.pass r.bytes r.e.toList r.flt] else []
        | none => [])
    | .x => (match k.xrun with
        | some r => if mine r.entry then [r.entry.draft .x true none r.idx r.pass r.bytes r.e.toList r.flt] else []
        | none => [])
  run ++ (queued.filter mine).flatMap (·.queuedDrafts en)

/-- Number the records and set their links: the first of a word's loads that is a record (R301, R306). -/
def numberDrafts (l : List Draft) : List Rec :=
  (List.range l.length).map (fun n =>
    match l[n]? with
    | none => blankRec
    | some d =>
      let at_ : Option (BitVec 2 × Nat) := d.links.findSome? (fun e =>
        ((List.range n).find? (fun m => match l[m]? with
          | some x => x.id = e.2 && x.r.kind = 0 && x.r.prog = 0
          | none => false)).map (fun m => (e.1, m)))
      match at_ with
      | some (o, m) => { d.r with seq := n, lop := o, link := m }
      | none => { d.r with seq := n, lop := 0, link := 0xFFFF })

/-- The records of a strand at its cut (R300, R301). -/
def State.cutDrafts (s : State) (c : Nat) (t : BitVec 2) : List Draft :=
  let k := s.core c
  let x := k.strand t
  let mine (e : Entry) : Bool := e.strand = t && s.launchOf c = some e.launch
  let ops := x.flight.map (·.draft x.slots) ++ x.loads.map (·.draft) ++ x.stores.map (·.draft)
    ++ (x.fences.filter (fun f => f.holds && !(x.earlier f.id).isEmpty)).map (·.draft)
  let last : List Draft := match x.stop with
    | some { why := w, at_ := .issue (some l), .. } => [{ (l.draft l.due).blame (some w) with id := l.id }]
    | _ => []
  sortBy (·.id) ops ++ last ++ k.entryDrafts .v mine ++ k.entryDrafts .m mine ++ k.entryDrafts .x mine

/-- The causes that go to the handler strand (R297). -/
def toHandler (w : Trouble) : Bool :=
  match w.cause with
  | .illegal | .format | .pool | .poolstall | .geom | .align | .window | .semovf | .event | .priv | .trap | .halt => true
  | .xlate => w.sub = 5
  | _ => false

/-- The handler strand that receives a stop of strand t, if one does (R297). -/
def State.handlerFor (s : State) (c : Nat) (t : BitVec 2) (w : Trouble) : Option (BitVec 2) :=
  match (s.core c).team with
  | none => none
  | some tm =>
    let h := s.recField (s.partOf c) tm.launch.toNat 8 1
    let n : BitVec 2 := BitVec.ofNat 2 h
    if toHandler w ∧ bitsOf h 2 2 = 1 ∧ n.toNat < tm.strands ∧ n ≠ t
      ∧ ((s.strand c n).life = .running ∨ (s.strand c n).life = .resuming)
    then some n else none

/-- A field of a strand's stop-record area. -/
def Strand.areaField (x : Strand) (off n : Nat) : Nat := leValue (Memory.bytes x.area off n)

/-- The lease that a strand which has returned one is to acquire again (R310, R325). -/
def Strand.wantedLease (x : Strand) : Nat :=
  if x.relend = 0 then 0 else if Memory.byte x.area 0 = 2 then x.areaField 48 4 else x.relend

/-- The descriptor's bytes (R302). LEASE is the lease held, or the one that the strand has still to acquire again (R325). -/
def descriptor (w : Trouble) (recv : Bool) (nrec fseq : Nat) (x : Strand) (tnum : BitVec 14) (tick : Nat) : List Byte :=
  let addr : Word := match w.cause with
    | .xlate | .align | .window | .pool => w.addr
    | _ => 0
  [1, BitVec.ofNat 8 w.cause.code, w.sub, BitVec.ofNat 8 (b2n recv)] ++ leBytes 2 nrec ++ leBytes 2 fseq
  ++ leBytes 8 x.pc.toNat ++ leBytes 8 x.slots ++ [BitVec.ofNat 8 x.owed, 0] ++ leBytes 2 tnum.toNat ++ leBytes 4 0
  ++ leBytes 8 addr.toNat ++ leBytes 8 tick ++ leBytes 4 (if x.relend = 0 then x.lease else x.wantedLease) ++ List.replicate 12 0

/-- The region stack after ENTER and LEAVE (R327): eight numbers, newest first, and a depth that stops at 255. -/
def Strand.enterRegion (x : Strand) (n : BitVec 14) : Strand :=
  { x with region := if x.depth < 8 then n :: x.region else x.region, depth := min 255 (x.depth + 1) }

def Strand.leaveRegion (x : Strand) : Strand :=
  { x with region := if 1 ≤ x.depth ∧ x.depth ≤ 8 then x.region.drop 1 else x.region, depth := x.depth - 1 }

/-- One trace record (R328): written at BASE + 16 · (HEAD mod 2^LOG2N) when tracing is on and ERR clear; a write that
faults is dropped and sets ERR. With LOG2N outside 8 to 20 nothing is written. kind: 0 ENTER, 1 LEAVE, 2 cut. -/
def State.trace (s : State) (c : Nat) (t : BitVec 2) (kind : Nat) : State :=
  let k := s.core c
  if !k.tren || k.trerr || k.trlog.toNat < 8 || 20 < k.trlog.toNat then s
  else
    let a := k.trbase.toNat + 16 * (k.trhead.toNat % 2 ^ k.trlog.toNat)
    let w := c * 2 ^ 40 + t.toNat * 2 ^ 38 + kind * 2 ^ 36 + (sysregValue s c t 0x201).toNat % 2 ^ 36
    match resolve s c a .store true with
    | .error _ => s.onCore c (fun k => { k with trerr := true })
    | .ok pa =>
      let s' := storeAt s c pa (leBytes 8 s.tick ++ leBytes 8 w) 0 false none
      s'.onCore c (fun k => { k with trhead := k.trhead + 1 })

/-- Remove the entries that mine selects from an engine, the running one included; a head wait goes with its entry. -/
def Core.removeEntries (k : Core) (en : Eng) (mine : Entry → Bool) : Core :=
  let k' := match k.runEntry en with
    | some (e, _, _) => if mine e then k.clearRun en else k
    | none => k
  let q := (k.queue en).filter (fun e => !mine e)
  let k' := k'.setQueue en q
  if q.head? = (k.queue en).head? then k' else k'.dropWait (.head en)

/-- A VLDC given up at a cut releases its share of PEND; its reissue checks again (R262, R310; log entry 25). -/
def State.releaseHeld (s : State) (c : Nat) (mine : Entry → Bool) : State :=
  match (s.core c).vrun with
  | none => s
  | some r =>
    if mine r.entry then
      r.vlq.foldl (fun s q => match q.held with
        | some (a, n) => s.consumeRelease c r.entry.launch a n
        | none => s) s
    else s

/-- May the cut be made now: the steps already issued in the strand's running M and X entries have finished (R245, R189)? -/
def Core.stepsDone (k : Core) (mine : Entry → Bool) : Bool :=
  (match k.mrun with | some r => !mine r.entry || r.steps.isEmpty | none => true) &&
  (match k.xrun with | some r => !mine r.entry || r.moves.isEmpty | none => true)

/-- A blocked word that was granted issues at the strand's next own slot (R299): the writes due with its result land first (R17). -/
def Strand.complete (x : Strand) (ctl : BitVec 2) (tick : Nat) (res : Option (BitVec 5 × Word)) : Strand :=
  let y := (x.landDue.advance ctl 0 (x.pc + 4) tick).landDue
  match res with | some (r, v) => y.setSreg r v | none => y

/-- A word granted while it was blocked completes before the cut (R299): TALC writes its handle, PWQ and SEMW nothing. An ungranted
request is withdrawn. -/
def State.settleRequest (s : State) (c : Nat) (t : BitVec 2) (i : Option Instr) : State :=
  let x := s.strand c t
  let s := match (s.core c).semGranted (.strand t), i with
    | true, some (.semw ctl _ num) =>
      ((s.onStrand c t (fun y => y.complete ctl s.tick none)).onCore c (fun k => k.dropWait (.strand t))).semAcquire c num.toNat
    | _, _ => s
  match x.request with
  | none => s
  | some r =>
    let s := s.onStrand c t (fun y => { y with request := none })
    match r.granted, i with
    | some h, some (.talc ctl rd _ _) => s.onStrand c t (fun y => y.complete ctl s.tick (some (rd, h)))
    | some _, some (.pwq ctl _) => s.onStrand c t (fun y => y.complete ctl s.tick none)
    | some _, _ => s
    | none, _ => if r.talc then s.withdraw r.target r.part c (t.setWidth 3) else s.withdrawLease c t

/-- XALC at a cut of its entry (R177, R299): a request already served has written its register and the word has completed;
another is withdrawn. -/
def State.settleXalc (s : State) (c : Nat) (mine : Entry → Bool) : State :=
  match (s.core c).xrun with
  | none => s
  | some r => match r.request with
    | none => s
    | some q =>
      if !mine r.entry then s
      else match q.granted, entryWord s c .x r.entry r.idx with
        | some h, .ok (.xalc e ed _ _) =>
          s.onCore c (fun k => { k with xrun := some { { r with e := vset r.e ed.toNat h, request := none }.next e with
            moves := r.moves } })
        | some _, _ => s
        | none, _ =>
          (s.onCore c (fun k => { k with xrun := some { r with request := none } })).withdraw q.target q.part c 4

/-- The word at a strand's PC as its fetch finds it (R75). No fetch counts in LREQ or RREQ: DESIGN CHOICE, R91 does not say whether one
does (log entry 79). -/
def State.fetch (s : State) (c : Nat) (pc : Word) : Except Trouble Code :=
  let a := addr48 pc.toNat
  if isWindow a then .error (windowTrouble a)
  else match resolve s c a .fetch false with
    | .error w => .error w
    | .ok pa => .ok (s.codeAt c pa ((s.core c).team.elim 0 (·.launch)))

def State.wordAt (s : State) (c : Nat) (pc : Word) : Option Instr :=
  match s.fetch c pc with
  | .ok w => (match decodeS w with | .ok i => some i | .error _ => none)
  | .error _ => none

/-- Stops still in the FIFO of a handler strand that stops or ends pass to Skyo, with RECV 0 (R297). -/
def State.passFifo (s : State) (c : Nat) (h : BitVec 2) : State :=
  let l := (s.strand c h).fifo
  let s := l.foldl (fun r u => r.onStrand c u (fun y => { y with area := Memory.store y.area 3 [0], recv := none })) s
  let s := s.onStrand c h (fun y => { y with fifo := [] })
  { s with skyo := { s.skyo with stops := s.skyo.stops ++ l.map (fun u => (c, u)) } }

/-- The cut's trace record is written (R328), and a stop's descriptor and records go to the strand's stop-record area; it goes to its
receiver, and SEVENT is posted (R297, R298, R302). fseq is the record that carries the cause. -/
def State.postStop (s : State) (c : Nat) (t : BitVec 2) (why : Trouble) (recs : List Rec) (fseq : Nat) (tnum : BitVec 14) : State :=
  let recv := s.handlerFor c t why
  let s := (s.trace c t 2).onCore c (fun k =>
    let x := k.strand t
    let bs := descriptor why recv.isSome recs.length fseq x tnum (x.stop.elim s.tick (·.tick)) ++ recs.flatMap (·.toBytes)
    (k.setStrand t { x with life := .stopped, stop := none, flight := [], loads := [], stores := [], fences := [],
                            recv := recv, reissue := [], issuedAt := none, area := Memory.store x.area 0 bs }).endCut)
  let s := s.passFifo c t
  let s := match recv with
    | some h => s.onStrand c h (fun y => { y with fifo := y.fifo ++ [t] })
    | none => { s with skyo := { s.skyo with stops := s.skyo.stops ++ [(c, t)] } }
  match s.launchOf c with
  | some l => (s.release c 4).postEvent (s.partOf c) (s.recField (s.partOf c) l.toNat 6 2)
  | none => s

/-- Deliver a stop (R297 to R302): finished entries complete, granted words complete, the cut is made, and the stop is
posted with its records. Of the faults found in the core slot of the stop the earliest record gives the cause
(R301); one found in a later slot keeps its own flag, such as a SEMOVF that an entry's signal meets only now. -/
def State.deliver (s : State) (c : Nat) (t : BitVec 2) (st : Stop) : State :=
  let later (en : Eng) : Bool := match (s.core c).runEntry en with
    | some (_, _, none) => true
    | some _ => (match en with | .v => false | .m => (s.core c).mrun.any (·.late) | .x => (s.core c).xrun.any (·.late))
    | none => true
  let late (d : Draft) : Bool := [Eng.v, .m, .x].any (fun en => d.r.kind.toNat = 3 + engIndex en && later en)
  let s := s.settleFences c t
  let s := [Eng.v, .m, .x].foldl (fun r en => match (r.core c).runEntry en with
    | some (e, _, _) => if e.strand = t ∧ r.launchOf c = some e.launch then r.completeEntry c en else r
    | none => r) s
  let s := s.settleRequest c t (s.wordAt c (s.strand c t).pc)
  let s := s.settleXalc c (fun e => e.strand = t && s.launchOf c = some e.launch)
  let s := (s.onStrand c t Strand.landDue).onCore c (fun k => k.landOlds (fun e => e.strand = t && s.launchOf c = some e.launch))
  let drafts := s.cutDrafts c t
  let recs := numberDrafts drafts
  let first := drafts.findIdx? (fun d => d.why.isSome && !late d)
  let why := match first with
    | some n => ((drafts[n]?).bind (·.why)).getD st.why
    | none => st.why
  let mine (e : Entry) : Bool := e.strand = t && s.launchOf c = some e.launch
  let s := s.releaseHeld c mine
  let s := s.onCore c (fun k => (((k.removeEntries .v mine).removeEntries .m mine).removeEntries .x mine).dropWait (.strand t))
  (s.onStrand c t (fun y => { y with cutDone := y.cutDone || st.why.cause = .debug })).postStop c t why recs (first.getD 0xFFFF) st.tnum

/-- Where Skyo keeps the k-th such stop of partition p: in the partition's context area (R364; log entry 42). -/
def orphanAddr (p k : Nat) : Nat := 0xC0_0000_0000 + 0x4000_0000 * p + 0x1_0000 * (k % 0x4000)

/-- Entries of launch l that outlived it on their strand stop (R364): the descriptor and the records of the launch's entries on that engine
go to the stop area Skyo keeps, the entries leave the queue, and SEVENT is posted. -/
def State.keepEntries (s : State) (c : Nat) (en : Eng) (l : BitVec 10) (w : Trouble) : State :=
  let mine (x : Entry) : Bool := x.launch = l
  let s := s.onCore c (fun k => k.landOlds mine)
  let drafts := (s.core c).entryDrafts en mine
  let p := s.partOf c
  let a := orphanAddr p (s.part p).nextStop
  let bs := descriptor w false drafts.length ((drafts.findIdx? (·.why.isSome)).getD 0xFFFF) {} 0 s.tick
    ++ (numberDrafts drafts).flatMap (·.toBytes)
  let o : Orphan := { launch := l, core := c, en := en, addr := a, owners := (((s.core c).queue en).filter mine).map (·.strand) }
  let s := if en = .v then s.releaseHeld c mine else s
  let s := s.onCore c (fun k => k.removeEntries en mine)
  let s := (s.putMem a bs).onPart p (fun x => { x with orphans := x.orphans ++ [o], nextStop := x.nextStop + 1 })
  (s.release c 4).postEvent p (s.recField p l.toNat 6 2)

/-- The stop of such an entry that has met a fault. -/
def State.deliverOrphan (s : State) (c : Nat) (en : Eng) : State :=
  match (s.core c).runEntry en with
  | some (e, _, some w) => s.keepEntries c en e.launch w
  | _ => s

-- The checks of RESUME

/-- Read the record at an offset of a stop-record area (R303). LEN 0 is no record's length: one byte stands for it, which no check
of R309 accepts. -/
def Strand.recAt (x : Strand) (off : Nat) : Rec :=
  let k := x.areaField off 1
  { kind := BitVec.ofNat 4 k, flt := bitsOf k 4 4 = 1, hw := bitsOf k 5 5 = 1, lop := BitVec.ofNat 2 (bitsOf k 7 6),
    cause := BitVec.ofNat 8 (x.areaField (off + 1) 1), sub := BitVec.ofNat 8 (x.areaField (off + 2) 1),
    seq := x.areaField (off + 4) 2, link := x.areaField (off + 6) 2, word := BitVec.ofNat 32 (x.areaField (off + 8) 4),
    prog := BitVec.ofNat 32 (x.areaField (off + 12) 4), opa := BitVec.ofNat 64 (x.areaField (off + 16) 8),
    opb := BitVec.ofNat 64 (x.areaField (off + 24) 8),
    ext := Memory.bytes x.area (off + 32) (if x.areaField (off + 3) 1 = 0 then 1 else 32 * x.areaField (off + 3) 1 - 32) }

/-- Read n records packed from an offset on. -/
def Strand.recsFrom (x : Strand) : Nat → Nat → List Rec
  | 0, _ => []
  | n + 1, off => x.recAt off :: x.recsFrom n (off + 32 * max 1 (x.areaField (off + 3) 1))

/-- Does an S-op record hold a word whose result another record can take (R306, R309)? -/
def Rec.feeds (r : Rec) : Bool :=
  r.kind = 0 && (match decodeS r.word with | .ok i => (loadDest i).isSome | .error _ => false)

/-- The extension bytes LEN must give (R304), and whether the fixed zeros of the record are 0. -/
def Rec.layout (r : Rec) : Nat × Bool :=
  let zeros (off n : Nat) : Bool := ((r.ext.drop off).take n).all (fun b => b = 0)
  match r.kind.toNat with
  | 0 => (match decodeS r.word with
      | .ok (.acas ..) => (32, zeros 8 24)
      | _ => (0, true))
  | 1 =>
    let mask := bitsOf r.prog.toNat 31 16
    let v := match decodeV r.word with | .ok (.vlds ..) => 32 | _ => 0
    (v + 512 * popNat 15 mask + 128 * (mask / 2 ^ 15), (v = 0 || zeros 8 24) && r.opa.toNat < 2 ^ 40)
  | 2 => (0, r.prog = 0 && r.opa = 0 && r.opb = 0)
  | k =>
    let run := r.word.getLsbD 8
    let byp := r.word.getLsbD 9
    let regs := if run then (if k = 3 then 64 else 128) else 0
    (32 + regs + (if byp then 4416 else 0),
      r.word.toNat < 2 ^ 10 && r.prog.toNat < 2 ^ 21 && (run || (r.prog = 0 && !byp)) && (k = 4 || !byp)
        && leValue ((r.ext.drop 8).take 8) < 2 ^ 12 && zeros 24 8)

/-- The checks of R309 on record n of a list, given the list; block says whether a block exists (R59). -/
def Rec.check (l : List Rec) (n : Nat) (r : Rec) (block : Eng → Nat → Bool) : Bool :=
  let k := r.kind.toNat
  let en : Eng := if k = 3 then .v else if k = 4 then .m else .x
  let earlier := l.take n
  k ≤ 5 && r.seq = n && r.ext.length = r.layout.1 && r.layout.2 && (3 ≤ k || !r.hw)
  && (if r.link = 0xFFFF then r.lop = 0
      else k = 0 && r.lop ≠ 0 && (match earlier[r.link]? with | some q => q.feeds | none => false))
  && (k < 3 || (block en (r.word.toNat % 256)
      && (!r.word.getLsbD 8 || earlier.all (fun q => q.kind ≠ r.kind))))
  && (k ≠ 1 || (match ((l.drop n).dropWhile (fun q => q.kind = 1)).head? with
      | some q => q.kind = 3 && q.word.getLsbD 8
      | none => false))

/-- Check the list of a stopped strand (R309): the records, or the SEQ of the first that fails. -/
def Strand.checkList (x : Strand) (block : Eng → Nat → Bool) : Except Nat (List Rec) :=
  let n := x.areaField 4 2
  let l := x.recsFrom n 0x40
  if x.areaField 0 1 ≠ 1 then .error 0
  else match (List.range n).find? (fun i => 65472 < ((l.take (i + 1)).map (·.size)).sum
      || match l[i]? with | some r => !(r.check l i block) | none => true) with
    | some i => .error i
    | none => .ok l

/-- The result of a RESUME (R308, RSTAT). -/
def rstatOf (code seq : Nat) : BitVec 24 := BitVec.ofNat 24 (code + seq * 2 ^ 8)

/-- A strand ends as END does (R123, R310 DISCARD): its lease is released and its FIFO passes to Skyo. -/
def State.endStrand (s : State) (c : Nat) (t : BitVec 2) (mask : BitVec 3) : State :=
  let s := s.onCore c (fun k =>
    let k := (k.setStrand t { k.strand t with life := .ended, done := true }).endCut
    { k with team := k.team.map (fun m => { m with masks := vset m.masks t.toNat mask }) })
  (s.releaseLease c t).passFifo c t

/-- Entry records of a discarded strand retire without signalling (R310). -/
def discardEntries (x : Strand) (l : List Rec) : Strand :=
  let n (k : Nat) : Nat := (l.filter (fun r => r.kind.toNat = k)).length
  { x with cntV := x.cntV - n 3, cntM := x.cntM - n 4, cntX := x.cntX - n 5 }

/-- Resume or discard the stopped strand t of core c (R309, R310): the result for RSTAT and the state. The strand's own
progress from there on is RECORD_REISSUE. -/
def State.resumeTarget (s : State) (c : Nat) (t : BitVec 2) (discard : Bool) : BitVec 24 × State :=
  let x := s.strand c t
  let p := s.partOf c
  match x.checkList (fun en b => (blockOf s p x.lridx en b).isSome) with
  | .error n => (rstatOf 2 n, s)
  | .ok l =>
    let drop (u : Nat × BitVec 2) : Bool := u.1 = c && u.2 = t
    let s := { s with skyo := { s.skyo with stops := s.skyo.stops.filter (fun u => !drop u) } }
    if discard then
      let s := s.onStrand c t (fun y => { discardEntries y l with area := Memory.store y.area 0 [0], reissue := [] })
      (0, s.endStrand c t 0)
    else
      (0, s.onStrand c t (fun y => { y with
        life := .resuming, reissue := l.map (·.cleared), area := Memory.store y.area 0 [2],
        pc := BitVec.ofNat 64 (x.areaField 8 8), slots := x.areaField 16 8, owed := x.areaField 24 1 }))

end Sys2Proof.Machine
end

