-- ==== Sys2Proof/Machine/Transcendental.lean ====
section
/-! DEFINITION. VEXP2, VLOG2, VSIN and VTANH (R165): the exact mathematical value rounded once. Each function encloses
the value between two fixed-point numbers and rounds both ends; where they round alike that is the rounding of the
value between them, otherwise more bits are taken (log entry 9). -/
namespace Sys2Proof.Machine

/-- Bits by which an enclosure is wider than the last place of its fixed-point arithmetic. -/
def slack : Nat := 2 ^ 20

/-- e^x for 0 ≤ x < 1, both scaled by 2^g. -/
def expSeries (g x : Nat) : Nat :=
  ((List.range (g / 4 + 16)).foldl (fun (p : Nat × Nat) k => (p.1 + p.2, p.2 * x / 2 ^ g / (k + 1))) (0, 2 ^ g)).1

/-- ln 2 scaled by 2^g. -/
def ln2Series (g : Nat) : Nat :=
  (List.range (g + 4)).foldl (fun s k => s + 2 ^ g / ((k + 1) * 2 ^ (k + 1))) 0

/-- The inverse hyperbolic tangent of z ≤ 1/3, scaled by 2^g. -/
def atanhSeries (g z : Nat) : Nat :=
  ((List.range (g / 3 + 8)).foldl
    (fun (p : Nat × Nat) k => (p.1 + p.2 / (2 * k + 1), p.2 * z / 2 ^ g * z / 2 ^ g)) (0, z)).1

/-- The inverse tangent of 1/q, scaled by 2^g. -/
def atanInv (g q : Nat) : Int :=
  ((List.range (g / 4 + 4)).foldl
    (fun (p : Int × Nat) k =>
      (if k % 2 = 0 then p.1 + (p.2 / (2 * k + 1) : Nat) else p.1 - (p.2 / (2 * k + 1) : Nat), p.2 / (q * q)))
    (0, 2 ^ g / q)).1

/-- π/2 scaled by 2^g. -/
def halfPi (g : Nat) : Nat := (8 * atanInv g 5 - 2 * atanInv g 239).toNat

/-- sin x (odd) or cos x (even) for 0 ≤ x < 2, scaled by 2^g. -/
def sinCosSeries (g x : Nat) (odd : Bool) : Int :=
  let t0 : Nat := if odd then x else 2 ^ g
  let o : Nat := if odd then 1 else 0
  ((List.range (g / 6 + 16)).foldl
    (fun (p : Int × Nat) k =>
      (if k % 2 = 0 then p.1 + p.2 else p.1 - p.2,
        p.2 * x / 2 ^ g * x / 2 ^ g / ((2 * k + 1 + o) * (2 * k + 2 + o))))
    (0, t0)).1

/-- Round a value known to lie strictly between lo · 2^e and hi · 2^e, where both ends round alike. -/
def roundBetween (f : Fmt) (rm : Rm) (sat s : Bool) (lo hi : Nat) (e : Int) : Option (Nat × FFlags) :=
  let a := fRound f rm sat s lo e true
  let b := fRound f rm sat s (hi - 1) e true
  if 2 ^ (f.fb + 4) ≤ lo ∧ a = b then some a else none

/-- The enclosure of a value v ± slack at 2^(−g), rounded when it decides; v is signed. -/
def roundNear (f : Fmt) (rm : Rm) (sat : Bool) (v : Int) (e : Int) : Option (Nat × FFlags) :=
  roundBetween f rm sat (v < 0) (v.natAbs - slack) (v.natAbs + slack) e

/-- The precisions tried in turn. -/
def precisions : List Nat := [256, 700, 1400]

/-- Take the first precision that decides; past the last one, round the approximation itself (log entry 9). -/
def firstDecided (f : Fmt) (rm : Rm) (sat : Bool) (approx : Nat → Int × Int) : Nat × FFlags :=
  match precisions.findSome? (fun g => roundNear f rm sat (approx g).1 (approx g).2) with
  | some r => r
  | none => fRound f rm sat ((approx 1400).1 < 0) (approx 1400).1.natAbs (approx 1400).2 true

/-- 2^a for a finite nonzero a that is not an integer, as a scaled value and its exponent. -/
def exp2Approx (m : Int) (e : Int) (g : Nat) : Int × Int :=
  let fx : Int := if 0 ≤ e + g then m * 2 ^ (e + g).toNat else m / 2 ^ (-(e + g)).toNat
  let n := max (-4000) (min 4000 (fx / 2 ^ g))
  let fr := (fx % 2 ^ g).toNat
  ((expSeries g (fr * ln2Series g / 2 ^ g) : Nat), n - g)

/-- VEXP2. -/
def fExp2 (f : Fmt) (rm : Rm) (sat : Bool) (a : Nat) : Nat × FFlags :=
  match fNan f [a] with
  | some r => r
  | none =>
    match fUnpack f a with
    | .inf s => if s then (fZero f false, 0) else (a, 0)
    | .fin s m e =>
      let v : Int := if s then -(m : Int) else m
      if m = 0 then fRound f rm sat false 1 0
      else if 0 ≤ e ∨ m % 2 ^ (-e).toNat = 0 then
        let n : Int := if 0 ≤ e then v * 2 ^ e.toNat else v / 2 ^ (-e).toNat
        fRound f rm sat false 1 (max (-4000) (min 4000 n))
      else firstDecided f rm sat (exp2Approx v e)
    | .nan => fInvalid f

/-- log2 of m · 2^e, m not a power of two, scaled. -/
def log2Approx (m : Nat) (e : Int) (g : Nat) : Int × Int :=
  let l := Nat.log2 m
  let z := (m - 2 ^ l) * 2 ^ g / (m + 2 ^ l)
  ((((l : Int) + e) * 2 ^ g + (2 * atanhSeries g z * 2 ^ g / ln2Series g : Nat)), -g)

/-- VLOG2. -/
def fLog2 (f : Fmt) (rm : Rm) (sat : Bool) (a : Nat) : Nat × FFlags :=
  match fNan f [a] with
  | some r => r
  | none =>
    match fUnpack f a with
    | .inf s => if s then fInvalid f else (a, 0)
    | .fin s m e =>
      if m = 0 then (fInf f true, flagDZ)
      else if s then fInvalid f
      else if m = 2 ^ Nat.log2 m then fOfInt f rm sat ((Nat.log2 m : Int) + e)
      else firstDecided f rm sat (log2Approx m e)
    | .nan => fInvalid f

/-- sin of m · 2^e, scaled: the argument is reduced by π/2 with 200 further bits. -/
def sinApprox (m : Nat) (e : Int) (g : Nat) : Int × Int :=
  let gg := g + 200
  let x := if 0 ≤ e + gg then m * 2 ^ (e + gg).toNat else m / 2 ^ (-(e + gg)).toNat
  let hp := halfPi gg
  let k := x / hp
  let r := (x % hp) / 2 ^ 200
  let v := sinCosSeries g r (k % 2 = 0)
  (if k / 2 % 2 = 0 then v else -v, -g)

/-- VSIN. -/
def fSin (f : Fmt) (rm : Rm) (sat : Bool) (a : Nat) : Nat × FFlags :=
  match fNan f [a] with
  | some r => r
  | none =>
    match fUnpack f a with
    | .inf _ => fInvalid f
    | .fin s m e =>
      if m = 0 then (a, 0)
      else firstDecided f rm sat (fun g => let p := sinApprox m e g; (if s then -p.1 else p.1, p.2))
    | .nan => fInvalid f

/-- tanh of m · 2^e, scaled: 1 − 2/(e^(2x) + 1). From 2^11 on the value lies between 1 − 2^(−g) and 1. -/
def tanhApprox (m : Nat) (e : Int) (g : Nat) : Int × Int :=
  if (Nat.log2 m : Int) + e ≥ 11 then (2 ^ g - slack, -g)
  else
    let w := if 0 ≤ e + 1 + g then m * 2 ^ (e + 1 + g).toNat else m / 2 ^ (-(e + 1 + g)).toNat
    let l2 := ln2Series g
    let ex := expSeries g (w % l2) * 2 ^ (w / l2)
    (((ex - 2 ^ g) * 2 ^ g / (ex + 2 ^ g) : Nat), -g)

/-- VTANH. -/
def fTanh (f : Fmt) (rm : Rm) (sat : Bool) (a : Nat) : Nat × FFlags :=
  match fNan f [a] with
  | some r => r
  | none =>
    match fUnpack f a with
    | .inf s => fRound f rm sat s 1 0
    | .fin s m e =>
      if m = 0 then (a, 0)
      else firstDecided f rm sat (fun g => let p := tanhApprox m e g; (if s then -p.1 else p.1, p.2))
    | .nan => fInvalid f

end Sys2Proof.Machine
end

