-- ==== Sys2Proof/Machine/VectorOps.lean ====
section
/-! DEFINITION. The fixed-latency V words as functions of what they read: operands (R304, R305), tag checks (R131),
latencies (R132) and results (R129, R135 to R150, R163 to R165). -/
namespace Sys2Proof.Machine

-- Pairs of types

/-- The wide types of a narrow type (R146). -/
def wideTypes (narrow : Nat) : List Nat :=
  match narrow with
  | 1 => [3, 5] | 12 => [3, 5] | 2 => [4, 6] | 3 => [5, 7] | 13 => [5, 7] | 4 => [6, 8]
  | 5 => [7] | 14 => [7] | 6 => [8] | 9 => [11] | 10 => [11] | _ => []

/-- The ratio q of a group word, from its wide and narrow types (R145). -/
def groupRatio (wide narrow : Nat) : Nat := tWidth wide / tWidth narrow

/-- May VQNT go from a source type to a TYPE, and VDQN back (R147)? -/
def quantPair (float bq : Nat) : Bool :=
  tFloat float && tBq bq && (let q := groupRatio float bq; q = 1 || q = 2 || q = 4)

-- Operands

/-- The operands of a V word under a type; tag gives the tags as they stand (R304, R305). The memory words list the
register stored, then the index register; VDOT4 lists va, vb, vd (log entry 22). -/
def vOperands (i : Instr) (ty : Nat) (tag : BitVec 5 → BitVec 4) : VOperands :=
  let two (va vb : BitVec 5) : VOperands := { regs := [va, vb], a := some va, b := some vb }
  let one (va : BitVec 5) : VOperands := { regs := [va], a := some va }
  let three (va vb vc : BitVec 5) : VOperands := { regs := [va, vb, vc], a := some va, b := some vb }
  match i with
  | .vadd _ _ va vb => two va vb
  | .vsub _ _ va vb => two va vb
  | .vmul _ _ va vb => two va vb
  | .vmulh _ _ va vb => two va vb
  | .vfma _ _ va vb vc => three va vb vc
  | .vfms _ _ va vb vc => three va vb vc
  | .vfnma _ _ va vb vc => three va vb vc
  | .vmin _ _ va vb => two va vb
  | .vmax _ _ va vb => two va vb
  | .vabs _ _ va => one va
  | .vneg _ _ va => one va
  | .vadds _ _ va vb => two va vb
  | .vsubs _ _ va vb => two va vb
  | .vavg _ _ va vb => two va vb
  | .vand _ _ va vb => two va vb
  | .vor _ _ va vb => two va vb
  | .vxor _ _ va vb => two va vb
  | .vandn _ _ va vb => two va vb
  | .vnot _ _ va => one va
  | .vshl _ _ va vb => two va vb
  | .vshr _ _ va vb => two va vb
  | .vsra _ _ va vb => two va vb
  | .vmov _ _ va => one va
  | .vsel _ _ va vb _ => two va vb
  | .vcmp _ _ va vb _ => two va vb
  | .vclz _ _ va => one va
  | .vpopc _ _ va => one va
  | .vcpys _ _ va vb => two va vb
  | .vaddi _ _ va _ => one va
  | .vmuli _ _ va _ => one va
  | .vandi _ _ va _ => one va
  | .vori _ _ va _ => one va
  | .vxori _ _ va _ => one va
  | .vshli _ _ va _ => one va
  | .vshri _ _ va _ => one va
  | .vsrai _ _ va _ => one va
  | .vsplb _ _ bn => { bn := some bn }
  | .vcvt _ _ va _ => one va
  | .vwid _ _ va => one va
  | .vnar _ _ va => { regs := groupRegs va (max 1 (groupRatio (tag va).toNat ty)), a := some va }
  | .vqnt _ _ va vb => { regs := groupRegs va (max 1 (groupRatio (tag va).toNat ty)) ++ [vb], a := some va, b := some vb }
  | .vdqn _ _ va vb => two va vb
  | .vrnd _ _ va => one va
  | .vperm _ _ va vb => two va vb
  | .vbcst _ _ va _ => one va
  | .vslup _ _ va _ => one va
  | .vsldn _ _ va _ => one va
  | .vrev _ _ va => one va
  | .vcmpr _ _ va => one va
  | .vexpn _ _ va => one va
  | .vscan _ _ va => one va
  | .vrsum _ _ va => one va
  | .vrmin _ _ va => one va
  | .vrmax _ _ va => one va
  | .vdot4 _ vd va vb => { regs := [va, vb, vd], a := some va, b := some vb }
  | .vrcp _ _ va => one va
  | .vrsq _ _ va => one va
  | .vsqrt _ _ va => one va
  | .vdivf _ _ va vb => two va vb
  | .vexp2 _ _ va => one va
  | .vlog2 _ _ va => one va
  | .vsin _ _ va => one va
  | .vtanh _ _ va => one va
  | .vld _ _ bn _ _ => { bn := some bn }
  | .vldc _ _ bn _ _ => { bn := some bn }
  | .vst _ vd bn _ _ => { regs := [vd], bn := some bn }
  | .vldx _ _ bn vi _ _ _ => { regs := [vi], b := some vi, bn := some bn }
  | .vstx _ vd bn vi _ _ _ => { regs := [vd, vi], b := some vi, bn := some bn }
  | .vlds _ _ bn _ _ => { bn := some bn }
  | .vatm _ vd bn vi _ _ _ => { regs := [vd, vi], b := some vi, bn := some bn }
  | .vbadd _ bn _ => { bn := some bn }
  | .vbmov _ _ ba => { bn := some ba }
  | .vshp _ bn => { bn := some bn }
  | .vshpb _ bn => { bn := some bn }
  | .go2d _ _ vq vA => { regs := groupRegs vA 4 ++ groupRegs vq 2 }
  | .go3d _ _ vq vA => { regs := groupRegs vA 9 ++ groupRegs vq 3 }
  | .gic _ _ vq vA => { regs := groupRegs vA 6 ++ groupRegs vq 2 }
  | .gis _ _ vq vA => { regs := groupRegs vA 12 ++ groupRegs vq 3 }
  | .gsx _ _ vA => { regs := groupRegs vA 8 }
  | _ => {}

-- Tag checks

/-- Does a V word pass its checks under a type (R131)? all are the tags of its source registers in the order of
vOperands; gstat and b serve the words that read them. -/
def vChecks (i : Instr) (ty : Nat) (all : List Nat) (gstat : Bool) (b : Word) : Bool :=
  let same : Bool := all.all (fun t => t = ty)
  let rawOr : Bool := all.all (fun t => t = 0 || t = ty)
  let index (t : Nat) : Bool := t = 0 || (tInt t && tWidth t = tWidth ty)
  let shape : Bool := bitsOf b.toNat 63 28 = 0 && bitsOf b.toNat 14 4 ≤ 1024
  let mem : Bool := tWidth ty ≠ 4
  let wide : Bool := tWidth ty = 16 || tWidth ty = 32
  let first := all.headD 0
  let group (wide narrow : Nat) (r : BitVec 5) : Bool := r.toNat % (groupRatio wide narrow) = 0
  match i with
  | .vadd .. => (tInt ty || tFloat ty) && same
  | .vsub .. => (tInt ty || tFloat ty) && same
  | .vmul .. => (tInt ty || tFloat ty) && same
  | .vmulh .. => tInt ty && same
  | .vfma .. => (tInt ty || tFloat ty) && same
  | .vfms .. => (tInt ty || tFloat ty) && same
  | .vfnma .. => (tInt ty || tFloat ty) && same
  | .vmin .. => (tInt ty || tFloat ty) && same
  | .vmax .. => (tInt ty || tFloat ty) && same
  | .vabs .. => (tInt ty || tFloat ty) && same
  | .vneg .. => (tInt ty || tFloat ty) && same
  | .vadds .. => tInt ty && same
  | .vsubs .. => tInt ty && same
  | .vavg .. => tInt ty && same
  | .vand .. => rawOr
  | .vor .. => rawOr
  | .vxor .. => rawOr
  | .vandn .. => rawOr
  | .vnot .. => rawOr
  | .vshl .. => tInt ty && same
  | .vshr .. => tInt ty && same
  | .vsra .. => tInt ty && same
  | .vcmp .. => (tInt ty || tFloat ty) && same
  | .vclz .. => tInt ty && same
  | .vpopc .. => tInt ty && same
  | .vcpys .. => tFloat ty && same
  | .vaddi .. => tInt ty && same
  | .vmuli .. => tInt ty && same
  | .vandi .. => rawOr
  | .vori .. => rawOr
  | .vxori .. => rawOr
  | .vshli .. => tInt ty && same
  | .vshri .. => tInt ty && same
  | .vsrai .. => tInt ty && same
  | .vspli .. => tInt ty || tFloat ty || ty = 0
  | .viota .. => tInt ty || tFloat ty || ty = 0
  | .vcvt _ _ _ src =>
    ty ≠ 0 && ty ≠ 15 && tWidth ty = tWidth src.toNat && all.all (fun t => t = src.toNat)
  | .vwid _ vd _ => (wideTypes first).contains ty && group ty first vd
  | .vnar _ _ va => (wideTypes ty).contains first && group first ty va && all.all (fun t => t = first)
  | .vqnt _ _ va _ =>
    quantPair first ty && group first ty va && all.dropLast.all (fun t => t = first) && all.getLastD 0 = 11
  | .vdqn _ vd _ _ => quantPair ty first && group ty first vd && all.getLastD 0 = 11
  | .vrnd .. => tFloat ty && same
  | .vperm .. => 8 ≤ tWidth ty && (first = 0 || first = ty) && index (all.getLastD 0)
  | .vbcst .. => rawOr
  | .vslup .. => rawOr
  | .vsldn .. => rawOr
  | .vrev .. => rawOr
  | .vcmpr .. => rawOr
  | .vexpn .. => rawOr
  | .vscan .. => (tInt ty || tFloat ty) && same
  | .vrsum .. => (tInt ty || tFloat ty) && same
  | .vrmin .. => (tInt ty || tFloat ty) && same
  | .vrmax .. => (tInt ty || tFloat ty) && same
  | .vdot4 .. =>
    let src (l : List Nat) : Bool := all.dropLast.all (fun t => l.contains t)
    all.getLastD 0 = ty && ((ty = 7 && src [3, 4, 13]) || (ty = 11 && src [9, 10]))
  | .vrcp .. => tFloat ty && same
  | .vrsq .. => tFloat ty && same
  | .vsqrt .. => tFloat ty && same
  | .vdivf .. => tFloat ty && same
  | .vexp2 .. => tFloat ty && same
  | .vlog2 .. => tFloat ty && same
  | .vsin .. => tFloat ty && same
  | .vtanh .. => tFloat ty && same
  | .vld .. => mem
  | .vldc .. => mem
  | .vst .. => mem
  | .vlds .. => mem
  | .vldx .. => wide && index first
  | .vstx .. => wide && index (all.getLastD 0)
  | .vatm _ _ _ _ _ z _ =>
    (if z.toNat = 9 then ty = 11 else ty = 7 || ty = 8) && first = ty && index (all.getLastD 0)
  | .kpop .. => 5 ≤ ty && ty ≤ 8
  | .vshp .. => shape
  | .vshpb .. => shape
  | .go2d _ vd _ _ => ty = 11 && same && !(gstat && vd.toNat = 31)
  | .go3d _ vd _ _ => ty = 11 && same && !(gstat && vd.toNat = 31)
  | .gic _ vd _ _ => ty = 11 && same && !(gstat && vd.toNat = 31)
  | .gis _ vd _ _ => ty = 11 && same && !(gstat && vd.toNat = 31)
  | .gsx _ vd _ => ty = 11 && same && !(gstat && vd.toNat = 31)
  | _ => true

-- Latencies and costs

/-- The latency of a V word under a type (R132); none for the words that complete through tokens and for the words that
write nothing. -/
def vLatency (i : Instr) (ty : Nat) : Option Nat :=
  match i with
  | .vadd .. => some (if tFloat ty then 3 else 2)
  | .vsub .. => some (if tFloat ty then 3 else 2)
  | .vmul .. => some 4
  | .vmulh .. => some 4
  | .vmuli .. => some 4
  | .vfma .. => some 4
  | .vfms .. => some 4
  | .vfnma .. => some 4
  | .vcvt .. => some 3
  | .vwid .. => some 3
  | .vnar .. => some 3
  | .vqnt .. => some 3
  | .vdqn .. => some 3
  | .vrnd .. => some 3
  | .vperm .. => some 4
  | .vbcst .. => some 4
  | .vslup .. => some 4
  | .vsldn .. => some 4
  | .vrev .. => some 4
  | .vcmpr .. => some 4
  | .vexpn .. => some 4
  | .vrsum .. => some 6
  | .vrmin .. => some 6
  | .vrmax .. => some 6
  | .vdot4 .. => some 6
  | .vscan .. => some 6
  | .vrcp .. => some 12
  | .vrsq .. => some 12
  | .vsqrt .. => some 16
  | .vdivf .. => some 16
  | .vexp2 .. => some 14
  | .vlog2 .. => some 14
  | .vsin .. => some 18
  | .vtanh .. => some 18
  | .vld .. => none
  | .vldc .. => none
  | .vst .. => none
  | .vldx .. => none
  | .vstx .. => none
  | .vlds .. => none
  | .vatm .. => none
  | .vmark .. => none
  | .tkw .. => none
  | .vnop .. => none
  | .go2d .. => none
  | .go3d .. => none
  | .gic .. => none
  | .gis .. => none
  | .gsx .. => none
  | _ => some 2

/-- The charge of a V word (R322). -/
def vCost (i : Instr) : Nat :=
  match i with
  | .go2d .. => 16
  | .go3d .. => 16
  | .gic .. => 16
  | .gis .. => 16
  | .gsx .. => 16
  | .vrcp .. => 8
  | .vrsq .. => 8
  | .vsqrt .. => 8
  | .vdivf .. => 8
  | .vexp2 .. => 8
  | .vlog2 .. => 8
  | .vsin .. => 8
  | .vtanh .. => 8
  | _ => 4

-- Lane results

/-- The shifts of R135 on lane patterns: 0 left, 1 right logical, 2 right arithmetic. -/
def intShift (w kind a c : Nat) : Nat :=
  match kind with
  | 0 => if w ≤ c then 0 else a * 2 ^ c % 2 ^ w
  | 1 => if w ≤ c then 0 else a / 2 ^ c
  | _ =>
    let z : Int := if 2 ^ (w - 1) ≤ a then (a : Int) - 2 ^ w else a
    lanePattern w (if w ≤ c then (if z < 0 then -1 else 0) else z / 2 ^ c)

/-- VMULH: bits [2w−1:w] of the exact product (R135). -/
def intMulHigh (ty w : Nat) (a b : Nat) : Nat := lanePattern w (laneInt ty a * laneInt ty b / 2 ^ w)

/-- The conditions of VCMP on floats, with flags (R141). -/
def floatCond (f : Fmt) (c a b : Nat) : Bool × FFlags :=
  let un := fIsNan f a || fIsNan f b
  let sn := fIsSnan f a || fIsSnan f b
  let lt := !un && fLt f a b
  let gt := !un && fLt f b a
  let eq := !un && !lt && !gt
  match c with
  | 0 => (eq, if sn then flagNV else 0)
  | 1 => (!eq, if sn then flagNV else 0)
  | 2 => (lt, if un then flagNV else 0)
  | 3 => (lt || eq, if un then flagNV else 0)
  | 4 => (gt, if un then flagNV else 0)
  | 5 => (gt || eq, if un then flagNV else 0)
  | 6 => (un, if sn then flagNV else 0)
  | _ => (!un, if sn then flagNV else 0)

/-- The conditions of VCMP on integers (R141). -/
def intCond (c : Nat) (a b : Int) : Bool :=
  match c with
  | 0 => a = b
  | 1 => a ≠ b
  | 2 => a < b
  | 3 => a ≤ b
  | 4 => b < a
  | 5 => b ≤ a
  | 6 => false
  | _ => true

/-- VCVT of one lane from type src to type ty (R144); a bq12 element is written with bit 11 filled into [15:12] (R217; log entry 85). -/
def convertLane (src ty : Nat) (rm : Rm) (sat : Bool) (x : Nat) : Nat × FFlags :=
  let w := tWidth ty
  if src = ty then (if ty = 14 then lanePattern 16 (laneInt 14 x) else x, 0)
  else if tFloat src then
    if tFloat ty then fConvert (tFmt src) (tFmt ty) rm sat x
    else
      let r := fToInt (tFmt src) rm (tMin ty) (tMax ty) x
      (lanePattern w r.1, r.2)
  else if tFloat ty then fOfInt (tFmt ty) rm sat (laneInt src x)
  else (lanePattern w (clampTo ty (laneInt src x)), 0)

/-- VWID and VNAR of one element (R146): integers are clamped, which widening never needs. -/
def resizeLane (src ty : Nat) (rm : Rm) (sat : Bool) (x : Nat) : Nat × FFlags :=
  if tFloat src then fConvert (tFmt src) (tFmt ty) rm sat x
  else (lanePattern (tWidth ty) (clampTo ty (laneInt src x)), 0)

/-- VQNT of one element x of a float type by an f32 multiplier m (R147). -/
def quantLane (src ty : Nat) (rm : Rm) (x m : Nat) : Nat × FFlags :=
  let f := tFmt src
  let w := tWidth ty
  let bad := fIsNan f x || fIsNan fmtF32 m || (fIsZero f x && fIsInf fmtF32 m) || (fIsInf f x && fIsZero fmtF32 m)
  if bad then (0, flagNV)
  else if fIsInf f x || fIsInf fmtF32 m then
    (lanePattern w (if fSign f x != fSign fmtF32 m then tMin ty else tMax ty), flagNV)
  else
    let (n, ix) := roundInt rm (dyMul (fDy f x) (fDy fmtF32 m))
    if n < tMin ty then (lanePattern w (tMin ty), flagNV)
    else if tMax ty < n then (lanePattern w (tMax ty), flagNV)
    else (lanePattern w n, if ix then flagNX else 0)

/-- VDQN of one element of a bq type by an f32 multiplier m (R147): one rounding. -/
def dequantLane (src ty : Nat) (rm : Rm) (sat : Bool) (x m : Nat) : Nat × FFlags :=
  let f := tFmt ty
  let n := laneInt src x
  let s := (n < 0) != fSign fmtF32 m
  if fIsNan fmtF32 m then fNanTo fmtF32 f m
  else if fIsInf fmtF32 m then (if n = 0 then fInvalid f else (fInf f s, 0))
  else fOfDy f rm sat (dyMul ⟨n, 0⟩ (fDy fmtF32 m)) s

/-- One level of the pairwise tree of R164: absent children pass the other through. -/
def treeLevel (op : Nat → Nat → Nat × FFlags) : List (Option (Nat × FFlags)) → List (Option (Nat × FFlags))
  | some a :: some b :: rest =>
    let r := op a.1 b.1
    some (r.1, a.2 ||| b.2 ||| r.2) :: treeLevel op rest
  | some a :: none :: rest => some a :: treeLevel op rest
  | none :: b :: rest => b :: treeLevel op rest
  | l => l

/-- The fixed pairwise tree over the lanes of a register; levels bounds its height (R164). -/
def tree (op : Nat → Nat → Nat × FFlags) : Nat → List (Option (Nat × FFlags)) → Option (Nat × FFlags)
  | 0, l => (l.headD none)
  | n + 1, l => tree op n (treeLevel op l)

/-- A reduction of the active lanes of va into lane 0 of vd (R164). -/
def reduceLanes (p : Capture) (vd : BitVec 5) (ty : Nat) (op : Nat → Nat → Nat × FFlags) : VResult :=
  let w := tWidth ty
  let n := tLanes ty
  let r := tree op 10 ((List.range n).map (fun i => if p.active n i then some (p.lane 0 w i, 0) else none))
  ([laneWrite vd w n ty (fun i => if i = 0 then r.map (·.1) else none)],
    match r with | some x => x.2 | none => 0)

/-- VSCAN (R164): running sums of the active lanes in ascending order. DESIGN CHOICE: the first active lane passes as it is, a signalling NaN
too, for no sum is taken of it (log entry 99). -/
def scanLanes (p : Capture) (vd : BitVec 5) (ty : Nat) (op : Nat → Nat → Nat × FFlags) : VResult :=
  let w := tWidth ty
  let n := tLanes ty
  let step (r : List (Nat × Nat) × FFlags) (i : Nat) : List (Nat × Nat) × FFlags :=
    match r.1 with
    | [] => ([(i, p.lane 0 w i)], r.2)
    | (j, v) :: rest =>
      let q := op v (p.lane 0 w i)
      ((i, q.1) :: (j, v) :: rest, r.2 ||| q.2)
  let s := (p.lanes n).foldl step ([], 0)
  let l := s.1.reverse
  ([laneWrite vd w n ty (fun i => Sparse.get none (l.map (fun e => (e.1, some e.2))) i)], s.2)

/-- A sum of two lanes of a type (R164): rounded on floats, mod 2^w on integers. -/
def addLanes (ty : Nat) (rm : Rm) (sat : Bool) (a b : Nat) : Nat × FFlags :=
  if tFloat ty then fAdd (tFmt ty) rm sat a b else ((a + b) % 2 ^ tWidth ty, 0)

/-- Minimum or maximum of two lanes of a type (R135, R138). -/
def minMaxLanes (ty : Nat) (isMax : Bool) (a b : Nat) : Nat × FFlags :=
  if tFloat ty then fMinMax (tFmt ty) a b isMax
  else (if (laneInt ty b < laneInt ty a) != isMax then b else a, 0)

/-- A permute (R163): src names the source lane of a lane; lanes move only between active lanes. -/
def permute (p : Capture) (vd : BitVec 5) (ty : Nat) (src : Nat → Option Nat) : VResult :=
  let w := tWidth ty
  let n := tLanes ty
  ([laneWrite vd w n ty (fun i => if p.active n i then
      (match src i with
        | some j => if p.active n j then some (p.lane 0 w j) else none
        | none => none)
    else none)], 0)

/-- One lane of VDOT4 under f32 (R164): d plus four products of lanes of the types ta and tb, rounded once. -/
def dotLane (ta tb : Nat) (rm : Rm) (sat : Bool) (d : Nat) (ab : List (Nat × Nat)) : Nat × FFlags :=
  let fa := tFmt ta
  let fb := tFmt tb
  let ops : List (Fmt × Nat) := (fmtF32, d) :: ab.flatMap (fun e => [(fa, e.1), (fb, e.2)])
  match ops.find? (fun o => fIsNan o.1 o.2) with
  | some o => ((fNanTo o.1 fmtF32 o.2).1, if ops.any (fun o => fIsSnan o.1 o.2) then flagNV else 0)
  | none =>
    fSumTerms fmtF32 rm sat (⟨false, d, fmtF32, none⟩ :: ab.map (fun e => ⟨false, e.1, fa, some (e.2, fb)⟩))

/-- Lane l of source side of VDOT4: a free value where a 16-bit register has no such lane (log entry 23). -/
def dotSource (p : Capture) (free side w l : Nat) : Nat :=
  if w * l < 4096 then p.lane side w l else (Config.freeLane free side l).toNat

/-- VDOT4 (R164). -/
def dot4 (p : Capture) (vd : BitVec 5) (ty : Nat) (rm : Rm) (sat : Bool) (free : Nat) : VResult :=
  let ta := p.tagA.toNat
  let tb := p.tagB.toNat
  lanewise p vd ty (fun j =>
    let d := p.lane 2 32 j
    let ab := (List.range 4).map (fun k =>
      (dotSource p free 0 (tWidth ta) (4 * j + k), dotSource p free 1 (tWidth tb) (4 * j + k)))
    if ty = 11 then dotLane ta tb rm sat d ab
    else (lanePattern 32 ((d : Int) + (ab.map (fun e => laneInt ta e.1 * laneInt tb e.2)).sum), 0))

/-- A write of a whole mask register (R149). -/
def maskResult (kd : BitVec 3) (v : Mask) : VResult := ([.mask kd (BitVec.allOnes 1024) v], 0)

/-- The low n bits of a mask set. -/
def lowMask (n : Nat) : Mask := BitVec.ofNat 1024 (2 ^ (min n 1024) - 1)

/-- The result of a fixed-latency V word from what it captured (R305), and from the masks and FFLAGS of its strand as
they stand; free numbers the free values it may draw. DESIGN CHOICE (log entry 80): KPOP with VL 0 writes the count, 0, to lane 0. -/
def vCompute (i : Instr) (p : Capture) (x : Strand) (free : Nat) : VResult :=
  let ty := shType p.shape
  let w := tWidth ty
  let n := tLanes ty
  let rm := shRm p.shape
  let sat := shSat p.shape
  let f := tFmt ty
  let fl := tFloat ty
  let m := min (shVl p.shape) n
  let a (i : Nat) : Nat := p.lane 0 w i
  let b (i : Nat) : Nat := p.lane 1 w i
  let c (i : Nat) : Nat := p.lane 2 w i
  let za (i : Nat) : Int := laneInt ty (a i)
  let zb (i : Nat) : Int := laneInt ty (b i)
  let zc (i : Nat) : Int := laneInt ty (c i)
  let int (vd : BitVec 5) (g : Nat → Int) : VResult := lanewise p vd ty (fun i => (lanePattern w (g i), 0))
  let bits (vd : BitVec 5) (g : Nat → Nat) : VResult := lanewise p vd ty (fun i => (g i % 2 ^ w, 0))
  let flt (vd : BitVec 5) (g : Nat → Nat × FFlags) : VResult := lanewise p vd ty g
  let top := 2 ^ (w - 1)
  match i with
  | .vadd _ vd _ _ => if fl then flt vd (fun i => fAdd f rm sat (a i) (b i)) else int vd (fun i => za i + zb i)
  | .vsub _ vd _ _ =>
    if fl then flt vd (fun i => fAdd f rm sat (a i) (b i) true) else int vd (fun i => za i - zb i)
  | .vmul _ vd _ _ => if fl then flt vd (fun i => fMul f rm sat (a i) (b i)) else int vd (fun i => za i * zb i)
  | .vmulh _ vd _ _ => bits vd (fun i => intMulHigh ty w (a i) (b i))
  | .vfma _ vd _ _ _ =>
    if fl then flt vd (fun i => fFma f rm sat (a i) (b i) (c i) false false) else int vd (fun i => za i * zb i + zc i)
  | .vfms _ vd _ _ _ =>
    if fl then flt vd (fun i => fFma f rm sat (a i) (b i) (c i) false true) else int vd (fun i => za i * zb i - zc i)
  | .vfnma _ vd _ _ _ =>
    if fl then flt vd (fun i => fFma f rm sat (a i) (b i) (c i) true false) else int vd (fun i => zc i - za i * zb i)
  | .vmin _ vd _ _ => flt vd (fun i => minMaxLanes ty false (a i) (b i))
  | .vmax _ vd _ _ => flt vd (fun i => minMaxLanes ty true (a i) (b i))
  | .vabs _ vd _ => if fl then bits vd (fun i => a i % top) else int vd (fun i => (za i).natAbs)
  | .vneg _ vd _ => if fl then bits vd (fun i => a i ^^^ top) else int vd (fun i => -(za i))
  | .vadds _ vd _ _ => int vd (fun i => clampTo ty (za i + zb i))
  | .vsubs _ vd _ _ => int vd (fun i => clampTo ty (za i - zb i))
  | .vavg _ vd _ _ => int vd (fun i => (za i + zb i + 1) / 2)
  | .vand _ vd _ _ => bits vd (fun i => a i &&& b i)
  | .vor _ vd _ _ => bits vd (fun i => a i ||| b i)
  | .vxor _ vd _ _ => bits vd (fun i => a i ^^^ b i)
  | .vandn _ vd _ _ => bits vd (fun i => a i &&& (2 ^ w - 1 - b i))
  | .vnot _ vd _ => bits vd (fun i => 2 ^ w - 1 - a i)
  | .vshl _ vd _ _ => bits vd (fun i => intShift w 0 (a i) (b i))
  | .vshr _ vd _ _ => bits vd (fun i => intShift w 1 (a i) (b i))
  | .vsra _ vd _ _ => bits vd (fun i => intShift w 2 (a i) (b i))
  | .vmov _ vd _ => bits vd a
  | .vsel _ vd _ _ kn => bits vd (fun i => if (x.kreg kn).getLsbD i then a i else b i)
  | .vcmp _ kd _ _ cond =>
    let rs := (List.range n).map (fun i =>
      if p.active n i then
        some (if fl then floatCond f cond.toNat (a i) (b i) else (intCond cond.toNat (za i) (zb i), 0))
      else none)
    let q := packLanes 1 (rs.map (·.map (fun r => b2n r.1)))
    ([.mask kd (BitVec.ofNat 1024 q.1) (BitVec.ofNat 1024 q.2)],
      rs.foldl (fun g o => match o with | some r => g ||| r.2 | none => g) 0)
  | .vclz _ vd _ => bits vd (fun i => clzNat w (a i))
  | .vpopc _ vd _ => bits vd (fun i => popNat w (a i))
  | .vcpys _ vd _ _ => bits vd (fun i => a i % top + b i / top * top)
  | .vaddi _ vd _ imm => int vd (fun i => za i + imm.toInt)
  | .vmuli _ vd _ imm => int vd (fun i => za i * imm.toInt)
  | .vandi _ vd _ imm => bits vd (fun i => a i &&& lanePattern w imm.toInt)
  | .vori _ vd _ imm => bits vd (fun i => a i ||| lanePattern w imm.toInt)
  | .vxori _ vd _ imm => bits vd (fun i => a i ^^^ lanePattern w imm.toInt)
  | .vshli _ vd _ sh => bits vd (fun i => intShift w 0 (a i) sh.toNat)
  | .vshri _ vd _ sh => bits vd (fun i => intShift w 1 (a i) sh.toNat)
  | .vsrai _ vd _ sh => bits vd (fun i => intShift w 2 (a i) sh.toNat)
  | .vspli _ vd imm => if fl then flt vd (fun _ => fOfInt f rm sat imm.toInt) else int vd (fun _ => imm.toInt)
  | .viota _ vd imm =>
    if fl then flt vd (fun i => fOfInt f rm sat (imm.toInt + i)) else int vd (fun i => imm.toInt + i)
  | .vsplb _ vd _ => bits vd (fun _ => p.b.toNat)
  | .vcvt _ vd _ src => flt vd (fun i => convertLane src.toNat ty rm sat (a i))
  | .vwid _ vd _ =>
    let s := p.tagA.toNat
    groupwise p vd ty s (groupRatio ty s) (fun i => resizeLane s ty rm sat (p.lane 0 (tWidth s) i))
  | .vnar _ vd _ =>
    let s := p.tagA.toNat
    let q := groupRatio s ty
    flt vd (fun i => resizeLane s ty rm sat (p.lane (i % q) (tWidth s) (i / q)))
  | .vqnt _ vd _ _ =>
    let s := p.tagA.toNat
    let q := groupRatio s ty
    flt vd (fun i => quantLane s ty rm (p.lane (i % q) (tWidth s) (i / q)) (p.lane q 32 (i / 64)))
  | .vdqn _ vd _ _ =>
    let s := p.tagA.toNat
    groupwise p vd ty s (groupRatio ty s) (fun i => dequantLane s ty rm sat (p.lane 0 (tWidth s) i) (p.lane 1 32 (i / 64)))
  | .vrnd _ vd _ => flt vd (fun i => fIntegral f rm (a i))
  | .vperm _ vd _ _ => permute p vd ty (fun i => some (b i))
  | .vbcst _ vd _ lane => permute p vd ty (fun _ => some lane.toNat)
  | .vslup _ vd _ lane => permute p vd ty (fun i => if i < lane.toNat then none else some (i - lane.toNat))
  | .vsldn _ vd _ lane => permute p vd ty (fun i => some (i + lane.toNat))
  | .vrev _ vd _ => permute p vd ty (fun i => if i < m then some (m - 1 - i) else none)
  | .vcmpr _ vd _ =>
    let l := p.lanes n
    ([laneWrite vd w n ty (fun i => (l[i]?).map a)], 0)
  | .vexpn _ vd _ =>
    ([laneWrite vd w n ty (fun i =>
      if p.active n i then some (a ((List.range i).filter (p.active n)).length) else none)], 0)
  | .vscan _ vd _ => scanLanes p vd ty (addLanes ty rm sat)
  | .vrsum _ vd _ => reduceLanes p vd ty (addLanes ty rm sat)
  | .vrmin _ vd _ => reduceLanes p vd ty (minMaxLanes ty false)
  | .vrmax _ vd _ => reduceLanes p vd ty (minMaxLanes ty true)
  | .vdot4 _ vd _ _ => dot4 p vd ty rm sat free
  | .vrcp _ vd _ => flt vd (fun i => fRcp f rm sat (a i))
  | .vrsq _ vd _ => flt vd (fun i => fRsqrt f rm sat (a i))
  | .vsqrt _ vd _ => flt vd (fun i => fSqrt f rm sat (a i))
  | .vdivf _ vd _ _ => flt vd (fun i => fDiv f rm sat (a i) (b i))
  | .vexp2 _ vd _ => flt vd (fun i => fExp2 f rm sat (a i))
  | .vlog2 _ vd _ => flt vd (fun i => fLog2 f rm sat (a i))
  | .vsin _ vd _ => flt vd (fun i => fSin f rm sat (a i))
  | .vtanh _ vd _ => flt vd (fun i => fTanh f rm sat (a i))
  | .kand _ kd ka kb => maskResult kd (x.kreg ka &&& x.kreg kb)
  | .kor _ kd ka kb => maskResult kd (x.kreg ka ||| x.kreg kb)
  | .kxor _ kd ka kb => maskResult kd (x.kreg ka ^^^ x.kreg kb)
  | .kandn _ kd ka kb => maskResult kd (x.kreg ka &&& ~~~(x.kreg kb))
  | .knot _ kd ka => maskResult kd (~~~(x.kreg ka))
  | .kmov _ kd ka => maskResult kd (x.kreg ka)
  | .kset _ kd => maskResult kd (lowMask m)
  | .kpop _ vd ka =>
    ([laneWrite vd w n ty (fun i => if i = 0 then some (popNat 1024 (x.kreg ka &&& lowMask m).toNat) else none)], 0)
  | .vbli _ bn imm => ([.breg bn (imm.signExtend 64)], 0)
  | .vbadd _ bn imm => ([.breg bn (p.b + imm.signExtend 64)], 0)
  | .vbmov _ bd _ => ([.breg bd p.b], 0)
  | .vshp _ _ => ([.shape ((p.b.setWidth 32) &&& 0x00FF_FFFF)], 0)
  | .vshpb _ _ => ([.shape ((p.b.setWidth 32) &&& 0x0FFF_FFFF)], 0)
  | .vflg _ bn => ([.breg bn (x.fflags.setWidth 64)], 0)
  | _ => ([], 0)

end Sys2Proof.Machine
end

