-- ==== Sys2Proof/Machine/VectorIssue.lean ====
section
/-! DEFINITION. The issue of a V word (R111, R131 to R133, R157, R159, R205, R302, R322, R323) and the performing of the
vector memory words (R151 to R162). -/
namespace Sys2Proof.Machine

-- Issue

/-- Upper bound on the record of a V word in 32-byte units (R304, R305). -/
def recordUnits (regs : Nat) : Nat := 2 + 16 * regs + 4

/-- Upper bound on the V-op records of a running entry. -/
def VRun.units (r : VRun) : Nat :=
  (r.flight.map (fun w => recordUnits w.cap.regs.length)).sum
  + ((r.vlq ++ r.vsq ++ r.esu).map (fun q => recordUnits q.cap.regs.length)).sum + r.marks.length

/-- Units that a strand's other records and its running V-entry record may need (log entry 24). -/
def otherUnits : Nat := 361

/-- Is a word of these operand registers held back so that the worst-case records fit 65,472 bytes (R302)? -/
def VRun.recordsFull (r : VRun) (regs : Nat) : Bool := 2046 < r.units + recordUnits regs + otherUnits

/-- The queue a token-completed word enters: VLQ, VSQ or the ESU. -/
def vQueueOf (i : Instr) : Option VQueue :=
  match i with
  | .vld .. => some .load
  | .vldc .. => some .load
  | .vldx .. => some .load
  | .vlds .. => some .load
  | .vst .. => some .store
  | .vstx .. => some .store
  | .vatm .. => some .store
  | .go2d .. => some .esu
  | .go3d .. => some .esu
  | .gic .. => some .esu
  | .gis .. => some .esu
  | .gsx .. => some .esu
  | _ => none

def VRun.queue (r : VRun) (q : VQueue) : List VOp :=
  match q with | .load => r.vlq | .store => r.vsq | .esu => r.esu

def VRun.setQueue (r : VRun) (q : VQueue) (l : List VOp) : VRun :=
  match q with
  | .load => { r with vlq := l }
  | .store => { r with vsq := l }
  | .esu => { r with esu := l }

/-- Is the queue of a token-completed word full (R159, R205)? -/
def VRun.queueFull (r : VRun) (i : Instr) : Bool :=
  match vQueueOf i with
  | some .esu => Config.esuDepth ≤ r.esu.length
  | some q => Config.vectorQueueDepth ≤ (r.queue q).length
  | none => false

/-- What a V word meets before it issues. -/
inductive VGate where
  | pass (k : Core)
  | wait
  | stop (w : Trouble)

/-- FORMAT (R131), then the waits at issue, then the charge (R323). -/
def Core.vGate (k : Core) (r : VRun) (x : Strand) (i : Instr) : VGate :=
  let o := vOperands i (shType x.vshape) x.vtag
  let b : Word := match o.bn with | some n => vget r.b 0 n.toNat | none => 0
  if !vChecks i (shType x.vshape) (o.regs.map (fun q => (x.vtag q).toNat)) (shGstat x.vshape) b then .stop ⟨.format, 0, 0⟩
  else if r.queueFull i || r.recordsFull o.regs.length then .wait
  else match k.charge 0 (vCost i) with
    | .over => .stop ⟨.power, 0, 0⟩
    | .wait => .wait
    | .paid k' => .pass k'

/-- The running V entry of the core in focus after a word has issued from it (R132, R133). -/
def VRun.stepped (r : VRun) (e : Bool) : VRun :=
  { r with idx := r.idx + 1, slot := r.slot + 1, seq := r.seq + 1, ended := e, slip := r.slip.filter (fun s => s.idx ≠ r.idx) }

/-- The operands of a word that reads the destination of a slipped load which has made its access: each lane is old or new (R161,
R162). -/
def VRun.slipRead (r : VRun) (p : Capture) : Capture :=
  if r.slip.all (fun u => u.data.isNone) then p
  else
    let one (n : Nat) (reg : BitVec 5) (v : VReg) : VReg :=
      r.slip.foldl (fun v u => match u.data with
        | some d =>
          if u.dest ≠ reg then v
          else match laneWrite reg u.width (4096 / u.width) 0 (fun i => (d.find? (fun e => e.1 = i)).map (·.2)) with
            | .vreg _ sel data _ => mergeBits v (sel &&& lanesWhere u.width (fun i => Config.freeLand r.draw r.seq (2048 + 1024 * n + i))) data
            | _ => v
        | none => v) v
    { p with vals := (List.range p.vals.length).map (fun n => one n (p.regs.getD n 0) (p.vals.getD n 0)) }

/-- Issue a V word of the running entry of the core in focus: due writes land, the gates are met, and put gives the
word's own effect from the core (charged), the run (already stepped) and the operands captured. A word that waits takes
no slot, so that nothing lands. -/
def State.vWord (s0 : State) (i : Instr) (e : Bool) (put : Core → VRun → Strand → Capture → Core) : State :=
  let s := s0.onCore s0.focus Core.landV
  let k := s.core s.focus
  match k.vrun with
  | none => s0
  | some r =>
    if r.ended || s0.entryFrozen s0.focus r.entry r.flt then s0
    else
      let x := k.strand r.entry.strand
      match k.vGate r x i with
      | .wait => s0
      | .stop w => s.entryStop s.focus .v w
      | .pass k' =>
        s.setCore s.focus (put k' (r.stepped e) x (r.slipRead (x.capture r.b (vOperands i (shType x.vshape) x.vtag))))

/-- A fixed-latency V word: its result is put in flight (R132, R134). VFLG reads FFLAGS with the flags of its entry (R129). -/
def State.vFixed (s : State) (i : Instr) (e : Bool) : State :=
  s.vWord i e (fun k r x p =>
    let (ws, fl) := vCompute i p { x with fflags := x.fflags ||| r.flags } s.freeIx
    let due := r.slot - 1 + (vLatency i (shType p.shape)).getD 0
    { k with vrun := some { r with flight := r.flight ++ [{ due := due, seq := r.seq - 1, op := i, writes := ws, flags := fl, cap := p }] } })

/-- A V word that writes nothing: VNOP. -/
def State.vNothing (s : State) (i : Instr) (e : Bool) : State := s.vWord i e (fun k r _ _ => { k with vrun := some r })

/-- Count a token up or down (R157). -/
def Core.addTok (k : Core) (t : BitVec 2) (n : BitVec 3) (f : Nat → Nat) : Core :=
  let x := k.strand t
  k.setStrand t { x with tok := vset x.tok n.toNat (f (vget x.tok 0 n.toNat)) }

/-- A load that slipped uses the base, the index and the stride it read in its starting slot, and the lanes if it read them then
(R161, R162). DEDUCED: the mask k[KSEL] counts as an operand it reads there too (log entry 96). -/
def VOp.slipped (q : VOp) (r : VRun) (idx : Nat) (bn : BitVec 3) : VOp :=
  match r.slip.find? (fun s => s.idx = idx) with
  | some s =>
    let stale : BitVec 16 := (if s.vals ≠ [] ∧ s.vals ≠ q.cap.vals then 1 else 0) ||| (if s.kval ≠ q.cap.kval then 0x8000 else 0)
    { q with
      cap := { q.cap with dirty := q.cap.dirty ||| stale, b := vget s.b 0 bn.toNat, kval := s.kval, vals := if s.vals = [] then q.cap.vals else s.vals }
      stride := vget s.b 0 (bn.toNat + 1), data := s.data.getD [], found := s.found, crossed := s.crossed }
  | none => { q with stride := vget r.b 0 (bn.toNat + 1) }

/-- A token-completed V word enters its queue (R157, R159, R205). -/
def State.vQueued (s : State) (i : Instr) (e : Bool) (q : VQueue) (tok bn : BitVec 3) (held : Option (Nat × Nat) := none) :
    State :=
  let slips := ((((s.core s.focus).landV).vrun).map (·.slip)).getD []
  s.vWord i e (fun k r _ p =>
    let o := { seq := r.seq - 1, op := i, tok := tok, cap := p, held := held, tick := s.tick : VOp }.slipped { r with slip := slips } (r.idx - 1) bn
    { k with vrun := some (r.setQueue q (r.queue q ++ [o])) }.addTok r.entry.strand tok (· + 1))

-- Lane addresses

/-- The address of lane i of a memory word (R151), mod 2^48. -/
def VOp.laneAddr (q : VOp) (i : Nat) : Nat :=
  let ty := shType q.cap.shape
  let w := tWidth ty
  let idx (j : Nat) : Int :=
    let v := q.cap.lane j w i
    if 2 ^ (w - 1) ≤ v then (v : Int) - 2 ^ w else v
  let scale (sc : BitVec 2) : Int := 2 ^ sc.toNat
  let base : Int := q.cap.b.toNat
  let a : Int := match q.op with
    | .vld _ _ _ off _ => base + 64 * off.toInt + (w / 8 : Nat) * i
    | .vldc _ _ _ off _ => base + 64 * off.toInt + (w / 8 : Nat) * i
    | .vst _ _ _ off _ => base + 64 * off.toInt + (w / 8 : Nat) * i
    | .vlds _ _ _ off _ => base + 64 * off.toInt + i * q.stride.toInt
    | .vldx _ _ _ _ sc z _ => base + scale sc * idx 0 + 64 * z.toNat
    | .vstx _ _ _ _ sc z _ => base + scale sc * idx 1 + 64 * z.toNat
    | .vatm _ _ _ _ sc _ _ => base + scale sc * idx 1
    | _ => base
  (a % 2 ^ 48).toNat

/-- The active lanes a memory word has still to access, ascending (R130, R156). -/
def VOp.lanes (q : VOp) : List Nat :=
  (q.cap.lanes (tLanes (shType q.cap.shape))).filter (fun i => q.lane ≤ i)

/-- Bytes of one lane. -/
def VOp.bytes (q : VOp) : Nat := tWidth (shType q.cap.shape) / 8

/-- Where a lane's access performs: as a scalar access, but the stop-record areas give WINDOW (R151, R302). -/
def State.vTarget (s : State) (c a n : Nat) (acc : Acc) (th : Bool) : Except Trouble Nat :=
  match s.scalarTarget c a n acc th with
  | .error e => .error e
  | .ok pa => match winSplit pa with
    | some (_, off) => if winRange off = .area then .error (windowTrouble (addr48 a)) else .ok pa
    | none => .ok pa

/-- A lane of a memory word as it stands in memory: its number, its address, where that resolves, and its bytes. -/
structure LaneAt where
  lane  : Nat
  addr  : Nat
  pa    : Option Nat
  bytes : Nat

/-- Lanes of a memory word as they stand. -/
def VOp.lanesAt (q : VOp) (s : State) (c : Nat) (l : List Nat) : List LaneAt :=
  l.map (fun i => ⟨i, q.laneAddr i, (match resolveIn s (s.partOf c) (q.laneAddr i) .load false with
    | .ok pa => some pa
    | .error _ => none), q.bytes⟩)

/-- Do two lanes share a byte, by what they resolve to or else by their addresses? -/
def LaneAt.meets (a b : LaneAt) : Bool :=
  match a.pa, b.pa with
  | some x, some y => overlap (x, a.bytes) (y, b.bytes)
  | _, _ => overlap (a.addr, a.bytes) (b.addr, b.bytes)

/-- The HBM lines of some physical addresses, each once, but for those that done lists. -/
def freshLines (done pas : List Nat) : List Nat :=
  ((pas.filter isHbm).map (· / 64)).foldl (fun r l => if done.contains l || r.contains l then r else l :: r) []

/-- Count HBM lines once each (R91). -/
def countEach (s : State) (d : Nat) (ls : List Nat) : State := ls.foldl (fun r l => countLines r d (64 * l) 1) s

-- Performing

/-- May the head of a queue perform: no VMARK holds it back (R160)? -/
def VRun.ready (r : VRun) (q : VOp) : Bool :=
  r.marks.all (fun m => q.seq < m.seq || (r.vlq ++ r.vsq).all (fun o => m.seq < o.seq || o.seq = q.seq))

/-- The physical addresses of lanes of a load, or its first faulting lane's trouble (R156). -/
def State.findTargets (s : State) (c : Nat) (q : VOp) : List Nat → Except Trouble (List (Nat × Nat))
  | [] => .ok []
  | i :: is =>
    match s.vTarget c (q.laneAddr i) q.bytes .load (!q.skipTH) with
    | .error e => .error e
    | .ok pa => match s.findTargets c q is with
      | .error e => .error e
      | .ok r => .ok ((i, pa) :: r)

/-- The same of all its lanes, as found before the first of them was read. -/
def State.vLoadTargets (s : State) (c : Nat) (q : VOp) : Except Trouble (List (Nat × Nat)) :=
  match q.found with
  | some l => .ok l
  | none => s.findTargets c q q.lanes

/-- One lane's value, served from the cluster's cache when stale says so; since as in loadPhys. -/
def vReadLane (s : State) (c : Nat) (since : Option Nat) (pa n : Nat) (stale : Bool) : Nat :=
  leValue (if stale && isHbm pa then cachedBytes s (clusterOf c) since pa n else viewRead s (clusterOf c) pa n)

/-- The value a lane of VATM leaves from the old one (R155). -/
def vAtomic (q : VOp) (i old : Nat) : Nat :=
  match q.op with
  | .vatm _ _ _ _ _ z _ => atomicOp z.toNat 4 old (q.cap.lane 0 32 i)
  | _ => old

/-- Is the word an atomic? -/
def isVatm (i : Instr) : Bool := match i with | .vatm .. => true | _ => false

/-- How far a store or atomic got: its state, the lane it stands at, the old values of VATM, and its trouble if it
stopped there. -/
structure Stored where
  s    : State
  pas  : List Nat := []
  olds : List (Nat × Nat) := []
  bytes : Nat := 0
  lane : Nat := 1024
  why  : Option Trouble := none
  wait : Bool := false

/-- Store the lanes of VST, VSTX or VATM in ascending order (R154, R155); near: the stores perform in the cluster cache (R101). -/
def storeLanes (c : Nat) (q : VOp) (th near : Bool) : List Nat → Stored → Stored
  | [], r => r
  | i :: is, r =>
    let acc : Acc := if isVatm q.op then .atomic else .store
    match r.s.vTarget c (q.laneAddr i) q.bytes acc th with
    | .error e => { r with lane := i, why := some e }
    | .ok pa =>
      if r.s.tileBusy pa || r.s.portShut c pa then { r with lane := i, wait := true }
      else if isVatm q.op then
        let (old, s') := r.s.atomicAt c pa q.bytes none (vAtomic q i)
        storeLanes c q th near is { r with s := s', olds := (i, old) :: r.olds, bytes := r.bytes + q.bytes }
      else
        let bs := leBytes q.bytes (q.cap.lane 0 (8 * q.bytes) i)
        let s' := storeAt r.s c pa bs 0 near none
        storeLanes c q th near is { r with s := s', pas := pa :: r.pas, bytes := r.bytes + q.bytes }

/-- The head of a queue leaves it and its token's count drops (R157); a VMARK with nothing before it retires (R160). -/
def Core.vDone (k : Core) (q : VQueue) (o : VOp) : Core :=
  match k.vrun with
  | none => k
  | some r =>
    let r := r.setQueue q ((r.queue q).drop 1)
    let r := { r with marks := r.marks.filter (fun m => (r.vlq ++ r.vsq).any (fun u => u.seq < m.seq)) }
    { k with vrun := some r }.addTok r.entry.strand o.tok (· - 1)

/-- Change the word q in its queue. -/
def Core.vPut (k : Core) (c : VQueue) (q : VOp) : Core :=
  { k with vrun := k.vrun.map (fun r => r.setQueue c ((r.queue c).map (fun u => if u.seq = q.seq then q else u))) }

/-- A token-completed word is found to fault (R156): it stays in its queue, and its entry stops. -/
def State.vFault (s : State) (c : Nat) (q : VQueue) (o : VOp) (w : Trouble) : State :=
  let mark (u : VOp) : VOp := if u.seq = o.seq then { u with flt := some w, lane := o.lane } else u
  (s.onCore c (fun k => { k with vrun := k.vrun.map (fun r => r.setQueue q ((r.queue q).map mark)) })).entryStop c .v w

/-- The byte range VLDC consumes: from its lowest lane to its highest (R153). -/
def VOp.span (q : VOp) : Option (Nat × Nat) :=
  match q.lanes.map q.laneAddr with
  | [] => none
  | a :: as =>
    let lo := as.foldl min a
    let hi := as.foldl max a
    some (lo, hi + q.bytes - lo)

/-- The byte range VLDC consumes, and whether its check is still to be made: a reissued one checks again (R262, R310). -/
def VOp.consumes (q : VOp) : Option (Nat × Nat) :=
  match q.op with
  | .vldc .. => match q.held with | some r => some r | none => q.span
  | _ => none

def State.vldcGate (s : State) (c : Nat) (r : VRun) (q : VOp) : Consumed :=
  match q.consumes, q.held with
  | some (a, n), none => s.consumeCheck c r.entry.launch a n
  | _, _ => .ok s

/-- Has a load read a lane? -/
def VOp.hasRead (q : VOp) (i : Nat) : Bool := q.data.any (fun e => e.1 = i)

/-- A load reads the lanes l, given with their physical addresses, and counts the lines it has not counted (R91, R152); none where a
tile in use holds one of them (R187). -/
def State.readLanes (s : State) (c : Nat) (since : Option Nat) (q : VOp) (l : List (Nat × Nat)) (stale : Bool) : Option (VOp × State) :=
  if l.any (fun e => s.tileBusy e.2) then none
  else
    let k := clusterOf c
    let s' := l.foldl (fun r e => if stale && isHbm e.2 then forgetLines r k since e.2 q.bytes else fillLines r k e.2 q.bytes) s
    let fresh := freshLines q.lines (l.map (·.2))
    some ({ q with data := q.data ++ l.map (fun e => (e.1, vReadLane s c since e.2 q.bytes stale)), lines := q.lines ++ fresh },
      countEach s' (dieOf c) fresh)

/-- A load in VLQ reads those of its lanes that want selects and that it has not read, before it performs; none: it cannot now. -/
def State.readAhead (s : State) (c : Nat) (r : VRun) (o : VOp) (want : Nat → Bool) : Option State :=
  let unread (i : Nat) : Bool := want i && !o.hasRead i
  let gated : Bool := match o.op with | .vldc .. => o.held.isNone | _ => false
  if !o.lanes.any unread then some s
  else if o.flt.isSome || gated then none
  else match s.vLoadTargets c o with
    | .error _ => none
    | .ok l => (s.readLanes c r.entry.since o (l.filter (fun e => unread e.1)) (Config.freeBit s.freeIx)).map (fun (o', s) =>
        { s with freeIx := s.freeIx + 1 }.onCore c (fun k => k.vPut .load { o' with found := some l }))

/-- Before the store q performs the lanes todo, the earlier loads that share a byte with them read those lanes, and every load before
the last of these reads all of its own, in order, so that none returns what q writes (R159); none: one of them cannot read
yet. DEDUCED: VATM, which counts as a load, is a store here (log entry 97). -/
def State.readBefore (s : State) (c : Nat) (r : VRun) (q : VOp) (todo : List Nat) : Option State :=
  let mine := q.lanesAt s c todo
  let clash (o : VOp) : List Nat :=
    ((o.lanesAt s c (o.lanes.filter (fun i => !o.hasRead i))).filter (fun u => mine.any (u.meets ·))).map (·.lane)
  match (r.vlq.filter (fun o => o.seq < q.seq)).reverse.dropWhile (fun o => clash o = []) with
  | [] => some s
  | o :: before =>
    let l := clash o
    (before.foldr (fun u a => a.bind (fun s => s.readAhead c r u (fun _ => true))) (some s)).bind
      (fun s => s.readAhead c r o (fun i => l.contains i))

/-- A load completes (R152, R153): the lanes that have not landed are written to the register with the tag, VLDC counts its read, and
the token completes. -/
def State.vLoadDone (s : State) (c : Nat) (r : VRun) (q : VOp) : State :=
  let now := landsNow q.early none
  let s := s.onCore c (fun k => (k.putSome r.entry.strand q (q.data.filter (fun e => now.lanes.getLsbD e.1)) now.tag).vDone .load q)
  match q.consumes with
  | some (a, n) => s.consumeCount c r.entry.launch a n
  | none => s

/-- The head of VLQ performs (R152, R153, R158): once every lane's address is found and allowed (R156), the lanes of a part, or all of
them, are read, unless they have been, and written; with no part it completes. -/
def State.vLoadStep (s : State) (c : Nat) (r : VRun) (q : VOp) (stale : Bool) (part : Option Early) : State :=
  match (if q.found.isSome then .ok s else s.vldcGate c r q) with
  | .stop w => s.vFault c .load { q with lane := 0 } w
  | .wait => s
  | .ok s1 => match s1.vLoadTargets c q with
    | .error w => s.vFault c .load { q with lane := 0 } w
    | .ok l =>
      let now := landsNow q.early part
      match s1.readLanes c r.entry.since q (l.filter (fun e => now.lanes.getLsbD e.1 && !q.hasRead e.1)) stale with
      | none => s
      | some (q, s2) =>
        let q := { q with found := some l, held := q.consumes }
        match part with
        | some _ => s2.onCore c (fun k =>
            (k.putSome r.entry.strand q (q.data.filter (fun e => now.lanes.getLsbD e.1)) now.tag).vPut .load
              { q with early := landedToo q.early now })
        | none => s2.vLoadDone c r q

/-- The granule of a vector register's window that lane i of a word writes (R22). -/
def State.laneGranule (s : State) (c : Nat) (q : VOp) (i : Nat) : Option Nat :=
  match resolveIn s (s.partOf c) (q.laneAddr i) .store false with
  | .ok pa => (match winSplit pa with | some (_, off) => if winRange off = .vreg then some (pa / 64) else none | none => none)
  | .error _ => none

/-- The lanes of a store that a part performs: those up to the highest it names, and those behind them that write the same granule of a
register window, which lands whole (R22); and the first lane that is left. -/
def State.partLanes (s : State) (c : Nat) (q : VOp) (part : Option Early) : List Nat × Nat :=
  let beyond (i : Nat) : Bool := match part with | some p => p.lanes >>> i = 0 | none => false
  let todo := q.lanes.filter (fun i => !beyond i)
  let rest := q.lanes.filter beyond
  let more := match todo.getLast?.bind (s.laneGranule c q) with
    | some g => rest.takeWhile (fun j => s.laneGranule c q j = some g)
    | none => []
  (todo ++ more, (rest.drop more.length).headD 1024)

/-- The head of VSQ performs (R154 to R156): lanes below a faulting one have performed, and VATM's old values have landed. A part
performs lanes and lands old values of those it names, in any order of lanes, and the word completes later (R18, R158). -/
def State.vStoreStep (s0 : State) (c : Nat) (r : VRun) (q : VOp) (near : Bool) (part : Option Early) : State :=
  let (todo, next) := s0.partLanes c q part
  match s0.readBefore c r q todo with
  | none => s0
  | some s =>
    let w := storeLanes c q (!q.skipTH) near todo { s := s, lane := next }
    let fresh := freshLines q.lines w.pas
    let s := countEach w.s (dieOf c) fresh
    let olds := q.olds ++ w.olds
    let part' := if w.why.isSome then none else part
    let now := landsNow q.early part'
    let lands := olds.filter (fun e => now.lanes.getLsbD e.1)
    let tag := now.tag && !(w.wait && part'.isNone)
    let s := s.onCore c (fun k =>
      let k := if isVatm q.op && (w.why.isNone || olds ≠ []) then k.putSome r.entry.strand q lands tag else k
      { k with vrun := k.vrun.map (fun r => { r with bytes := r.bytes + w.bytes }) })
    let early : Early := { q.early with lanes := lands.foldl (fun m e => m ||| (1#1024 <<< e.1)) q.early.lanes, tag := q.early.tag || tag }
    let q := { q with lane := w.lane, lines := q.lines ++ fresh, olds := olds, early := early }
    match w.why with
    | some e => s.vFault c .store q e
    | none => if w.wait || part.isSome then s.onCore c (fun k => k.vPut .store q) else s.onCore c (fun k => k.vDone .store q)

/-- The byte range a VLDC would consume if it issued now (R153): none with no active lane. -/
def State.vldcSpan (s : State) (i : Instr) : Option (Nat × Nat × BitVec 10) :=
  let k := s.core s.focus
  match k.vrun with
  | none => none
  | some r =>
    let x := k.strand r.entry.strand
    let q : VOp := { seq := 0, op := i, tok := 0, cap := x.capture r.b (vOperands i (shType x.vshape) x.vtag) }
    q.span.map (fun e => (e.1, e.2, r.entry.launch))

end Sys2Proof.Machine
end

