-- ==== Sys2Proof/Machine/Geometry.lean ====
section
/-! DEFINITION. The exact geometric predicates (R198 to R213): three stages of arithmetic on exact dyadic numbers, the
symbolic perturbation, and the words. -/
namespace Sys2Proof.Machine

-- Arithmetic of the three stages

/-- A number with the word that no operation behind it left the range of its stage. -/
abbrev Checked := Dy × Bool

/-- Round to nearest, ties to even, at p significant bits, with no exponent limit. -/
def roundSig (p : Nat) (d : Dy) : Dy :=
  if d.m = 0 then d
  else
    let q : Int := (Nat.log2 d.m.natAbs : Int) + d.e - (p - 1)
    if q ≤ d.e then d
    else
      let (n, _) := roundAt .rne (d.m < 0) d.m.natAbs d.e q
      ⟨if d.m < 0 then -(n : Int) else n, q⟩

/-- ⌊log2 |d|⌋ of a nonzero number. -/
def dyLog2 (d : Dy) : Int := (Nat.log2 d.m.natAbs : Int) + d.e

/-- Stage 0 rounds to f32 (R202): an overflow, or an exact result that is nonzero and below 2^−126, spoils the lane. -/
def roundStage0 (d : Dy) : Checked :=
  let r := roundSig 24 d
  (r, d.m = 0 || (-126 ≤ dyLog2 d && dyLog2 r ≤ 127))

/-- The arithmetic of a stage: difference of coordinates, product, sum and difference of terms. -/
structure StageArith where
  diff : Dy → Dy → Checked
  mul  : Checked → Checked → Checked
  add  : Checked → Checked → Checked
  sub  : Checked → Checked → Checked

/-- The arithmetic whose differences are rounded by rd0 and whose products and sums by rd. With pos set it is that of P:
every difference and every term is taken by its absolute value, and terms are added (R202). -/
def stageArith (rd0 rd : Dy → Checked) (pos : Bool) : StageArith :=
  let two (f : Dy → Dy → Dy) (x y : Checked) : Checked :=
    let r := rd (f x.1 y.1)
    (r.1, r.2 && x.2 && y.2)
  { diff := fun a b =>
      let r := rd0 (dySub a b)
      (if pos then dyAbs r.1 else r.1, r.2)
    mul := two dyMul
    add := two dyAdd
    sub := two (if pos then dyAdd else dySub) }

def exactRound (d : Dy) : Checked := (d, true)
def arithExact : StageArith := stageArith exactRound exactRound false
def arith0 (pos : Bool) : StageArith := stageArith roundStage0 roundStage0 pos
def arith1 (pos : Bool) : StageArith := stageArith exactRound (fun d => (roundSig 128 d, true)) pos

-- Determinants

/-- The predicates that have a determinant (R199). -/
inductive Det where
  | go2d | go3d | gic | gis
  deriving DecidableEq, Repr

/-- Coordinates of a point. -/
def Det.dim : Det → Nat
  | .go2d => 2
  | .go3d => 3
  | .gic => 2
  | .gis => 3

/-- Coordinate j of the point at position k of a lane's coordinates. -/
def coord (d : Nat) (l : List Dy) (k j : Nat) : Dy := l.getD (d * k + j) ⟨0, 0⟩

/-- x·y − z·w in a stage's arithmetic. -/
def StageArith.cross (t : StageArith) (x y z w : Checked) : Checked := t.sub (t.mul x y) (t.mul z w)

/-- The expression of R202 in a stage's arithmetic, in the order written. -/
def detExpr (t : StageArith) (w : Det) (l : List Dy) : Checked :=
  let d := w.dim
  match w with
  | .go2d =>
    let g (k j : Nat) := t.diff (coord d l k j) (coord d l 2 j)
    t.cross (g 0 0) (g 1 1) (g 0 1) (g 1 0)
  | .go3d =>
    let g (k j : Nat) := t.diff (coord d l k j) (coord d l 3 j)
    let m (p q : Nat) := t.cross (g p 0) (g q 1) (g q 0) (g p 1)
    t.add (t.add (t.mul (g 0 2) (m 1 2)) (t.mul (g 1 2) (t.cross (g 2 0) (g 0 1) (g 0 0) (g 2 1)))) (t.mul (g 2 2) (m 0 1))
  | .gic =>
    let g (k j : Nat) := t.diff (coord d l k j) (coord d l 3 j)
    let lift (k : Nat) := t.add (t.mul (g k 0) (g k 0)) (t.mul (g k 1) (g k 1))
    let m (p q : Nat) := t.cross (g p 0) (g q 1) (g q 0) (g p 1)
    t.add (t.add (t.mul (lift 0) (m 1 2)) (t.mul (lift 1) (t.cross (g 2 0) (g 0 1) (g 0 0) (g 2 1)))) (t.mul (lift 2) (m 0 1))
  | .gis =>
    let g (k j : Nat) := t.diff (coord d l k j) (coord d l 4 j)
    let lift (k : Nat) := t.add (t.add (t.mul (g k 0) (g k 0)) (t.mul (g k 1) (g k 1))) (t.mul (g k 2) (g k 2))
    let m (p q : Nat) := t.cross (g p 0) (g q 1) (g q 0) (g p 1)
    let ab := m 0 1
    let bc := m 1 2
    let cd := m 2 3
    let da := m 3 0
    let ac := m 0 2
    let bd := m 1 3
    let abc := t.add (t.sub (t.mul (g 0 2) bc) (t.mul (g 1 2) ac)) (t.mul (g 2 2) ab)
    let bcd := t.add (t.sub (t.mul (g 1 2) cd) (t.mul (g 2 2) bd)) (t.mul (g 3 2) bc)
    let cda := t.add (t.add (t.mul (g 2 2) da) (t.mul (g 3 2) ac)) (t.mul (g 0 2) cd)
    let dab := t.add (t.add (t.mul (g 3 2) ab) (t.mul (g 0 2) bd)) (t.mul (g 1 2) da)
    t.add (t.sub (t.mul (lift 3) abc) (t.mul (lift 2) dab)) (t.sub (t.mul (lift 1) cda) (t.mul (lift 0) bcd))

/-- The bound κ at ε = 2^−n (R202, R203): (p + q·ε)·ε. -/
def kappa (w : Det) (n : Nat) : Dy :=
  let (p, q) : Int × Int := match w with
    | .go2d => (3, 16)
    | .go3d => (7, 56)
    | .gic => (10, 96)
    | .gis => (16, 224)
  ⟨p * 2 ^ n + q, -(2 * n)⟩

/-- Does a stage prove the sign: |D| > κ·P, every operation being in range? -/
def proves (d p : Checked) (k : Dy) : Bool := d.2 && p.2 && dyLt (dyMul k p.1) (dyAbs d.1)

/-- The exponent span of coordinates (R203). -/
def expSpan (l : List Dy) : Int :=
  match (l.filter (fun x => x.m ≠ 0)).map dyLog2 with
  | [] => 0
  | e :: es => es.foldl max e - es.foldl min e

/-- The sign of a determinant and the stage that resolves it (R202 to R204). -/
def detSign (w : Det) (l : List Dy) : Int × Nat :=
  let d0 := detExpr (arith0 false) w l
  if proves d0 (detExpr (arith0 true) w l) (kappa w 24) then (dySign d0.1, 0)
  else
    let d1 := detExpr (arith1 false) w l
    if expSpan l ≤ 100 && proves d1 (detExpr (arith1 true) w l) (kappa w 128) then (dySign d1.1, 1)
    else (dySign (detExpr arithExact w l).1, 2)

-- Symbolic perturbation

/-- The exact sign of orient2d on two named coordinates of three points (R208). -/
def orientOn (d : Nat) (l : List Dy) (p q r j k : Nat) : Int :=
  dySign (detExpr arithExact .go2d [coord d l p j, coord d l p k, coord d l q j, coord d l q k, coord d l r j, coord d l r k]).1

/-- The exact sign of GO3D's determinant on four points (R208). -/
def orient3On (l : List Dy) (p q r s : Nat) : Int :=
  dySign (detExpr arithExact .go3d ([p, q, r, s].flatMap (fun k => [coord 3 l k 0, coord 3 l k 1, coord 3 l k 2]))).1

/-- The sign of a difference of one coordinate of two points. -/
def coordSign (d : Nat) (l : List Dy) (p q j : Nat) : Int := dySign (dySub (coord d l p j) (coord d l q j))

/-- The signs of the cofactors after D itself (R209). -/
def cofactors (w : Det) (l : List Dy) : List Int :=
  match w with
  | .go2d => [coordSign 2 l 1 2 1, coordSign 2 l 2 1 0, coordSign 2 l 2 0 1, -1]
  | .gic => [orientOn 2 l 1 2 3 0 1, -(orientOn 2 l 0 2 3 0 1), orientOn 2 l 0 1 3 0 1, -(orientOn 2 l 0 1 2 0 1)]
  | .gis =>
    [-(orient3On l 1 2 3 4), orient3On l 0 2 3 4, -(orient3On l 0 1 3 4), orient3On l 0 1 2 4, -(orient3On l 0 1 2 3)]
  | .go3d =>
    [orientOn 3 l 1 2 3 1 2, -(orientOn 3 l 1 2 3 0 2), orientOn 3 l 1 2 3 0 1, -(orientOn 3 l 0 2 3 1 2),
      coordSign 3 l 3 2 2, coordSign 3 l 2 3 1, orientOn 3 l 0 2 3 0 2, coordSign 3 l 2 3 2,
      coordSign 3 l 3 2 0, -(orientOn 3 l 0 2 3 0 1), coordSign 3 l 3 2 1, coordSign 3 l 2 3 0,
      orientOn 3 l 0 1 3 1 2, coordSign 3 l 1 3 2, coordSign 3 l 3 1 1, coordSign 3 l 3 0 2, -1]

/-- The answer of a sign predicate and its stage: D's sign, and under SOS the first nonzero cofactor (R207 to R209). -/
def detAnswer (w : Det) (sos : Bool) (l : List Dy) : Int × Nat :=
  let r := detSign w l
  if r.1 = 0 && sos then (((cofactors w l).find? (fun z => z ≠ 0)).getD 0, r.2) else r

-- Segments

/-- Lexicographic order of points. -/
def pointLt (a b : Dy × Dy) : Bool := dyLt a.1 b.1 || (!dyLt b.1 a.1 && dyLt a.2 b.2)

/-- The code of GSX under EXACT when all four orientations are 0 (R200): overlap along one line. -/
def collinearCode (p1 p2 q1 q2 : Dy × Dy) : Nat :=
  let lo (a b : Dy × Dy) := if pointLt b a then b else a
  let hi (a b : Dy × Dy) := if pointLt a b then b else a
  let l := hi (lo p1 p2) (lo q1 q2)
  let h := lo (hi p1 p2) (hi q1 q2)
  if pointLt h l then 0 else if pointLt l h then 3 else 2

/-- The four orientations of GSX as written, and their points sorted by position, which leaves every sign as it is: o3
and o4 are rotated (R200, R210). -/
def gsxTriples : List ((Nat × Nat × Nat) × (Nat × Nat × Nat)) :=
  [((0, 1, 2), (0, 1, 2)), ((0, 1, 3), (0, 1, 3)), ((2, 3, 0), (0, 2, 3)), ((2, 3, 1), (1, 2, 3))]

/-- The code and stage of GSX (R200, R204, R210). -/
def gsxAnswer (sos : Bool) (l : List Dy) : Int × Nat :=
  let pt (k : Nat) : Dy × Dy := (coord 2 l k 0, coord 2 l k 1)
  let six (t : Nat × Nat × Nat) : List Dy :=
    [(pt t.1).1, (pt t.1).2, (pt t.2.1).1, (pt t.2.1).2, (pt t.2.2).1, (pt t.2.2).2]
  let o := gsxTriples.map (fun t =>
    let r := detSign .go2d (six t.1)
    if r.1 = 0 && sos then (((cofactors .go2d (six t.2)).find? (fun z => z ≠ 0)).getD 0, r.2) else r)
  let sg (n : Nat) : Int := (o.getD n (0, 0)).1
  let stage := (o.map (·.2)).foldl max 0
  let code : Nat :=
    if sos then (if sg 0 ≠ sg 1 ∧ sg 2 ≠ sg 3 then 1 else 0)
    else if sg 0 = 0 ∧ sg 1 = 0 ∧ sg 2 = 0 ∧ sg 3 = 0 then collinearCode (pt 0) (pt 1) (pt 2) (pt 3)
    else if sg 0 * sg 1 ≤ 0 ∧ sg 2 * sg 3 ≤ 0 then
      (if sg 0 = 0 ∨ sg 1 = 0 ∨ sg 2 = 0 ∨ sg 3 = 0 then 2 else 1)
    else 0
  (code, stage)

-- The words

def predDet (i : Instr) : Option Det :=
  match i with
  | .go2d .. => some .go2d
  | .go3d .. => some .go3d
  | .gic .. => some .gic
  | .gis .. => some .gis
  | _ => none

/-- The f32 patterns of a lane's coordinates, in register order. -/
def Capture.coords (p : Capture) (i : Nat) : List Nat := (List.range p.vals.length).map (fun j => p.lane j 32 i)

/-- Is a lane free of NaN and ∞ (R211)? -/
def finiteLane (l : List Nat) : Bool := l.all (fun x => !fIsNan fmtF32 x && !fIsInf fmtF32 x)

/-- A lane's result, its stage code, and whether it sets GEOM (R206, R207, R208, R211). -/
def predLane (i : Instr) (sos : Bool) (l : List Nat) : Int × Nat × Bool :=
  if !finiteLane l then ((if (predDet i).isSome then 2 else -1), 3, true)
  else
    let r := match predDet i with
      | some w => detAnswer w sos (l.map (fDy fmtF32))
      | none => gsxAnswer sos (l.map (fDy fmtF32))
    (r.1, r.2, false)

/-- Does the predicate raise GEOM: a non-finite active lane under EXACT or SOS (R211)? -/
def predRaises (p : Capture) : Bool :=
  shGmode p.shape < 2 && (p.lanes 128).any (fun i => !finiteLane (p.coords i))

/-- The result of a predicate (R201, R206): i32 lanes, stage codes under GSTAT, and the GEOM flag. -/
def predResult (i : Instr) (p : Capture) : VResult :=
  let sos := shGmode p.shape % 2 = 1
  let rs := (List.range 128).map (fun j => if p.active 128 j then some (predLane i sos (p.coords j)) else none)
  let at_ (j : Nat) : Option (Int × Nat × Bool) := (rs[j]?).bind id
  let vd := predDest i
  let main := laneWrite vd 32 128 7 (fun j => (at_ j).map (fun r => lanePattern 32 r.1))
  let stage := laneWrite (vd + 1) 32 128 7 (fun j => (at_ j).map (fun r => r.2.1))
  (if shGstat p.shape then [main, stage] else [main],
    if rs.any (fun o => match o with | some r => r.2.2 | none => false) then flagGEOM else 0)

/-- The oldest predicate of the ESU completes, or raises GEOM before any lane is written (R201, R205, R211). -/
def State.esuStep (s : State) (c : Nat) (r : VRun) (q : VOp) : State :=
  if predRaises q.cap then s.vFault c .esu q ⟨.geom, 0, 0⟩
  else s.onCore c (fun k =>
    let res := predResult q.op q.cap
    let k := res.1.foldl (fun k w => k.landToken r.entry.strand q w (BitVec.allOnes 4096) true) k
    (k.landResult r.entry.strand ([], res.2)).vDone .esu q)

/-- The bits of the 32-bit lanes a mask names. -/
def maskBits (m : Mask) : VReg :=
  BitVec.ofNat 4096 (packLanes 32 ((List.range 128).map (fun i => if m.getLsbD i then some 0 else none))).1

/-- The oldest predicate lands lane by lane (R18, R205): a part's lanes land before the word completes, the rest and the
flag as its count drops (R211). -/
def State.esuPart (s : State) (c : Nat) (r : VRun) (q : VOp) (part : Option Early) : State :=
  if predRaises q.cap then s.vFault c .esu q ⟨.geom, 0, 0⟩
  else
    let t := r.entry.strand
    let now := landsNow q.early part
    let res := predResult q.op q.cap
    let land (k : Core) : Core :=
      match res.1 with
      | [w] => k.landToken t q w (maskBits now.lanes) now.tag
      | [w, w'] => (k.landToken t q w (maskBits now.lanes) now.tag).landToken t q w' (maskBits now.lanes') now.tag'
      | _ => k
    s.onCore c (fun k => match part with
      | some _ => (land k).vPut .esu { q with early := landedToo q.early now }
      | none => ((land k).landResult t ([], res.2)).vDone .esu q)

/-- A predicate enters the ESU (R205); one with no active lane sets its destinations' tags and completes at once (R201). -/
def State.predWord (s : State) (i : Instr) (e : Bool) : State :=
  let landed := s.onCore s.focus Core.landV
  match (landed.core s.focus).vrun with
  | none => s
  | some r =>
    let x := landed.strand s.focus r.entry.strand
    let p := x.capture r.b (vOperands i (shType x.vshape) x.vtag)
    if p.lanes 128 = [] then s.vWord i e (fun k r _ p => { k with vrun := some r }.landResult r.entry.strand (predResult i p))
    else s.vQueued i e .esu 0 0

/-- GO2D (R198, R199). -/
def execGo2d (e : Bool) (vd vq vA : BitVec 5) (s : State) : Out := .next (s.predWord (.go2d e vd vq vA) e)

/-- GO3D (R198, R199). -/
def execGo3d (e : Bool) (vd vq vA : BitVec 5) (s : State) : Out := .next (s.predWord (.go3d e vd vq vA) e)

/-- GIC (R198, R199). -/
def execGic (e : Bool) (vd vq vA : BitVec 5) (s : State) : Out := .next (s.predWord (.gic e vd vq vA) e)

/-- GIS (R198, R199). -/
def execGis (e : Bool) (vd vq vA : BitVec 5) (s : State) : Out := .next (s.predWord (.gis e vd vq vA) e)

/-- GSX (R198, R200). -/
def execGsx (e : Bool) (vd vA : BitVec 5) (s : State) : Out := .next (s.predWord (.gsx e vd vA) e)

end Sys2Proof.Machine
end

