-- ==== Sys2Proof/Machine/VectorMemory.lean ====
section
/-! DEFINITION. The vector memory words (R151 to R156), tokens (R157, R158), VMARK (R160), slip (R161, R162), and the steps at
which token-completed words perform. -/
namespace Sys2Proof.Machine

/-- VLD (R151, R152). -/
def execVld (e : Bool) (vd : BitVec 5) (bn : BitVec 3) (off : BitVec 13) (tok : BitVec 3) (s : State) : Out :=
  .next (s.vQueued (.vld e vd bn off tok) e .load tok bn)

/-- Words in VLQ. -/
def State.vlqLength (s : State) : Nat := match (s.core s.focus).vrun with | some r => r.vlq.length | none => 0

/-- The word VLDC has just put into VLQ is the faulting one (R156). -/
def State.vldcFault (s : State) (w : Trouble) : State :=
  match (s.core s.focus).vrun with
  | none => s
  | some r => match r.vlq.getLast? with
    | some q => s.vFault s.focus .load q w
    | none => s

/-- VLDC (R153, R262): its consuming check is made at issue, before the word enters VLQ; a check that must wait holds it
back, and one that fails makes it the faulting record. With no active lane it sets the tag and completes its token at once (R153). -/
def execVldc (e : Bool) (vd : BitVec 5) (bn : BitVec 3) (off : BitVec 13) (tok : BitVec 3) (s : State) : Out :=
  let i : Instr := .vldc e vd bn off tok
  let plain := s.vQueued i e .load tok bn
  let landed := s.onCore s.focus Core.landV
  if plain.vlqLength ≤ s.vlqLength then .next plain
  else match landed.vldcSpan i with
    | none => .next (s.vWord i e (fun k r _ p =>
        { k with vrun := some r }.putSome r.entry.strand { seq := r.seq - 1, op := i, tok := tok, cap := p } [] true))
    | some (a, n, l) => match s.consumeCheck s.focus l a n with
      | .wait => .next s
      | .ok u => .next (u.vQueued i e .load tok bn (some (a, n)))
      | .stop w => .next (plain.vldcFault w)

/-- VST (R151, R154): vd names the register stored, read at issue. -/
def execVst (e : Bool) (vd : BitVec 5) (bn : BitVec 3) (off : BitVec 13) (tok : BitVec 3) (s : State) : Out :=
  .next (s.vQueued (.vst e vd bn off tok) e .store tok bn)

/-- VLDX (R151, R152). -/
def execVldx (e : Bool) (vd : BitVec 5) (bn : BitVec 3) (vi : BitVec 5) (sc : BitVec 2) (z : BitVec 6) (tok : BitVec 3)
    (s : State) : Out := .next (s.vQueued (.vldx e vd bn vi sc z tok) e .load tok bn)

/-- VSTX (R151, R154). -/
def execVstx (e : Bool) (vd : BitVec 5) (bn : BitVec 3) (vi : BitVec 5) (sc : BitVec 2) (z : BitVec 6) (tok : BitVec 3)
    (s : State) : Out := .next (s.vQueued (.vstx e vd bn vi sc z tok) e .store tok bn)

/-- VLDS (R151, R152). -/
def execVlds (e : Bool) (vd : BitVec 5) (bn : BitVec 3) (off : BitVec 13) (tok : BitVec 3) (s : State) : Out :=
  .next (s.vQueued (.vlds e vd bn off tok) e .load tok bn)

/-- VATM (R151, R155): z is the operation. -/
def execVatm (e : Bool) (vd : BitVec 5) (bn : BitVec 3) (vi : BitVec 5) (sc : BitVec 2) (z : BitVec 6) (tok : BitVec 3)
    (s : State) : Out := .next (s.vQueued (.vatm e vd bn vi sc z tok) e .store tok bn)

/-- VMARK (R160): it enters both queues and blocks nothing; with no earlier memory word outstanding it orders nothing. -/
def execVmark (e : Bool) (s : State) : Out :=
  .next (s.vWord (.vmark e) e (fun k r _ p =>
    if (r.vlq ++ r.vsq).isEmpty then { k with vrun := some r }
    else { k with vrun := some { r with marks := r.marks ++ [{ seq := r.seq - 1, shape := p.shape, last := e }] } }))

/-- Is every token a TKW names at 0 (R157)? -/
def Strand.tokensClear (x : Strand) (mask : BitVec 8) : Bool :=
  (List.range 8).all (fun n => !mask.getLsbD n || vget x.tok 0 n = 0)

/-- TKW (R157, R158): it waits without taking a slot until every named token is 0. -/
def execTkw (e : Bool) (mask : BitVec 8) (s : State) : Out :=
  match (s.core s.focus).vrun with
  | none => .next s
  | some r =>
    if (s.strand s.focus r.entry.strand).tokensClear mask then .next (s.vNothing (.tkw e mask) e) else .next s

/-- Does a word end the early window of a slipped load (R161)? -/
def endsWindow (i : Instr) : Bool :=
  match i with
  | .vmark .. => true
  | .tkw .. => true
  | .vshp .. => true
  | .vshpb .. => true
  | _ => false

/-- The load at word index j, with its b-register and index register, if it may slip (R161). -/
def slipOperands (i : Instr) : Option (List (BitVec 5)) :=
  match i with
  | .vld .. => some []
  | .vlds .. => some []
  | .vldx _ _ _ vi _ _ _ => some [vi]
  | _ => none

/-- The first index E of the early window of the load at index j (R161). -/
def State.slipLow (s : State) (c : Nat) (e : Entry) (j slip : Nat) : Nat :=
  let bar := (List.range j).foldl (fun m n => match entryWord s c .v e n with
    | .ok i => if endsWindow i then n + 1 else m
    | .error _ => m) 0
  max (j - slip) bar

/-- vshape as it will stand when the word at index j issues, of what is in flight now (R128, R161): every word between takes a slot. -/
def VRun.shapeAt (r : VRun) (x : Strand) (j : Nat) : BitVec 32 :=
  (sortBy (·.due) (r.flight.filter (fun w => w.due ≤ r.slot + (j - r.idx)))).foldl (fun v w =>
    w.writes.foldl (fun v u => match u with | .shape z => z | _ => v) v) x.vshape

/-- Does every load that comes before the one at word index j of the running V entry have its lanes read, and no VMARK stand before it, so
that it may make its access now (R159, R160)? -/
def State.slipClear (s : State) (c : Nat) (r : VRun) (j : Nat) : Bool :=
  r.marks.isEmpty && r.vlq.all (fun o => o.lanes.all o.hasRead)
  && (List.range (j - r.idx)).all (fun n => match entryWord s c .v r.entry (r.idx + n) with
    | .ok i => vQueueOf i ≠ some .load || r.slip.any (fun u => u.idx = r.idx + n && u.data.isSome)
    | .error _ => false)

/-- A load that makes its access early, with its lanes read; none where it cannot now. -/
def State.slipData (s : State) (c : Nat) (r : VRun) (q : VOp) : Option (VOp × State) :=
  match s.vLoadTargets c q with
  | .ok l => (s.readLanes c r.entry.since { q with found := some l } l (Config.freeBit s.freeIx)).map
      (fun (q, s) => (q, { s with freeIx := s.freeIx + 1 }))
  | .error _ => none

/-- The VE starts the load at word index j early (R161, R162): it reads its base, index and stride registers now, and its lanes when
now is set. -/
def State.slipLoad (s : State) (c j : Nat) (now : Bool) : State :=
  let landed := s.onCore c Core.landV
  match (landed.core c).vrun with
  | none => s
  | some r =>
    let x := landed.strand c r.entry.strand
    match entryWord s c .v r.entry j with
    | .error _ => s
    | .ok i => match slipOperands i with
      | none => s
      | some regs =>
        if r.ended || s.entryFrozen c r.entry r.flt || j ≤ r.idx || r.slip.any (fun u => u.idx = j)
            || r.idx < s.slipLow c r.entry j (shSlip (r.shapeAt x j)) then s
        else
          let o := vOperands i (shType (r.shapeAt x j)) x.vtag
          let p := { x with vshape := r.shapeAt x j }.capture r.b o
          let q : VOp := { seq := 0, op := i, tok := 0, cap := p, stride := match o.bn with | some n => vget r.b 0 (n.toNat + 1) | none => 0 }
          let (q', s) := (if now && s.slipClear c r j then s.slipData c r q else none).getD (q, s)
          let u : Slipped := { idx := j, b := r.b, vals := regs.map x.vreg, kval := p.kval, dest := vDest i
                               width := tWidth (shType p.shape), data := q'.found.map (fun _ => q'.data), found := q'.found }
          s.onCore c (fun k => { k with vrun := k.vrun.map (fun r => { r with slip := r.slip ++ [u] }) })

/-- TOKEN_COMPLETE (R156, R157, R159, R205): the oldest word of a queue of the running V entry performs and its token count
drops, unless an order holds it back; with a part, lanes of it land early (R18, R158). stale: a load is served from the
cluster cache, and a store performs there (R101). -/
def execTokenComplete (c : Nat) (q : VQueue) (stale : Bool) (part : Option Early) (s : State) : Out :=
  match (s.core c).vrun with
  | none => .next s
  | some r => match r.queue q with
    | [] => .next s
    | o :: _ =>
      if s.entryFrozen c r.entry r.flt || o.flt.isSome then .next s
      else match q with
        | .load =>
          if r.ready o then .next (s.vLoadStep c r o stale part) else .next s
        | .store => if r.ready o then .next (s.vStoreStep c r o stale part) else .next s
        | .esu => .next (if part.isNone && o.early = {} then s.esuStep c r o else s.esuPart c r o part)

end Sys2Proof.Machine
end

