-- ==== Sys2Proof/Machine/Entries.lean ====
section
/-! DEFINITION. The life of an entry (R14, R58, R111 to R114), the slots of a strand that owes empty ones (R63, R64), landings
(R17, R133), the illegal engine word (R45, R59), and the pool unit's checks and counts (R256, R262). -/
namespace Sys2Proof.Machine

/-- FIXED_LATENCY_WRITE_LANDS (R17, R66, R133, R330): unless its core is quiet under a lull halt, the writes of a strand (u below 4) that its own slot has reached land; for the
VE (u = 4) a trailing slot of the running entry passes and its due writes land. -/
def execFixedLatencyWriteLands (c : Nat) (u : BitVec 3) (s : State) : Out :=
  if s.quiet c then .next s
  else if u.toNat < 4 then .next (s.onStrand c (u.setWidth 2) Strand.landDue)
  else match (s.core c).vrun with
    | none => .next s
    | some r =>
      if !r.ended || s.entryFrozen c r.entry r.flt then .next s
      else .next (s.onCore c (fun k =>
        let k := k.landV
        { k with vrun := k.vrun.map (fun r => if r.flight.isEmpty then r else { r with slot := r.slot + 1 }) }))

/-- EMPTY_SLOT (R63): the strand spends an empty slot it owes; a lull halt takes no own slot (R330). -/
def execEmptySlot (c : Nat) (t : BitVec 2) (s : State) : Out := .next (if (s.core c).lull then s else s.onCore c (fun k => k.spendEmpty t))

/-- SQ_FORCED_SWITCH (R64): after 64 own slots as the current strand, the SQ is to choose the next eligible strand. -/
def execSqForcedSwitch (c : Nat) (s : State) : Out := .next (s.onCore c Core.forceSwitch)

/-- May the head entry of an engine go on: nothing runs, and its strand has no stop waiting for its cut? -/
def State.headReady (s : State) (c : Nat) (en : Eng) (e : Entry) : Bool :=
  !((s.core c).running en) && !(s.entryFrozen c e none)

/-- The head entry of a queue replaced. -/
def Core.setHead (k : Core) (en : Eng) (e : Entry) : Core := k.setQueue en (e :: (k.queue en).drop 1)

/-- ENTRY_HEAD_WAIT (R111 step 1, R117, R121): the unit grants the wait and subtracts, or the entry stands in the unit's
order. The acquire of the wait takes effect as the entry starts. -/
def execEntryHeadWait (c : Nat) (en : Eng) (s : State) : Out :=
  match (s.core c).queue en with
  | [] => .next s
  | e :: _ =>
    if !(s.headReady c en e) || e.hw || !(syncWen e.sync) then .next s
    else
      let m := syncWsem e.sync
      match (s.core c).semTake (.head en) m (syncWcnt e.sync) with
      | none => .next (s.onCore c (fun k => k.addWait { sem := m, who := .head en, n := syncWcnt e.sync }))
      | some k => .next (s.setCore c (k.setHead en { e with hw := true }))

/-- The registers of a V entry (R14): b0 = p0, b1 = p1, the others 0; those of an M or X entry likewise. -/
def entryRegs (n : Nat) (e : Entry) : Vector Word n :=
  match e.resume with
  | some u => if u.run then Vector.ofFn (fun i => u.regs.getD i.val 0) else vset (vset (Vector.replicate n 0) 0 e.p0) 1 e.p1
  | none => vset (vset (Vector.replicate n 0) 0 e.p0) 1 e.p1

/-- Where a resumed entry goes on: word, pass count and byte total (R304, R310). -/
def Entry.place (e : Entry) : Nat × Nat × Nat :=
  match e.resume with
  | some u => (if u.run then u.idx else 0, if u.run then u.pass else 0, u.bytes)
  | none => (0, 0, 0)

/-- The accumulator tiles that M words name through a0 to a3 as the entry maps them (R187, R233). -/
def tileOf (map : BitVec 12) (acc : BitVec 2) : BitVec 3 := map.extractLsb' (3 * acc.toNat) 3

/-- The accumulator field of an M word. -/
def accOf (i : Instr) : Option (BitVec 2) :=
  match i with
  | .mzro _ a => some a
  | .mma _ a _ _ _ _ _ _ _ => some a
  | .mdrn _ a _ _ _ _ _ => some a
  | .mlda _ a _ => some a
  | .msta _ a _ => some a
  | _ => none

/-- The end bit of a word (R58). -/
def endBit (i : Instr) : Bool := (encode i).getLsbD 31

/-- The words of an M entry's block from an index on, as far as they decode, to its end bit. -/
def State.blockWords (s : State) (c : Nat) (e : Entry) : Nat → Nat → List Instr
  | 0, _ => []
  | fuel + 1, n =>
    match entryWord s c .m e n with
    | .error _ => []
    | .ok i => if endBit i then [i] else i :: s.blockWords c e fuel (n + 1)

/-- The tiles an M entry uses (R187). -/
def State.usedTiles (s : State) (c : Nat) (e : Entry) : List Nat :=
  (s.blockWords c e 256 0).filterMap (fun i => (accOf i).map (fun a => (tileOf e.map a).toNat))

/-- The repeat under which word idx of a block stands, found again for an entry that is resumed in it (R60, R310). -/
def repOf (i : Instr) : Option (Nat × Nat) :=
  match i with
  | .mrep _ n k => some (n.toNat, k.toNat)
  | .xrep _ n k => some (n.toNat, k.toNat)
  | _ => none

def State.repeatAt (s : State) (c : Nat) (en : Eng) (e : Entry) (idx : Nat) : Option Repeat :=
  (List.range idx).foldl (fun r j => match entryWord s c en e j with
    | .ok i => (match repOf i with
        | some (n, k) => if idx ≤ j + n then some { first := j + 1, n := n, k := k } else r
        | none => r)
    | .error _ => r) none

/-- Does the word before idx end its block? A resumed entry whose place lies past its last word only completes (R113). -/
def State.pastEnd (s : State) (c : Nat) (en : Eng) (e : Entry) (idx : Nat) : Bool :=
  0 < idx && (match entryWord s c en e (idx - 1) with | .ok i => endBit i | .error _ => false)

/-- The operand registers of a reissued V word: as captured in the record, with its snapshots (R305). -/
def Rec.capture (r : Rec) (x : Strand) (i : Instr) : Capture :=
  let shape : BitVec 32 := r.opa.setWidth 32
  let tagA : BitVec 4 := r.opa.extractLsb' 32 4
  let tagB : BitVec 4 := r.opa.extractLsb' 36 4
  let o := vOperands i (shType shape) (fun _ => tagA)
  let mask := bitsOf r.prog.toNat 31 16
  let off := match i with | .vlds .. => 32 | _ => 0
  let snap (n : Nat) : VReg :=
    BitVec.ofNat 4096 (leValue ((r.ext.drop (off + 512 * popNat n mask)).take 512))
  let vals := (List.range o.regs.length).map (fun n => if mask.testBit n then snap n else x.vreg (o.regs.getD n 0))
  { shape := shape, tagA := tagA, tagB := tagB, b := r.opb, regs := o.regs, vals := vals
    kval := if mask.testBit 15 then BitVec.ofNat 1024 (leValue ((r.ext.drop (off + 512 * popNat 15 mask)).take 128))
            else x.kreg (shKsel shape) }

/-- A V-op record reads its operands, as its strand's resume begins (R310); one whose word is no V word has none. -/
def Rec.readOperands (r : Rec) (x : Strand) : Rec :=
  if r.kind ≠ 1 ∨ r.cap.isSome then r
  else { r with cap := some (match decodeV r.word with
    | .ok i => { r.capture x i with dirty := BitVec.ofNat 16 (bitsOf r.prog.toNat 31 16) }
    | .error _ => emptyCapture) }

/-- Put a V-op record back in flight in the restarted entry (R310): a fixed-latency word lands PROG slots on, a token word is
reissued whole, stores and atomics from their lane; the words are not tag-checked again. DESIGN CHOICE: a record holds no flags of
operations that landed before the cut, so that F holds only what lands from here on (log entry 98). -/
def Core.reissueV (k : Core) (s : State) (r : Rec) : Core :=
  match k.vrun, decodeV r.word with
  | some v, .ok i =>
    let x := k.strand v.entry.strand
    let p := r.cap.getD (r.capture x i)
    let prog := bitsOf r.prog.toNat 15 0
    match vQueueOf i with
    | some q =>
      let tok : BitVec 3 := match i with
        | .vld _ _ _ _ t => t | .vldc _ _ _ _ t => t | .vst _ _ _ _ t => t | .vlds _ _ _ _ t => t
        | .vldx _ _ _ _ _ _ t => t | .vstx _ _ _ _ _ _ t => t | .vatm _ _ _ _ _ _ t => t | _ => 0
      let o : VOp := { seq := v.seq, op := i, tok := tok, cap := p, stride := BitVec.ofNat 64 (leValue (r.ext.take 8))
                       lane := if q = .store then prog else 0, skipTH := true }
      { k with vrun := some { v.setQueue q (v.queue q ++ [o]) with seq := v.seq + 1 } }.addTok v.entry.strand tok (· + 1)
    | none => match i with
      | .vmark e =>
        { k with vrun := some { v with marks := v.marks ++ [{ seq := v.seq, shape := r.opa.setWidth 32, last := e }], seq := v.seq + 1 } }
      | _ =>
        let (ws, fl) := vCompute i p x s.freeIx
        { k with vrun := some { v with
          flight := v.flight ++ [{ due := prog, seq := v.seq, op := i, writes := ws, flags := fl, cap := p }]
          seq := v.seq + 1 } }
  | _, _ => k

/-- Has the strand an access that comes before every access of its entry e and has not performed, or the fence that says so not retired
(R104)? -/
def Strand.owes (x : Strand) (e : Entry) : Bool :=
  x.lridx = e.launch && ((x.loads ++ x.stores).any (fun q => q.id < e.after)
    || x.fences.any (fun f => 1 ≤ fenceRelease f.op && f.id ≤ e.after && e.after ≠ 0))

/-- ENTRY_START (R14, R104, R111 step 2, R117, R157, R187): the engine sets the head entry's registers and is ready for its first word;
an entry that a resume put back goes on from its place (R310). -/
def execEntryStart (c : Nat) (en : Eng) (s : State) : Out :=
  match (s.core c).queue en with
  | [] => .next s
  | e :: _ =>
    if !(s.headReady c en e) || (syncWen e.sync && !e.hw) || (s.strand c e.strand).owes e then .next s
    else
      let far := syncWen e.sync && Sparse.get false (s.core c).semFar (syncWsem e.sync).toNat
      let s := if syncWen e.sync then s.semAcquire c (syncWsem e.sync).toNat else s
      let (idx, pass, bytes) := e.place
      let ended := s.pastEnd c en e idx
      let since := if far then (s.cluster (clusterOf c)).epoch else e.since.getD (s.strand c e.strand).since
      let head := { e with hw := true, since := some since, resume := none }
      match en with
      | .v =>
        let s := s.onCore c (fun k =>
          let k := { k.setHead .v head with
            vrun := some { entry := head, b := entryRegs 8 e, idx := idx, ended := ended, bytes := bytes, draw := s.freeIx } }
          let k := k.setStrand e.strand { k.strand e.strand with tok := Vector.replicate 8 0 }
          (match e.resume with | some u => u.recs | none => []).foldl (fun k r => k.reissueV s r) k)
        .next { s with freeIx := s.freeIx + 1 }
      | .m =>
        let run : MRun :=
          { entry := head, e := entryRegs 16 e, idx := idx, pass := pass, rep := s.repeatAt c .m e idx, ended := ended
            byp := e.resume.bind (·.byp), bytes := bytes, uses := s.usedTiles c e }
        .next (s.onCore c (fun k => { k.setHead .m head with mrun := some run }))
      | .x =>
        let run : XRun :=
          { entry := head, e := entryRegs 16 e, idx := idx, pass := pass, rep := s.repeatAt c .x e idx, ended := ended
            bytes := bytes }
        .next (s.onCore c (fun k => { k.setHead .x head with xrun := some run }))

/-- ENTRY_COMPLETION (R111 steps 4 to 6, R112 to R114): a finished entry is complete; it signals and retires. -/
def execEntryCompletion (c : Nat) (en : Eng) (s : State) : Out :=
  match (s.core c).runEntry en with
  | none => .next s
  | some (e, _, flt) => if s.entryFrozen c e flt then .next s else .next (s.completeEntry c en)

/-- An entry stops at the word it has reached: of a V entry the writes due in that slot land first (R17, R45). -/
def State.wordStop (s : State) (c : Nat) (en : Eng) (w : Trouble) : State :=
  (if en = .v then s.onCore c Core.landV else s).entryStop c en w

/-- ILLEGAL_ENGINE_WORD (R45, R59): the running entry stops with ILLEGAL at the word it has reached. -/
def execIllegalEngineWord (c : Nat) (en : Eng) (s : State) : Out :=
  match (s.core c).runEntry en with
  | none => .next s
  | some (e, _, flt) => if s.entryFrozen c e flt then .next s else .next (s.wordStop c en ⟨.illegal, 0, 0⟩)

/-- CONSUMING_CHECK (R256, R262): the pool unit checks a range for the entry an engine runs; the words that consume make it as
part of their own step. -/
def execConsumingCheck (c : Nat) (en : Eng) (a : BitVec 48) (n : Nat) (s : State) : Out :=
  match (s.core c).runEntry en with
  | none => .next s
  | some (e, _, _) => match s.consumeCheck c e.launch a.toNat n with
    | .ok s' => .next s'
    | .wait => .next s
    | .stop w => .next (s.entryStop c en w)

/-- CONSUMING_COUNT (R256, R262): a consuming access has read all its bytes. -/
def execConsumingCount (c : Nat) (en : Eng) (a : BitVec 48) (n : Nat) (s : State) : Out :=
  match (s.core c).runEntry en with
  | none => .next s
  | some (e, _, _) => .next (s.consumeCount c e.launch a.toNat n)

/-- What the engine slot looks at: the running entry, the index of its next word, whether its words have ended, and its
fault. -/
def Core.runWord (k : Core) (en : Eng) : Option (Entry × Nat × Bool × Option Trouble) :=
  match en with
  | .v => k.vrun.map (fun r => (r.entry, r.idx, r.ended, r.flt))
  | .m => k.mrun.map (fun r => (r.entry, r.idx, r.ended, r.flt))
  | .x => k.xrun.map (fun r => (r.entry, r.idx, r.ended, r.flt))

/-- Has the running V entry writes in flight, so that its slots still run (R133)? -/
def Core.trailing (k : Core) : Bool := match k.vrun with | some r => !r.flight.isEmpty | none => false

end Sys2Proof.Machine
end

