-- ==== Sys2Proof/Machine/Debug.lean ====
section
/-! DEFINITION. Window accesses by other parties (R22, R83 to R85, R187), halts and traces (R328 to R331), the counters (R334),
and power and clocks (R322, R326, R356, R358). -/
namespace Sys2Proof.Machine

-- Windows

/-- Do writes of other cores into core c's windows wait (R330)? Every core of its cluster is lull-halted. -/
def State.clusterHalted (s : State) (c : Nat) : Bool := (List.range 8).all (fun i => (s.core (8 * clusterOf c + i)).lull)

/-- WINDOW_REGISTER_WRITE (R83, R84, R108, R246, R330): a write to a scalar register, a system register, a sync slot or a tile
status register, at its element's offset. -/
def execWindowRegisterWrite (c : Nat) (off : BitVec 22) (v : BitVec 64) (s : State) : Out :=
  let o := off.toNat
  let sys : Bool := winRange o = .sysreg
  let reg : Bool := sys || winRange o = .sreg || winRange o = .sync || winRange o = .ts
  .next (if !reg || o ≠ (winElem o).1 || (s.clusterHalted c && !sys) then s else writeValue s c o v.toNat 0)

/-- WINDOW_VREG_WRITE (R22, R186): one granule of 64 bytes lands, and the register takes the tag the write names. -/
def execWindowVregWrite (c : Nat) (gran : BitVec 10) (v : BitVec 512) (tag : BitVec 4) (s : State) : Out :=
  .next (if s.clusterHalted c then s else writeElem s c (0x10_0000 + 64 * gran.toNat) (leBytes 64 v.toNat) tag)

/-- WINDOW_TAG_WRITE (R83): bits [3:0] of the byte become the tag of register i mod 32 of strand i / 32. -/
def execWindowTagWrite (c : Nat) (i : BitVec 7) (v : BitVec 8) (s : State) : Out :=
  .next (if s.clusterHalted c then s else writeElem s c (0x11_0000 + i.toNat) [v] 0)

/-- SEMAPHORE_WINDOW_STORE (R85): a plain store replaces the count, and the waits that it satisfies are granted (R121). -/
def execSemaphoreWindowStore (c : Nat) (m : BitVec 8) (v : BitVec 32) (s : State) : Out :=
  .next (if s.clusterHalted c then s else writeValue s c (0x30_1000 + 4 * m.toNat) v.toNat 0)

/-- ACCUMULATOR_WINDOW_ACCESS (R187, R223): it waits while a running M entry uses the tile. -/
def execAccumulatorWindowAccess (c : Nat) (cell : BitVec 15) (wr : Option (BitVec 64)) (s : State) : Out :=
  let off := 0x20_0000 + 8 * cell.toNat
  if s.tileBusy (coreWindow c + off) then .next s
  else match wr with
    | some v => .next (if s.clusterHalted c then s else writeValue s c off v.toNat 0)
    | none => .next { s with lastRead := BitVec.ofNat 64 (winValue s c off) }

-- Halts

/-- DBGCTL_LULL (R329, R330). -/
def execDbgctlLull (c : Nat) (v : Bool) (s : State) : Out := .next (s.onCore c (fun k => { k with lull := v }))

/-- DBGCTL_CUT (R329, R331). -/
def execDbgctlCut (c : Nat) (v : Bool) (s : State) : Out := .next (s.onCore c (fun k => k.writeCut v s.tick))

/-- CUT_HALT_TIMEOUT (R331): a strand that has issued no region mark for 10 ms since the request, which would have stopped it, is cut. -/
def execCutHaltTimeout (c : Nat) (t : BitVec 2) (s : State) : Out :=
  let k := s.core c
  .next (if k.cut && !s.quiet c && !(s.strand c t).cutDone && k.cutAt + Config.cutTimeout ≤ s.tick then s.stopStrand c t { why := ⟨.debug, 0, 0⟩, at_ := .outside }
    else s)

/-- TRCTL_ENABLE (R328). -/
def execTrctlEnable (c : Nat) (en : Bool) (log2n : BitVec 5) (s : State) : Out :=
  .next (s.onCore c (fun k => k.writeTrctl en log2n false))

/-- TRCTL_ERR_CLEAR (R328). -/
def execTrctlErrClear (c : Nat) (s : State) : Out := .next (s.onCore c (fun k => { k with trerr := false }))

-- Counters

/-- Store bytes at virtual addresses of a partition page by page, as the device does for itself: bytes whose page does not
translate are dropped. fuel bounds the pages. -/
def devStore : Nat → State → Nat → Nat → List Byte → State
  | 0, s, _, _, _ => s
  | fuel + 1, s, p, a, bs =>
    if bs = [] then s
    else
      let n := 65536 - a % 65536
      let s := match resolveIn s p a .store false with
        | .ok pa => physWrite s pa (bs.take n) 0
        | .error _ => s
      devStore fuel s p (a + n) (bs.drop n)

/-- The record of a die (R334). -/
def State.counterRecord (s : State) (d : Nat) (seq : BitVec 32) : List Byte :=
  let x := s.die d
  leBytes 8 s.tick ++ leBytes 4 seq.toNat ++ [BitVec.ofNat 8 d, BitVec.ofNat 8 s.ring.k] ++ leBytes 2 x.dropped.toNat
  ++ List.replicate 48 0
  ++ ([x.lreq, x.rreq, x.spills, x.softErr, x.walker] ++ List.replicate 11 0).flatMap (fun (v : BitVec 64) => leBytes 8 v.toNat)
  ++ (List.range 768).flatMap (fun i => ((s.core (768 * d + i)).counters.toList).flatMap (fun (v : BitVec 32) => leBytes 4 v.toNat))

/-- One die latches its counters: it writes its record to the next place of the ring, or drops it when the ring is full. -/
def State.latch (s : State) (d : Nat) : State :=
  let r := s.ring
  if r.next < r.slots then
    let seq := vget r.seqs 0 d
    let s := devStore 3 s r.part (r.addr.toNat + Config.counterRecord * r.next) (s.counterRecord d seq)
    { s with ring := { r with next := r.next + 1, seqs := vset r.seqs d (seq + 1) } }.onDie d (fun x => { x with dropped := 0 })
  else s.onDie d (fun x => { x with dropped := x.dropped + 1 })

/-- COUNTER_LATCH (R334): every 2^k ticks, on every die. -/
def execCounterLatch (s : State) : Out :=
  .next (if s.ring.on && s.tick % 2 ^ s.ring.k = 0 && s.ring.last ≠ some s.tick then
      (List.range 4).foldl State.latch { s with ring := { s.ring with last := some s.tick } }
    else s)

-- Power and clocks

/-- The charge of a step of an engine (R322). -/
def stepCost (i : Instr) (en : Eng) : Nat :=
  match en with
  | .v => vCost i
  | .m => (match i with | .mma .. => 512 | .mdrn .. | .mlda .. | .msta .. => 256 | _ => 0)
  | .x => (match i with | .xcpy .. | .xten .. | .xfil .. | .xgat .. | .xsct .. | .xbrd .. | .xred .. => 16 | _ => 0)

/-- Does an engine's next step wait for its charge (R323, R334)? -/
def State.powerWait (s : State) (c : Nat) (en : Eng) : Bool :=
  match (s.core c).runWord en with
  | some (e, idx, false, flt) => !s.entryFrozen c e flt && (match entryWord s c en e idx with
    | .ok i => (match (s.core c).charge 2 (stepCost i en) with | .wait => true | _ => false)
    | .error _ => false)
  | _ => false

/-- The counters of core c that count ticks after one more (R334, log entry 33). -/
def State.busyTick (s : State) (c : Nat) (k : Core) : Core :=
  let k := k.tally 2 (b2n k.blocked)
  let steps := k.mrun.elim [] (·.steps)
  let drain (m : MStep) : Bool := match m.op with | .mdrn .. | .mlda .. | .msta .. => true | _ => false
  ((((k.tally 3 (b2n k.vrun.isSome)).tally 4 (b2n (steps.any (fun m => !drain m)))).tally 5 (b2n (steps.any drain))).tally 6
    (b2n k.xrun.isSome)).tally 7 (b2n ([.v, .m, .x].any (s.powerWait c)))

/-- Does a strand stand stopped by a cut halt: its descriptor says DEBUG (R302)? -/
def Strand.cutStopped (x : Strand) : Bool := x.life = .stopped && x.stop.isNone && x.areaField 1 1 = 25

/-- Does the debugger hold a core (R329, R335): is it under a lull or a cut, or has a cut stopped its strands? -/
def Core.debugged (k : Core) : Bool :=
  k.lull || k.cut
  || (k.strands.toList.all (fun x => x.life = .idle || x.life = .ended || x.life = .stopped) && k.strands.toList.any (·.cutStopped))

/-- Is every core of a participant held by the debugger (R335)? -/
def State.partHeld (s : State) (p : Nat) : Bool :=
  s.partCores p ≠ [] && (s.partCores p).all (fun c => (s.core c).debugged)

/-- A tick counts towards COLLTO unless the debugger holds every peer (R335). -/
def Collective.count (c : Collective) (s : State) : Collective :=
  let held := s.partHeld c.part && (List.range c.m).all (fun j => j = c.me || c.held.contains j)
  { c with waited := c.waited + b2n (!held) }

/-- CHARGE_BUCKET_REFILL (R5, R322): a tick passes, and every core's bucket gains 16 · L, up to 64 · L; the tick counts in the busy
counters (R334) and for the collective under way (R335). -/
def execChargeBucketRefill (s : State) : Out :=
  .next { s with
    tick := s.tick + 1
    cores := s.cores.map (fun e =>
      (e.1, s.busyTick e.1 { e.2 with balance := min (capacity e.2.level) (e.2.balance + refill e.2.level) }))
    dies := Vector.ofFn (fun (d : Fin 4) =>
      let x := s.dies[d]
      { x with walker := x.walker + BitVec.ofNat 64 (min 192 (Config.walkersBusy s.tick d)) })
    colls := match s.colls with | [] => [] | c :: rest => c.count s :: rest }

/-- The grants of locked-clock mode in queue order (R326): a request is granted when it fits its partition's share, and one that
does not fit holds back those of its partition behind it. -/
def lockedGrants : List LeaseReq → List Nat → State → Nat → State
  | [], _, s, _ => s
  | r :: rest, held, s, d =>
    let p := s.partOf r.core
    if held.contains p || s.tick ≤ r.tick then lockedGrants rest held s d
    else if s.leasedPart d p + r.n ≤ (s.die d).budget / (s.part p).share then lockedGrants rest held (s.grantLease d r) d
    else lockedGrants rest (p :: held) s d

/-- LOCKED_CLOCK_GRANT (R326): at a tick that is a multiple of 64. -/
def execLockedClockGrant (d : BitVec 2) (s : State) : Out :=
  .next (if s.locked && s.tick % 64 = 0 then lockedGrants (s.die d.toNat).queue [] s d.toNat else s)

/-- DIE_FREQUENCY_CHANGE (R326, R356, R359): from 400 to 1,000 MHz; in locked-clock mode every die stays at 850 MHz. -/
def execDieFrequencyChange (d : BitVec 2) (mhz : Nat) (s : State) : Out :=
  .next (if !s.locked ∧ 400 ≤ mhz ∧ mhz ≤ 1000 then s.onDie d.toNat (fun x => { x with mhz := mhz }) else s)

/-- HBM_REFRESH (R358): it delays accesses and never changes a value. -/
def execHbmRefresh (_stack : BitVec 4) (s : State) : Out := .next s

end Sys2Proof.Machine
end

