-- ==== Sys2Proof/Machine/Ranges.lean ====
section
/-! DEFINITION. What the M and X words share: the words of a block under MREP and XREP (R60), byte ranges cut into physical
pieces (R80, R88, R169, R241), their reads and writes, and block-quantised elements and headers (R217 to R219). -/
namespace Sys2Proof.Machine

-- Blocks with repeats

/-- How many words of an entry's block stand from index idx on, among the next n, and whether they may stand under a repeat
(R60): none has E set but the last, and none is itself a repeat. -/
def repeatable (s : State) (c : Nat) (en : Eng) (e : Entry) : Nat → Nat → Bool
  | 0, _ => true
  | n + 1, idx =>
    let rest := n = 0 || repeatable s c en e n (idx + 1)
    match entryCode s c e idx with
    | .error w => w.cause ≠ .illegal && rest
    | .ok w =>
      !(w.getLsbD 31 && n ≠ 0) && rest
      && (match decode (engStream en) w with
        | .ok (.mrep ..) => false
        | .ok (.xrep ..) => false
        | _ => true)

-- Ranges

/-- The first boundary of a core window's ranges above an offset (R20). -/
def winEnd (off : Nat) : Nat :=
  ([0x08_0000, 0x10_0000, 0x11_0000, 0x11_0080, 0x20_0000, 0x24_0000, 0x30_0000, 0x30_0400, 0x30_1000, 0x30_1400, 0x30_2000,
    0x30_2200, 0x30_3000, 0x30_3080, 0x30_4000, 0x30_8000, 0x34_0000, 0x38_0000, 0x40_0000].find? (off < ·)).getD 0x40_0000

/-- Bytes from an address to the end of the piece it lies in: one range of a window, or one page of 64 KiB. -/
def pieceLeft (a : Nat) : Nat :=
  match winSplit a with
  | some (_, off) => winEnd off - off
  | none => 65536 - a % 65536

/-- A range of virtual addresses as its pieces, ascending; fuel bounds them. -/
def piecesOf : Nat → Nat → Nat → List (Nat × Nat)
  | 0, _, _ => []
  | fuel + 1, a, n =>
    if n = 0 then []
    else
      let m := min n (pieceLeft (addr48 a))
      (addr48 a, m) :: piecesOf fuel (a + m) (n - m)

def pieces (a n : Nat) : List (Nat × Nat) := piecesOf (n / 128 + 3) a n

/-- Check and translate the pieces of a range in ascending order (R169, R241): ok says which window ranges are allowed; every
other one gives WINDOW. ECC is no check: an access finds it as it performs. The answer is the physical pieces. -/
def resolvePieces (s : State) (c : Nat) (acc : Acc) (ok : Nat → Nat → Bool) :
    List (Nat × Nat) → Except Trouble (List (Nat × Nat))
  | [] => .ok []
  | (a, n) :: rest =>
    match resolveIn s (s.partOf c) a acc true with
    | .error w => .error w
    | .ok pa =>
      let allowed := match winSplit pa with | some (d, off) => ok d off | none => true
      if !allowed then .error (windowTrouble a)
      else match resolvePieces s c acc ok rest with
        | .error w => .error w
        | .ok l => .ok ((pa, n) :: l)

/-- Only the window checks of R241's order 2: the first piece in a window that is not allowed. -/
def windowPieces (s : State) (p : Nat) (ok : Nat → Nat → Bool) : List (Nat × Nat) → Option Trouble
  | [] => none
  | (a, _) :: rest =>
    if isWindow a then
      match winCheck s p a with
      | .error w => some w
      | .ok (c, off) => if ok c off then windowPieces s p ok rest else some (windowTrouble a)
    else windowPieces s p ok rest

/-- Read physical pieces in order by a party of core c (R91, R101); since as in loadPhys. -/
def readPieces (s : State) (c : Nat) (stale : Bool) (since : Option Nat) : List (Nat × Nat) → List Byte × State
  | [] => ([], s)
  | (pa, n) :: rest =>
    let (bs, s') := loadPhys s c pa n stale since
    let (cs, s'') := readPieces s' c stale since rest
    (bs ++ cs, s'')

/-- Write bytes to physical pieces in order by an entry of core c; tag is what a vector register takes (R186); near: the writes
perform in the cluster cache (R101). -/
def writePieces (s : State) (c : Nat) (tag : BitVec 4) (near : Bool) : List (Nat × Nat) → List Byte → State
  | [], _ => s
  | (pa, n) :: rest, bs => writePieces (storePhys s c pa (bs.take n) tag near none) c tag near rest (bs.drop n)

/-- Do two lists of ranges share a byte? -/
def rangesMeet (a b : List (Nat × Nat)) : Bool := a.any (fun x => b.any (fun y => overlap x y))

/-- Is an accumulator tile that one of the pieces touches in use (R187)? -/
def State.piecesBusy (s : State) (l : List (Nat × Nat)) : Bool :=
  l.any (fun e => match winSplit e.1 with
    | some (c, off) =>
      winRange off = .acc && (match (s.core c).mrun with
        | some r => (List.range ((off % 0x8000 + e.2 - 1) / 0x8000 + 1)).any (fun i => r.uses.contains ((off - 0x20_0000) / 0x8000 + i))
        | none => false)
    | none => false)

/-- The ECC subcause of the first of some pieces that lies in a fenced unit (R314, R357, R358). -/
def State.piecesEcc (s : State) (c : Nat) (l : List (Nat × Nat)) : Option Nat := l.findSome? (fun e => s.eccRange (dieOf c) e.1 e.2)

-- Consuming accesses of a step

/-- The checks of several consuming accesses, made one after the other; all of them count, or none does (R238, R262). -/
def State.consumeAll (s : State) (c : Nat) (l : BitVec 10) : List (Nat × Nat) → Consumed
  | [] => .ok s
  | (a, n) :: rest =>
    match s.consumeCheck c l a n with
    | .ok s' => s'.consumeAll c l rest
    | o => o

/-- The checks of accesses given up are released (R267). -/
def State.releaseAll (s : State) (c : Nat) (l : BitVec 10) (r : List (Nat × Nat)) : State :=
  r.foldl (fun s e => s.consumeRelease c l e.1 e.2) s

def State.countAll (s : State) (c : Nat) (l : BitVec 10) (r : List (Nat × Nat)) : State :=
  r.foldl (fun s e => s.consumeCount c l e.1 e.2) s

-- Elements and headers

/-- The 16-bit and 32-bit words of bytes, lowest address first (R3). -/
def words16 : List Byte → List Nat
  | a :: b :: rest => (a.toNat + 256 * b.toNat) :: words16 rest
  | _ => []

def words32 : List Byte → List Nat
  | a :: b :: c :: d :: rest => leValue [a, b, c, d] :: words32 rest
  | _ => []

def words64 : List Byte → List Nat
  | a :: b :: c :: d :: e :: f :: g :: h :: rest => leValue [a, b, c, d, e, f, g, h] :: words64 rest
  | _ => []

/-- Elements of a type as they lie in memory, one after the other (R127, R217): their patterns; and back. -/
def elemPatterns (ty : Nat) (bs : List Byte) : List Nat :=
  match tWidth ty with
  | 4 => bs.flatMap (fun b => [b.toNat % 16, b.toNat / 16])
  | 8 => bs.map (·.toNat)
  | 16 => words16 bs
  | 32 => words32 bs
  | _ => words64 bs

def nibbleBytes : List Nat → List Byte
  | a :: b :: rest => BitVec.ofNat 8 (a % 16 + 16 * (b % 16)) :: nibbleBytes rest
  | [a] => [BitVec.ofNat 8 (a % 16)]
  | [] => []

def elemBytes (ty : Nat) (l : List Nat) : List Byte :=
  if tWidth ty = 4 then nibbleBytes l else l.flatMap (fun v => leBytes (tWidth ty / 8) v)

/-- Cut a list into n rows of m. -/
def rowsOf {α : Type} : Nat → Nat → List α → List (List α)
  | 0, _, _ => []
  | n + 1, m, l => l.take m :: rowsOf n m (l.drop m)

/-- The offset of a tile object's scales, and its size (R218). -/
def objScales (ty : Nat) : Nat := 64 + 512 * tWidth ty
def objSize (ty : Nat) : Nat := objScales ty + 256

/-- The valid header of a tile object (R219). -/
def headerBytes (ty so : Nat) : List Byte :=
  [BitVec.ofNat 8 ty, BitVec.ofNat 8 so] ++ leBytes 2 64 ++ leBytes 2 64 ++ [0, 0] ++ leBytes 4 (objScales ty)
    ++ List.replicate 52 0

/-- The type of a valid header with scale orientation so; none when the header is invalid or its SO differs (R219, R238). -/
def headerType (h : List Byte) (so : Nat) : Option Nat :=
  let ty := (h.getD 0 0).toNat
  if tBq ty && h = headerBytes ty so then some ty else none

end Sys2Proof.Machine
end

