-- ==== Sys2Proof/Machine/Crypto.lean ====
section
/-! DEFINITION. SHA-384 and ECDSA verification over brainpoolP384r1, which R341 and R351 name without giving them: PRESUMED from
FIPS 180-4, FIPS 186-4 and RFC 5639 (log entry 40). -/
namespace Sys2Proof.Machine

-- SHA-384

def shaK0 : List (BitVec 64) :=
  [0x428A2F98D728AE22, 0x7137449123EF65CD, 0xB5C0FBCFEC4D3B2F, 0xE9B5DBA58189DBBC, 0x3956C25BF348B538,
   0x59F111F1B605D019, 0x923F82A4AF194F9B, 0xAB1C5ED5DA6D8118, 0xD807AA98A3030242, 0x12835B0145706FBE,
   0x243185BE4EE4B28C, 0x550C7DC3D5FFB4E2, 0x72BE5D74F27B896F, 0x80DEB1FE3B1696B1, 0x9BDC06A725C71235,
   0xC19BF174CF692694, 0xE49B69C19EF14AD2, 0xEFBE4786384F25E3, 0x0FC19DC68B8CD5B5, 0x240CA1CC77AC9C65]
def shaK1 : List (BitVec 64) :=
  [0x2DE92C6F592B0275, 0x4A7484AA6EA6E483, 0x5CB0A9DCBD41FBD4, 0x76F988DA831153B5, 0x983E5152EE66DFAB,
   0xA831C66D2DB43210, 0xB00327C898FB213F, 0xBF597FC7BEEF0EE4, 0xC6E00BF33DA88FC2, 0xD5A79147930AA725,
   0x06CA6351E003826F, 0x142929670A0E6E70, 0x27B70A8546D22FFC, 0x2E1B21385C26C926, 0x4D2C6DFC5AC42AED,
   0x53380D139D95B3DF, 0x650A73548BAF63DE, 0x766A0ABB3C77B2A8, 0x81C2C92E47EDAEE6, 0x92722C851482353B]
def shaK2 : List (BitVec 64) :=
  [0xA2BFE8A14CF10364, 0xA81A664BBC423001, 0xC24B8B70D0F89791, 0xC76C51A30654BE30, 0xD192E819D6EF5218,
   0xD69906245565A910, 0xF40E35855771202A, 0x106AA07032BBD1B8, 0x19A4C116B8D2D0C8, 0x1E376C085141AB53,
   0x2748774CDF8EEB99, 0x34B0BCB5E19B48A8, 0x391C0CB3C5C95A63, 0x4ED8AA4AE3418ACB, 0x5B9CCA4F7763E373,
   0x682E6FF3D6B2B8A3, 0x748F82EE5DEFB2FC, 0x78A5636F43172F60, 0x84C87814A1F0AB72, 0x8CC702081A6439EC]
def shaK3 : List (BitVec 64) :=
  [0x90BEFFFA23631E28, 0xA4506CEBDE82BDE9, 0xBEF9A3F7B2C67915, 0xC67178F2E372532B, 0xCA273ECEEA26619C,
   0xD186B8C721C0C207, 0xEADA7DD6CDE0EB1E, 0xF57D4F7FEE6ED178, 0x06F067AA72176FBA, 0x0A637DC5A2C898A6,
   0x113F9804BEF90DAE, 0x1B710B35131C471B, 0x28DB77F523047D84, 0x32CAAB7B40C72493, 0x3C9EBE0A15C9BEBC,
   0x431D67C49C100D4C, 0x4CC5D4BECB3E42B6, 0x597F299CFC657E2A, 0x5FCB6FAB3AD6FAEC, 0x6C44198C4A475817]
/-- The 80 round constants of SHA-384. -/
def shaK : List (BitVec 64) := shaK0 ++ shaK1 ++ shaK2 ++ shaK3

/-- The initial hash value of SHA-384. -/
def shaInit : List (BitVec 64) :=
  [0xCBBB9D5DC1059ED8, 0x629A292A367CD507, 0x9159015A3070DD17, 0x152FECD8F70E5939, 0x67332667FFC00B31,
   0x8EB44A8768581511, 0xDB0C2E0D64F98FA7, 0x47B5481DBEFA4FA4]

/-- The value of bytes, most significant first, and the n bytes of a value in that order. -/
def beValue (l : List Byte) : Nat := leValue l.reverse
def beBytes (n v : Nat) : List Byte := (leBytes n v).reverse

/-- The message padded to whole blocks of 128 bytes. -/
def shaPad (m : List Byte) : List Byte :=
  let n := m.length
  m ++ [0x80] ++ List.replicate ((239 - n % 128) % 128) 0 ++ beBytes 16 (8 * n)

/-- The 80 words of a block's schedule, given its 16 words. -/
def shaSchedule (w : List (BitVec 64)) : List (BitVec 64) :=
  (List.range 64).foldl (fun w i =>
    let g (n : Nat) : BitVec 64 := w.getD n 0
    let x := g (i + 1)
    let y := g (i + 14)
    let s0 := x.rotateRight 1 ^^^ x.rotateRight 8 ^^^ (x >>> 7)
    let s1 := y.rotateRight 19 ^^^ y.rotateRight 61 ^^^ (y >>> 6)
    w ++ [g i + s0 + g (i + 9) + s1]) w

/-- One round. -/
def shaRound (v : List (BitVec 64)) (k w : BitVec 64) : List (BitVec 64) :=
  let g (n : Nat) : BitVec 64 := v.getD n 0
  let a := g 0
  let e := g 4
  let s1 := e.rotateRight 14 ^^^ e.rotateRight 18 ^^^ e.rotateRight 41
  let ch := (e &&& g 5) ^^^ (~~~e &&& g 6)
  let t1 := g 7 + s1 + ch + k + w
  let s0 := a.rotateRight 28 ^^^ a.rotateRight 34 ^^^ a.rotateRight 39
  let mj := (a &&& g 1) ^^^ (a &&& g 2) ^^^ (g 1 &&& g 2)
  [t1 + s0 + mj, a, g 1, g 2, g 3 + t1, e, g 5, g 6]

/-- One block. -/
def shaBlock (h : List (BitVec 64)) (b : List Byte) : List (BitVec 64) :=
  let w := shaSchedule ((rowsOf 16 8 b).map (fun r => BitVec.ofNat 64 (beValue r)))
  List.zipWith (· + ·) h ((List.zip shaK w).foldl (fun v e => shaRound v e.1 e.2) h)

/-- SHA-384 of a message, as the number its 48 bytes are, most significant first. -/
def sha384 (m : List Byte) : BitVec 384 :=
  let p := shaPad m
  let h := (rowsOf (p.length / 128) 128 p).foldl shaBlock shaInit
  BitVec.ofNat 384 ((h.take 6).foldl (fun n x => n * 2 ^ 64 + x.toNat) 0)

-- ECDSA

/-- The prime of brainpoolP384r1, its coefficients, its base point and the point's order. -/
def bpP : Nat := 0x8CB91E82A3386D280F5D6F7E50E641DF152F7109ED5456B412B1DA197FB71123ACD3A729901D1A71874700133107EC53
def bpA : Nat := 0x7BC382C63D8C150C3C72080ACE05AFA0C2BEA28E4FB22787139165EFBA91F90F8AA5814A503AD4EB04A8C7DD22CE2826
def bpB : Nat := 0x04A8C7DD22CE28268B39B55416F0447C2FB77DE107DCD2A62E880EA53EEB62D57CB4390295DBC9943AB78696FA504C11
def bpG : Nat × Nat :=
  (0x1D1C64F068CF45FFA2A63A81B7C13F6B8847A3E77EF14FE3DB7FCAFE0CBD10E8E826E03436D646AAEF87B2E247D4AF1E,
   0x8ABE1D7520F9C2A45CB1EB8E95CFD55262B70B29FEEC5864E19C054FF99129280E4646217791811142820341263C5315)
def bpN : Nat := 0x8CB91E82A3386D280F5D6F7E50E641DF152F7109ED5456B31F166E6CAC0425A7CF3AB6AF6B7FC3103B883202E9046565

/-- b ^ e mod m; fuel bounds the bits of e. -/
def powMod (m : Nat) : Nat → Nat → Nat → Nat
  | 0, _, _ => 1 % m
  | fuel + 1, b, e =>
    if e = 0 then 1 % m
    else
      let h := powMod m fuel (b * b % m) (e / 2)
      if e % 2 = 1 then b * h % m else h

/-- The inverse of b modulo a prime m. -/
def invMod (m b : Nat) : Nat := powMod m 384 (b % m) (m - 2)

/-- The sum of two points; none is the point at infinity. -/
def bpAdd (x y : Option (Nat × Nat)) : Option (Nat × Nat) :=
  match x, y with
  | none, q => q
  | q, none => q
  | some (a, b), some (c, d) =>
    if a = c ∧ (b + d) % bpP = 0 then none
    else
      let l := if a = c then (3 * a * a + bpA) * invMod bpP (2 * b) % bpP
        else (d + bpP - b) * invMod bpP (c + bpP - a) % bpP
      let u := (l * l + 2 * bpP - a - c) % bpP
      some (u, (l * (a + bpP - u) + bpP - b) % bpP)

/-- k times a point; fuel bounds the bits of k. -/
def bpMul : Nat → Nat → Option (Nat × Nat) → Option (Nat × Nat)
  | 0, _, _ => none
  | fuel + 1, k, x =>
    let h := bpMul fuel (k / 2) (bpAdd x x)
    if k % 2 = 1 then bpAdd x h else h

/-- Does ECDSA accept the signature (r, s) for the digest h under the public key q? -/
def ecdsaAccepts (q : Nat × Nat) (r s h : Nat) : Bool :=
  let onCurve := q.1 < bpP && q.2 < bpP && q.2 * q.2 % bpP = (q.1 * q.1 * q.1 + bpA * q.1 + bpB) % bpP
  if !onCurve || r = 0 || bpN ≤ r || s = 0 || bpN ≤ s then false
  else
    let w := invMod bpN s
    match bpAdd (bpMul 384 (h * w % bpN) (some bpG)) (bpMul 384 (r * w % bpN) (some q)) with
    | none => false
    | some (x, _) => x % bpN = r

end Sys2Proof.Machine
end

