-- ==== Sys2Proof/Machine/Container.lean ====
section
/-! DEFINITION. The ADK container (R337, R338), its checks (R341 steps 1 and 2), its relocations (R339, R340) and the kernel
descriptor (R343). -/
namespace Sys2Proof.Machine

/-- A field of a byte string (R3). -/
def field (b : List Byte) (off n : Nat) : Nat := leValue ((b.drop off).take n)
def zeros (b : List Byte) (off n : Nat) : Bool := ((b.drop off).take n).all (fun x => x = 0)

/-- An entry of the section table (R337). -/
structure Section_ where
  kind   : Nat
  kernel : Nat
  off    : Nat
  size   : Nat
  voff   : Nat
  deriving DecidableEq, Repr

/-- A parsed container. -/
structure Container where
  bytes    : List Byte
  svn      : BitVec 32
  translated : Bool
  pbase    : Nat
  isize    : Nat
  sigoff   : Nat
  nkern    : Nat
  nlaunch  : Nat
  srchash  : BitVec 384
  sections : List Section_

def Section_.ofTable (b : List Byte) (o : Nat) : Section_ :=
  { kind := field b o 1, kernel := field b (o + 4) 2, off := field b (o + 8) 8, size := field b (o + 16) 8, voff := field b (o + 24) 8 }

/-- Is the section loaded, and is it code (R337)? -/
def Section_.loaded (x : Section_) : Bool := [1, 2, 3, 4, 6, 7].contains x.kind
def Section_.code (x : Section_) : Bool := [1, 2, 3, 4].contains x.kind

/-- Read a container's header and section table (R337); nothing is checked. -/
def Container.parse (b : List Byte) : Container :=
  let n := field b 6 2
  { bytes := b, svn := BitVec.ofNat 32 (field b 8 4), translated := field b 12 4 % 2 = 1, pbase := field b 16 8, isize := field b 24 8
    sigoff := field b 40 8, nkern := field b 48 2, nlaunch := field b 50 2, srchash := BitVec.ofNat 384 (beValue ((b.drop 64).take 48))
    sections := (List.range n).map (fun i => Section_.ofTable b (field b 32 8 + 32 * i)) }

def Container.kernelSection (c : Container) (kind kernel : Nat) : Option Section_ :=
  c.sections.find? (fun x => x.kind = kind && x.kernel = kernel)
def Container.section (c : Container) (kind : Nat) : Option Section_ := c.sections.find? (fun x => x.kind = kind)
def Container.data (c : Container) (x : Section_) : List Byte := (c.bytes.drop x.off).take x.size

/-- The words of a code section. -/
def Container.words (c : Container) (x : Section_) : List Nat := (rowsOf (x.size / 4) 4 (c.data x)).map leValue

/-- The word offsets at which the blocks of a section start (R58): its first word, and every word after one with E set. -/
def blockStarts (ws : List Nat) : List Nat :=
  (List.range ws.length).filter (fun i => i = 0 || 2 ^ 31 ≤ ws.getD (i - 1) 0)

/-- The block starts of a kernel's section of some kind; none when it has no such section. -/
def Container.blocks (c : Container) (kind kernel : Nat) : List Nat :=
  match c.kernelSection kind kernel with
  | some x => blockStarts (c.words x)
  | none => []

/-- The header of R337. -/
def Container.headerOk (c : Container) : Bool :=
  let b := c.bytes
  let n := field b 6 2
  128 ≤ b.length && field b 0 4 = 0x314B_4441 && field b 4 2 = 1 && 1 ≤ n && n ≤ 4096 && field b 12 4 < 2 && c.pbase % 65536 = 0
  && 1 ≤ c.nkern && c.nkern ≤ 1024 && c.nlaunch ≤ 1024 && zeros b 52 12 && (c.translated || zeros b 64 48) && zeros b 112 16
  && c.sigoff + 200 = b.length && field b 32 8 + 32 * n ≤ b.length

/-- One entry of the section table, with its reserved fields at offset o (R337, R338). -/
def Container.sectionOk (c : Container) (o : Nat) (x : Section_) : Bool :=
  let owned := x.kind ≤ 5 || x.kind = 10
  1 ≤ x.kind && x.kind ≤ 12 && zeros c.bytes (o + 1) 3 && zeros c.bytes (o + 6) 2
  && (if owned then x.kernel < c.nkern else x.kernel = 0xFFFF)
  && x.off + x.size ≤ c.bytes.length && (x.loaded || x.voff = 0) && (!x.loaded || x.voff + x.size ≤ c.isize)
  && (!x.code || (x.voff % 4 = 0 && x.size % 4 = 0)) && ((x.kind ≠ 6 && x.kind ≠ 7) || x.voff % 64 = 0)
  && (x.kind ≠ 5 || x.size = 1192) && (x.kind ≠ 10 || x.size = 16) && (x.kind ≠ 8 || x.size % 24 = 0)
  && (x.kind ≠ 9 || x.size = 256 * c.nlaunch) && (x.kind ≠ 11 || (x.off = c.sigoff && x.size = 200))
  && (!(2 ≤ x.kind && x.kind ≤ 4) || (blockStarts (c.words x)).length ≤ 256)

/-- Do two loaded sections share a byte, or code and data a page (R337)? -/
def Section_.clash (x y : Section_) : Bool :=
  x.loaded && y.loaded && x.size ≠ 0 && y.size ≠ 0
  && (overlap (x.voff, x.size) (y.voff, y.size)
      || (x.code ≠ y.code && x.voff / 65536 ≤ (y.voff + y.size - 1) / 65536 && y.voff / 65536 ≤ (x.voff + x.size - 1) / 65536))

/-- May two entries of the table stand together: no clash, and one section of each owned kind to a kernel (R337)? -/
def Section_.apart (x y : Section_) : Bool :=
  !x.clash y && !(x.kind = y.kind && x.kernel = y.kernel && (x.kind ≤ 5 || x.kind = 9 || x.kind = 10 || x.kind = 11))

/-- Launch template i (R338). -/
def Container.template (c : Container) (i : Nat) : List Byte :=
  match c.section 9 with
  | some x => ((c.data x).drop (256 * i)).take 256
  | none => []

/-- Are the bits that R271 does not name 0 in a POOL field (bits [15:14] of each partition)? -/
def poolBitsOk (t : List Byte) (off : Nat) : Bool := (List.range 8).all (fun p => field t (off + 2 * p) 2 < 2 ^ 14)

/-- The zeros of a template, those of the bits R271 does not name among them, and its kernel (R338, R271). -/
def Container.templateOk (c : Container) (i : Nat) : Bool :=
  let t := c.template i
  let low (off n bits : Nat) : Bool := field t off n < 2 ^ bits
  t.length = 256 && low 3 1 3 && low 8 1 3 && low 9 1 1 && low 120 8 48 && zeros t 135 1 && poolBitsOk t 144
  && (List.range 8).all (fun n => low (112 + n) 1 6) && zeros t 1 1 && zeros t 12 4 && zeros t 136 8 && zeros t 160 16 && zeros t 176 80 && field t 10 2 < c.nkern

/-- The digest h of R341. -/
def Container.digest (c : Container) : BitVec 384 := sha384 (c.bytes.take c.sigoff)

/-- Step 2 of R341 against fuse key slots; slot is the one the object must carry, when one is required. known: h is in the
loader's cache, so that ECDSA is not run (R342). -/
def Container.signed (c : Container) (keys : List (Option (BitVec 384))) (slot : Option Nat) (known : Bool) : Bool :=
  let g := c.bytes.drop c.sigoff
  let k := field g 0 1
  let key := (g.drop 8).take 96
  let at_ (off : Nat) : Nat := beValue ((g.drop off).take 48)
  k < 4 && zeros g 1 7 && (match slot with | some n => k = n | none => true)
  && (keys[k]?).join = some (sha384 key)
  && (known || ecdsaAccepts (at_ 8, at_ 56) (at_ 104) (at_ 152) c.digest.toNat)

-- Relocation

/-- An entry of .rel (R339). -/
structure Reloc where
  place  : Nat
  addend : Int
  type   : Nat
  goti   : Nat
  pair   : Nat
  rsv    : Nat

def Reloc.ofBytes (b : List Byte) : Reloc :=
  let a := field b 8 8
  { place := field b 0 8, addend := if 2 ^ 63 ≤ a then (a : Int) - 2 ^ 64 else a, type := field b 16 1, rsv := field b 17 1
    goti := field b 18 2, pair := field b 20 4 }

/-- The entries of every .rel section, in order. -/
def Container.relocs (c : Container) : List Reloc :=
  (c.sections.filter (fun x => x.kind = 8)).flatMap (fun x => (rowsOf (x.size / 24) 24 (c.data x)).map Reloc.ofBytes)

/-- Step 1 of R341. -/
def Container.formOk (c : Container) : Bool :=
  let o := field c.bytes 32 8
  c.headerOk
  && (List.range c.sections.length).all (fun i => match c.sections[i]? with
      | some x => c.sectionOk (o + 32 * i) x && (c.sections.drop (i + 1)).all x.apart
      | none => false)
  && (c.section 11).isSome
  && (List.range c.nlaunch).all c.templateOk
  && c.sections.all (fun x => (x.kind ≠ 5 || zeros (c.data x) 1185 7) && (x.kind ≠ 10 || poolBitsOk (c.data x) 0))
  && c.relocs.all (fun r => r.rsv = 0 && (r.type = 5 || r.pair = 0))

/-- The image of a container at its offsets (R341, step 5). -/
def Container.image (c : Container) : Mem :=
  (c.sections.filter (·.loaded)).foldl (fun m x => Memory.store m x.voff (c.data x)) []

/-- hi and lo of a value (R339, R39). -/
def relHi (v : Int) : Nat := ((v + 0x800) / 4096 % 2 ^ 20).toNat
def relLo (v : Int) : Nat := (v % 2 ^ 12).toNat

/-- Bits [lo + n − 1 : lo] of a word replaced. -/
def putBits (w lo n v : Nat) : Nat := w - bitsOf w (lo + n - 1) lo * 2 ^ lo + v % 2 ^ n * 2 ^ lo

/-- What a relocation comes to: the patched image, or the status it fails with (R340). -/
inductive Patched where
  | ok (m : Mem)
  | badobj
  | overflow

/-- Apply one relocation for load base base (R339, R340). -/
def Container.patch (c : Container) (base : Nat) (all : List Reloc) (m : Mem) (r : Reloc) : Patched :=
  let n := if r.type = 1 then 8 else 4
  match c.sections.find? (fun x => x.loaded && x.voff ≤ r.place && r.place + n ≤ x.voff + x.size) with
  | none => .badobj
  | some x =>
    let w := leValue (Memory.bytes m r.place 4)
    let op := bitsOf w 29 24
    let got := (c.section 7).map (·.voff)
    let v : Int := match r.type with
      | 4 | 8 => r.addend - r.place
      | 5 => r.addend - ((r.place : Int) - r.pair)
      | 6 | 7 => (base + got.getD 0 + 8 * r.goti : Nat)
      | 9 => r.addend
      | _ => base + r.addend
    let s : Bool := x.kind = 1 && r.place % 4 = 0
    let form : Bool := match r.type with
      | 1 => true
      | 2 | 4 | 6 => s && 0x3C ≤ op
      | 3 | 5 | 7 => s && (op = 3 || (8 ≤ op && op ≤ 15))
      | 8 => s && (op = 0x20 || op = 0x21)
      | 9 => s && op = 0x24 && bitsOf w 23 22 ≠ 3
      | _ => false
    let put (w : Nat) : Patched := .ok (Memory.store m r.place (leBytes 4 w))
    if !form || ((r.type = 6 || r.type = 7) && got.isNone)
        || (r.type = 5 && !all.any (fun q => q.type = 4 && q.place + r.pair = r.place)) then .badobj
    else if r.type = 1 then .ok (Memory.store m r.place (leBytes 8 ((v % 2 ^ 64).toNat)))
    else if r.type = 8 then
      if v % 4 ≠ 0 || v < -4194304 || 4194300 < v then .overflow else put (putBits w 0 21 ((v / 4 % 2 ^ 21).toNat))
    else if r.type = 9 then
      if 255 < v then .overflow
      else if v < 0 || (c.blocks (2 + bitsOf w 23 22) x.kernel).length ≤ v.toNat then .badobj
      else put (putBits w 14 8 v.toNat)
    else if v < -2147483648 || 0x7FFF_F7FF < v then .overflow
    else if r.type = 2 || r.type = 4 || r.type = 6 then put (putBits w 0 20 (relHi v))
    else put (putBits w 2 12 (relLo v))

/-- Apply relocations in order. -/
def Container.patchAll (c : Container) (base : Nat) (all : List Reloc) : List Reloc → Mem → Patched
  | [], m => .ok m
  | r :: rest, m => match c.patch base all m r with
    | .ok m' => c.patchAll base all rest m'
    | o => o

/-- The kernel descriptor of R343. DESIGN CHOICE (log entry 90): a block that starts beyond the 16 bits of its offset has its low 16. -/
def Container.descriptor (c : Container) (base kernel : Nat) : List Byte :=
  let sec (k : Nat) : Option Section_ := c.kernelSection k kernel
  let at_ (k : Nat) : List Byte := leBytes 8 (match sec k with | some x => base + x.voff | none => 0)
  let words (k : Nat) : List Byte := leBytes 4 (match sec k with | some x => x.size / 4 | none => 0)
  let count (k : Nat) : List Byte := leBytes 2 (c.blocks k kernel).length
  let table (k : Nat) : List Byte :=
    let l := c.blocks k kernel
    (List.range 256).flatMap (fun i => leBytes 2 (l.getD i 0xFFFF))
  let sync := match sec 5 with | some x => c.data x | none => List.replicate 1192 0
  [1, 2, 3, 4].flatMap at_ ++ [1, 2, 3, 4].flatMap words ++ [2, 3, 4].flatMap count ++ leBytes 2 kernel ++ List.replicate 8 0
  ++ [2, 3, 4].flatMap table ++ sync ++ List.replicate 24 0

end Sys2Proof.Machine
end

