-- ==== Sys2Proof/Machine/HartOrder.lean ====
section
/-! DEFINITION. The order in which a hart's accesses perform (R105, R352), and what a call of Skyo's hart waits for. -/
namespace Sys2Proof.Machine

def State.hart (s : State) (h : BitVec 5) : Hart := Sparse.get {} s.harts h.toNat
def State.setHart (s : State) (h : BitVec 5) (x : Hart) : State := { s with harts := Sparse.put s.harts h.toNat x }

/-- Does an access read memory; does it write? -/
def HartOp.reads : HartOp → Bool
  | .load .. => true | .amo .. => true | .lr .. => true | .store .. => false | .sc .. => false | .fence .. => false
def HartOp.writes : HartOp → Bool
  | .store .. => true | .amo .. => true | .sc .. => true | .load .. => false | .lr .. => false | .fence .. => false

/-- The acquire and release annotations of an access. -/
def HartOp.aq : HartOp → Bool
  | .amo _ _ _ _ aq _ => aq | .lr _ _ aq _ => aq | .sc _ _ _ aq _ => aq | .load .. => false | .store .. => false | .fence .. => false
def HartOp.rl : HartOp → Bool
  | .amo _ _ _ _ _ rl => rl | .lr _ _ _ rl => rl | .sc _ _ _ _ rl => rl | .load .. => false | .store .. => false | .fence .. => false

/-- The bytes an access touches. -/
def HartOp.range : HartOp → Nat × Nat
  | .load pa n => (pa, n) | .store pa n _ => (pa, n) | .amo pa n _ _ _ _ => (pa, n) | .lr pa n _ _ => (pa, n)
  | .sc pa n _ _ _ => (pa, n) | .fence .. => (0, 0)

def HartOp.isFence : HartOp → Bool | .fence .. => true | _ => false
def HartOp.isLr : HartOp → Bool | .lr .. => true | _ => false
def HartOp.isSc : HartOp → Bool | .sc .. => true | _ => false
def HartOp.isStore : HartOp → Bool | .store .. => true | _ => false

/-- Is an access in the predecessor set of a fence; in its successor set? -/
def HartOp.before (f a : HartOp) : Bool := match f with | .fence pr pw _ _ => (pr && a.reads) || (pw && a.writes) | _ => false
def HartOp.after (f a : HartOp) : Bool := match f with | .fence _ _ sr sw => (sr && a.reads) || (sw && a.writes) | _ => false

/-- The hart's latest earlier access to bytes of an access, where that has not performed. -/
def lastMeeting (earlier : List HartItem) (a : HartOp) : Option HartItem := earlier.reverse.find? (fun j => overlap j.op.range a.range)

/-- The value a load takes from the hart's own latest earlier store to its bytes, where that store has not performed (RVWMO). -/
def forwarded (earlier : List HartItem) (a : HartOp) : Option (List Byte) :=
  match a, (lastMeeting earlier a).map (·.op) with
  | .load pb m, some (HartOp.store pa n v) =>
    if pa ≤ pb ∧ pb + m ≤ pa + n then some (((leBytes n v.toNat).drop (pb - pa)).take m) else none
  | _, _ => none

/-- Does an access depend on access j in its address or its value? -/
def HartDeps.plain (d : HartDeps) (j : Nat) : Bool := d.addr.contains j || d.data.contains j

/-- RVWMO's dependencies of access i on the earlier access j (R105): in address or value, or through a branch before a store; through an
own store whose value i takes; and, for a store, through an address between them. -/
def HartItem.depends (i j : HartItem) (between earlier : List HartItem) : Bool :=
  i.deps.plain j.id || (i.op.writes && i.deps.ctrl.contains j.id)
  || ((forwarded earlier i.op).isSome && (lastMeeting earlier i.op).any (fun m => m.deps.plain j.id))
  || (i.op.writes && between.any (fun m => m.deps.addr.contains j.id))

/-- Must access i wait for the earlier access j, with items between between them: RVWMO's preserved program order, of which RVWMO's
clauses on one address, on annotations, on pairs and on dependencies are the parts (R105)? A load that takes an own store's value
need not wait for it. -/
def HartItem.waits (i j : HartItem) (between earlier : List HartItem) : Bool :=
  !j.op.isFence
  && (i.depends j between earlier
    || (overlap j.op.range i.op.range && (forwarded earlier i.op).isNone)
    || j.op.aq || i.op.rl || ((j.op.aq || j.op.rl) && (i.op.aq || i.op.rl))
    || (j.op.isLr && i.op.isSc)
    || between.any (fun f => f.op.before j.op && f.op.after i.op))

/-- May the k-th item of a hart perform? -/
def Hart.ready (x : Hart) (k : Nat) : Bool :=
  match x.items[k]? with
  | none => false
  | some i =>
    let earlier := x.items.take k
    !i.op.isFence && (List.range k).all (fun n => match earlier[n]? with
      | some j => !(i.waits j (earlier.drop (n + 1)) earlier)
      | none => true)

/-- The fences with no access of their predecessor set before them have nothing left to order. -/
def settleHart : List HartItem → List HartItem → List HartItem
  | _, [] => []
  | seen, i :: rest =>
    if i.op.isFence && !(seen.any (fun j => i.op.before j.op)) then settleHart seen rest else i :: settleHart (seen ++ [i]) rest

/-- Does a call of Skyo's hart wait for an access that the hart made before it (R105, R332): one that a fence puts before the call, or a
write of some of the n bytes at pa, which Skyo reads on the same hart? -/
def State.callHeld (s : State) (pa n : Nat) : Bool :=
  (s.hart s.skyo.caller).items.any (fun i => i.op.isFence || (i.op.writes && overlap i.op.range (pa, n)))

end Sys2Proof.Machine
end

