-- ==== Sys2Proof/Machine/Loader.lean ====
section
/-! DEFINITION. Skyo's loader (R341 to R345), the fuse counter (R342) and bring-up (R350, R351). -/
namespace Sys2Proof.Machine

/-- The statuses of a system call (R346). -/
inductive Status where
  | ok | badobj | sig | svnRevoked | relOverflow | nospace | poolSize | denied | busy | arg
  deriving DecidableEq, Repr

def Status.code : Status → Nat
  | .ok => 0 | .badobj => 1 | .sig => 2 | .svnRevoked => 3 | .relOverflow => 4 | .nospace => 5 | .poolSize => 6 | .denied => 7
  | .busy => 8 | .arg => 9

/-- A call returns its status in a0 and its result in a1 (R346). -/
def State.ret (s : State) (st : Status) (v : Nat := 0) : State :=
  { s with skyo := { s.skyo with a0 := BitVec.ofNat 64 st.code, a1 := BitVec.ofNat 64 v } }

-- Mapping (R90)

/-- Map pages of 64 KiB from virtual address va to physical address pa with PTE bits [7:2]. -/
def State.mapPages (s : State) (p va pa n bits : Nat) : State :=
  (List.range n).foldl (fun s i => s.setPage p (va + 65536 * i) (pa + 65536 * i + 4 * bits + 3)) s

/-- Unmap them. -/
def State.unmapPages (s : State) (p va n : Nat) : State :=
  (List.range n).foldl (fun s i =>
    match walk (s.part p).tables (va + 65536 * i) walkLevels (s.part p).root with
    | .ok _ => s.setPage p (va + 65536 * i) 0
    | .error _ => s) s

/-- Is a run of pages free for an image: inside the translated space and not mapped? -/
def State.pagesFree (s : State) (p va n : Nat) : Bool :=
  va + 65536 * n ≤ 0x1000_0000_0000 && (List.range n).all (fun i =>
    match walk (s.part p).tables (va + 65536 * i) walkLevels (s.part p).root with
    | .error 0 => true
    | _ => false)

-- OBJ_LOAD

/-- Pages an object takes: its image, then its kernel descriptors (R341 step 4, R343). -/
def Container.imagePages (c : Container) : Nat := (c.isize + 65535) / 65536
def Container.descPages (c : Container) : Nat := (2816 * c.nkern + 65535) / 65536

/-- Where Skyo places an object: its preferred base when that is free, else its next free address; none when it cannot (log entry
5). -/
def State.placeImage (s : State) (p : Nat) (c : Container) : Option Nat :=
  let n := c.imagePages + c.descPages
  let q := s.part p
  if s.pkg.frames + 65536 * n ≤ 0xE0_0000_0000 then
    if s.pagesFree p c.pbase n then some c.pbase
    else if s.pagesFree p q.images n then some q.images
    else none
  else none

/-- The physical memory that holds a page's bytes. -/
def State.putPage (s : State) (frame : Nat) (bs : List Byte) : State := s.putMem frame bs

/-- Map and fill an image's pages (R341 steps 4 and 5): code R and X, .const and .got R and W, descriptors R. -/
def State.publish (s : State) (p : Nat) (c : Container) (base : Nat) (im : Mem) : State :=
  let frame := s.pkg.frames
  let place (f : Nat) : Nat := s.placeBits f / 4
  let page (i : Nat) (code : Bool) : Bool := c.sections.any (fun x => x.loaded && x.code = code && x.size ≠ 0
    && x.voff / 65536 ≤ i && i ≤ (x.voff + x.size - 1) / 65536)
  let s := (List.range c.imagePages).foldl (fun s i =>
    let f := frame + 65536 * i
    let s := s.putPage f (Memory.bytes im (65536 * i) 65536)
    if page i true then s.mapPages p (base + 65536 * i) f 1 (place f + 5)
    else if page i false then s.mapPages p (base + 65536 * i) f 1 (place f + 3)
    else s) s
  let at_ := 65536 * c.imagePages
  let s := (List.range c.descPages).foldl (fun s i =>
    s.mapPages p (base + at_ + 65536 * i) (frame + at_ + 65536 * i) 1 (place (frame + at_ + 65536 * i) + 1)) s
  let s := s.putPage (frame + at_) ((List.range c.nkern).flatMap (c.descriptor base))
  { (s.icinv frame at_) with pkg := { s.pkg with frames := frame + at_ + 65536 * c.descPages } }.onPart p (fun q => { q with
    images := max q.images (base + at_ + 65536 * c.descPages) })

/-- The record built from a template (R341 step 6, R271). -/
def Container.record (c : Container) (base i : Nat) : List Byte :=
  let t := c.template i
  let kernel := field t 10 2
  let entry := base + (match c.kernelSection 1 kernel with | some x => x.voff | none => 0)
  let kdesc := base + 65536 * c.imagePages + 2816 * kernel
  [1] ++ (t.drop 1).take 135 ++ leBytes 8 entry ++ (t.drop 144).take 16 ++ leBytes 8 kdesc ++ (t.drop 168).take 88

/-- The free records of a partition's pool (R270). -/
def State.freeRecords (s : State) (p : Nat) : List Nat := (List.range 1024).filter (fun i => s.recField p i 0 1 ≠ 1)

/-- Does some .pool layout exceed the scratchpad (R251)? -/
def Container.poolTooBig (c : Container) : Bool :=
  c.sections.any (fun x => x.kind = 10 && 524288 < layoutBytes ((List.range 8).map (fun i => field (c.data x) (2 * i) 2)))

/-- Steps 4 to 7 of R341, for a container that has passed the others. -/
def State.loadObject (s : State) (p : Nat) (c : Container) : State :=
  match s.placeImage p c with
  | none => s.ret .nospace
  | some base =>
    if c.poolTooBig then s.ret .poolSize
    else match c.patchAll base c.relocs c.relocs c.image with
      | .badobj => s.ret .badobj
      | .overflow => s.ret .relOverflow
      | .ok im =>
        let free := s.freeRecords p
        if free.length < c.nlaunch then s.ret .nospace
        else
          let recs := free.take c.nlaunch
          let s := s.publish p c base im
          let s := (List.range c.nlaunch).foldl (fun s i =>
            s.putMem (s.recAddr p (recs.getD i 0)) (c.record base i)) s
          let h := (s.part p).nextHandle
          let o : Object := { handle := h, base := base, size := 65536 * (c.imagePages + c.descPages)
                              records := recs.map (BitVec.ofNat 10) }
          (s.onPart p (fun q => { q with objects := q.objects ++ [o], nextHandle := h + 1 })).ret .ok h

/-- The cached translation of a foreign binary with digest h (R344). -/
def Package.translation (k : Package) (h : BitVec 384) : Option Container :=
  (k.translations.find? (fun e => e.1 = h)).map (fun e => Container.parse e.2)

/-- Step 3 of R341 fails: every cached translation of digest h is purged. -/
def State.revoke (s : State) (h : BitVec 384) : State :=
  { s with pkg := { s.pkg with translations := s.pkg.translations.filter (fun e => e.1 ≠ h) } }.ret .svnRevoked

/-- A digest that has passed step 2 is cached with its SVN (R342). -/
def State.keepDigest (s : State) (h : BitVec 384) (svn : BitVec 32) : State :=
  if s.pkg.digests.any (fun e => e.1 = h) then s else { s with pkg := { s.pkg with digests := s.pkg.digests ++ [(h, svn)] } }

/-- A translation is cached under its binary's digest, if none of it is (R344). -/
def State.keepTranslation (s : State) (c : Container) : State :=
  if !c.translated || s.pkg.translations.any (fun e => e.1 = c.srchash) then s
  else { s with pkg := { s.pkg with translations := s.pkg.translations ++ [(c.srchash, c.bytes)] } }

/-- Steps 2 to 7 of R341 for a container that has passed step 1; h is the digest a revoked version purges. -/
def State.loadContainer (s : State) (p : Nat) (c : Container) (h : BitVec 384) : State :=
  let known := s.pkg.digests.any (fun e => e.1 = c.digest)
  if !c.signed s.pkg.keys (if c.translated then some 3 else none) known then s.ret .sig
  else
    let s := s.keepDigest c.digest c.svn
    if c.svn < s.pkg.svn then s.revoke h
    else
      let u := s.loadObject p c
      if u.skyo.a0 = 0 then u.keepTranslation c else u

/-- OBJ_LOAD (R341, R342, R344): the container lies at a physical address (log entry 41). A foreign binary loads as the translation that
Skyo has made of it, a step of its own; with none the bytes fail step 1 (log entry 89). -/
def execObjLoad (p : Nat) (a size : BitVec 64) (s : State) : Out :=
  if s.callHeld (addr48 a.toNat) size.toNat then .next s else
  let b := physRead s (addr48 a.toNat) size.toNat
  let c := Container.parse b
  .next (if c.formOk then s.loadContainer p c c.digest
    else match s.pkg.translation (sha384 b) with
      | some t => s.loadContainer p t (sha384 b)
      | none => s.ret .badobj)

/-- A loaded object by its handle. -/
def State.object (s : State) (p h : Nat) : Option Object := (s.part p).objects.find? (fun o => o.handle = h)

/-- OBJ_UNLOAD (R345): BUSY while a record of the object is ARMED or RUNNING; else its records are freed and its image and
descriptors unmapped. -/
def execObjUnload (p : Nat) (h : BitVec 64) (s : State) : Out :=
  match s.object p h.toNat with
  | none => .next (s.ret .arg)
  | some o =>
    if o.records.any (fun r => s.recState p r.toNat = 1 || s.recState p r.toNat = 2) then .next (s.ret .busy)
    else
      let s := o.records.foldl (fun s r => s.putMem (s.recAddr p r.toNat) (List.replicate 256 0)) s
      let s := s.unmapPages p o.base (o.size / 65536)
      .next ((s.onPart p (fun q => { q with objects := q.objects.filter (fun x => x.handle ≠ o.handle) })).ret .ok)

/-- LREC_GET (R346). -/
def execLrecGet (p : Nat) (h i : BitVec 64) (s : State) : Out :=
  match (s.object p h.toNat).bind (fun o => o.records[i.toNat]?) with
  | some r => .next (s.ret .ok r.toNat)
  | none => .next (s.ret .arg)

/-- FUSE_COUNTER_RAISE (R342). -/
def execFuseCounterRaise (svn : BitVec 32) (s : State) : Out :=
  .next (if s.pkg.svn < svn then { s with pkg := { s.pkg with svn := svn, digests := s.pkg.digests.filter (fun e => svn ≤ e.2) } } else s)

-- Bring-up

/-- A register of BAR0 (R350): PKGID, BOOTSTAT and BOOTDB; none where the access completes with Unsupported Request. -/
def State.bar0 (s : State) (off : Nat) : Option Word :=
  if off = 0x0000 then some 0x4160_0000
  else if off = 0x0008 then some (BitVec.ofNat 64 (s.pkg.err.toNat * 256 + s.pkg.stage.toNat))
  else if off = 0x0010 then some (s.pkg.size.setWidth 64)
  else none

/-- BAR2_IMAGE_WRITE (R351): ignored once SIZE has been written. -/
def execBar2ImageWrite (off : BitVec 28) (v : BitVec 8) (s : State) : Out :=
  .next (if s.pkg.size = 0 ∧ s.pkg.stage = 0 then { s with pkg := { s.pkg with bar2 := Memory.store s.pkg.bar2 off.toNat [v] } } else s)

/-- The boot ROM's verdict on the image it has copied (R351): ERR 1 for its form and signature, 2 for its version, 0 when it
passes. -/
def verifyImage (keys : List (Option (BitVec 384))) (svn : BitVec 32) (b : List Byte) : BitVec 8 :=
  let c := Container.parse b
  if !c.formOk || !c.signed keys (some 0) false then 1 else if c.svn < svn then 2 else 0

/-- BOOTDB_WRITE (R350, R351): a nonzero SIZE at stage 0 starts bring-up; the ROM copies and verifies the image. -/
def execBootdbWrite (v : BitVec 64) (s : State) : Out :=
  let n : BitVec 32 := v.setWidth 32
  if s.pkg.stage ≠ 0 ∨ n = 0 then .next s
  else if 0x1000_0000 < n.toNat then .next { s with pkg := { s.pkg with size := n, stage := 15, err := 5 } }
  else
    let rom := Memory.store [] 0 (Memory.bytes s.pkg.bar2 0 n.toNat)
    let e := verifyImage s.pkg.keys s.pkg.svn (Memory.bytes rom 0 n.toNat)
    .next { s with pkg := { s.pkg with size := n, rom := rom, stage := if e = 0 then 2 else 15, err := e } }

/-- TRAINING_COMPLETE (R351, R270): the C-dies leave reset, and Skyo starts, sets MEMSPLIT and the power budgets, and maps the launch
records of partition 0; or bring-up stops. -/
def execTrainingComplete (res : Training) (s : State) : Out :=
  if s.pkg.stage ≠ 2 then .next s
  else match res with
    | .hbmFails => .next { s with pkg := { s.pkg with stage := 15, err := 3 } }
    | .ucieFails => .next { s with pkg := { s.pkg with stage := 15, err := 4 } }
    | .ok =>
      let s := { s with
        memsplit := 8, dies := s.dies.map (fun (d : Die) => { d with budget := Config.dieBudget }), pkg := { s.pkg with stage := 4 } }
      .next (s.mapPages 0 (s.part 0).lrbase.toNat (s.recAddr 0 0) 4 (s.placeBits (s.recAddr 0 0) / 4 + 1))

/-- PACKAGE_RESET (R351): the tick counter and the C-dies take their reset values; the fuses and the memory's contents stay. -/
def execPackageReset (s : State) : Out :=
  .next { State.reset with
    agenda := s.agenda, freeIx := s.freeIx, mem := s.mem, pkg := { State.reset.pkg with svn := s.pkg.svn, keys := s.pkg.keys } }

end Sys2Proof.Machine
end

