-- ==== Sys2Proof/Machine/Matrix.lean ====
section
/-! DEFINITION. The M words (R233 to R245): entry-register words and MREP, the issue of MZRO, MMA, MDRN, MLDA and MSTA, the
folding of products (R224), the arithmetic of a drain (R226 to R232), and the finish of a step. -/
namespace Sys2Proof.Machine

-- The running M entry

/-- The M entry of the core in focus, when it may issue its next word. -/
def State.mReady (s : State) : Option MRun :=
  match (s.core s.focus).mrun with
  | none => none
  | some r => if r.ended || s.entryFrozen s.focus r.entry r.flt then none else some r

def State.mSet (s : State) (r : MRun) : State := s.onCore s.focus (fun k => { k with mrun := some r })

/-- An entry-register word (R236): it completes in its issue cycle. -/
def State.mWord (s : State) (e : Bool) (f : Vector Word 16 → Vector Word 16) : State :=
  match s.mReady with
  | none => s
  | some r => s.mSet ({ r with e := f r.e }.next e)

/-- Register n of an M or X entry. -/
def ereg (v : Vector Word 16) (n : BitVec 4) : Word := vget v 0 n.toNat

def execMnop (e : Bool) (s : State) : Out := .next (s.mWord e id)
def execMeadd (e : Bool) (ed ea eb : BitVec 4) (s : State) : Out :=
  .next (s.mWord e (fun v => vset v ed.toNat (ereg v ea + ereg v eb)))
def execMeli (e : Bool) (ed : BitVec 4) (imm : BitVec 22) (s : State) : Out :=
  .next (s.mWord e (fun v => vset v ed.toNat (imm.signExtend 64)))
def execMemov (e : Bool) (ed ea : BitVec 4) (s : State) : Out := .next (s.mWord e (fun v => vset v ed.toNat (ereg v ea)))

/-- MREP (R60): the next n words run k times. -/
def execMrep (e : Bool) (n : BitVec 4) (k : BitVec 12) (s : State) : Out :=
  match s.mReady with
  | none => .next s
  | some r =>
    if e || !repeatable s s.focus .m r.entry n.toNat (r.idx + 1) then
      .next (s.entryStop s.focus .m ⟨.illegal, 0, 0⟩)
    else .next (s.mSet { r with idx := r.idx + 1, pass := 0, rep := some ⟨r.idx + 1, n.toNat, k.toNat⟩ })

-- Issue

def isMma (i : Instr) : Bool := match i with | .mma .. => true | _ => false
def isMzro (i : Instr) : Bool := match i with | .mzro .. => true | _ => false

/-- Does a step read the bypass buffer; does it write it? -/
def readsBypass (i : Instr) : Bool := match i with | .mma _ _ _ _ _ _ byp _ _ => byp | _ => false
def writesBypass (i : Instr) : Bool := match i with | .mdrn _ _ _ _ _ md _ => md = 2 | _ => false

/-- Has every earlier step naming the tile finished, MMAs apart where mma is set (R235)? -/
def MRun.tileFree (r : MRun) (t : BitVec 3) (mma : Bool) : Bool :=
  r.steps.all (fun m => m.tile ≠ t || (mma && isMma m.op))

/-- Is the drain unit's previous step finished; does the array's previous MMA finish at most 4 slots from now (R235)? -/
def MRun.drainFree (r : MRun) : Bool := r.steps.all (fun m => isMma m.op || isMzro m.op)
def MRun.mmas (r : MRun) : List MStep := r.steps.filter (fun m => isMma m.op)
def MRun.arrayFree (r : MRun) : Bool := r.mmas.length ≤ 1 && r.mmas.all (fun m => m.fin ≤ r.slot + 4)

/-- The slot a step that issues now finishes in at the earliest (R235). -/
def MRun.finishSlot (r : MRun) (i : Instr) : Nat :=
  match i with
  | .mzro .. => r.slot + 1
  | .mma .. => max (r.slot + 68) ((r.mmas.foldl (fun n m => max n m.fin) r.mmaEnd) + 64)
  | .mdrn .. => r.slot + 68
  | _ => r.slot + 260

/-- The step m has finished: it leaves, and the end of an MMA holds back the next one (R235). -/
def MRun.finished (r : MRun) (m : MStep) (k : Nat) : MRun :=
  let l := r.steps.eraseIdx k
  if isMma m.op then
    { r with mmaEnd := r.slot + 1, steps := l.map (fun o => if isMma o.op then { o with fin := max o.fin (r.slot + 65) } else o) }
  else { r with steps := l }

/-- An ME slot of the running entry passes (R235). -/
def Core.meSlot (k : Core) : Core := { k with mrun := k.mrun.map (fun r => { r with slot := r.slot + 1 }) }

/-- Do these ranges meet bytes that an unfinished step of the entry will write (R244)? -/
def MRun.pending (r : MRun) (l : List (Nat × Nat)) : Bool := r.steps.any (fun m => rangesMeet m.dst l)

/-- Must a step wait for an unfinished one, because they touch a common byte that one of them writes, or because one of them
writes the bypass buffer (R244)? -/
def MRun.conflicts (r : MRun) (m : MStep) : Bool :=
  r.pending (m.src ++ m.src2 ++ m.dst)
  || r.steps.any (fun o => rangesMeet m.dst (o.src ++ o.src2)
      || (writesBypass o.op && (readsBypass m.op || writesBypass m.op)) || (readsBypass o.op && writesBypass m.op))

/-- What the checks of a step find. -/
inductive MPlan where
  | step (m : MStep)
  | stop (w : Trouble)
  | wait

/-- Issue a step (R235): it waits for its unit and tile, for its charge (R323), and for earlier steps that touch its bytes
(R244); then its checks are made, those of the pool last (R238). drain: it advances the drain sequence number, whether or
not the checks pass (R248). -/
def State.mIssue (s : State) (e : Bool) (cost : Nat) (drain : Bool) (free : MRun → Bool) (plan : MRun → MPlan) : State :=
  match s.mReady with
  | none => s
  | some r =>
    if !free r then s
    else match (s.core s.focus).charge 1 cost with
      | .wait => s
      | .over => s.entryStop s.focus .m ⟨.power, 0, 0⟩
      | .paid k =>
        let s1 := s.setCore s.focus (if drain then { k with drainSeq := k.drainSeq + 1 } else k)
        match plan r with
        | .wait => s
        | .stop w => s1.entryStop s.focus .m w
        | .step m =>
          if r.conflicts m then s
          else match s1.consumeAll s.focus r.entry.launch m.held with
            | .wait => s
            | .stop w => s1.entryStop s.focus .m w
            | .ok s2 =>
              s2.onCore s.focus (fun k => { k with
                mrun := some ({ r with steps := r.steps ++ [{ m with seq := (s.core s.focus).drainSeq, issued := s.tick, fin := r.finishSlot m.op }] }.next e) })

/-- Does a range lie in one scratchpad of the issuing core's cluster, within the partition (R238)? -/
def inSpad (s : State) (c a n : Nat) : Bool :=
  match winCheck s (s.partOf c) a with
  | .ok (d, off) => clusterOf d = clusterOf c && winRange off = .spad && off + n ≤ 0x8_0000
  | .error _ => false

/-- The checks of MMA (R238), each for A and then for B. -/
def mmaPlan (s : State) (i : Instr) (acc : BitVec 2) (ea eb : BitVec 4) (cna cnb byp : Bool) (r : MRun) : MPlan :=
  let c := s.focus
  let a := addr48 (ereg r.e ea).toNat
  let b := addr48 (ereg r.e eb).toNat
  let ops := if byp then [b] else [a, b]
  match ops.find? (fun x => x % 64 ≠ 0) with
  | some x => .stop (alignTrouble x)
  | none => match ops.find? (fun x => !inSpad s c x 64) with
    | some x => .stop (windowTrouble x)
    | none =>
      if r.pending (ops.map (fun x => (x, 64))) || (byp && r.steps.any (fun m => writesBypass m.op)) then .wait
      else
        match ops.findSome? (fun x => s.eccAt (dieOf c) x) with
        | some n => .stop (eccTrouble n)
        | none =>
        let ta := if byp then (if r.byp.isSome && !cna then some 13 else none) else headerType (physRead s a 64) 0
        match ta, headerType (physRead s b 64) 1 with
        | some ta, some tb =>
          if ta ≠ tb then .stop ⟨.format, 0, 0⟩
          else
            let n := objSize tb
            match ops.find? (fun x => !inSpad s c x n) with
            | some x => .stop (windowTrouble x)
            | none => .step { op := i, tile := tileOf r.entry.map acc, tag := tb, src := if byp then [] else [(a, n)]
                              src2 := [(b, n)], held := (if cna then [(a, n)] else []) ++ (if cnb then [(b, n)] else []) }
        | _, _ => .stop ⟨.format, 0, 0⟩

/-- The address checks of MDRN, MLDA and MSTA (R241, R243): ALIGN, WINDOW, then XLATE, over the ranges (address, length,
whether it is read, whether it is written) in order; the physical pieces of each range. -/
def drainRanges (s : State) (l : List (Nat × Nat × Bool × Bool)) : Except Trouble (List (List (Nat × Nat))) :=
  let c := s.focus
  let ok (d off : Nat) : Bool := clusterOf d = clusterOf c && winRange off = .spad
  match l.find? (fun x => x.1 % 64 ≠ 0) with
  | some x => .error (alignTrouble x.1)
  | none => match l.findSome? (fun x => windowPieces s (s.partOf c) ok (pieces x.1 x.2.1)) with
    | some w => .error w
    | none => l.foldr (fun x r =>
        let ps := pieces x.1 x.2.1
        let rd := if x.2.2.1 then resolvePieces s c .load ok ps else .ok []
        let wr := if x.2.2.2 then resolvePieces s c .store ok ps else .ok []
        match rd, wr, r with
        | .error w, _, _ => .error w
        | _, .error w, _ => .error w
        | _, _, .error w => .error w
        | .ok p, .ok q, .ok t => .ok ((if x.2.2.2 then q else p) :: t)) (.ok [])

/-- Bytes of a drain's destination: a dense tile or a tile object (R241). -/
def drainSize (dt : Nat) : Nat := if tBq dt then objSize dt else 512 * tWidth dt

/-- The checks of MDRN (R241). -/
def mdrnPlan (s : State) (i : Instr) (acc : BitVec 2) (ed dt : BitVec 4) (md : BitVec 2) (er : BitVec 4) (r : MRun) : MPlan :=
  let d : List (Nat × Nat × Bool × Bool) :=
    if md = 2 then [] else [(addr48 (ereg r.e ed).toNat, drainSize dt.toNat, md = 1, true)]
  let q : List (Nat × Nat × Bool × Bool) := if er = 0 then [] else [(addr48 (ereg r.e er).toNat, 512, true, false)]
  match drainRanges s (d ++ q) with
  | .error w => .stop w
  | .ok l =>
    let dst := if md = 2 then [] else l.headD []
    let src := if er = 0 then [] else l.getLastD []
    let hdr := [((dst.headD (0, 0)).1, 64)]
    if md = 1 ∧ tBq dt.toNat then
      if r.pending hdr then .wait
      else match s.piecesEcc s.focus hdr with
      | some n => .stop (eccTrouble n)
      | none => if headerType (viewRead s (clusterOf s.focus) (dst.headD (0, 0)).1 64) 0 ≠ some dt.toNat then .stop ⟨.format, 0, 0⟩
      else .step { op := i, tile := tileOf r.entry.map acc, src := src, dst := dst }
    else .step { op := i, tile := tileOf r.entry.map acc, src := src, dst := dst }

/-- The checks of MLDA (load) and MSTA (R243). -/
def movePlan (s : State) (i : Instr) (acc : BitVec 2) (ea : BitVec 4) (load : Bool) (r : MRun) : MPlan :=
  match drainRanges s [(addr48 (ereg r.e ea).toNat, 32768, load, !load)] with
  | .error w => .stop w
  | .ok l => .step { op := i, tile := tileOf r.entry.map acc, src := if load then l.headD [] else [],
                     dst := if load then [] else l.headD [] }

/-- MZRO (R237). -/
def execMzro (e : Bool) (acc : BitVec 2) (s : State) : Out :=
  .next (s.mIssue e 0 false (fun r => r.tileFree (tileOf r.entry.map acc) false)
    (fun r => .step { op := .mzro e acc, tile := tileOf r.entry.map acc }))

/-- MMA (R238 to R240); multicast changes no result. -/
def execMma (e : Bool) (acc : BitVec 2) (ea eb : BitVec 4) (cna cnb byp ls : Bool) (mc : BitVec 3) (s : State) : Out :=
  .next (s.mIssue e 512 false (fun r => r.arrayFree && r.tileFree (tileOf r.entry.map acc) true)
    (mmaPlan s (.mma e acc ea eb cna cnb byp ls mc) acc ea eb cna cnb byp))

/-- MDRN (R241, R242). -/
def execMdrn (e : Bool) (acc : BitVec 2) (ed dt ts : BitVec 4) (md : BitVec 2) (er : BitVec 4) (s : State) : Out :=
  .next (s.mIssue e 256 true (fun r => r.drainFree && r.tileFree (tileOf r.entry.map acc) false)
    (mdrnPlan s (.mdrn e acc ed dt ts md er) acc ed dt md er))

/-- MLDA and MSTA (R243). -/
def execMlda (e : Bool) (acc : BitVec 2) (ea : BitVec 4) (s : State) : Out :=
  .next (s.mIssue e 256 false (fun r => r.drainFree && r.tileFree (tileOf r.entry.map acc) false)
    (movePlan s (.mlda e acc ea) acc ea true))
def execMsta (e : Bool) (acc : BitVec 2) (ea : BitVec 4) (s : State) : Out :=
  .next (s.mIssue e 256 false (fun r => r.drainFree && r.tileFree (tileOf r.entry.map acc) false)
    (movePlan s (.msta e acc ea) acc ea false))

-- Folding

/-- A cell after the sum z of some products has been folded into it, each channel mod its own modulus (R224, R225). -/
def foldCell (x : BitVec 48) (z : Int) : BitVec 48 :=
  let ra := ((bitsOf x.toNat 12 0 : Int) + z) % 8191
  let g := ((bitsOf x.toNat 33 13 : Int) + z) % 2 ^ 21
  let rc := ((bitsOf x.toNat 47 34 : Int) + z) % 8193
  BitVec.ofNat 48 (ra.toNat + g.toNat * 2 ^ 13 + rc.toNat * 2 ^ 34)

/-- The inner product of a row of A and a column of B. -/
def innerProduct (a b : List Int) : Int := (List.zipWith (· * ·) a b).foldl (· + ·) 0

/-- The 64 rows of a tile object's elements, and the same by column. -/
def objRows (ty : Nat) (obj : List Byte) : List (List Int) :=
  rowsOf 64 64 ((elemPatterns ty ((obj.drop 64).take (objScales ty - 64))).map (laneInt ty))
def columnsOf (rows : List (List Int)) : List (List Int) := (List.range 64).map (fun j => rows.map (fun r => r.getD j 0))

/-- The 64 scales of a tile object. -/
def objScaleList (ty : Nat) (obj : List Byte) : List (BitVec 32) :=
  (words32 ((obj.drop (objScales ty)).take 256)).map (BitVec.ofNat 32)

/-- The scale of a tile after MZRO: +1.0 (R233, R237). -/
def unitScale : BitVec 32 := 0x3F80_0000

/-- The cells of a tile in order. -/
def Tile.list (t : Tile) : List (BitVec 48) := Sparse.getRange 0 t.cells 0 4096

/-- The effect of an MMA on its tile (R239). -/
def Tile.multiply (t : Tile) (ty : Nat) (a b : List Byte) (ls : Bool) : Tile :=
  let cols := columnsOf (objRows ty b)
  let sums := (objRows ty a).flatMap (fun r => cols.map (innerProduct r))
  let t' := { t with cells := Sparse.run 0 0 (List.zipWith foldCell t.list sums) }
  if ls then { t' with rows := Sparse.run unitScale 0 (objScaleList ty a), cols := Sparse.run unitScale 0 (objScaleList ty b) }
  else t'

-- Drains

/-- The integer a cell stands for, and the sign number ks of R227: 0 when there is no overflow (R226, R227). -/
def rebuild (x : BitVec 48) : Int × Int :=
  let ra : Int := bitsOf x.toNat 12 0
  let g : Int := bitsOf x.toNat 33 13
  let rc : Int := bitsOf x.toNat 47 34
  let x2 := g % 8192
  let u := (ra - x2) % 8191
  let v := ((x2 - rc - u) * 4096) % 8193
  let m : Int := 2 ^ 39 - 2 ^ 13
  let x0 := x2 + 8192 * (u + 8191 * v)
  let z := if x0 < m / 2 then x0 else x0 - m
  let dg := (g - z) % 2 ^ 21
  let k8 := (-(dg / 2 ^ 13)) % 256
  (z, if dg = 0 then 0 else if 128 ≤ k8 then k8 - 256 else k8)

/-- The scale s of an element (R229). -/
def drainScale (a b : BitVec 32) : Nat := (fMul fmtF32 .rne false a.toNat b.toNat).1

/-- A float destination (R230): X · s, or X · s + D, with one rounding; NaNs as R137. -/
def drainFloat (f : Fmt) (x : Int) (s : Nat) (d : Option Nat) : Nat :=
  let dn : Option Nat := match d with | some v => if fIsNan f v then some (fQuiet f v) else none | none => none
  if fIsNan fmtF32 s then (fNanTo fmtF32 f s).1
  else match dn with
    | some v => v
    | none =>
      let neg : Bool := (decide (x < 0)) != fSign fmtF32 s
      if fIsInf fmtF32 s then
        if x = 0 then f.qnan
        else match d with
          | some v => if fIsInf f v && fSign f v != neg then f.qnan else fInf f neg
          | none => fInf f neg
      else
        let p := dyMul ⟨x, 0⟩ (fDy fmtF32 s)
        match d with
        | none => (fOfDy f .rne false p neg).1
        | some v => if fIsInf f v then v else (fOfDy f .rne false (dyAdd p (fDy f v)) (zeroSign .rne [neg, fSign f v])).1

/-- What t of R231 comes to. -/
inductive DrainReal where
  | nan | inf (neg : Bool) | fin (d : Dy)

/-- t = X · s · r + D (R231). -/
def drainReal (x : Int) (s r : Nat) (d : Int) : DrainReal :=
  let f := fmtF32
  if fIsNan f s || fIsNan f r then .nan
  else if fIsInf f s || fIsInf f r then
    if x = 0 ∨ fIsZero f s ∨ fIsZero f r then .nan
    else .inf (((decide (x < 0)) != fSign f s) != fSign f r)
  else .fin (dyAdd (dyMul (dyMul ⟨x, 0⟩ (fDy f s)) (fDy f r)) ⟨d, 0⟩)

/-- What a drain writes to one element, and what it reports of it (R232). -/
structure Drained where
  bits : Nat
  sat  : Bool := false
  ovf  : Bool := false
  inf  : Bool := false
  nan  : Bool := false
  deriving DecidableEq, Repr

/-- One element of a drain (R230 to R232): the cell, the scale s, the multiplier r and the pattern D under type dt. -/
def drainElement (dt : Nat) (cell : BitVec 48) (s r : Nat) (d : Option Nat) : Drained :=
  let (x, ks) := rebuild cell
  let w := tWidth dt
  if ks ≠ 0 then
    { bits := if tFloat dt then fMax (tFmt dt) (decide (ks < 0)) else lanePattern w (if ks < 0 then tMin dt else tMax dt)
      sat := true, ovf := true }
  else if tFloat dt then
    let v := drainFloat (tFmt dt) x s d
    { bits := v, nan := fIsNan (tFmt dt) v, inf := fIsInf (tFmt dt) v }
  else
    match drainReal x s r ((d.map (laneInt dt)).getD 0) with
    | .nan => { bits := 0, nan := true }
    | .inf neg => { bits := lanePattern w (if neg then tMin dt else tMax dt), sat := true, inf := true }
    | .fin t =>
      let z := (roundInt .rne t).1
      { bits := lanePattern w (clampTo dt z), sat := decide (z < tMin dt) || decide (tMax dt < z) }

/-- All elements of a drain, row by row (R242): rr holds the 64 multipliers, ds the destination's elements in add mode. -/
def drainAll (t : Tile) (dt : Nat) (rr : List Nat) (ds : Option (List Nat)) : List Drained :=
  let cs := Sparse.getRange unitScale t.cols 0 64
  let rs := Sparse.getRange unitScale t.rows 0 64
  let dr : List (List (Option Nat)) := match ds with
    | some l => rowsOf 64 64 (l.map some)
    | none => List.replicate 64 (List.replicate 64 none)
  ((List.zip (rowsOf 64 64 t.list) (List.zip rs (List.zip rr dr))).flatMap (fun (row, sa, r, dd) =>
    (List.zip row (List.zip cs dd)).map (fun (x, sb, d) => drainElement dt x (drainScale sa sb) r d)))

/-- The tile-status register after a drain, before any LOST (R246). -/
def drainStatus (l : List Drained) : BitVec 16 :=
  let n := min 255 (l.filter (·.sat)).length
  BitVec.ofNat 16 (n * 256 + 4 * b2n (l.any (·.ovf)) + 2 * b2n (l.any (·.inf)) + b2n (l.any (·.nan)))

/-- The overflow events of blocks a to b − 1 of a drain, in row-major order (R248): a cell overflows where its sign number is not 0
(R227). lo holds V's neighbours SEQ to TS already placed. -/
def overflowEvents (t : Tile) (a b lo : Nat) : List Word :=
  let hits : List (Nat × Int) := (List.zip (List.range 4096) t.list).filterMap (fun (n, x) =>
    if (rebuild x).2 ≠ 0 then some (n, (rebuild x).2) else none)
  ((List.range b).drop a).filterMap (fun b =>
    let mine := hits.filter (fun h => h.1 / 512 = b / 8 && h.1 % 64 / 8 = b % 8)
    if mine = [] then none
    else some (BitVec.ofNat 64 (2 ^ 63 + lo + b2n (mine.any (fun h => 0 < h.2)) * 2 ^ 15
      + b2n (mine.any (fun h => h.2 < 0)) * 2 ^ 14 + b / 8 * 2 ^ 11 + b % 8 * 2 ^ 8 + mine.length)))

/-- Push events while the queue holds fewer than 32; the queue and whether one was lost (R248). -/
def pushEvents (q : List (Word × Nat)) (l : Nat) (ev : List Word) : List (Word × Nat) × Bool :=
  (q ++ (ev.take (32 - q.length)).map (fun w => (w, l)), 32 - q.length < ev.length)

/-- The bytes a drain writes (R242): the elements, or a whole tile object with scales o. -/
def drainBytes (dt : Nat) (l : List Drained) (o : List Nat) : List Byte :=
  let data := elemBytes dt (l.map (·.bits))
  if tBq dt then headerBytes dt 0 ++ data ++ o.flatMap (fun v => leBytes 4 v) else data

-- Finish

/-- Add to the byte total of the M entry of core c (R112). -/
def State.addMBytes (s : State) (c n : Nat) : State :=
  s.onCore c (fun k => { k with mrun := k.mrun.map (fun r => { r with bytes := r.bytes + n }) })

/-- What a drain reads and what it makes of its tile: its elements, the bytes of its destination, and the state its reads leave (R242). -/
def State.drained (s : State) (c : Nat) (since : Option Nat) (m : MStep) (dt : Nat) (md : BitVec 2) (er : BitVec 4) (stale : Bool) :
    List Drained × List Byte × State :=
  let t := (s.core c).tile m.tile.toNat
  let (rec, s) := if er = 0 then ([], s) else readPieces s c stale since m.src
  let rr := if er = 0 then List.replicate 64 unitScale.toNat else words32 (rec.take 256)
  let oo := if er = 0 then List.replicate 64 unitScale.toNat else words32 (rec.drop 256)
  let (old, s) := if md = 1 then readPieces s c stale since m.dst else ([], s)
  let oldData := if tBq dt then (old.drop 64).take (objScales dt - 64) else old
  let l := drainAll t dt rr (if md = 1 then some (elemPatterns dt oldData) else none)
  (l, drainBytes dt l oo, s)

/-- The conversions of a drain of the running entry r up to block n end: an overflow event is pushed as the conversion of its block
ends, and whether any has been lost is kept (R248). -/
def State.drainBlocks (s : State) (c : Nat) (r : MRun) (m : MStep) (n : Nat) : MStep × State :=
  match m.op with
  | .mdrn _ acc _ _ ts _ _ =>
    let lo := m.seq.toNat * 2 ^ 32 + m.tile.toNat * 2 ^ 24 + r.entry.strand.toNat * 2 ^ 22 + acc.toNat * 2 ^ 20 + ts.toNat * 2 ^ 16
    let k := s.core c
    let (q, lost) := pushEvents k.ovq (s.armOf c r.entry.launch) (overflowEvents (k.tile m.tile.toNat) m.blocks n lo)
    ({ m with blocks := n, lost := m.lost || lost }, s.setCore c { k with ovq := q })
  | _ => (m, s)

/-- The effect of a drain (R242, R246, R248). -/
def State.drainStep (s : State) (c : Nat) (r : MRun) (m : MStep) (dt ts : Nat) (md : BitVec 2) (er : BitVec 4) (stale : Bool) : State :=
  let (l, bs, s) := s.drained c r.entry.since m dt md er stale
  let s := if md = 2 then s.onCore c (fun k => { k with mrun := k.mrun.map (fun r => { r with byp := some bs }) })
    else (writePieces s c 0 stale m.dst bs).addMBytes c bs.length
  let (m, s) := s.drainBlocks c r m 64
  s.onStrand c r.entry.strand (fun x => { x with ts := vset x.ts ts (drainStatus l + BitVec.ofNat 16 (8 * b2n m.lost)) })

/-- The effect of step m of the running entry r at its finish (R235, R237, R239, R242, R243). -/
def State.mEffect (s : State) (c : Nat) (r : MRun) (m : MStep) (stale : Bool) : State :=
  let n := m.tile.toNat
  let since := r.entry.since
  match m.op with
  | .mzro .. => s.onCore c (fun k => k.setTile n {})
  | .mma _ _ _ _ _ _ byp ls _ =>
    let (a, s) := if byp then (r.byp.getD [], s) else readPieces s c stale since m.src
    let (b, s) := readPieces s c stale since m.src2
    (s.onCore c (fun k => k.setTile n ((k.tile n).multiply m.tag a b ls))).countAll c r.entry.launch m.held
  | .mdrn _ _ _ dt ts md er => s.drainStep c r m dt.toNat ts.toNat md er stale
  | .mlda .. =>
    let (bs, s) := readPieces s c stale since m.src
    s.onCore c (fun k => k.setTile n { k.tile n with
      cells := Sparse.run 0 0 ((words64 bs).map (fun w => accCanon (BitVec.ofNat 64 w))) })
  | .msta .. =>
    (writePieces s c 0 stale m.dst (((s.core c).tile n).list.flatMap (fun x => leBytes 8 x.toNat))).addMBytes c 32768
  | _ => s

/-- Step m, the k-th unfinished one of the running entry r, takes effect and leaves. -/
def State.finishStep (s : State) (c k : Nat) (r : MRun) (m : MStep) (stale : Bool) : State :=
  (s.mEffect c r m stale).onCore c (fun q => { q with mrun := q.mrun.map (fun r => r.finished m k) })

-- Errors

/-- The ECC subcause that a step meets: its core's own arrays, then what it reads, then what it writes (R245, R314, R357, R358). -/
def State.stepEcc (s : State) (c : Nat) (m : MStep) : Option Nat :=
  if (s.core c).fenced then some 1 else s.piecesEcc c (m.src ++ m.src2 ++ m.dst)

/-- Pieces cut into lines of 64 bytes. -/
def lineCut (l : List (Nat × Nat)) : List (Nat × Nat) :=
  l.flatMap (fun e => (List.range ((e.2 + 63) / 64)).map (fun i => (e.1 + 64 * i, min 64 (e.2 - 64 * i))))

/-- Write some lines of a destination: any that lie in no fenced unit, by the n-th free choice and those after it. -/
def writeSome : Nat → State → Nat → List (Nat × Nat) → List Byte → State
  | _, s, _, [], _ => s
  | n, s, c, (pa, k) :: rest, bs =>
    let ok := Config.freeBit n && (s.eccRange (dieOf c) pa k).isNone
    writeSome (n + 1) (if ok then storePhys s c pa (bs.take k) 0 false none else s) c rest (bs.drop k)

/-- A step that fails with ECC (R245): an MMA changes no cell, and a drain or MSTA whose destination fails may have written part of
it (log entry 86). -/
def State.partStep (s : State) (c : Nat) (since : Option Nat) (m : MStep) (stale : Bool) : State :=
  let lines := lineCut m.dst
  let some_ (s : State) (bs : List Byte) : State :=
    writeSome s.freeIx { s with freeIx := s.freeIx + lines.length } c lines bs
  if (s.core c).fenced || (s.piecesEcc c (m.src ++ m.src2)).isSome then s
  else match m.op with
    | .mdrn _ _ _ dt _ md er =>
      if md = 1 then s else let (_, bs, s) := s.drained c since m dt.toNat md er stale; some_ s bs
    | .msta .. => some_ s (((s.core c).tile m.tile.toNat).list.flatMap (fun x => leBytes 8 x.toNat))
    | _ => s

/-- The k-th unfinished step of the running entry r fails with ECC and leaves: its counts are released (R245, R267). -/
def State.failStep (s : State) (c k : Nat) (r : MRun) (m : MStep) (stale : Bool) : State :=
  ((s.partStep c r.entry.since m stale).releaseAll c r.entry.launch m.held).onCore c (fun q => { q with
    mrun := q.mrun.map (fun r => { r with steps := r.steps.eraseIdx k }) })

/-- M_STEP_FINISH (R235, R244): the k-th unfinished step of core c's M entry finishes, no earlier than before the slot its
figure of R235 gives; MMAs finish in order; one that meets a fenced unit stops the entry (R245). With a number of blocks, the
conversions of a drain up to there have ended (R248). stale: its reads of memory are served from the cluster
cache, and its writes perform there (R101). -/
def execMStepFinish (c k : Nat) (f : Finish) (s : State) : Out :=
  match (s.core c).mrun with
  | none => .next s
  | some r => match r.steps[k]? with
    | none => .next s
    | some m => match f.blocks with
      | some n =>
        if n ≤ m.blocks ∨ 64 < n then .next s
        else
          let (m', s') := s.drainBlocks c r m n
          .next (s'.onCore c (fun q => { q with mrun := q.mrun.map (fun r => { r with steps := r.steps.set k m' }) }))
      | none =>
        if r.slot + 1 < m.fin || isMma m.op && (r.steps.take k).any (fun o => isMma o.op) then .next s
        else match s.stepEcc c m with
          | some n => .next ((s.failStep c k r m f.stale).entryStop c .m (eccTrouble n))
          | none => .next (s.finishStep c k r m f.stale)

end Sys2Proof.Machine
end

