-- ==== Sys2Proof/Machine/Launch.lean ====
section
/-! DEFINITION. Event words (R289), task words (R284 to R287) and launch words (R276 to R279). -/
namespace Sys2Proof.Machine

/-- The event a register names, for a word of the core in focus (R289). -/
def State.namedEvent (s : State) (a : Word) : Except Trouble Event := s.reachEvent s.focus (a.toNat % 2 ^ 16)

/-- EVW (R289): EVENT on an unreserved name; it blocks until SET or POISON is 1, and acquires at device scope when SET. -/
def execEvw (ctl : BitVec 2) (ra : BitVec 5) (s : State) : Out :=
  let a := s.cur.sreg ra
  match s.namedEvent a with
  | .error w => .next (s.faultWord (.evw ctl ra) ctl s.nextPc w a 0 (s.cur.linkOf ra 0))
  | .ok e =>
    if e.set then .next ((s.acquire s.focus 4).issue ctl 0 s.nextPc id)
    else if e.poison then .next (s.issue ctl 0 s.nextPc id)
    else .next s

/-- EVP (R289): it enters the store queue. -/
def execEvp (ctl : BitVec 2) (ra : BitVec 5) (s : State) : Out :=
  .next (s.enqueue false (.evp ctl ra) ctl (s.cur.sreg ra) 0 0 (s.cur.linkOf ra 0))

/-- EVA (R289). -/
def execEva (ctl : BitVec 2) (ra rb : BitVec 5) (s : State) : Out :=
  .next (s.enqueue false (.eva ctl ra rb) ctl (s.cur.sreg ra) (s.cur.sreg rb) 0 (s.cur.linkOf ra rb))

/-- EVT (R289): SET + 2 · POISON, read in the issue slot. -/
def execEvt (ctl : BitVec 2) (rd ra : BitVec 5) (s : State) : Out :=
  let a := s.cur.sreg ra
  match s.namedEvent a with
  | .error w => .next (s.faultWord (.evt ctl rd ra) ctl s.nextPc w a 0 (s.cur.linkOf ra 0))
  | .ok e => .next (s.resultWord (.evt ctl rd ra) ctl (BitVec.ofNat 64 (b2n e.set + 2 * b2n e.poison)))

/-- QPOST (R284). -/
def execQpost (ctl : BitVec 2) (ra : BitVec 5) (s : State) : Out :=
  .next (s.enqueue false (.qpost ctl ra) ctl (s.cur.sreg ra) 0 0 (s.cur.linkOf ra 0))

/-- QDONE (R284). -/
def execQdone (ctl : BitVec 2) (ra : BitVec 5) (s : State) : Out :=
  .next (s.enqueue false (.qdone ctl ra) ctl (s.cur.sreg ra) 0 0 (s.cur.linkOf ra 0))

-- Eddy order

/-- The ring position of a cluster within its die, and the cluster at a position (R285); the snake is its own inverse. -/
def ringPos (k : Nat) : Nat := if k / 12 % 2 = 0 then k else 12 * (k / 12) + 11 - k % 12

/-- One die's clusters in the order of a thief at a ring position (R286 step 1). -/
def eddyDie (d pos : Nat) : List Nat :=
  (List.range 48).flatMap (fun i =>
    let up := (pos + i + 1) % 96
    let down := (pos + 96 - (i + 1)) % 96
    (if up = down then [up] else [up, down]).map (fun q => d * 96 + ringPos q))

/-- The clusters a thief of cluster k searches, in eddy order (R286 steps 1 and 2). -/
def eddyOrder (k : Nat) : List Nat :=
  let d := k / 96
  let pos := ringPos (k % 96)
  eddyDie d pos ++ [1, 2, 3].flatMap (fun j =>
    let e := (d + j) % 4
    (e * 96 + ringPos pos) :: eddyDie e pos)

/-- May a thief of cluster k take this task from cluster b's bank (R287), its wait event being none or SET (R284)? -/
def taskTakeable (s : State) (p k b : Nat) (e : BankEntry) : Bool :=
  match e with
  | .task _ _ _ r =>
    let scope := taskField r 37 1
    let w := taskField r 32 2
    (scope = 0 || (scope = 1 && b / 96 = k / 96) || b = k) &&
    (w = 0xFFFF || (match s.event p w with | some v => v.set | none => false))
  | .team .. => false

/-- Take a task out of a cluster's bank or ring; ring entries then return (R282). -/
def Cluster.removeEntry (k : Cluster) (e : BankEntry) : Cluster :=
  Cluster.refill { k with bank := k.bank.erase e, ring := k.ring.erase e }

/-- The task a core of cluster k takes, and the cluster it lies in (R284, R286): its own bank and ring, then the banks in
eddy order, then the rings. DEDUCED (log entry 94): a search that comes to a bank beyond a failed link stops with ECC (R357). -/
def State.findTask (s : State) (p k : Nat) : Except Trouble (Option (Nat × BankEntry)) :=
  let pick (b : Nat) (l : List BankEntry) : Option (Nat × BankEntry) :=
    ((tasksInOrder l).find? (taskTakeable s p k b)).map (fun e => (b, e))
  let others := (eddyOrder k).filter (fun b => (s.cluster b).part = p)
  let near := others.takeWhile (fun b => !s.linkDown (k / 96) (b / 96))
  let own := s.cluster k
  match pick k (own.bank ++ own.ring) with
  | some r => .ok (some r)
  | none => match near.findSome? (fun b => pick b (s.cluster b).bank) with
    | some r => .ok (some r)
    | none => if near.length < others.length then .error (eccTrouble 4) else .ok (others.findSome? (fun b => pick b (s.cluster b).ring))

/-- The address a task was posted with. -/
def BankEntry.addr : BankEntry → Word
  | .task _ _ a _ => a
  | .team .. => 0

/-- QTAKE (R284): it blocks until a task can be taken, and acquires its post at device scope. -/
def execQtake (ctl : BitVec 2) (rd : BitVec 5) (s : State) : Out :=
  let c := s.focus
  match s.findTask (s.partOf c) (clusterOf c) with
  | .error w => .next (s.faultWord (.qtake ctl rd) ctl s.nextPc w 0 0)
  | .ok none => .next s
  | .ok (some (b, e)) =>
    .next (((s.onCluster b (fun k => k.removeEntry e)).acquire c 4).resultWord (.qtake ctl rd) ctl e.addr)

/-- LPAT (R276, R277): its checks are made when it performs. -/
def execLpat (ctl : BitVec 2) (ra rb : BitVec 5) (field : BitVec 6) (s : State) : Out :=
  .next (s.enqueue false (.lpat ctl ra rb field) ctl (s.cur.sreg ra) (s.cur.sreg rb) 0 (s.cur.linkOf ra rb))

/-- LARM (R276, R278). -/
def execLarm (ctl : BitVec 2) (ra : BitVec 5) (s : State) : Out :=
  .next (s.enqueue false (.larm ctl ra) ctl (s.cur.sreg ra) 0 0 (s.cur.linkOf ra 0))

/-- Can LWAIT complete on this record (R279)? -/
def State.recSettled (s : State) (p i : Nat) : Bool := s.recState p i = 0 || s.recState p i = 3

/-- LWAIT's effect on the record (R279): DONE becomes IDLE. -/
def State.recWaited (s : State) (p i : Nat) : State := if s.recState p i = 3 then s.setRecField p i 1 1 0 else s

/-- LWAIT (R276, R279): PRIV on an unusable index; it blocks until the record is IDLE or DONE, and acquires the completion
at device scope. -/
def execLwait (ctl : BitVec 2) (rd ra : BitVec 5) (s : State) : Out :=
  let a := s.cur.sreg ra
  let p := s.partOf s.focus
  let i := a.toNat
  if !(s.recUsable p i) then
    .next (s.faultWord (.lwait ctl rd ra) ctl s.nextPc ⟨.priv, 0, 0⟩ a 0 (s.cur.linkOf ra 0))
  else if !(s.recSettled p i) then .next s
  else
    let v : Word := BitVec.ofNat 64 (s.recField p i 12 4)
    .next (((s.recWaited p i).acquire s.focus 4).resultWord (.lwait ctl rd ra) ctl v)

end Sys2Proof.Machine
end

