-- ==== Sys2Proof/Machine/Teams.lean ====
section
/-! DEFINITION. Teams: their emission and placing (R280), dispensing and stealing (R281, R286, R287), the kernel start (R122,
R67, R108, R252), completion (R273 to R275, R267) and swapping (R25, R268, R282, R292, R325). -/
namespace Sys2Proof.Machine

-- Emission

/-- A launch of a partition between its arming and its completion. -/
def State.launch? (s : State) (p : Nat) (r : BitVec 10) : Option Launch := Sparse.get none (s.part p).launches r.toNat

/-- May the scheduler use this cluster (R314): it is the partition's, it is not fenced, and one of its cores is not? -/
def State.clusterUp (s : State) (p k : Nat) : Bool :=
  (s.cluster k).part = p && !(s.cluster k).fenced && !(List.range 8).all (fun i => (s.core (8 * k + i)).fenced)

/-- The levels of a shape bound to one of some domains, with their domains. -/
def boundLevels (sh : List (Nat × Nat)) (ds : List Nat) : List (Nat × Nat) :=
  ((List.range sh.length).zip (sh.map (·.2))).filter (fun e => ds.contains e.2)

/-- The instance of a domain (1 die, 2 cluster, 3 core) that a core lies in (R23). -/
def domainOf (d c : Nat) : Nat := match d with | 1 => dieOf c | 2 => clusterOf c | _ => c

/-- The instances of a domain that an index of level j may take in a partition, given the cluster it would go to: those within
one instance of the next outer bound domain (R280). -/
def State.candidates (s : State) (p : Nat) (sh : List (Nat × Nat)) (j d k : Nat) : List Nat :=
  let up := (List.range Config.clusterCount).filter (s.clusterUp p)
  let outer := ((boundLevels sh [1, 2]).filter (fun e => e.1 < j)).map (·.2)
  if d = 1 then (if outer.contains 1 then [k / 96] else (List.range 4).filter (fun x => up.any (fun q => q / 96 = x)))
  else if outer.contains 2 then [k]
  else if outer.contains 1 then up.filter (fun q => q / 96 = k / 96)
  else up

/-- The instance already fixed for an index. -/
def Launch.fixed (l : Launch) (key : List Nat) : Option Nat := (l.placed.find? (fun e => e.1 = key)).map (·.2)

/-- Is an instance of a domain out of use for a partition: a die with no cluster, a cluster with no core, or a core that is fenced
(R314)? -/
def State.instanceDown (s : State) (p d i : Nat) : Bool :=
  match d with
  | 1 => (List.range 96).all (fun q => !s.clusterUp p (96 * i + q))
  | 2 => !s.clusterUp p i
  | 3 => (s.core i).fenced || !s.clusterUp p (clusterOf i)
  | _ => false

/-- The instances that a launch has fixed and that are still in use: the scheduler places no team on a fenced one (R314), and each team
is to start (R293), so that an index whose instance is fenced takes another (log entry 26). -/
def Launch.standing (l : Launch) (s : State) (p : Nat) (sh : List (Nat × Nat)) : Launch :=
  { l with placed := l.placed.filter (fun e => !(s.instanceDown p (sh.getD (e.1.length - 1) (0, 0)).2 e.2)) }

/-- Does cluster k satisfy the binding of each core-bound level for a team of launch r (R280)? It holds the core that the team's index has,
or else the bank where an earlier team of that index waits. -/
def State.coreHome (s : State) (p : Nat) (r : BitVec 10) (l : Launch) (sh : List (Nat × Nat)) (team k : Nat) : Bool :=
  let idx := unitIndex sh team 0
  (boundLevels sh [3]).all (fun (j, _) => match l.fixed (idx.take (j + 1)) with
    | some c => clusterOf c = k
    | none => s.clusters.all (fun e => e.1 = k || !s.clusterUp p e.1 || e.2.bank.all (fun b => match b with
        | .team q _ _ i _ => q ≠ r || (unitIndex sh i 0).take (j + 1) ≠ idx.take (j + 1)
        | .task .. => true)))

/-- Does cluster k satisfy every binding for a team of launch r (R280)? An index of a level bound to die or cluster goes to the instance
it has, or to one that holds the fewest indices of that level. -/
def State.placeOk (s : State) (p : Nat) (r : BitVec 10) (l : Launch) (sh : List (Nat × Nat)) (team k : Nat) : Bool :=
  let idx := unitIndex sh team 0
  s.coreHome p r l sh team k && (boundLevels sh [1, 2]).all (fun (j, d) =>
    let inst := domainOf d (8 * k)
    match l.fixed (idx.take (j + 1)) with
    | some i => i = inst
    | none =>
      let count (i : Nat) : Nat := (l.placed.filter (fun e => e.1.length = j + 1 && e.2 = i)).length
      (s.candidates p sh j d k).all (fun i => count inst ≤ count i))

/-- Fix the instances of the indices of a team that a core takes part in. -/
def Launch.fix (l : Launch) (sh : List (Nat × Nat)) (ds : List Nat) (team c : Nat) : Launch :=
  let idx := unitIndex sh team 0
  (boundLevels sh ds).foldl (fun l (j, d) =>
    match l.fixed (idx.take (j + 1)) with
    | some _ => l
    | none => { l with placed := l.placed ++ [(idx.take (j + 1), domainOf d c)] }) l

def State.setLaunch (s : State) (p : Nat) (r : BitVec 10) (l : Option Launch) : State :=
  s.onPart p (fun x => { x with launches := Sparse.set none x.launches r.toNat l })

/-- TEAM_ENTRY_GENERATE (R280): an armed launch emits its next team into a bank with room, behind the swapped teams that wait
for it. -/
def execTeamEntryGenerate (p : Nat) (r : BitVec 10) (cl : Nat) (s : State) : Out :=
  match s.launch? p r with
  | none => .next s
  | some l =>
    let sh := s.recShape p r.toNat
    let l := l.standing s p sh
    if l.kill.isNone ∧ l.next < teamCount sh ∧ s.clusterUp p cl ∧ (s.cluster cl).bank.length < Config.bankDepth
        ∧ (s.part p).swapped.all (fun x => clusterOf x.core ≠ cl) ∧ s.placeOk p r l sh l.next cl then
      let e := BankEntry.team r (BitVec.ofNat 3 (s.recField p r.toNat 3 1)) l.armseq l.next none
      .next ((s.onCluster cl (fun k => { k with bank := insertTeam k.bank e })).setLaunch p r
        (some { l.fix sh [1, 2] l.next (8 * cl) with next := l.next + 1 }))
    else .next s

-- Dispensing

/-- Has every strand of the resident team finished, with its scalar accesses performed (R106, R124)? -/
def Core.teamDone (k : Core) : Bool :=
  match k.team with
  | none => true
  | some m => m.started && (List.range m.strands).all (fun t =>
      let x := k.strand (BitVec.ofNat 2 t)
      x.life = .ended && x.loads.isEmpty && x.stores.isEmpty && x.fences.isEmpty)

/-- Is every slot of a pool FREE? -/
def Pool.idle (po : Pool) : Bool :=
  po.parts.toList.all (fun q => (List.range q.count).all (fun n => (q.slot n).st = .free))

/-- May a team of launch l start on a core, for the pool that is resident there (R268)? -/
def Core.poolFree (k : Core) (l : BitVec 10) : Bool :=
  match k.pool with
  | none => true
  | some po => po.launch = l || !po.live || po.idle

/-- How many cores an index of the core-bound level j may take, for a team in cluster b's bank whose outer core-bound index is core c's,
and which they are (R280): no fenced one is among them (R314), and inside an outer core-bound level there is c alone. -/
def State.coreCandidates (s : State) (p : Nat) (sh : List (Nat × Nat)) (j b c : Nat) : Nat × (Nat → Bool) :=
  let outer := ((boundLevels sh [1, 2, 3]).filter (fun e => e.1 < j)).map (·.2)
  if outer.contains 3 then (1, fun d => d = c)
  else
  let up := if outer.contains 2 then [b]
    else (List.range Config.clusterCount).filter (fun k => s.clusterUp p k && (!outer.contains 1 || k / 96 = b / 96))
  let fenced := s.coreList.filter (fun c => (s.core c).fenced)
  (8 * up.length - (fenced.filter (fun c => up.contains (clusterOf c))).length,
    fun c => up.contains (clusterOf c) && !fenced.contains c)

/-- May an index of the core-bound level j that has no core yet go to core c (R280)? Only to a core that holds no more indices of
the level than the others do on average, so that indices take distinct cores while there are any, and spread evenly after. -/
def State.coreOk (s : State) (p : Nat) (l : Launch) (sh : List (Nat × Nat)) (j b c : Nat) : Bool :=
  let (n, ok) := s.coreCandidates p sh j b c
  let placed := l.placed.filter (fun e => e.1.length = j + 1)
  ok c && (placed.filter (fun e => e.2 = c)).length ≤ (placed.filter (fun e => ok e.2)).length / n

/-- Do the bindings of launch r let core c take team i from cluster b's bank (R280, R287)? From the bank of a cluster that is out of use
any cluster that satisfies the bindings takes it. -/
def State.bindingsOk (s : State) (p : Nat) (r : BitVec 10) (i c b : Nat) : Bool :=
  let sh := s.recShape p r.toNat
  let bound (d : Nat) : Bool := sh.any (fun e => e.2 = d)
  let idx := unitIndex sh i 0
  match (s.launch? p r).map (·.standing s p sh) with
  | none => b = clusterOf c
  | some l =>
    (b = clusterOf c || (!s.clusterUp p b && s.placeOk p r l sh i (clusterOf c)) || (!bound 2 && (b / 96 = dieOf c || !bound 1)))
    && (boundLevels sh [3]).all (fun (j, _) => match l.fixed (idx.take (j + 1)) with
        | some q => q = c
        | none => s.coreOk p l sh j b c)

/-- May core c take a team entry from cluster b's bank (R268, R280, R287)? A swapped team returns to the core it left, or to another that
its bindings allow once that one is fenced (R293, R314; log entry 26), when no entry of an ended team runs on there (R123). -/
def State.teamTakeable (s : State) (p c b : Nat) (e : BankEntry) : Bool :=
  match e with
  | .task .. => false
  | .team r _ _ i ctx =>
    (s.core c).poolFree r &&
    (match ctx with
    | some x => (x.core = c || (s.instanceDown p 3 x.core && s.bindingsOk p r i c b))
        && (s.core c).vq.isEmpty && (s.core c).mq.isEmpty && (s.core c).xq.isEmpty
    | none => s.bindingsOk p r i c b)

/-- The team core c takes: the first of its own bank, else one it steals (R281, R286); a failed link keeps it from the banks beyond
(R357). -/
def State.findTeam (s : State) (p c : Nat) : Option (Nat × BankEntry) :=
  let own := clusterOf c
  (own :: (eddyOrder own).filter (fun b => (s.cluster b).part = p && !s.linkDown (dieOf c) (b / 96))).findSome? (fun b =>
    ((s.cluster b).bank.find? (s.teamTakeable p c b)).map (fun e => (b, e)))

/-- The pool of a launch becomes the resident pool of a core (R252, R268): the one it had there, or a new one; a live pool of
another launch goes away. -/
def State.enterPool (s : State) (p c : Nat) (r : BitVec 10) : State :=
  let k := s.core c
  if k.poolOf r then s
  else
    let away := k.away ++ (match k.pool with | some po => if po.live then [po] else [] | none => [])
    let po := (away.find? (fun q => q.launch = r)).getD (s.newPool p r.toNat)
    let s := s.setCore c { k with pool := some po, away := away.filter (fun q => q.launch ≠ r) }
    (List.range 8).foldl (fun s q => s.serve c q) s

/-- A swapped team comes back to its core (R292, R325): its strands, entries, semaphores, accumulators and queues as they were;
a strand whose lease was returned acquires it again before it goes on. DESIGN CHOICE (log entry 93): its overflow events stand before
those that the core's queue has taken meanwhile, and the queue keeps the first 32. -/
def Core.comeBack (k : Core) (x : TeamCtx) : Core :=
  let v := x.saved
  { k with
    strands := v.strands.map (fun t => if t.relend ≠ 0 ∧ t.life = .running then { t with life := .resuming } else t)
    cur := v.cur, held := 0, switch := false, sem := v.sem, semFar := v.semFar, vq := v.vq, mq := v.mq, xq := v.xq
    vrun := v.vrun, mrun := v.mrun, xrun := v.xrun, tiles := v.tiles, ovq := (v.ovq ++ k.ovq).take 32, drainSeq := v.drainSeq, team := some x.team }

/-- TEAM_TAKE (R281, R286, R287): a core with no team and no store of an earlier one still on its way (R106) takes the first team entry it may; a swapped team goes on, another one
waits for its kernel start. -/
def execTeamTake (c : Nat) (s : State) : Out :=
  let k := s.core c
  let p := s.partOf c
  if k.fenced || (s.cluster (clusterOf c)).fenced || s.quiet c || !k.teamDone || allStrands.any (fun t => s.homing c t ≠ 0) then .next s
  else match s.findTeam p c with
    | some (b, .team r q n i ctx) =>
      let sh := s.recShape p r.toNat
      let s := s.onCluster b (fun x => Cluster.refill { x with bank := x.bank.erase (.team r q n i ctx) })
      let s := s.setLaunch p r ((s.launch? p r).map (fun l => (l.standing s p sh).fix sh [1, 2, 3] i c))
      match ctx with
      | some x => .next (((s.onCore c (fun k => k.comeBack x)).enterPool p c r).moveIn c (clusterOf x.core ≠ clusterOf c))
      | none =>
        let masks := match k.team with | some m => m.masks | none => Vector.replicate 4 0
        .next (s.onCore c (fun k => { k with team := some { launch := r, index := i, strands := teamStrands sh, masks := masks } }))
    | _ => .next s

-- Kernel start

/-- The semaphores that a kernel's .sem directives name, with their stated values (R122, R338); set them. -/
def State.kernelSems (s : State) (p : Nat) (r : BitVec 10) : List (Nat × BitVec 32) :=
  let named := kdescField s p r 1728 32
  ((List.range 256).filter (fun m => named.testBit m)).map (fun m => (m, BitVec.ofNat 32 (kdescField s p r (1760 + 4 * m) 4)))

def Core.setSems (k : Core) (l : List (Nat × BitVec 32)) : Core := (l.foldl (fun k e => k.setSem e.1 e.2) k).wake

/-- Strand t of a team as its kernel starts it (R67, R77, R108, R246, R255, R308, R327): its vector state, its tokens and the
counters of its older entries stay as they are. -/
def Strand.startKernel (x : Strand) (s : State) (p : Nat) (r : BitVec 10) (team t : Nat) : Strand :=
  let i := r.toNat
  let sh := s.recShape p i
  let idx := unitIndex sh team t
  { x with
    life := .running, pc := BitVec.ofNat 64 (s.recField p i 136 8), s := Vector.replicate 32 0, g := 0, slots := 0, owed := 0
    flight := [], loads := [], stores := [], fences := []
    sync := Vector.ofFn (fun (n : Fin 16) => BitVec.ofNat 64 (kdescField s p r (1600 + 8 * n.val) 8) &&& 0x0007_FFFF_FFFF_FFFF)
    ts := Vector.replicate 16 0
    wid := Vector.ofFn (fun (n : Fin 8) => BitVec.ofNat 16 (idx.getD n.val 0))
    wext := Vector.ofFn (fun (n : Fin 8) => BitVec.ofNat 17 ((sh.map (·.1)).getD n.val 1))
    lparam := Vector.ofFn (fun (n : Fin 8) => BitVec.ofNat 64 (s.recField p i (16 + 8 * n.val) 8))
    accmap := BitVec.ofNat 12 (s.recField p i 120 8 / 2 ^ (12 * t)), lridx := r
    fflags := 0, limit := 0x0100_0000, lease := 0, relend := 0, region := [], depth := 0, fifo := [], rstrand := 0, rstat := 0
    stop := none, request := none, reissue := [], done := false, noBrk := false, recv := none
    lastTick := s.tick }

/-- Has every entry that the masks of the last team's ENDs name retired (R123, R124)? One that Skyo keeps has not (R364). -/
def State.masksDrained (s : State) (c : Nat) (m : Team) : Bool :=
  allStrands.all (fun t =>
    let mask := vget m.masks 0 t.toNat
    [Eng.v, .m, .x].all (fun en => !mask.getLsbD (engIndex en) || (((s.core c).queue en).all (fun e => e.strand ≠ t)
      && (s.part (s.partOf c)).orphans.all (fun o => o.core ≠ c || o.en ≠ en || !o.owners.contains t))))

/-- KERNEL_START (R122 to R124, R252, R273, R278): the pool, the sync slots and the named semaphores are set, and every strand of
the team starts in one core slot, as an acquire of the launch's arming; the others stay idle. -/
def execKernelStart (c : Nat) (s : State) : Out :=
  let k := s.core c
  match k.team with
  | none => .next s
  | some m =>
    if m.started || s.quiet c || !s.masksDrained c m || !k.poolFree m.launch then .next s
    else
      let p := s.partOf c
      let s := if s.recState p m.launch.toNat = 1 then s.setRecField p m.launch.toNat 1 1 2 else s
      let s := ((s.enterPool p c m.launch).acquire c 4).onCore c (fun k => k.setSems (s.kernelSems p m.launch))
      .next (s.onCore c (fun k =>
        let k := allStrands.foldl (fun k t =>
          let x := k.strand t
          k.setStrand t (if t.toNat < m.strands then x.startKernel s p m.launch m.index t.toNat else { x with life := .idle, ts := Vector.replicate 16 0 })) k
        { k with cur := 0, held := 0, switch := false, team := some { m with started := true, masks := Vector.replicate 4 0 } }))

-- Completion

/-- Is a bank entry a team of the launch? -/
def BankEntry.isTeamOf (e : BankEntry) (r : BitVec 10) : Bool := match e with | .team q _ _ _ _ => q = r | .task .. => false

/-- Does a core, or a context that pre-emption has saved, hold nothing unfinished of launch r? -/
def Core.doneWith (k : Core) (r : BitVec 10) : Bool :=
  (match k.team with | some m => m.launch ≠ r || k.teamDone | none => true) && (k.vq ++ k.mq ++ k.xq).all (fun e => e.launch ≠ r)

/-- Has every team of the launch ended and every entry retired (R106, R124, R273)? -/
def State.launchDone (s : State) (p : Nat) (r : BitVec 10) (l : Launch) : Bool :=
  l.kill.isNone && teamCount (s.recShape p r.toNat) ≤ l.next
  && s.clusters.all (fun e => e.2.part ≠ p || (e.2.bank ++ e.2.ring).all (fun b => !b.isTeamOf r))
  && (s.part p).swapped.all (fun x => x.team.launch ≠ r)
  && (s.part p).orphans.all (fun o => o.launch ≠ r)
  && (s.partCores p).all (fun c =>
      (s.core c).doneWith r)
  && (s.part p).saved.all (fun e => e.2.doneWith r)

/-- Reclaim launch r's pools on a core (R267). -/
def Core.reclaimPools (k : Core) (r : BitVec 10) : Core :=
  { k with pool := k.pool.map (fun po => if po.launch = r && po.live then po.reclaim else po)
           away := k.away.filter (fun po => po.launch ≠ r) }

/-- Reclaim a launch's pools on every core of its partition and in its saved contexts (R267). -/
def State.reclaimPools (s : State) (p : Nat) (r : BitVec 10) : State :=
  ((s.partCores p).foldl (fun s c => s.onCore c (fun k => k.reclaimPools r)) s).onPart p (fun x => { x with
    saved := x.saved.map (fun e => (e.1, e.2.reclaimPools r)) })

/-- Reads that the reclaim of launch r's pools on a core abandons, the pools that are away included (R267, R268). -/
def Core.abandoned (k : Core) (r : BitVec 10) : Nat :=
  (((k.pool.toList.filter (·.live)) ++ k.away).filter (fun po => po.launch = r)).foldl (fun n po => n + po.abandoned) 0

/-- Reads that the reclaim abandons (R267): of a core whose context pre-emption has saved, those of the context. -/
def State.abandoned (s : State) (p : Nat) (r : BitVec 10) : Nat :=
  let saved := (s.part p).saved
  (((s.partCores p).filter (fun c => !saved.any (fun e => e.1 = c))).map (fun c => (s.core c).abandoned r)).sum
    + (saved.map (fun e => e.2.abandoned r)).sum

/-- STATUS of a launch that ends with CODE code, CAUSE and SUB, and ABANDONED (R274, R275). -/
def statusOf (code cause sub : Nat) (abandoned : Bool) : Nat := sub * 2 ^ 24 + cause * 2 ^ 16 + b2n abandoned * 2 ^ 8 + code

/-- A launch is over: no event counts as armed by it any more (R291). -/
def State.dropLaunch (s : State) (p : Nat) (r : BitVec 10) : State :=
  s.onPart p (fun x => { x with
    launches := Sparse.set none x.launches r.toNat none
    events := x.events.map (fun e => (e.1, e.2.map (fun v => if v.armer = some r then { v with armer := none } else v))) })

/-- Every store of a partition's clusters reaches its home (R101): a release at system scope by all of them. -/
def State.drainPart (s : State) (p : Nat) : State :=
  (s.clusters.filter (fun e => e.2.part = p)).foldl (fun s e => s.drainHome e.1) s

/-- LAUNCH_COMPLETION (R273, R275): the pool is reclaimed, STATUS and DONE are written as a release at system scope (R106), CEVENT is
posted. -/
def execLaunchCompletion (p : Nat) (r : BitVec 10) (s : State) : Out :=
  match s.launch? p r with
  | none => .next s
  | some l =>
    if !(s.launchDone p r l) then .next s
    else
      let lost : Bool := s.abandoned p r ≠ 0
      let strict := s.recField p r.toNat 9 1 % 2 = 1
      let st := if lost && strict then statusOf 5 3 8 true else statusOf 0 0 0 lost
      let s := (((s.drainPart p).reclaimPools p r).setRecField p r.toNat 12 4 st).setRecField p r.toNat 1 1 3
      .next ((s.dropLaunch p r).postEvent p (s.recField p r.toNat 4 2))

-- Swapping

/-- The blocking words (R62). -/
def isBlocking (i : Instr) : Bool :=
  match i with
  | .semw .. | .evw .. | .talc .. | .waitc .. | .pwq .. | .qtake .. | .lwait .. | .resume .. | .disp .. => true
  | _ => false

/-- Is the resident team blocked for the swap quantum (R25, R292)? -/
def State.teamBlocked (s : State) (c : Nat) (m : Team) : Bool :=
  let k := s.core c
  let xs := (List.range m.strands).map (fun t => k.strand (BitVec.ofNat 2 t))
  xs.all (fun x => x.lastTick + Config.swapQuantum ≤ s.tick && x.stop.isNone && x.life ≠ .resuming)
  && xs.any (fun x => x.life = .running && (match s.wordAt c x.pc with | some i => isBlocking i | none => false))

/-- May the team go now: its issued steps have finished and its scalar accesses performed, and no entry of another launch is in its core's queues? -/
def Core.swapReady (k : Core) (m : Team) : Bool :=
  k.stepsDone (fun _ => true)
  && k.strands.toList.all (fun x => x.loads.isEmpty && x.stores.isEmpty && x.fences.isEmpty)
  && (k.vq ++ k.mq ++ k.xq).all (fun e => e.launch = m.launch)

/-- TEAM_SWAP (R25, R268, R292, R325): Skyo swaps a blocked team whole; its requests are withdrawn, its leases return, and a
pool with no slot in use may make room. -/
def execTeamSwap (c : Nat) (s : State) : Out :=
  match (s.core c).team with
  | none => .next s
  | some m =>
    if !m.started || s.quiet c || !(s.teamBlocked c m) || !((s.core c).swapReady m) then .next s
    else
      let s := allStrands.foldl (fun s t => s.settleRequest c t (s.wordAt c (s.strand c t).pc)) s
      let s := s.settleXalc c (fun _ => true)
      let s := allStrands.foldl (fun s t =>
        (s.onStrand c t (fun x => { x with relend := if x.lease = 0 then x.relend else x.lease })).releaseLease c t) s
      let ctx : TeamCtx := { core := c, team := m, saved := { s.core c with spad := [], waits := [], pool := none, away := [] } }
      let s := s.onCore c (fun k => { k with
        strands := k.strands.map (fun x => { x with life := .idle, flight := [], loads := [], stores := [], fences := []
                                                    cntV := 0, cntM := 0, cntX := 0 })
        waits := [], vq := [], mq := [], xq := [], vrun := none, mrun := none, xrun := none, ovq := [], team := none })
      .next ((s.drainHome (clusterOf c)).onPart (s.partOf c) (fun x => { x with swapped := x.swapped ++ [ctx] }))

/-- SWAPPED_TEAM_REENTER (R282, R292): the k-th swapped team enters its cluster's bank at the tail of its class; in a full bank it
takes the place of the last task. -/
def execSwappedTeamReenter (p k : Nat) (s : State) : Out :=
  match (s.part p).swapped[k]? with
  | none => .next s
  | some x =>
    let b := clusterOf x.core
    let r := x.team.launch
    let q := s.cluster b
    let e := BankEntry.team r (BitVec.ofNat 3 (s.recField p r.toNat 3 1)) (s.recField p r.toNat 168 8) x.team.index (some x)
    let enter (q : Cluster) : State :=
      (s.onCluster b (fun _ => { q with bank := insertTeam q.bank e })).onPart p (fun y => { y with swapped := y.swapped.eraseIdx k })
    if q.bank.length < Config.bankDepth then .next (enter q)
    else match (tasksInOrder q.bank).getLast? with
      | none => .next s
      | some t => .next (enter { q with bank := q.bank.erase t, ring := q.ring ++ [t] })

end Sys2Proof.Machine
end

