-- ==== Sys2Proof/Machine/Transfer.lean ====
section
/-! DEFINITION. The X words (R167 to R189): entry-register words and XREP, the check phase of the transfer steps (R169), XSIG,
XALC, XRFL and XMRK, layout records and XTEN (R179 to R185), and the move phase. -/
namespace Sys2Proof.Machine

-- The running X entry

/-- The X entry of the core in focus, when it may issue its next word. -/
def State.xReady (s : State) : Option XRun :=
  match (s.core s.focus).xrun with
  | none => none
  | some r => if r.ended || s.entryFrozen s.focus r.entry r.flt then none else some r

def State.xSet (s : State) (r : XRun) : State := s.onCore s.focus (fun k => { k with xrun := some r })

/-- Register n of an X entry. -/
def xreg (r : XRun) (n : BitVec 4) : Word := vget r.e 0 n.toNat

/-- The address and the number that registers hold. -/
def XRun.addr (r : XRun) (n : BitVec 4) : Nat := addr48 (xreg r n).toNat
def XRun.num (r : XRun) (n : BitVec 4) : Nat := (xreg r n).toNat

/-- An entry-register word (R168): it completes in its issue cycle. -/
def State.xWord (s : State) (e : Bool) (f : XRun → Vector Word 16) : State :=
  match s.xReady with
  | none => s
  | some r => s.xSet ({ r with e := f r }.next e)

def execXnop (e : Bool) (s : State) : Out := .next (s.xWord e (·.e))
def execXeadd (e : Bool) (ed ea eb : BitVec 4) (s : State) : Out :=
  .next (s.xWord e (fun r => vset r.e ed.toNat (xreg r ea + xreg r eb)))
def execXeli (e : Bool) (ed : BitVec 4) (imm : BitVec 22) (s : State) : Out :=
  .next (s.xWord e (fun r => vset r.e ed.toNat (imm.signExtend 64)))
def execXemov (e : Bool) (ed ea : BitVec 4) (s : State) : Out := .next (s.xWord e (fun r => vset r.e ed.toNat (xreg r ea)))

/-- XREP (R60, R168). -/
def execXrep (e : Bool) (n : BitVec 4) (k : BitVec 12) (s : State) : Out :=
  match s.xReady with
  | none => .next s
  | some r =>
    if e || !repeatable s s.focus .x r.entry n.toNat (r.idx + 1) then
      .next (s.entryStop s.focus .x ⟨.illegal, 0, 0⟩)
    else .next (s.xSet { r with idx := r.idx + 1, pass := 0, rep := some ⟨r.idx + 1, n.toNat, k.toNat⟩ })

-- Check phase

/-- What the check phase of a step finds: nothing to do (length 0, R169), a tile in use that it is to read (R187), a move, or a stop. The state is the one its reads
leave. -/
inductive XPlan where
  | idle
  | wait
  | move (s : State) (m : XMove)
  | stop (s : State) (w : Trouble)

/-- Issue a transfer step (R167, R323): it waits behind eight moves and for its charge; then its checks are made, the pool's
last (R169). -/
def State.xIssue (s : State) (e : Bool) (plan : State → XRun → XPlan) : State :=
  match s.xReady with
  | none => s
  | some r =>
    if Config.moveDepth ≤ r.moves.length then s
    else match (s.core s.focus).charge 2 16 with
      | .wait => s
      | .over => s.entryStop s.focus .x ⟨.power, 0, 0⟩
      | .paid k =>
        let s1 := s.setCore s.focus k
        match plan s1 r with
        | .idle => s1.xSet (r.next e)
        | .wait => s
        | .stop s2 w => s2.entryStop s.focus .x w
        | .move s2 m => match s2.consumeAll s.focus r.entry.launch m.held.toList with
          | .wait => s
          | .stop w => s2.entryStop s.focus .x w
          | .ok s3 =>
            let r' := r.next e
            s3.xSet { r' with moves := r'.moves ++ [{ m with after := (r'.idx, r'.pass), tick := s.tick }] }

/-- The granule at whose boundaries a range that touches a window range must begin and end (R169); 1 for none. -/
def granule (off : Nat) : Nat :=
  match winRange off with
  | .acc | .sreg | .sync | .sysreg => 8
  | .sem => 4
  | .ts => 2
  | _ => 1

/-- ALIGN of R169 on the register ranges a byte range touches. -/
def boundTrouble (a n : Nat) : Option Trouble :=
  if (pieces a n).any (fun e => match winSplit e.1 with
    | some (_, off) => a % granule off ≠ 0 || (a + n) % granule off ≠ 0
    | none => false)
  then some (alignTrouble (addr48 a)) else none

/-- The window ranges a transfer may touch (R169); XRED's destination is scratchpad only (R175). -/
def transferOk (_ off : Nat) : Bool := match winRange off with | .ovq | .pool | .area => false | _ => true
def spadOnly (_ off : Nat) : Bool := winRange off = .spad

/-- Check and translate several ranges, each in ascending address order (R169, order 4); the pieces of each in the order
given. -/
def resolveRanges (s : State) (c : Nat) (acc : Acc) (ok : Nat → Nat → Bool) (l : List (Nat × Nat)) :
    Except Trouble (List (List (Nat × Nat))) :=
  match (sortBy (·.1) l).findSome? (fun e => match resolvePieces s c acc ok (pieces e.1 e.2) with
      | .error w => some w
      | .ok _ => none) with
  | some w => .error w
  | none => .ok (l.map (fun e => match resolvePieces s c acc ok (pieces e.1 e.2) with | .ok q => q | .error _ => []))

/-- One source and one destination range (R169). -/
def plainRanges (s : State) (src dst n : Nat) (acc : Acc) (ok : Nat → Nat → Bool) :
    Except Trouble (List (Nat × Nat) × List (Nat × Nat)) :=
  match resolveRanges s s.focus .load transferOk [(src, n)] with
  | .error w => .error w
  | .ok a => match resolveRanges s s.focus acc ok [(dst, n)] with
    | .error w => .error w
    | .ok b => .ok (a.flatten, b.flatten)

def formatTrouble : Trouble := ⟨.format, 0, 0⟩

/-- The first trouble of a list of boundary checks (R169, order 2). -/
def boundsOf (l : List (Nat × Nat)) : Option Trouble := l.findSome? (fun e => boundTrouble e.1 e.2)

/-- XCPY (R170, R171). -/
def execXcpy (e : Bool) (ed es en : BitVec 4) (cn cb : Bool) (s : State) : Out :=
  .next (s.xIssue e (fun s r =>
    let n := r.num en
    let a := r.addr es
    let d := r.addr ed
    if n = 0 then .idle
    else if 2 ^ 32 ≤ n then .stop s formatTrouble
    else match boundsOf [(a, n), (d, n)] with
      | some w => .stop s w
      | none => match plainRanges s a d n .store transferOk with
        | .error w => .stop s w
        | .ok (src, dst) =>
          .move s { op := .xcpy e ed es en cn cb, src := src, dst := dst, held := if cn then some (a, n) else none, bytes := n }))

/-- XFIL (R172). -/
def execXfil (e : Bool) (ed ev en : BitVec 4) (s : State) : Out :=
  .next (s.xIssue e (fun s r =>
    let n := r.num en
    let d := r.addr ed
    if n = 0 then .idle
    else if 2 ^ 32 ≤ n then .stop s formatTrouble
    else match boundTrouble d n with
      | some w => .stop s w
      | none => match resolveRanges s s.focus .store transferOk [(d, n)] with
        | .error w => .stop s w
        | .ok dst => .move s { op := .xfil e ed ev en, dst := dst.flatten, fill := xreg r ev, bytes := n }))

/-- The check phase of XGAT (gat) and XSCT (R173): the index list is read in it. DESIGN CHOICE: with a count of 0, I = 15, z = 0 and
nonzero high bits still raise FORMAT (log entry 101). -/
def gatherPlan (i : Instr) (gat : Bool) (ed es ei : BitVec 4) (s : State) (r : XRun) : XPlan :=
  let cz := r.num (ei + 1)
  let n := bitsOf cz 31 0
  let z := bitsOf cz 47 32
  let list := r.addr ei
  let a := r.addr es
  let d := r.addr ed
  if ei = 15 ∨ z = 0 ∨ bitsOf cz 63 48 ≠ 0 ∨ 2 ^ 32 ≤ n * z then .stop s formatTrouble
  else if n = 0 then .idle
  else if list % 4 ≠ 0 then .stop s (alignTrouble list)
  else match boundsOf [(list, 4 * n), (if gat then d else a, n * z)] with
    | some w => .stop s w
    | none => match resolveRanges s s.focus .load transferOk [(list, 4 * n)] with
      | .error w => .stop s w
      | .ok ps =>
        if s.piecesBusy ps.flatten then .wait
        else match s.piecesEcc s.focus ps.flatten with
        | some u => .stop s (eccTrouble u)
        | none =>
        let (bs, s) := readPieces s s.focus false r.entry.since ps.flatten
        let elems := (words32 bs).map (fun k => (addr48 ((if gat then a else d) + k * z), z))
        match boundsOf (sortBy (·.1) elems) with
        | some w => .stop s w
        | none => match resolveRanges s s.focus .load transferOk (if gat then elems else [(a, n * z)]) with
          | .error w => .stop s w
          | .ok src => match resolveRanges s s.focus .store transferOk (if gat then [(d, n * z)] else elems) with
            | .error w => .stop s w
            | .ok dst => .move s { op := i, src := src.flatten, dst := dst.flatten, bytes := n * z }

def execXgat (e : Bool) (ed es ei : BitVec 4) (s : State) : Out :=
  .next (s.xIssue e (gatherPlan (.xgat e ed es ei) true ed es ei))
def execXsct (e : Bool) (ed es ei : BitVec 4) (s : State) : Out :=
  .next (s.xIssue e (gatherPlan (.xsct e ed es ei) false ed es ei))

/-- The member cores of multicast group g of a core's cluster (R174, R271). -/
def groupMembers (s : State) (c : Nat) (l : BitVec 10) (g : BitVec 3) : List Nat :=
  let mask := s.recField (s.partOf c) l.toNat (127 + g.toNat) 1
  ((List.range 8).filter (fun i => mask.testBit i)).map (fun i => clusterOf c * 8 + i)

/-- XBRD (R174). DESIGN CHOICE: the WINDOW stop of an offset that is too high names the offset mod 2^48 (log entry 100). -/
def execXbrd (e : Bool) (ed es en : BitVec 4) (mc : BitVec 3) (s : State) : Out :=
  .next (s.xIssue e (fun s r =>
    let n := r.num en
    let a := r.addr es
    let d := r.num ed
    if n = 0 then .idle
    else if 2 ^ 32 ≤ n then .stop s formatTrouble
    else match boundTrouble a n with
      | some w => .stop s w
      | none => match resolveRanges s s.focus .load transferOk [(a, n)] with
        | .error w => .stop s w
        | .ok src =>
          if 524288 < d + n then .stop s (windowTrouble (addr48 d))
          else
            let ms := groupMembers s s.focus r.entry.launch mc
            .move s { op := .xbrd e ed es en mc, src := src.flatten, dst := ms.map (fun k => (coreWindow k + d, n)),
                      bytes := n * ms.length }))

/-- XRED (R175). The ALIGN stop of a length that is no multiple of 4, which is no address, names e[S] (log entry 82, DESIGN CHOICE). -/
def execXred (e : Bool) (ed es en : BitVec 4) (ty : Bool) (s : State) : Out :=
  .next (s.xIssue e (fun s r =>
    let n := r.num en
    let a := r.addr es
    let d := r.addr ed
    if n = 0 then .idle
    else if 2 ^ 32 ≤ n then .stop s formatTrouble
    else if n % 4 ≠ 0 ∨ a % 4 ≠ 0 then .stop s (alignTrouble a)
    else if d % 4 ≠ 0 then .stop s (alignTrouble d)
    else match boundsOf [(a, n), (d, n)] with
      | some w => .stop s w
      | none => match plainRanges s a d n .atomic spadOnly with
        | .error w => .stop s w
        | .ok (src, dst) => .move s { op := .xred e ed es en ty, src := src, dst := dst, bytes := n }))

-- Layout records

/-- A layout record (R179). -/
structure Layout where
  base : Nat
  ty   : Nat
  rank : Nat
  swz  : Nat
  scl  : Bool
  so   : Nat
  dim  : List Nat
  str  : List Int
  tile : List Nat
  scale : Nat
  pad  : Nat

def layoutOf (b : List Byte) : Layout :=
  let f (off n : Nat) : Nat := leValue ((b.drop off).take n)
  { base := f 0 8, ty := f 8 1 % 16, rank := f 9 1, swz := f 10 1, scl := f 11 1 % 2 = 1, so := f 11 1 / 2 % 2
    dim := (List.range 5).map (fun d => f (16 + 8 * d) 8)
    str := 0 :: (List.range 4).map (fun d => (BitVec.ofNat 64 (f (64 + 8 * d) 8)).toInt)
    tile := (List.range 5).map (fun d => f (96 + 2 * d) 2)
    scale := f 112 8, pad := f 128 8 }

/-- Bytes of a dense row, and of the dense tile (R181). -/
def Layout.rowBytes (l : Layout) : Nat := l.tile.headD 1 * tWidth l.ty / 8
def Layout.rowCount (l : Layout) : Nat := (l.tile.drop 1).foldl (· * ·) 1
def Layout.dataBytes (l : Layout) : Nat := l.rowBytes * l.rowCount

/-- Does a record raise FORMAT (R180)? SWZ above 3 does, which R180 does not list; strides beyond RANK and SCALE without scales are not
looked at (log entry 83, DEDUCED). -/
def layoutBad (b : List Byte) : Bool :=
  let l := layoutOf b
  let zero (off n : Nat) : Bool := ((b.drop off).take n).all (fun x => x = 0)
  let f (off : Nat) : Nat := (b.getD off 0).toNat
  let w := tWidth l.ty
  let esz : Int := if w = 4 then 1 else w / 8
  let span := 16 * 2 ^ l.swz
  !(f 8 < 16 && f 11 < 4 && zero 12 4 && zero 56 8 && zero 106 6 && zero 120 8 && zero 136 56)
  || l.ty = 15 || l.rank = 0 || 5 < l.rank || 3 < l.swz
  || (List.range 5).any (fun d =>
      let n := l.dim.getD d 1
      let t := l.tile.getD d 1
      n = 0 || 2 ^ 32 < n || t = 0 || 4096 < t || (l.rank ≤ d && (n ≠ 1 || t ≠ 1)))
  || 8 * 65536 < l.tile.foldl (· * ·) 1 * w
  || (l.base : Int) % esz ≠ 0 || l.str.any (fun x => x % esz ≠ 0)
  || (w = 4 && l.tile.headD 1 % 2 = 1)
  || (l.scl && (!tBq l.ty || l.tile.headD 1 ≠ 64 || l.tile.getD 1 1 ≠ 64 || l.swz ≠ 0))
  || (l.swz ≠ 0 && l.rowBytes % span ≠ 0)

/-- Do the exchange qualifiers fit the record (R183)? xp: 0 none, 1 xp8, 2 xp16. -/
def exchangeOk (l : Layout) (xp : BitVec 2) : Bool :=
  xp = 0 || (2 ≤ l.rank && l.tile = [64, 64, 1, 1, 1] && tWidth l.ty = 8 * xp.toNat)

/-- Look a record up in the cluster's layout-record cache (R185): the copy found becomes the most recently used; a miss fills
it from memory, past the cluster data cache, and the least recently used of 64 leaves. -/
def fetchLayout (s : State) (c a : Nat) (ps : List (Nat × Nat)) : List Byte × State :=
  let k := clusterOf c
  match (s.cluster k).layouts.find? (fun e => e.1 = a) with
  | some (_, b) =>
    (b, s.onCluster k (fun x => { x with layouts := x.layouts.filter (fun e => e.1 ≠ a) ++ [(a, b)] }))
  | none =>
    let b := ps.flatMap (fun e => physRead s e.1 e.2)
    let s := ps.foldl (fun s e => countLines s (dieOf c) e.1 e.2) s
    (b, s.onCluster k (fun x => { x with
      layouts := (if 64 ≤ x.layouts.length then x.layouts.drop 1 else x.layouts) ++ [(a, b)] }))

/-- The origin of the tile that e[C] selects (R181). -/
def Layout.origin (l : Layout) (c d : Nat) : Nat := bitsOf c (12 * d + 11) (12 * d) * l.tile.getD d 1

/-- Index d of dense row n (dimensions 1 to 4, dimension 1 fastest). -/
def Layout.rowIndex (l : Layout) (n d : Nat) : Nat := n / ((l.tile.drop 1).take (d - 1)).foldl (· * ·) 1 % l.tile.getD d 1

/-- The tensor side of dense row n: how many of its elements are in range, and where they begin (R181). -/
def Layout.row (l : Layout) (c n : Nat) : Nat × Nat :=
  let pos (d : Nat) : Nat := l.origin c d + l.rowIndex n d
  let o := l.origin c 0
  let inr := [1, 2, 3, 4].all (fun d => pos d < l.dim.getD d 1)
  let m := if inr then min (l.tile.headD 1) (l.dim.headD 1 - o) else 0
  let a : Int := (l.base : Int) + (o * tWidth l.ty / 8 : Nat) + ([1, 2, 3, 4].map (fun d => (pos d : Int) * l.str.getD d 0)).sum
  (m, (a % 2 ^ 48).toNat)

/-- The scales of a tile that are in range: how many, and where they begin (R184). -/
def Layout.scaleRun (l : Layout) (c : Nat) : Nat × Nat :=
  if l.scl then
    let d := 1 - l.so
    (min 64 (l.dim.getD d 1 - l.origin c d), addr48 (l.scale + 4 * l.origin c d))
  else (0, 0)

/-- Bytes of the dense side: the tile, or the tile object (R184). A tile object whose record has more than one 64 × 64 tile keeps its data
together and its scales behind it (log entry 84, DESIGN CHOICE). -/
def Layout.denseBytes (l : Layout) : Nat := if l.scl then 64 + l.dataBytes + 256 else l.dataBytes

/-- The check phase of XTEN (R169, R180 to R184); out: from the dense side to the tensor. DESIGN CHOICE: a record in a core window is
read there as any other range is (log entry 102). -/
def xtenPlan (i : Instr) (eh ed ec : BitVec 4) (xp : BitVec 2) (out : Bool) (s : State) (r : XRun) : XPlan :=
  let h := r.addr eh
  let d := r.addr ed
  let c := r.num ec
  if 2 ^ 60 ≤ c then .stop s formatTrouble
  else if h % 64 ≠ 0 then .stop s (alignTrouble h)
  else if d % 64 ≠ 0 then .stop s (alignTrouble d)
  else match resolveRanges s s.focus .load transferOk [(h, 192)] with
    | .error w => .stop s w
    | .ok ps =>
      if s.piecesBusy ps.flatten then .wait
      else match s.piecesEcc s.focus ps.flatten with
      | some u => .stop s (eccTrouble u)
      | none =>
      let (b, s) := fetchLayout s s.focus h ps.flatten
      let l := layoutOf b
      if layoutBad b || !exchangeOk l xp then .stop s formatTrouble
      else
        let rows := (List.range l.rowCount).map (l.row c)
        let spans := rows.map (fun e => (e.2, (e.1 * tWidth l.ty + 7) / 8))
        let (q, sa) := l.scaleRun c
        match boundsOf ((d, l.denseBytes) :: (sa, 4 * q) :: spans) with
        | some w => .stop s w
        | none =>
          let dense := resolveRanges s s.focus (if out then .load else .store) transferOk [(d, l.denseBytes)]
          let tensor := resolveRanges s s.focus (if out then .store else .load) transferOk spans
          let scales := resolveRanges s s.focus (if out then .store else .load) transferOk [(sa, 4 * q)]
          match (if out then dense else tensor), (if out then tensor else dense), scales with
          | .error w, _, _ => .stop s w
          | _, .error w, _ => .stop s w
          | _, _, .error w => .stop s w
          | .ok x, .ok y, .ok z =>
            let dn := (if out then x else y).flatten
            let tn := if out then y else x
            if out && l.scl && s.piecesBusy [dn.headD (0, 0)] then .wait
            else if out && l.scl && (s.eccAt (dieOf s.focus) (dn.headD (0, 0)).1).isSome then
              .stop s (eccTrouble ((s.eccAt (dieOf s.focus) (dn.headD (0, 0)).1).getD 0))
            else if out && l.scl && leValue (viewRead s (clusterOf s.focus) (dn.headD (0, 0)).1 1) ≠ l.ty then .stop s formatTrouble
            else
              let n := if out then (spans.map (·.2)).sum + 4 * q else l.denseBytes
              .move s { op := i, src := if out then dn else [], dst := if out then [] else dn, desc := b,
                        rows := List.zip (rows.map (·.1)) tn, scl := z.flatten, bytes := n }

/-- XTEN (R181). -/
def execXten (e : Bool) (eh ed ec : BitVec 4) (xp : BitVec 2) (dir : Bool) (s : State) : Out :=
  .next (s.xIssue e (xtenPlan (.xten e eh ed ec xp dir) eh ed ec xp dir))

-- Moves

/-- Bytes of some pieces. -/
def rangeBytes (l : List (Nat × Nat)) : Nat := (l.map (·.2)).sum

/-- The first k bytes of some pieces, and the others. -/
def takeBytes : Nat → List (Nat × Nat) → List (Nat × Nat)
  | _, [] => []
  | k, (pa, n) :: rest => if k = 0 then [] else if k < n then [(pa, k)] else (pa, n) :: takeBytes (k - n) rest
def dropBytes : Nat → List (Nat × Nat) → List (Nat × Nat)
  | _, [] => []
  | k, (pa, n) :: rest => if k < n then (pa + k, n - k) :: rest else dropBytes (k - n) rest

/-- Bytes a to a + n − 1 of some pieces. -/
def midBytes (l : List (Nat × Nat)) (a n : Nat) : List (Nat × Nat) := takeBytes n (dropBytes a l)

/-- Several ranges of the bytes of some pieces. -/
def pickBytes (l r : List (Nat × Nat)) : List (Nat × Nat) := r.flatMap (fun e => midBytes l e.1 e.2)

/-- What some ranges, in rising order, leave of the numbers a to n − 1. -/
def gapsFrom : Nat → Nat → List (Nat × Nat) → List (Nat × Nat)
  | a, n, [] => if a < n then [(a, n - a)] else []
  | a, n, (b, k) :: rest => (if a < b then [(a, b - a)] else []) ++ gapsFrom (max a (b + k)) n rest

def gaps (n : Nat) (r : List (Nat × Nat)) : List (Nat × Nat) := gapsFrom 0 n (sortBy (·.1) r)

/-- The parts of some ranges that lie among the n numbers from a on. -/
def clip (r : List (Nat × Nat)) (a n : Nat) : List (Nat × Nat) :=
  r.filterMap (fun e => if max a e.1 < min (a + n) (e.1 + e.2) then some (max a e.1, min (a + n) (e.1 + e.2) - max a e.1) else none)

/-- The ranges a step reads, and those it writes, each in order: the rows of its tensor and its scales are one side of XTEN. -/
def XMove.tensor (m : XMove) : List (Nat × Nat) := m.rows.flatMap (·.2) ++ m.scl
def XMove.ins (m : XMove) : List (Nat × Nat) := match m.op with | .xten _ _ _ _ _ false => m.tensor | _ => m.src
def XMove.outs (m : XMove) : List (Nat × Nat) := match m.op with | .xten _ _ _ _ _ true => m.tensor | _ => m.dst

/-- The source bytes that have not been read, and the output bytes that have not landed. -/
def XMove.restIn (m : XMove) : List (Nat × Nat) := gaps (rangeBytes m.ins) (m.got.map (fun e => (e.1, e.2.length)))
def XMove.restOut (m : XMove) : List (Nat × Nat) := gaps (rangeBytes m.outs) m.landed

/-- Source bytes a to a + n − 1 as they were read. -/
def XMove.read (m : XMove) (a n : Nat) : List Byte :=
  (sortBy (·.1) m.got).flatMap (fun (b, bs) => (bs.drop (a - b)).take (a + n - max a b))

/-- The numbers that some ranges hold, in order; and rising numbers as ranges. -/
def spread (l : List (Nat × Nat)) : List Nat := l.flatMap (fun e => (List.range e.2).map (fun i => e.1 + i))
def runs (l : List Nat) : List (Nat × Nat) :=
  l.foldr (fun p acc => match acc with
    | (q, k) :: rest => if p + 1 = q then (p, k + 1) :: rest else (p, 1) :: acc
    | [] => [(p, 1)]) []

/-- Where byte p of the dense data of a tile stands once it is swizzled, and back (R182). -/
def Layout.swizzled (l : Layout) (p : Nat) : Nat :=
  let m := l.rowBytes
  if l.swz = 0 then p else p / m * m + ((p % m / 16) ^^^ (p / m % 2 ^ l.swz)) * 16 + p % 16

/-- The dense row and column of element k of the exchanged or plain tile (R183). -/
def Layout.swapped (l : Layout) (xp : BitVec 2) (k : Nat) : Nat × Nat :=
  let n := l.tile.headD 1
  if xp = 0 then (k / n, k % n) else (k % n, k / n)

/-- Elements that byte p of some row-major elements holds a part of. -/
def elemsAt (ty p : Nat) : List Nat := if tWidth ty = 4 then [2 * p, 2 * p + 1] else [p * 8 / tWidth ty]

/-- The first byte and the number of bytes of element k. -/
def elemRange (ty k : Nat) : Nat × Nat := (k * tWidth ty / 8, max 1 (tWidth ty / 8))

/-- The source bytes that output byte p of XTEN comes from (R181 to R184). -/
def XMove.xtenFrom (m : XMove) (xp : BitVec 2) (out : Bool) (p : Nat) : List (Nat × Nat) :=
  let l := layoutOf m.desc
  let sizes := m.rows.map (fun e => rangeBytes e.2)
  let before (r : Nat) : Nat := (sizes.take r).sum
  let head := if l.scl then 64 else 0
  if out then
    if p < sizes.sum then
      let r := ((List.range sizes.length).find? (fun i => p < before (i + 1))).getD 0
      ((elemsAt l.ty (p - before r)).filter (· < (m.rows.getD r (0, [])).1)).map (fun col =>
        let (a, b) := if xp = 0 then (r, col) else (col, r)
        let (q, n) := elemRange l.ty (a * l.tile.headD 1 + b)
        (head + l.swizzled q, n))
    else [(head + l.dataBytes + (p - sizes.sum), 1)]
  else if p < head then []
  else if p < head + l.dataBytes then
    (elemsAt l.ty (l.swizzled (p - head))).filterMap (fun k =>
      let (r, col) := l.swapped xp k
      let (q, n) := elemRange l.ty col
      if col < (m.rows.getD r (0, [])).1 then some (before r + q, n) else none)
  else [(sizes.sum + (p - head - l.dataBytes), 1)]

/-- The source bytes that output bytes a to a + n − 1 come from; XBRD's members receive one source (R174). -/
def XMove.needs (m : XMove) (a n : Nat) : List (Nat × Nat) :=
  let k := rangeBytes m.ins
  match m.op with
  | .xten _ _ _ _ xp dir => (List.range n).flatMap (fun i => m.xtenFrom xp dir (a + i))
  | .xbrd .. => if a % k + n ≤ k then [(a % k, n)] else [(0, k)]
  | _ => [(a, n)]

/-- What some ranges of a step's output come from and has not been read. -/
def XMove.unread (m : XMove) (l : List (Nat × Nat)) : List (Nat × Nat) :=
  let need := l.flatMap (fun e => m.needs e.1 e.2)
  runs ((spread m.restIn).filter (fun p => need.any (fun e => e.1 ≤ p && p < e.1 + e.2)))

/-- A step as if it had read all its source: bytes that it has not read are 0. -/
def XMove.filled (m : XMove) : XMove := { m with got := m.got ++ m.restIn.map (fun e => (e.1, List.replicate e.2 0)) }

/-- Read ranges of a step's source by a party of core c. -/
def XMove.fetch (m : XMove) (s : State) (c : Nat) (stale : Bool) (since : Option Nat) (l : List (Nat × Nat)) : XMove × State :=
  l.foldl (fun (acc : XMove × State) e =>
    let (bs, s) := readPieces acc.2 c stale since (midBytes m.ins e.1 e.2)
    ({ acc.1 with got := acc.1.got ++ [(e.1, bs)] }, s)) (m, s)

/-- The rows of a dense tile exchanged (R183). -/
def exchange (rows : List (List Nat)) : List (List Nat) := (List.range 64).map (fun j => rows.map (fun r => r.getD j 0))

/-- Swizzle a dense row of bytes (R182): chunk j goes to chunk j XOR (r mod (G/16)). It is its own inverse. -/
def swizzleRow (swz r : Nat) (row : List Byte) : List Byte :=
  let chunks := rowsOf (row.length / 16) 16 row
  ((List.range chunks.length).map (fun j => chunks.getD (j ^^^ (r % 2 ^ swz)) [])).flatten

def swizzle (swz n m : Nat) (bs : List Byte) : List Byte :=
  if swz = 0 then bs
  else ((List.zip (List.range n) (rowsOf n m bs)).map (fun (r, row) => swizzleRow swz r row)).flatten

/-- A pattern as a unit writes it: bits [15:12] of a bq12 element are copies of bit 11 (R217; log entry 85, DEDUCED). -/
def unitPattern (ty v : Nat) : Nat := if ty = 14 then lanePattern 16 (laneInt 14 v) else v

/-- Cut a list into lists of the given lengths. -/
def cutList {α : Type} : List Nat → List α → List (List α)
  | [], _ => []
  | n :: ns, l => l.take n :: cutList ns (l.drop n)

/-- The dense side that XTEN .in makes of its source (R181 to R184). -/
def xtenDense (m : XMove) (xp : BitVec 2) : List Byte :=
  let l := layoutOf m.desc
  let n := l.tile.headD 1
  let pad := unitPattern l.ty (l.pad % 2 ^ tWidth l.ty)
  let sizes := m.rows.map (fun e => rangeBytes e.2)
  let rows := (List.zip m.rows (cutList sizes (m.read 0 sizes.sum))).map (fun (e, bs) =>
    let vs := ((elemPatterns l.ty bs).take e.1).map (unitPattern l.ty)
    vs ++ List.replicate (n - vs.length) pad)
  let rows := if xp = 0 then rows else exchange rows
  let data := swizzle l.swz l.rowCount l.rowBytes (elemBytes l.ty rows.flatten)
  let sc := m.read sizes.sum (rangeBytes m.scl)
  if l.scl then headerBytes l.ty l.so ++ data ++ sc ++ List.replicate (256 - sc.length) 0 else data

/-- Write the elements of one tensor row; an odd last nibble leaves the other half of its byte (R181). -/
def writeRow (s : State) (c ty : Nat) (near : Bool) (e : Nat × List (Nat × Nat)) (row : List Nat) : State :=
  let bs := elemBytes ty (row.take e.1)
  let fix := tWidth ty = 4 && e.1 % 2 = 1
  let last := (e.2.getLast?).getD (0, 1)
  let old := leValue (viewRead s (clusterOf c) (last.1 + last.2 - 1) 1)
  let bs := if fix then bs.dropLast ++ [BitVec.ofNat 8 (old / 16 * 16) ||| bs.getLastD 0] else bs
  writePieces s c 0 near e.2 bs

/-- Do two rows of a list share a byte? -/
def rowsMeet : List (List (Nat × Nat)) → Bool
  | [] => false
  | r :: rest => rest.any (rangesMeet r) || rowsMeet rest

/-- The physical addresses of the bytes of some pieces. -/
def byteAddrs (l : List (Nat × Nat)) : List Nat := l.flatMap (fun e => (List.range e.2).map (fun i => e.1 + i))

/-- A name for the place of each element of a tensor row: its first byte and nibble. -/
def rowPlaces (ty : Nat) (e : Nat × List (Nat × Nat)) : List Nat :=
  let as := byteAddrs e.2
  (List.range e.1).map (fun j =>
    if tWidth ty = 4 then 2 * as.getD (j / 2) 0 + j % 2 else 2 * as.getD (j * (tWidth ty / 8)) 0)

/-- Write tensor rows some of which share addresses: where an element's place has been written already, either element's value stands
(R181); the n-th free choice and those after it say which (log entry 19). -/
def writeRowsMeeting (c ty : Nat) (near : Bool) : Nat → List Nat → State → List ((Nat × List (Nat × Nat)) × List Nat) → State
  | _, _, s, [] => s
  | n, seen, s, (e, row) :: rest =>
    let places := rowPlaces ty e
    let now := elemPatterns ty (e.2.flatMap (fun p => viewRead s (clusterOf c) p.1 p.2))
    let row := (List.range row.length).map (fun j =>
      if seen.contains (places.getD j 1) && Config.freeBit (n + j) then now.getD j 0 else row.getD j 0)
    writeRowsMeeting c ty near (n + row.length) (places ++ seen) (writeRow s c ty near e row) rest

/-- Write the rows of a tile to its tensor (R181). -/
def writeRows (s : State) (c ty : Nat) (near : Bool) (l : List ((Nat × List (Nat × Nat)) × List Nat)) : State :=
  if rowsMeet (l.map (fun e => e.1.2)) then
    writeRowsMeeting c ty near s.freeIx [] { s with freeIx := s.freeIx + (l.map (fun e => e.2.length)).sum } l
  else l.foldl (fun s (e, row) => writeRow s c ty near e row) s

/-- The tensor side that XTEN .out makes of the dense side: its rows, and its scales (R181 to R184). -/
def xtenTensor (m : XMove) (xp : BitVec 2) : List (List Nat) × List Byte :=
  let l := layoutOf m.desc
  let obj := m.read 0 (rangeBytes m.src)
  let body := if l.scl then (obj.drop 64).take l.dataBytes else obj
  let rows := rowsOf l.rowCount (l.tile.headD 1) (elemPatterns l.ty (swizzle l.swz l.rowCount l.rowBytes body))
  ((if xp = 0 then rows else exchange rows).map (·.map (unitPattern l.ty)), (obj.drop (64 + l.dataBytes)).take (rangeBytes m.scl))

/-- The rows, and the parts of rows, that lie among bytes a to a + n − 1 of a tensor side whose first listed row begins at byte off. -/
def rowParts (ty a n : Nat) : Nat → List ((Nat × List (Nat × Nat)) × List Nat) → List ((Nat × List (Nat × Nat)) × List Nat)
  | _, [] => []
  | off, (e, row) :: rest =>
    let k := rangeBytes e.2
    let lo := max a off - off
    let hi := min (a + n) (off + k) - off
    let per (b : Nat) : Nat := min e.1 (b * 8 / tWidth ty)
    (if lo < hi then [((per hi - per lo, midBytes e.2 lo (hi - lo)), (row.drop (per lo)).take (per hi - per lo))] else [])
      ++ rowParts ty a n (off + k) rest

/-- The bytes of a tensor side, but for the high half of a last byte that holds one nibble: its places are listed (R181). -/
def halfPlaces (ty : Nat) : Nat → List (Nat × List (Nat × Nat)) → List Nat
  | _, [] => []
  | off, e :: rest =>
    let k := rangeBytes e.2
    (if tWidth ty = 4 && e.1 % 2 = 1 then [off + k - 1] else []) ++ halfPlaces ty (off + k) rest

/-- Write bytes a to a + n − 1 of XTEN .out's tensor side (R181); rows that share addresses leave either element's value. -/
def xtenOut (s : State) (c : Nat) (near : Bool) (m : XMove) (xp : BitVec 2) (a n : Nat) : State :=
  let ty := (layoutOf m.desc).ty
  let (rows, sc) := xtenTensor m xp
  let all := rangeBytes (m.rows.flatMap (·.2))
  if rowsMeet (m.rows.map (·.2)) then
    writePieces (writeRows s c ty near (rowParts ty a n 0 (List.zip m.rows rows))) c 0 near (midBytes m.scl (a - all) (a + n - max a all))
      (sc.drop (a - all))
  else
    let bs := (((List.zip m.rows rows).flatMap (fun (e, row) => elemBytes ty (row.take e.1)) ++ sc).drop a).take n
    let half := halfPlaces ty 0 m.rows
    let bs := (List.zip (List.range n) (List.zip bs (byteAddrs (midBytes m.outs a n)))).map (fun (i, b, pa) =>
      if half.contains (a + i) then (b &&& 15#8) ||| BitVec.ofNat 8 (leValue (viewRead s (clusterOf c) pa 1) / 16 * 16) else b)
    writePieces s c 0 near (midBytes m.outs a n) bs

/-- The elements of XRED in ascending order, each one indivisible action (R175). -/
def reduceAll (c : Nat) (i32 : Bool) : State → List Nat → List Nat → State
  | s, pa :: ps, v :: vs => reduceAll c i32 (s.atomicAt c pa 4 none (fun old => atomicOp (if i32 then 0 else 9) 4 old v)).2 ps vs
  | s, _, _ => s

/-- The same where source and destination share bytes: ds and as list the element addresses, and vs the
source as it stood before the step. A source element that an earlier action of the step has changed is read as it stood or as it is,
by the n-th free choice and those after it (log entry 19). -/
def reduceWords (c : Nat) (i32 : Bool) : Nat → State → List Nat → List Nat → List Nat → State
  | n, s, d :: ds, a :: as, v :: vs =>
    let now := leValue (viewRead s (clusterOf c) a 4)
    let v := if now ≠ v && Config.freeBit n then now else v
    reduceWords c i32 (n + 1) (s.atomicAt c d 4 none (fun old => atomicOp (if i32 then 0 else 9) 4 old v)).2 ds as vs
  | _, s, _, _, _ => s

/-- The 4-byte elements of physical pieces. -/
def wordAddrs (l : List (Nat × Nat)) : List Nat := l.flatMap (fun e => (List.range (e.2 / 4)).map (fun i => e.1 + 4 * i))

/-- The bytes that a step moves whose source and destination share bytes, taken in the order listed: as, ds and bs are the source
addresses, the destination addresses and the source bytes before the step, and w holds what has been written so far, the latest first.
A source byte that another part of the step has written is taken as it stood or as it was written (R170), by the n-th free choice and
those after it (log entry 19). -/
def meetingBytes : Nat → List Nat → List Nat → List Byte → List (Nat × Byte) → List (Nat × Byte)
  | n, a :: as, d :: ds, b :: bs, w =>
    let v := match w.find? (fun e => e.1 = a) with
      | some e => if Config.freeBit n then e.2 else b
      | none => b
    meetingBytes (n + 1) as ds bs ((d, v) :: w)
  | _, _, _, _, w => w

/-- The bytes for the destination of such a step: XCPY moves its bytes in any order, of which both directions stand for all; XGAT and
XSCT take their elements in ascending order (R173). -/
def meetingMove (n : Nat) (anyOrder : Bool) (src dst : List Nat) (bs : List Byte) : List Byte :=
  if anyOrder && Config.freeBit n then (meetingBytes (n + 1) src.reverse dst.reverse bs.reverse []).map (·.2)
  else (meetingBytes (n + 1) src dst bs []).reverse.map (·.2)

/-- The bytes a to a + n − 1 of a fill (R172). -/
def fillBytes (v : Word) (a n : Nat) : List Byte := (List.range n).map (fun k => BitVec.ofNat 8 (v.toNat / 256 ^ ((a + k) % 8)))

/-- Land ranges of a step's output whose source has been read (R167); near: the writes perform in the cluster cache (R101). -/
def State.writeOut (s : State) (c : Nat) (near : Bool) (m : XMove) (l : List (Nat × Nat)) : State :=
  let into := pickBytes m.outs l
  let bs := l.flatMap (fun e => m.read e.1 e.2)
  match m.op with
  | .xfil .. => writePieces s c 0 near into (l.flatMap (fun e => fillBytes m.fill e.1 e.2))
  | .xten _ _ _ _ xp true => l.foldl (fun s e => xtenOut s c near m.filled xp e.1 e.2) s
  | .xten _ _ _ _ xp false =>
    let d := xtenDense m.filled xp
    writePieces s c (BitVec.ofNat 4 (layoutOf m.desc).ty) near into (l.flatMap (fun e => (d.drop e.1).take e.2))
  | .xbrd .. =>
    let k := rangeBytes m.ins
    writePieces s c 0 near into (l.flatMap (fun e => if e.1 % k + e.2 ≤ k then m.read (e.1 % k) e.2
      else (((List.replicate (rangeBytes m.outs / k) (m.read 0 k)).flatten).drop e.1).take e.2))
  | .xred _ _ _ _ ty =>
    if rangesMeet m.src m.dst then
      reduceWords c ty s.freeIx { s with freeIx := s.freeIx + bs.length } (wordAddrs into) (wordAddrs (pickBytes m.src l)) (words32 bs)
    else reduceAll c ty s (wordAddrs into) (words32 bs)
  | _ =>
    if rangesMeet m.src m.dst then
      let any : Bool := match m.op with | .xcpy .. => true | _ => false
      writePieces { s with freeIx := s.freeIx + bs.length + 1 } c 0 near into
        (meetingMove s.freeIx any (byteAddrs (pickBytes m.src l)) (byteAddrs into) bs)
    else writePieces s c 0 near into bs

/-- The requests of a step: it counts the lines of its source and of its destination once, and an atomic as one (R91). -/
def State.countStep (s : State) (c : Nat) (m : XMove) : State :=
  let d := dieOf c
  let s := m.ins.foldl (fun s e => countLines s d e.1 e.2) s
  match m.op with
  | .xred .. => (wordAddrs m.dst).foldl (fun s a => countAtomic s d a) s
  | _ => m.outs.foldl (fun s e => countLines s d e.1 e.2) s

/-- The bytes that move together: a granule of a vector register (R22), an element of the other window ranges. -/
def moveUnit (pa : Nat) : Nat :=
  match winSplit pa with
  | some (_, off) => if winRange off = .vreg then 64 else granule off
  | none => 1

/-- The granules and the register elements that pieces touch, by their addresses. -/
def moveUnits (l : List (Nat × Nat)) : List Nat :=
  l.flatMap (fun e =>
    let u := moveUnit e.1
    if u = 1 ∨ e.2 = 0 then [] else (List.range ((e.1 + e.2 - 1) / u - e.1 / u + 1)).map (fun i => (e.1 / u + i) * u))

/-- The output bytes of a part that are still to land: those among a to a + n − 1, and with each the rest of its granule or register
element, which lands whole (R22). -/
def XMove.part (m : XMove) (a n : Nat) : List (Nat × Nat) :=
  let mine := clip m.restOut a n
  let us := moveUnits (pickBytes m.outs mine)
  if us = [] then mine
  else runs (((List.zip (spread m.restOut) (byteAddrs (pickBytes m.outs m.restOut))).filter (fun (p, pa) =>
    (a ≤ p && p < a + n) || us.contains (pa / moveUnit pa * moveUnit pa))).map (·.1))

/-- May these output bytes land now, before the rest? XRED goes in rising order of its elements (R175), of two elements of XSCT that
share a place the later one lands last (R173), and rows of XTEN .out that share addresses are cut between elements (R181). -/
def XMove.mayLand (m : XMove) (l : List (Nat × Nat)) : Bool :=
  let rest := gaps (rangeBytes m.outs) (l ++ m.landed)
  l ≠ []
  && (match m.op with
      | .xred .. => l.all (fun e => e.2 % 4 = 0 && (m.restOut.head?).any (fun u => u.1 = e.1))
      | .xsct .. => l.all (fun e => !rangesMeet (midBytes m.outs e.1 e.2) (pickBytes m.outs (clip rest 0 e.1)))
      | .xten _ _ _ _ _ true =>
        let u := max 1 (tWidth (layoutOf m.desc).ty / 8)
        !rowsMeet (m.rows.map (·.2)) || l.all (fun e => e.1 % u = 0 && e.2 % u = 0)
      | _ => true)

/-- The source ranges to read and the output ranges to land: of the whole step, or of a part, which only reads some of its source
(true), or lands some of its output and reads first what that comes from. none: the part may not move. -/
def XMove.todo (m : XMove) : Option (Bool × Nat × Nat) → Option (List (Nat × Nat) × List (Nat × Nat))
  | none => some (m.restIn, m.restOut)
  | some (true, a, n) => some (clip m.restIn a n, [])
  | some (false, a, n) =>
    let l := m.part a n
    if m.mayLand l then some (m.unread l, l) else none

/-- Does a write of pieces wait at a halted cluster's window ports (R330)? -/
def State.piecesShut (s : State) (c : Nat) (l : List (Nat × Nat)) : Bool := l.any (fun e => s.portShut c e.1)

/-- What moving a part of a step comes to: it waits for a tile in use or at a halted port, it fails with ECC, or it has moved. -/
inductive Moved where
  | wait
  | ecc (sub : Nat)
  | done (m : XMove) (s : State)

/-- Read and land ranges of a step (R167, R187): only what it touches now can hold it up or fail. -/
def State.moveRanges (s : State) (c : Nat) (stale : Bool) (since : Option Nat) (m : XMove) (rd wr : List (Nat × Nat)) : Moved :=
  let ins := pickBytes m.ins rd
  let into := pickBytes m.outs wr
  if s.piecesBusy (ins ++ into) || s.piecesShut c into then .wait
  else match s.piecesEcc c (ins ++ into) with
    | some n => .ecc n
    | none =>
      let s := if m.counted then s else s.countStep c m
      let x := s.die (dieOf c)
      let (m, s) := m.fetch s c stale since rd
      let s := s.writeOut c stale m wr
      .done { m with counted := true, landed := m.landed ++ wr } (s.onDie (dieOf c) (fun y => { y with lreq := x.lreq, rreq := x.rreq }))

/-- Does the step signal its bytes early (R171)? -/
def earlySignal (e : Entry) (i : Instr) : Bool :=
  match i with
  | .xcpy _ _ _ _ _ cb => cb && syncSen e.sync && syncBytes e.sync
  | _ => false

/-- Change the X entry of core c. -/
def State.onXrun (s : State) (c : Nat) (f : XRun → XRun) : State := s.onCore c (fun k => { k with xrun := k.xrun.map f })

/-- Count a step's bytes (R188), or signal them early; an early signal past 2^32 − 1 stops the entry with SEMOVF at the word
after the step, and the bytes stay in the total (R171). -/
def State.countMove (s : State) (c : Nat) (e : Entry) (m : XMove) : State :=
  if earlySignal e m.op then
    match (s.core c).semAdd (syncSsem e.sync) m.bytes with
    | some k => s.setCore c k
    | none =>
      (s.onXrun c (fun r =>
        let r := { r with bytes := r.bytes + m.bytes }
        if r.flt.isSome then r else { r with idx := m.after.1, pass := m.after.2 })).entryStop c .x ⟨.semovf, 0, 0⟩
  else s.onXrun c (fun r => { r with bytes := r.bytes + m.bytes })

/-- A step in its move phase fails with ECC (R169, R314): it leaves, its check of a pool slot is released, and its entry stops. -/
def State.failMove (s : State) (c k : Nat) (e : Entry) (m : XMove) (sub : Nat) : State :=
  ((s.releaseAll c e.launch m.held.toList).onXrun c (fun r => { r with
    moves := r.moves.eraseIdx k })).entryStop c .x (eccTrouble sub)

/-- TRANSFER_MOVE_PHASE_DONE (R167, R170, R171, R187): the k-th step of core c's X entry in its move phase performs; it waits
while a tile it touches is in use. With a part, some of its source is read or some of its output lands, and the step performs later
(R22, R178). stale: its reads of memory are served from the cluster cache, and its writes perform
there (R101). -/
def execTransferMovePhaseDone (c k : Nat) (stale : Bool) (part : Option (Bool × Nat × Nat)) (s : State) : Out :=
  match (s.core c).xrun with
  | none => .next s
  | some r => match r.moves[k]? with
    | none => .next s
    | some m => match m.todo part with
      | none => .next s
      | some (rd, wr) => match s.moveRanges c stale r.entry.since m rd wr with
        | .wait => .next s
        | .ecc n => .next (s.failMove c k r.entry m n)
        | .done m' s' => match part with
          | none => .next (((s'.countAll c r.entry.launch m.held.toList).onXrun c (fun r => { r with
              moves := r.moves.eraseIdx k })).countMove c r.entry m)
          | some _ => .next (s'.onXrun c (fun r => { r with moves := r.moves.set k m' }))

-- Ordering words

/-- XMRK (R178): it waits until every earlier access has performed. -/
def execXmrk (e : Bool) (s : State) : Out :=
  match s.xReady with
  | none => .next s
  | some r => if r.moves.isEmpty then .next (s.xSet (r.next e)) else .next s

/-- XSIG (R176): a release after every earlier step of the entry; SEMOVF leaves the semaphore unchanged. -/
def execXsig (e : Bool) (ea en : BitVec 4) (s : State) : Out :=
  match s.xReady with
  | none => .next s
  | some r =>
    if !r.moves.isEmpty then .next s
    else
      let a := r.addr ea
      if a % 4 ≠ 0 then .next (s.entryStop s.focus .x (alignTrouble a))
      else match semTarget s s.focus a with
        | .error w => .next (s.entryStop s.focus .x w)
        | .ok (d, m) => match performSignal s s.focus d m (r.num en % 2 ^ 32) with
          | .done s' _ => .next (s'.onXrun s.focus (fun r => r.next e))
          | .fault w => .next (s.entryStop s.focus .x w)
          | .busy => .next s

/-- XRFL (R185): the cluster's cache drops the record. -/
def execXrfl (e : Bool) (eh : BitVec 4) (s : State) : Out :=
  match s.xReady with
  | none => .next s
  | some r =>
    let a := r.addr eh
    if a % 64 ≠ 0 then .next (s.entryStop s.focus .x (alignTrouble a))
    else .next ((s.xSet (r.next e)).onCluster (clusterOf s.focus) (fun k => { k with
      layouts := k.layouts.filter (fun x => x.1 ≠ a) }))

/-- The served XALC of the core in focus writes its handle and completes (R177). -/
def State.finishXalc (s : State) (e : Bool) (ed : BitVec 4) : State :=
  match (s.core s.focus).xrun with
  | none => s
  | some r => match r.request.bind (·.granted) with
    | none => s
    | some h => s.xSet ({ r with e := vset r.e ed.toNat h, request := none }.next e)

/-- XALC (R177): it allocates as TALC does, for the launch of the entry, and waits while the partition is full. -/
def execXalc (e : Bool) (ed ea eb : BitVec 4) (s : State) : Out :=
  match s.xReady with
  | none => .next s
  | some r =>
    if r.request.isSome then .next (s.finishXalc e ed)
    else
      let c := s.focus
      let n := r.num ea
      let target := if 65535 < n then .error (poolTrouble 6) else poolTarget s c r.entry.launch (r.num eb)
      match target with
      | .error w => .next (s.entryStop c .x w)
      | .ok (d, p) =>
        let q : Request := { talc := true, target := d, part := p, tick := s.tick,
                             limit := (s.strand c r.entry.strand).limit.toNat }
        .next (((s.xSet { r with request := some q }).allocate d p r.entry.launch { core := c, unit := 4, n := n }).finishXalc e ed)

end Sys2Proof.Machine
end

