-- ==== Sys2Proof/Machine/Kill.lean ====
section
/-! DEFINITION. The end of a launch by a kill (R315), its containment of errors (R314, R353, R357), and the host's read errors
(R353). -/
namespace Sys2Proof.Machine

/-- A strand of a killed launch (R315, step 1): it issues nothing more, its stop and its records are discarded. -/
def Strand.killed (x : Strand) : Strand :=
  { x.landAll with life := .ended, done := true, stop := none, request := none, reissue := [], recv := none, fifo := []
                   relend := 0, area := Memory.store x.area 0 [0] }

/-- The parts of a core that a kill of launch r clears at once: its strands, a team that has not started, the entries it has queued,
its overflow events, which its arm sequence number marks (R315, R248). -/
def Core.killed (k : Core) (r : BitVec 10) (arm : Nat) : Core :=
  let own : Bool := match k.team with | some m => m.launch = r | none => false
  let keep (e : Entry) : Bool := e.launch ≠ r
  { k with
    strands := if own then k.strands.map (fun x => if x.life = .idle then x else x.killed) else k.strands
    team := if own then k.team.map (fun m => if m.started then m else { m with started := true, strands := 0 }) else k.team
    waits := if own then k.waits.filter (fun w => match w.who with | .strand _ => false | .head _ => true) else k.waits
    vq := k.vq.filter keep, mq := k.mq.filter keep, xq := k.xq.filter keep, ovq := k.ovq.filter (fun e => e.2 ≠ arm) }

/-- The counters of R114 count the entries that are still queued, and those that Skyo keeps. -/
def Core.recount (k : Core) (kept : Eng → BitVec 2 → Nat) : Core :=
  let count (en : Eng) (t : BitVec 2) : Nat := ((k.queue en).filter (fun e => e.strand = t)).length + kept en t
  allStrands.foldl (fun k t =>
    k.setStrand t { k.strand t with cntV := count .v t, cntM := count .m t, cntX := count .x t }) k

/-- Stop strand t of a killed launch: its requests are withdrawn and its lease is released (R315, R325). -/
def State.killStrand (s : State) (c : Nat) (t : BitVec 2) : State :=
  if (s.strand c t).life = .idle then s
  else
    let s := (s.settleRequest c t none).releaseLease c t
    { s with skyo := { s.skyo with stops := s.skyo.stops.filter (fun u => !(u.1 = c && u.2 = t)) } }

/-- The strand of a killed launch while its accesses perform: it takes no stop. -/
def Strand.over (x : Strand) : Strand := { x with life := .ended, stop := none }

/-- Perform what the heads of a strand's queues may (R315, R318); fuel bounds the words. -/
def drainHeads : Nat → State → Nat → BitVec 2 → State
  | 0, s, _, _ => s
  | fuel + 1, s, c, t =>
    let due (l : List QItem) : Bool := match l with | q :: _ => q.due (s.core c) | [] => false
    let s := if due (s.strand c t).loads then (s.loadStep c t false).onStrand c t Strand.over else s
    let s := if due (s.strand c t).stores then (s.storeStep c t false).onStrand c t Strand.over else s
    drainHeads fuel s c t

/-- The same for a strand that has ended (R106): an access that faults stops it, as ever. -/
def drainEndedHeads : Nat → State → Nat → BitVec 2 → State
  | 0, s, c, t => s.settleFences c t
  | fuel + 1, s, c, t =>
    let due (l : List QItem) : Bool := match l with | q :: _ => q.due (s.core c) | [] => false
    let s := if due (s.strand c t).loads then s.loadStep c t false else s
    let s := if due (s.strand c t).stores then s.storeStep c t false else s
    drainEndedHeads fuel s c t

/-- Once an access of the strand has faulted, the accesses that are not accepted are discarded: it, those behind it in its queue, and
those a MARK or FENCE holds back behind it (R300, R317). -/
def Strand.discardFaulted (x : Strand) : Strand :=
  if (x.loads ++ x.stores).all (·.flt.isNone) then x
  else { x with loads := x.loads.takeWhile (fun q => q.flt.isNone && !x.fenceHolds q.id false)
                stores := x.stores.takeWhile (fun q => q.flt.isNone && !x.fenceHolds q.id true), fences := [] }

/-- The accepted scalar accesses of a strand perform (R106, R315); one that faults performs nothing, and neither does any that it
keeps from being accepted. A word that waits stays. -/
def drainStrand (fuel : Nat) (s : State) (c : Nat) (t : BitVec 2) : State :=
  ((drainHeads fuel (s.onStrand c t Strand.over) c t).onStrand c t Strand.discardFaulted).settleFences c t

/-- The steps that launch r's M entry has issued on a core finish, without their counts (R267); one that meets a fenced unit fails
(R245, R314); fuel bounds them. -/
def finishSteps : Nat → State → Nat → BitVec 10 → State
  | 0, s, _, _ => s
  | fuel + 1, s, c, r =>
    match (s.core c).mrun with
    | none => s
    | some m =>
      match m.steps with
      | [] => s
      | o :: _ =>
        if m.entry.launch ≠ r then s
        else if (s.stepEcc c o).isSome then finishSteps fuel (s.failStep c 0 m o false) c r
        else finishSteps fuel ((s.releaseAll c r o.held).finishStep c 0 m { o with held := [] } false) c r

/-- The steps that launch r's X entry has in their move phase perform, without a signal and without their counts (R267; R315, step 2);
fuel bounds them. One that waits for a tile (R187) or at a halted port (R330) stays; one whose access fails leaves (R314). -/
def finishMoves : Nat → State → Nat → BitVec 10 → State
  | 0, s, _, _ => s
  | fuel + 1, s, c, r =>
    match (s.core c).xrun with
    | none => s
    | some x => match x.moves with
      | [] => s
      | m :: rest =>
        if x.entry.launch ≠ r then s
        else
          let leave (s : State) : State := (s.releaseAll c r m.held.toList).onXrun c (fun y => { y with moves := rest })
          match s.moveRanges c false x.entry.since m m.restIn m.restOut with
          | .wait => s
          | .ecc _ => finishMoves fuel (leave s) c r
          | .done _ s => finishMoves fuel (leave s) c r

/-- Flush the running entries of launch r on a core once their steps have finished (R315, step 2). -/
def State.flushRuns (s : State) (c : Nat) (r : BitVec 10) : State :=
  let s := finishMoves Config.moveDepth (finishSteps 64 s c r) c r
  let s := (s.settleXalc c (fun e => e.launch = r)).onCore c (fun k => k.landOlds (fun e => e.launch = r))
  [Eng.v, .m, .x].foldl (fun s en =>
    match (s.core c).runEntry en with
    | some (e, _, _) => if e.launch = r ∧ (s.core c).stepsDone (fun x => x.launch = r) then s.onCore c (fun k => k.clearRun en) else s
    | none => s) s

/-- Nothing of launch r is left to perform on a core. -/
def State.quietFor (s : State) (c : Nat) (r : BitVec 10) : Bool :=
  let k := s.core c
  k.stepsDone (fun x => x.launch = r) && (match k.team with | some m => m.launch ≠ r || k.teamDone | none => true)

/-- Did a team of launch r run on a core (R252)? -/
def Core.ranOn (k : Core) (r : BitVec 10) : Bool :=
  (match k.pool with | some po => po.launch = r && po.live | none => false) || k.away.any (fun po => po.launch = r)

/-- Steps 1 to 3 of a kill on one core: strands stop, accepted accesses and issued steps perform, entries are flushed. -/
def State.killOn (s : State) (r : BitVec 10) (c : Nat) : State :=
  let own := s.launchOf c = some r
  let s := if own then allStrands.foldl (fun s t => s.killStrand c t) s else s
  let s := s.flushRuns c r
  let busy (en : Eng) : Bool := match (s.core c).runEntry en with | some (e, _, _) => e.launch = r | none => false
  let s := s.onCore c (fun k =>
    let q := k.killed r (s.armOf c r)
    let q := { q with vq := if busy .v then k.vq.take 1 ++ q.vq else q.vq, mq := if busy .m then k.mq.take 1 ++ q.mq else q.mq
                      xq := if busy .x then k.xq.take 1 ++ q.xq else q.xq }
    ((([Eng.v, .m, .x].foldl (fun q en => if (k.queue en).head? = (q.queue en).head? then q else q.dropWait (.head en)) q)).recount (fun en t => s.kept c en t (some r))).endCut)
  if own then allStrands.foldl (fun s t => if (s.strand c t).life = .idle then s else drainStrand 64 s c t) s else s

/-- The overflow events of a launch leave the saved queue of another launch's swapped team (R248). -/
def TeamCtx.dropEvents (x : TeamCtx) (arm : Nat) : TeamCtx := { x with saved := { x.saved with ovq := x.saved.ovq.filter (fun e => e.2 ≠ arm) } }

def BankEntry.dropEvents (e : BankEntry) (arm : Nat) : BankEntry :=
  match e with
  | .team l p a i ctx => .team l p a i (ctx.map (·.dropEvents arm))
  | .task p n a r => .task p n a r

/-- A saved context of a killed launch: what it has under way is gone (R312, R315). -/
def Core.flushed (k : Core) (r : BitVec 10) (arm : Nat) : Core :=
  let k := [Eng.v, .m, .x].foldl (fun k en => match k.runEntry en with | some (e, _, _) => if e.launch = r then k.clearRun en else k | none => k) k
  k.killed r arm

/-- The waiting teams and the records kept for a launch go (R315, step 3), those of a pre-empted partition too, and its overflow events
wherever they are saved (R248). -/
def State.killQueued (s : State) (p : Nat) (r : BitVec 10) : State :=
  let arm := match s.launch? p r with | some l => l.armseq | none => 0
  let s := (List.range Config.clusterCount).foldl (fun s b =>
    if (s.cluster b).part = p ∧ (s.cluster b).bank ≠ [] then
      s.onCluster b (fun q => Cluster.refill { q with bank := (q.bank.filter (fun e => !e.isTeamOf r)).map (·.dropEvents arm) })
    else s) s
  s.onPart p (fun x => { x with
    swapped := (x.swapped.filter (fun t => t.team.launch ≠ r)).map (·.dropEvents arm), orphans := x.orphans.filter (fun o => o.launch ≠ r)
    saved := x.saved.map (fun e => (e.1, (e.2.flushed r arm).recount (fun en t => s.kept e.1 en t (some r)))) })

/-- Step 4 and the pools of step 5 on a core or on a saved context. -/
def Core.restoreKilled (k : Core) (r : BitVec 10) (sems : List (Nat × BitVec 32)) : Core :=
  let k := if k.ranOn r then k.setSems sems else k
  k.reclaimPools r

/-- Poison the events of a killed launch (R291). -/
def State.poisonLaunch (s : State) (p : Nat) (r : BitVec 10) : State :=
  let armed := ((s.part p).events.filter (fun e => match e.2 with
    | some v => v.armer = some r && !v.set
    | none => false)).map (·.1)
  (s.recField p r.toNat 4 2 :: s.recField p r.toNat 6 2 :: armed).foldl (fun s n => s.poisonEvent p n) s

/-- Kill a launch with STATUS CODE code, CAUSE and SUB (R315, R314, R274). Where a word or step of the launch still waits for
another party, the launch issues nothing more and the kill goes on when it is asked for again, with the STATUS it began with. -/
def State.killLaunch (s : State) (p : Nat) (r : BitVec 10) (code cause sub : Nat) : State :=
  match s.launch? p r with
  | none => s
  | some l =>
    let (code, cause, sub) := l.kill.getD (code, cause, sub)
    let s := s.setLaunch p r (some { l with kill := some (code, cause, sub) })
    let s := ((s.partCores p).foldl (fun s c => s.killOn r c) s).killQueued p r
    if !(s.partCores p).all (fun c => s.quietFor c r) then s
    else
      let lost : Bool := s.abandoned p r ≠ 0
      let sems := s.kernelSems p r
      let s := (s.partCores p).foldl (fun s c => s.onCore c (fun k => k.restoreKilled r sems)) s
      let s := s.onPart p (fun x => { x with saved := x.saved.map (fun e => (e.1, e.2.restoreKilled r sems)) })
      let s := (s.poisonLaunch p r).drainPart p
      ((s.setRecField p r.toNat 12 4 (statusOf code cause sub lost)).setRecField p r.toNat 1 1 3).dropLaunch p r

/-- An access that stops with ECC kills the launch that owns it (R314, R353). -/
def State.contain (s : State) (p : Nat) (r : BitVec 10) (sub : Nat) : State := s.killLaunch p r 5 13 sub

-- Errors

/-- The ECC subcause of a unit's uncorrectable error (R296). -/
def eccSub : EccUnit → Nat
  | .core _ array => if array then 1 else 0
  | .cluster _ => 3
  | .channel .. => 2

/-- Fence a unit (R314, R358). -/
def State.fence (s : State) (u : EccUnit) : State :=
  match u with
  | .core c _ => s.onCore c (fun k => { k with fenced := true })
  | .cluster k => s.onCluster k (fun x => { x with fenced := true })
  | .channel st ch =>
    if s.pkg.channels.contains (st.toNat, ch.toNat) then s
    else { s with pkg := { s.pkg with channels := s.pkg.channels ++ [(st.toNat, ch.toNat)] } }

/-- ECC_UNCORRECTABLE (R314): the unit is fenced, and the launch of strand t of core c, whose access failed, is killed with CAUSE
ECC. -/
def execEccUncorrectable (u : EccUnit) (c : Nat) (t : BitVec 2) (s : State) : Out :=
  let l := (s.strand c t).lridx
  let s := s.fence u
  .next (if s.launchOf c = some l then s.contain (s.partOf c) l (eccSub u) else s)

/-- CORRECTED_SOFT_ERROR (R314, R334, R357). -/
def execCorrectedSoftError (d : BitVec 2) (s : State) : Out := .next (s.onDie d.toNat (fun x => { x with softErr := x.softErr + 1 }))

/-- LINK_REPLAY_FAIL (R357): the link between two dies is fenced; the H-die is number 4. -/
def execLinkReplayFail (a b : BitVec 3) (s : State) : Out :=
  let e := (min a.toNat b.toNat, max a.toNat b.toNat)
  .next (if a ≠ b ∧ e.2 ≤ 4 ∧ !s.pkg.links.contains e then { s with pkg := { s.pkg with links := s.pkg.links ++ [e] } } else s)

-- Reads of the host region

/-- Does a range of physical pieces touch the host region (R80)? -/
def hostPieces (l : List (Nat × Nat)) : Bool := l.any (fun e => isHost e.1)

/-- Is a queued scalar word a read of the host region? -/
def QItem.readsHost (s : State) (c : Nat) (q : QItem) : Bool :=
  (match q.op with | .ld .. | .ldn .. | .qpost .. | .qdone .. => true | _ => false)
  && (match resolveIn s (s.partOf c) q.opa.toNat .load false with | .ok pa => isHost pa | .error _ => false)

/-- Has a V memory word a read of the host region to make? -/
def VOp.readsHost (s : State) (c : Nat) (q : VOp) : Bool :=
  (match q.op with | .vst .. | .vstx .. => false | _ => true)
  && (q.lanesAt s c (q.lanes.filter (fun i => !q.hasRead i))).any (fun u => u.pa.any isHost)

/-- Take the first read of the host region that the running M and X entries of strand t have outstanding. -/
def State.hostMoves (s : State) (c : Nat) (t : BitVec 2) (old : Nat → Bool) : Option (BitVec 10 × State) :=
  let k := s.core c
  let mhit (m : MStep) : Bool := old m.issued && hostPieces (m.src ++ m.src2 ++ (match m.op with | .mdrn _ _ _ _ _ md _ => if md = 1 then m.dst else [] | _ => []))
  let xhit (m : XMove) : Bool := old m.tick && hostPieces (pickBytes m.ins m.restIn)
  match k.mrun, k.xrun with
  | some r, x =>
    if r.entry.strand = t ∧ r.steps.any mhit then
      some (r.entry.launch, s.onCore c (fun k => { k with mrun := some { r with steps := r.steps.eraseP mhit } }))
    else match x with
      | some y => if y.entry.strand = t ∧ y.moves.any xhit then
          some (y.entry.launch, s.onXrun c (fun y => { y with moves := y.moves.eraseP xhit }))
        else none
      | none => none
  | none, some y =>
    if y.entry.strand = t ∧ y.moves.any xhit then some (y.entry.launch, s.onXrun c (fun y => { y with moves := y.moves.eraseP xhit }))
    else none
  | none, none => none

/-- Does core c read the host region at a virtual address? -/
def State.hostAt (s : State) (c a : Nat) (acc : Acc) : Bool :=
  match resolveIn s (s.partOf c) a acc false with | .ok pa => isHost pa | .error _ => false

/-- Does the X entry of a core read the host region in the check phase of its next word: an index list (R173), or a record that the
cluster's cache does not hold (R185)? -/
def State.checksHost (s : State) (c : Nat) (r : XRun) : Bool :=
  match entryWord s c .x r.entry r.idx with
  | .ok (.xgat _ _ _ ei) => s.hostAt c (r.addr ei) .load
  | .ok (.xsct _ _ _ ei) => s.hostAt c (r.addr ei) .load
  | .ok (.xten _ eh _ _ _ _) =>
    (s.cluster (clusterOf c)).layouts.all (fun e => e.1 ≠ r.addr eh) && s.hostAt c (r.addr eh) .load
  | _ => false

/-- A read of the host region that strand t of core c, or an entry it pushed, makes for its next word: its code (R58, R75), or what a
check phase reads. When such a read began is not kept but for the strand's own fetch (log entry 87). -/
def State.hostFetch (s : State) (c : Nat) (t : BitVec 2) (old : Nat → Bool) : Option (BitVec 10 × State) :=
  let x := s.strand c t
  let code (en : Eng) : Option (BitVec 10) := match (s.core c).runWord en with
    | some (e, idx, done, flt) =>
      if e.strand = t && !done && flt.isNone && s.hostAt c (e.base.toNat + 4 * (e.start + idx)) .fetch then some e.launch else none
    | none => none
  let check : Option (BitVec 10) := match (s.core c).xrun with
    | some r => if r.entry.strand = t && !r.ended && r.flt.isNone && s.checksHost c r then some r.entry.launch else none
    | none => none
  if x.life = .running ∧ old x.lastTick ∧ s.hostAt c x.pc.toNat .fetch then some (x.lridx, s)
  else if old 0 then ([Eng.v, .m, .x].findSome? code <|> check).map (fun l => (l, s))
  else none

/-- Take the first read of the host region that strand t of core c has outstanding, issued at a tick that old admits: the launch
it belongs to, and the state in which it has failed: a scalar word stays in its queue, so that what MARK and FENCE hold
behind it is not accepted (R317). -/
def State.takeHostRead (s : State) (c : Nat) (t : BitVec 2) (old : Nat → Bool) : Option (BitVec 10 × State) :=
  let x := s.strand c t
  let hit (q : QItem) : Bool := old q.tick && q.flt.isNone && q.readsHost s c
  let vhit (q : VOp) : Bool := old q.tick && q.readsHost s c
  if x.loads.any hit || x.stores.any hit then
    let fail (l : List QItem) : List QItem := match l.find? hit with
      | some i => l.map (fun q => if q.id = i.id then { q with flt := some (eccTrouble 4) } else q)
      | none => l
    some (x.lridx, s.onStrand c t (fun y =>
      if y.loads.any hit then { y with loads := fail y.loads } else { y with stores := fail y.stores }))
  else match (s.core c).vrun with
  | some r =>
    if r.entry.strand = t ∧ (r.vlq ++ r.vsq).any vhit then
      some (r.entry.launch, s.onCore c (fun k => { k with
        vrun := some (if r.vlq.any vhit then { r with vlq := r.vlq.eraseP vhit } else { r with vsq := r.vsq.eraseP vhit }) }))
    else s.hostMoves c t old <|> s.hostFetch c t old
  | none => s.hostMoves c t old <|> s.hostFetch c t old

/-- HOST_READ_ERROR_COMPLETION (R353): the read writes nothing, and its launch is killed. -/
def execHostReadErrorCompletion (c : Nat) (t : BitVec 2) (s : State) : Out :=
  match s.takeHostRead c t (fun _ => true) with
  | some (l, s') => .next (s'.contain (s.partOf c) l 4)
  | none => .next s

/-- HOST_READ_TIMEOUT (R353). -/
def execHostReadTimeout (c : Nat) (t : BitVec 2) (s : State) : Out :=
  match s.takeHostRead c t (fun n => n + Config.hostReadTimeout ≤ s.tick) with
  | some (l, s') => .next (s'.contain (s.partOf c) l 4)
  | none => .next s

/-- RAIL_OVERCURRENT (R359): the die's clock drops to 400 MHz; in locked-clock mode it holds 850 MHz and grants are delayed. -/
def execRailOvercurrent (d : BitVec 2) (s : State) : Out :=
  .next (if s.locked then s else s.onDie d.toNat (fun x => { x with mhz := 400 }))

end Sys2Proof.Machine
end

