-- ==== Sys2Proof/Machine/PoolWords.lean ====
section
/-! DEFINITION. The pool words (R257 to R261), TSTAT and OVPOP (R247, R249), PWQ and PWREL (R324). -/
namespace Sys2Proof.Machine

/-- TALC's checks (R258): its target, or the POOL stop. -/
def talcTarget (s : State) (c : Nat) (t : BitVec 2) (n target : Word) : Except Trouble (Nat × Nat) :=
  if 65535 < n.toNat then .error (poolTrouble 6) else poolTarget s c (s.strand c t).lridx target.toNat

/-- Place a strand's request for a slot when it has none placed (R258): it is appended to the partition's queue, and
LIMIT is read now (R255); a and b are the operands the word read. -/
def State.placeTalc (s : State) (c : Nat) (t : BitVec 2) (n : Nat) (d p : Nat) (a b : Word := 0) (lk : Links := []) : State :=
  let x := s.strand c t
  if x.request.isSome then s
  else
    let r : Request := { talc := true, opa := a, opb := b, links := lk, target := d, part := p, tick := s.tick, limit := x.limit.toNat }
    (s.onStrand c t (fun y => { y with request := some r })).allocate d p x.lridx { core := c, unit := t.setWidth 3, n := n }

/-- TALC (R258): it blocks until its request is served; the next word reads the handle. -/
def execTalc (ctl : BitVec 2) (rd ra rb : BitVec 5) (s : State) : Out :=
  let c := s.focus
  let t := s.curStrand
  let n := s.cur.sreg ra
  let g := s.cur.sreg rb
  let take (s : State) : State :=
    match (s.strand c t).request.bind (·.granted) with
    | none => s
    | some h => (s.onStrand c t (fun y => { y with request := none })).resultWord (.talc ctl rd ra rb) ctl h
  if s.cur.request.isSome then .next (take s)
  else match talcTarget s c t n g with
    | .error w => .next (s.faultWord (.talc ctl rd ra rb) ctl s.nextPc w n g (s.cur.linkOf ra rb))
    | .ok (d, p) => .next (take (s.placeTalc c t n.toNat d p n g (s.cur.linkOf ra rb)))

/-- TSEAL (R259): a release through the store queue. -/
def execTseal (ctl : BitVec 2) (ra : BitVec 5) (s : State) : Out :=
  .next (s.enqueue false (.tseal ctl ra) ctl (s.cur.sreg ra) 0 0 (s.cur.linkOf ra 0))

/-- TDROP (R260). -/
def execTdrop (ctl : BitVec 2) (ra rb : BitVec 5) (s : State) : Out :=
  .next (s.enqueue false (.tdrop ctl ra rb) ctl (s.cur.sreg ra) (s.cur.sreg rb) 0 (s.cur.linkOf ra rb))

/-- The window address of a handle's slot under a launch's layout; 0 when there is none (R261). -/
def slotAddr (parts : List PoolPart) (h : Nat) : Word :=
  let q := parts.getD (handlePart h) {}
  if handleSlot h < q.count then
    BitVec.ofNat 64 (Config.windowBase + bitsOf h 31 30 * 2 ^ 32 + bitsOf h 29 23 * 2 ^ 25 + bitsOf h 22 20 * 2 ^ 22
      + q.base + handleSlot h * q.size)
  else 0

/-- TADR (R261): it ignores generation and state, and never faults. -/
def execTadr (ctl : BitVec 2) (rd ra : BitVec 5) (s : State) : Out :=
  let po := s.newPool (s.partOf s.focus) s.cur.lridx.toNat
  .next (s.resultWord (.tadr ctl rd ra) ctl (slotAddr po.parts.toList ((s.cur.sreg ra).toNat % 2 ^ 32)))

/-- READS of a current slot of core c, or all ones (R261). -/
def readsLeft (s : State) (c h : Nat) : Word :=
  let q := (s.core c).poolPart (handlePart h)
  let x := q.slot (handleSlot h)
  if bitsOf h 31 20 = dieOf c * 2 ^ 10 + (clusterOf c % 96) * 2 ^ 3 + c % 8 ∧ handleSlot h < q.count ∧ x.st ≠ .free
      ∧ x.gen.toNat = handleGen h
  then BitVec.ofNat 64 x.reads else allOnes64

/-- TCNT (R261). -/
def execTcnt (ctl : BitVec 2) (rd ra : BitVec 5) (s : State) : Out :=
  .next (s.resultWord (.tcnt ctl rd ra) ctl (readsLeft s s.focus ((s.cur.sreg ra).toNat % 2 ^ 32)))

/-- TSTAT (R247). -/
def execTstat (ctl : BitVec 2) (rd : BitVec 5) (ts : BitVec 4) (s : State) : Out :=
  .next (s.resultWord (.tstat ctl rd ts) ctl ((vget s.cur.ts 0 ts.toNat).setWidth 64))

/-- OVPOP (R249): the oldest event leaves the queue in the issue slot; 0 when it is empty. -/
def execOvpop (ctl : BitVec 2) (rd : BitVec 5) (s : State) : Out :=
  let v := ((s.core s.focus).ovq.headD (0, 0)).1
  .next ((s.onCore s.focus (fun k => { k with ovq := k.ovq.drop 1 })).resultWord (.ovpop ctl rd) ctl v)

/-- Does PWQ stop with POWER (R324)? -/
def pwqBad (k : Core) (t : BitVec 2) (n : Nat) : Bool :=
  let held := (k.strand t).lease
  n = 0 || 48 < n || held ≠ 0 || 48 < ((k.strands.toList.map (·.lease)).sum - held) + n

/-- Queue a strand's lease request at its die's power manager (R324). -/
def State.placePwq (s : State) (c : Nat) (t : BitVec 2) (n : Nat) : State :=
  let s := s.onStrand c t (fun y => { y with request := some { talc := false, opa := BitVec.ofNat 64 n, tick := s.tick } })
  (s.onDie (dieOf c) (fun x => { x with queue := x.queue ++ [{ core := c, strand := t, n := n, tick := s.tick }] })).serveLeases
    (dieOf c)

/-- PWQ (R324): POWER on a bad request, else it blocks until the manager grants the lease. -/
def execPwq (ctl : BitVec 2) (ra : BitVec 5) (s : State) : Out :=
  let c := s.focus
  let t := s.curStrand
  let n := s.cur.sreg ra
  if s.cur.request.isNone ∧ pwqBad (s.core c) t n.toNat then
    .next (s.faultWord (.pwq ctl ra) ctl s.nextPc ⟨.power, 0, 0⟩ n 0 (s.cur.linkOf ra 0))
  else
    let s' := if s.cur.request.isNone then s.placePwq c t n.toNat else s
    match (s'.strand c t).request.bind (·.granted) with
    | none => .next s'
    | some _ => .next ((s'.onStrand c t (fun y => { y with request := none })).issue ctl 0 s.nextPc id)

/-- PWREL (R324): the lease returns to the manager; without one it does nothing. -/
def execPwrel (ctl : BitVec 2) (s : State) : Out :=
  .next ((if s.cur.lease = 0 then s else s.releaseLease s.focus s.curStrand).issue ctl 0 s.nextPc id)

end Sys2Proof.Machine
end

