-- ==== Sys2Proof/Machine/ScalarMemory.lean ====
section
/-! DEFINITION. The scalar access words (R92 to R99), WAITC (R102), and the steps at which the heads of the two queues
perform. -/
namespace Sys2Proof.Machine

/-- LD (R92, R93): a full queue makes it wait. -/
def execLd (ctl : BitVec 2) (rd ra : BitVec 5) (imm : BitVec 9) (sz : BitVec 2) (s : State) : Out :=
  .next (s.enqueue true (.ld ctl rd ra imm sz) ctl (effAddr (s.cur.sreg ra) imm sz) 0 0 (s.cur.linkOf ra 0))

/-- LDN (R92, R93). -/
def execLdn (ctl : BitVec 2) (rd ra : BitVec 5) (imm : BitVec 9) (sz : BitVec 2) (s : State) : Out :=
  .next (s.enqueue true (.ldn ctl rd ra imm sz) ctl (effAddr (s.cur.sreg ra) imm sz) 0 0 (s.cur.linkOf ra 0))

/-- ST (R92, R94): with its guard false it enters no queue. -/
def execSt (ctl : BitVec 2) (rs ra : BitVec 5) (imm : BitVec 9) (sz : BitVec 2) (g : BitVec 3) (s : State) : Out :=
  if s.cur.guard g then
    .next (s.enqueue false (.st ctl rs ra imm sz g) ctl (effAddr (s.cur.sreg ra) imm sz) (s.cur.sreg rs) 0 (s.cur.linkOf ra rs))
  else .next (s.issue ctl 0 s.nextPc id)

/-- MARK (R92, R95). -/
def execMark (ctl : BitVec 2) (s : State) : Out := .next (s.enterFence (.mark ctl) ctl)

/-- ATM (R92, R96): it enters the store queue and counts as a load too. -/
def execAtm (ctl : BitVec 2) (rd ra rb : BitVec 5) (op : BitVec 4) (sz : BitVec 2) (g : BitVec 3) (s : State) : Out :=
  if s.cur.guard g then
    .next (s.enqueue false (.atm ctl rd ra rb op sz g) ctl (s.cur.sreg ra) (s.cur.sreg rb) 0 (s.cur.linkOf ra rb))
  else .next (s.issue ctl 0 s.nextPc id)

/-- ACAS (R92, R97): the expected value is s[rd] at issue. -/
def execAcas (ctl : BitVec 2) (rd ra rb : BitVec 5) (sz : BitVec 2) (g : BitVec 3) (s : State) : Out :=
  if s.cur.guard g then
    .next (s.enqueue false (.acas ctl rd ra rb sz g) ctl (s.cur.sreg ra) (s.cur.sreg rb) (s.cur.sreg rd) (s.cur.linkOf ra rb))
  else .next (s.issue ctl 0 s.nextPc id)

/-- FENCE (R92, R99). -/
def execFence (ctl kind : BitVec 2) (scope : BitVec 3) (s : State) : Out :=
  .next (s.enterFence (.fence ctl kind scope) ctl)

/-- Is every counter at or below its limit (R102)? 15 means no wait (R27). -/
def State.within (s : State) (c : Nat) (t : BitVec 2) (limL limS limV limM limX : BitVec 4) : Bool :=
  let ok (lim : BitVec 4) (n : Nat) : Bool := lim = 15 || n ≤ lim.toNat
  let x := s.strand c t
  ok limL x.cntL && ok limS (s.cntS c t) && ok limV x.cntV && ok limM x.cntM && ok limX x.cntX

/-- WAITC (R102): a blocking word; it acquires at strand scope, which drops no line. -/
def execWaitc (ctl : BitVec 2) (limL limS limV limM limX : BitVec 4) (s : State) : Out :=
  if s.within s.focus s.curStrand limL limS limV limM limX then .next (s.issue ctl 0 s.nextPc id) else .next s

/-- SCALAR_LOAD_COMPLETE (R93, R101): the head of a strand's load queue performs and writes its register; stale: it is
served from the cluster cache. -/
def execScalarLoadComplete (c : Nat) (t : BitVec 2) (stale : Bool) (s : State) : Out :=
  match (s.strand c t).loads with
  | [] => .next s
  | q :: _ => .next (if q.due (s.core c) then s.loadStep c t stale else s)

/-- STORE_QUEUE_PERFORM (R92, R94, R96 to R98, R118): the head of a strand's store queue performs at its target; near: a
store to HBM performs in its cluster's cache (R101). -/
def execStoreQueuePerform (c : Nat) (h : QueueHead) (s : State) : Out :=
  match (s.strand c h.strand).stores with
  | [] => .next (s.storeStep c h.strand h.near)
  | q :: _ => .next (if q.due (s.core c) then s.storeStep c h.strand h.near else s)

end Sys2Proof.Machine
end

