-- ==== Sys2Proof/Machine/Semaphores.lean ====
section
/-! DEFINITION. DISP (R108 to R110, R333) and the semaphore words (R116 to R121). -/
namespace Sys2Proof.Machine

/-- Does an armed block breakpoint match this DISP of strand t (R333)? -/
def Core.blockBreak (k : Core) (t en : BitVec 2) (blk : BitVec 8) : Bool :=
  k.brkb.toList.any (fun w =>
    w.getLsbD 63 && w.getLsbD (12 + t.toNat) && w.extractLsb' 8 2 = en && w.setWidth 8 = blk)

/-- The issue number before which the strand's accesses come before those of an entry dispatched now: that of the latest FENCE of kind
REL, AR or SC at core scope or wider that has not retired (R104). -/
def Strand.orderedBefore (x : Strand) : Nat :=
  ((x.fences.filter (fun f => match f.op with | .fence _ k sc => k ≠ 0 && 1 ≤ sc.toNat | _ => false)).map (·.id)).foldl max 0

/-- The entry DISP pushes (R14, R109, R110, R233): the parameters, the whole sync slot, for the ME the strand's tile numbers,
and the place of its block. -/
def Strand.entryFor (x : Strand) (t : BitVec 2) (en : Eng) (blk : BitVec 8) (a b : Word) (ss : BitVec 4) (at_ : Word × Nat × Nat) :
    Entry :=
  { blk := blk, p0 := a, p1 := b, sync := vget x.sync 0 ss.toNat, strand := t, map := if engIndex en = 1 then x.accmap else 0, launch := x.lridx,
    after := x.orderedBefore, since := if x.orderedBefore = 0 then some x.since else none
    base := at_.1, words := at_.2.1, start := at_.2.2 }

/-- DISP (R110): it waits while the queue is full; a block that does not exist is ILLEGAL under R44 (R59); a breakpoint
stops the strand before it (R333). -/
def execDisp (ctl en : BitVec 2) (blk : BitVec 8) (ra rb : BitVec 5) (ss : BitVec 4) (s : State) : Out :=
  let c := s.focus
  let t := s.curStrand
  let x := s.cur
  let k := s.core c
  let q := engOf en
  if engDepth q ≤ (k.queue q).length then .next s
  else match blockOf s (s.partOf c) x.lridx q blk.toNat with
    | none => .next (s.faultWord (.disp ctl en blk ra rb ss) 0 s.nextPc ⟨.illegal, 0, 0⟩ 0 0)
    | some at_ =>
      if !x.noBrk && k.blockBreak t en blk then .next (s.stopStrand c t { why := ⟨.brk, 0, 0⟩, at_ := .outside })
      else
        let e := x.entryFor t q blk (x.sreg ra) (x.sreg rb) ss at_
        let s' := s.onCore c (fun k => k.setQueue q (k.queue q ++ [e]))
        .next (s'.issue ctl 0 s.nextPc (fun y => y.addCnt q (· + 1)))

/-- A semaphore wait has issued: later accesses of the strand perform after those before it (R103). -/
def Strand.semOrder (x : Strand) (i : Instr) : Strand :=
  if x.loads.isEmpty && x.stores.isEmpty then x
  else { x with fences := x.fences ++ [{ id := x.nextId, op := i }], nextId := x.nextId + 1 }

/-- SEMW (R117, R121): the word issues when the unit grants the wait; until then it waits in the unit's order. -/
def execSemw (ctl : BitVec 2) (ra : BitVec 5) (num : BitVec 8) (s : State) : Out :=
  let c := s.focus
  let t := s.curStrand
  let n : BitVec 32 := (s.cur.sreg ra).setWidth 32
  match (s.core c).semTake (.strand t) num n with
  | some k => .next (((s.setCore c k).semAcquire c num.toNat).issue ctl 0 s.nextPc (·.semOrder (.semw ctl ra num)))
  | none => .next (s.onCore c (fun k => k.addWait { sem := num, who := .strand t, n := n, reg := some ra }))

/-- SEMS (R118): a release through the store queue. -/
def execSems (ctl : BitVec 2) (ra : BitVec 5) (num : BitVec 8) (s : State) : Out :=
  .next (s.enqueue false (.sems ctl ra num) ctl (s.cur.sreg ra) 0 0 (s.cur.linkOf ra 0))

/-- SEMS_ADDRESS (R118): its two checks are made at issue. DESIGN CHOICE (log entry 73): they come before the wait for room in the store
queue, so that a word that fails them stops at once. -/
def execSemsAddress (ctl : BitVec 2) (rd ra : BitVec 5) (s : State) : Out :=
  let a := s.cur.sreg rd
  let n := s.cur.sreg ra
  match semTarget s s.focus a.toNat with
  | .error w => .next (s.faultWord (.semsAddress ctl rd ra) ctl s.nextPc w a n (s.cur.linkOf rd ra))
  | .ok _ => .next (s.enqueue false (.semsAddress ctl rd ra) ctl a n 0 (s.cur.linkOf rd ra))

/-- SEMR (R119): neither an acquire nor ordered with the strand's queue. -/
def execSemr (ctl : BitVec 2) (rd : BitVec 5) (num : BitVec 8) (s : State) : Out :=
  .next (s.resultWord (.semr ctl rd num) ctl (((s.core s.focus).semCount num.toNat).setWidth 64))

/-- SEMI (R118): it replaces the count when it performs. -/
def execSemi (ctl : BitVec 2) (ra : BitVec 5) (num : BitVec 8) (s : State) : Out :=
  .next (s.enqueue false (.semi ctl ra num) ctl (s.cur.sreg ra) 0 0 (s.cur.linkOf ra 0))

end Sys2Proof.Machine
end

