-- ==== Sys2Proof/Machine/Resume.lean ====
section
/-! DEFINITION. Stops and what follows them: POOLSTALL (R177, R258), delivery (R297 to R302), the watchdog (R299), the
reissue of records after a resume (R310), and pre-emption (R312, R313). -/
namespace Sys2Proof.Machine

/-- The subcause of an ECC that an access of strand t of core c or of one of its entries has met, beside the stop that waits (R314). -/
def State.eccFound (s : State) (c : Nat) (t : BitVec 2) : Option (BitVec 8) :=
  let k := s.core c
  let x := k.strand t
  let queued := (x.loads ++ x.stores).filterMap (·.flt)
  let run (en : Eng) : List Trouble := match k.runEntry en with
    | some (e, _, w) => if e.strand = t ∧ s.launchOf c = some e.launch then w.toList else []
    | none => []
  ((queued ++ run .v ++ run .m ++ run .x).find? (fun w => w.cause = .ecc)).map (·.sub)

/-- Deliver a strand's stop once it has no records to reissue, or the stop of an entry that outlived its strand's launch, once the steps already issued have
finished (R189, R245, R297, R300, R364). A stop with ECC, or an ECC beside it, kills the launch (R314, R353). A fault of an entry that its strand
left behind is a stop of it once it runs a kernel of the launch again (R45). -/
def State.deliverStop (s : State) (c : Nat) (t : BitVec 2) : State :=
  let k := s.core c
  if (k.strand t).life = .resuming then s
  else match (k.strand t).stop with
  | some st =>
    let mine (e : Entry) : Bool := e.strand = t && s.launchOf c = some e.launch
    match (if st.why.cause = .ecc then some st.why.sub else s.eccFound c t) with
    | some n => (match s.launchOf c with | some l => s.contain (s.partOf c) l n.toNat | none => s)
    | none => if k.stepsDone mine then s.deliver c t st else s
  | none =>
    [Eng.v, .m, .x].foldl (fun s en => match (s.core c).runEntry en with
      | some (e, _, some w) =>
        if w.cause = .ecc then s.contain (s.partOf c) e.launch w.sub.toNat
        else if e.strand ≠ t then s
        else if s.runs c t e.launch then s.stopStrand c t { why := w, at_ := .entry en }
        else if (s.core c).stepsDone (fun x => x.launch = e.launch) then s.deliverOrphan c en else s
      | _ => s) s

/-- STOP_DELIVERY (R297): not on a core that a lull halt has made quiet, whose local state is stable (R330). -/
def execStopDelivery (c : Nat) (t : BitVec 2) (s : State) : Out := .next (if s.quiet c then s else s.deliverStop c t)

/-- WATCHDOG (R299): an expiry stops a running strand. DESIGN CHOICE: the manual gives no interval and does not say from what a watchdog
counts (R5, R297, R299), so that no count is kept and an expiry may come at any time (log entry 77). -/
def execWatchdog (c : Nat) (t : BitVec 2) (s : State) : Out :=
  .next (if s.quiet c then s else s.stopStrand c t { why := ⟨.watchdog, 0, 0⟩, at_ := .outside })

-- Reissue

/-- Does a word complete through a scalar queue (R300, row 2)? -/
def isQueued (i : Instr) : Bool :=
  match i with
  | .ld .. | .ldn .. | .st .. | .atm .. | .acas .. | .sems .. | .semsAddress .. | .semi .. | .tseal .. | .tdrop .. | .lpat ..
  | .larm .. | .evp .. | .eva .. | .qpost .. | .qdone .. => true
  | _ => false

/-- The word of an S-op record; an illegal one is a step of its own (R44). -/
def Rec.sWord (r : Rec) : Instr := match decodeS r.word with | .ok i => i | .error _ => .illegalSWord r.word

/-- Must the record perform before its strand goes on: an S memory record, a MARK record or an issue-fault record (R310)? -/
def Rec.first (r : Rec) : Bool := r.kind = 2 || (r.kind = 0 && (r.prog = 0 || isQueued r.sWord))

/-- Renumber what is left of a list (R301, R310): sequence numbers by position, links to records that are gone cut. -/
def renumber (l : List Rec) : List Rec :=
  (List.range l.length).map (fun n =>
    let r := l.getD n blankRec
    match (List.range n).find? (fun m => (l.getD m blankRec).seq = r.link) with
    | some m => { r with seq := n, link := m }
    | none => { r with seq := n, link := 0xFFFF, lop := 0 })

/-- A reissued record fails its checks again, or pre-emption meets the resuming strand (R310, R44): the records not yet
performed form the new list in their order, and the strand stops at the same own slot; fault is the place of the record that
failed. -/
def State.restop (s : State) (c : Nat) (t : BitVec 2) (l : List Rec) (w : Trouble) (fault : Option Nat) : State :=
  let mark (n : Nat) (r : Rec) : Rec :=
    if fault = some n then { r with flt := true, cause := BitVec.ofNat 8 w.cause.code, sub := w.sub }
    else { r with flt := false, cause := 0, sub := 0 }
  let l := (List.range l.length).map (fun n => (mark n (l.getD n blankRec)).again)
  (s.onCore c (fun k => k.dropWait (.strand t))).postStop c t w (renumber l) (fault.getD 0xFFFF) 0

/-- Give a performed record's result to the records linked to it (R306, R310). DESIGN CHOICE (log entry 95): which operand LOP 3 names is
a free choice, first. -/
def feed (first : Bool) (seq : Nat) (v : Word) (l : List Rec) : List Rec :=
  l.map (fun r => if r.kind = 0 ∧ r.link = seq then
    (if r.lop = 1 ∨ (r.lop = 3 ∧ first) then { r with opa := v, link := 0xFFFF, lop := 0 } else { r with opb := v, link := 0xFFFF, lop := 0 }) else r)

/-- What the reissue of an issue-fault record comes to. -/
inductive Again where
  | done (s : State)
  | fault (w : Trouble)
  | wait (s : State)

/-- Take what a strand's request was granted. -/
def State.granted (s : State) (c : Nat) (t : BitVec 2) : Option Word := (s.strand c t).request.bind (·.granted)
def State.dropRequest (s : State) (c : Nat) (t : BitVec 2) : State := s.onStrand c t (fun x => { x with request := none })

/-- A strand's scalar register written at once. -/
def State.putSreg (s : State) (c : Nat) (t : BitVec 2) (r : BitVec 5) (v : Word) : State :=
  s.onStrand c t (fun x => x.setSreg r v)

/-- DISP again (R110, R310). -/
def State.dispAgain (s : State) (c : Nat) (t : BitVec 2) (en : BitVec 2) (blk : BitVec 8) (a b : Word) (ss : BitVec 4) : Again :=
  let x := s.strand c t
  let q := engOf en
  if engDepth q ≤ ((s.core c).queue q).length then .wait s
  else match blockOf s (s.partOf c) x.lridx q blk.toNat with
    | none => .fault ⟨.illegal, 0, 0⟩
    | some at_ =>
      let e := x.entryFor t q blk a b ss at_
      .done (s.onCore c (fun k => (k.setQueue q (k.queue q ++ [e])).setStrand t (x.addCnt q (· + 1))))

/-- Perform the word of an issue-fault record again, with a and b in place of its registers (R310). A word of fixed latency
takes the result that its record's operands give (R304); a stop word stops the strand again, and END ends it. -/
def State.again (s : State) (c : Nat) (t : BitVec 2) (i : Instr) (a b : Word) : Again :=
  let x := s.strand c t
  let p := s.partOf c
  match i with
  | .talc _ rd _ _ =>
    let take (s : State) : Again := match s.granted c t with
      | some h => .done ((s.dropRequest c t).putSreg c t rd h)
      | none => .wait s
    if x.request.isSome then take s
    else match talcTarget s c t a b with
      | .error w => .fault w
      | .ok (d, q) => take (s.placeTalc c t a.toNat d q a b)
  | .pwq _ _ =>
    if x.request.isNone ∧ pwqBad (s.core c) t a.toNat then .fault ⟨.power, 0, 0⟩
    else
      let s := if x.request.isNone then s.placePwq c t a.toNat else s
      if (s.granted c t).isSome then .done (s.dropRequest c t) else .wait s
  | .evw _ _ =>
    match s.reachEvent c (a.toNat % 2 ^ 16) with
    | .error w => .fault w
    | .ok e => if e.set then .done (s.acquire c 4) else if e.poison then .done s else .wait s
  | .evt _ rd _ =>
    match s.reachEvent c (a.toNat % 2 ^ 16) with
    | .error w => .fault w
    | .ok e => .done (s.putSreg c t rd (BitVec.ofNat 64 (b2n e.set + 2 * b2n e.poison)))
  | .lwait _ rd _ =>
    if !(s.recUsable p a.toNat) then .fault ⟨.priv, 0, 0⟩
    else if !(s.recSettled p a.toNat) then .wait s
    else .done (((s.recWaited p a.toNat).acquire c 4).putSreg c t rd (BitVec.ofNat 64 (s.recField p a.toNat 12 4)))
  | .mts _ _ num => if strandWritable num then .done (s.onStrand c t (fun x => x.setSysreg num a)) else .fault ⟨.priv, 0, 0⟩
  | .resume _ => .fault ⟨.priv, 0, 0⟩
  | .disp _ en blk _ _ ss => s.dispAgain c t en blk a b ss
  | .semw _ _ num =>
    let n : BitVec 32 := a.setWidth 32
    match (s.core c).semTake (.strand t) num n with
    | some k => .done ((s.setCore c k).semAcquire c num.toNat)
    | none => .wait (s.onCore c (fun k => k.addWait { sem := num, who := .strand t, n := n }))
  | .qtake _ rd =>
    match s.findTask p (clusterOf c) with
    | .error w => .fault w
    | .ok none => .wait s
    | .ok (some (b, e)) => .done (((s.onCluster b (fun k => k.removeEntry e)).acquire c 4).putSreg c t rd e.addr)
  | .waitc _ l st v m x' => if s.within c t l st v m x' then .done s else .wait s
  | .jr _ _ _ => .done (s.onStrand c t (fun x => { x with pc := a }))
  | .callr _ _ _ => .done (s.onStrand c t (fun x => { x.setSreg 31 x.pc with pc := a }))
  | .endK _ mask => .done (s.endStrand c t mask)
  | .trap .. => .fault ⟨.trap, 0, 0⟩
  | .sysc .. => .fault ⟨.sysc, 0, 0⟩
  | .brk _ => .fault ⟨.brk, 0, 0⟩
  | .halt _ => .fault ⟨.halt, 0, 0⟩
  | .illegalSWord _ => .fault ⟨.illegal, 0, 0⟩
  | .pwrel _ => .done (s.releaseLease c t)
  | .enter _ num => .done ((s.onStrand c t (·.enterRegion num)).trace c t 0)
  | .leave _ => .done ((s.onStrand c t Strand.leaveRegion).trace c t 1)
  | .mark _ | .fence .. => .done ((s.release c (fenceRelease i)).acquire c (fenceAcquire i))
  | _ => match fixedResult i a b with
    | some (d, v) => .done (s.onStrand c t (fun x => x.write d v))
    | none => .done s

/-- A JR or CALLR record whose target is misaligned is dropped, whatever its CAUSE has been set to (R311): the branch issues again from PC
(R310). DEDUCED (log entry 74): a BR or CALL record is dropped likewise. -/
def dropped (i : Instr) (a : Word) : Bool :=
  match i with | .jr .. => a.toNat % 4 ≠ 0 | .callr .. => a.toNat % 4 ≠ 0 | .br .. => true | .call .. => true | _ => false

/-- Is a scalar word translated, at address a, so that it is checked in the third core slot after its issue at the earliest (R318)? -/
def translated (i : Instr) (a : Word) : Bool :=
  match i with
  | .ld .. | .ldn .. | .st .. | .atm .. | .acas .. => !isWindow (addr48 a.toNat)
  | _ => false

/-- Perform the record r, the first of l that must perform (R310); a translated one issues in one step and is checked in a later one
(R318). One that meets ECC kills the launch (R314). -/
def State.reissueOne (s : State) (c : Nat) (t : BitVec 2) (r : Rec) (before after : List Rec) : State :=
  let open_ : Bool := after.any (fun q => q.kind = 0 && q.link = r.seq && q.lop = 3)
  let rest (v : Option Word) : List Rec := match v with
    | some w => before ++ feed (Config.freeBit s.freeIx) r.seq w after
    | none => before ++ after
  let keep (s : State) (v : Option Word) : State :=
    { s.onStrand c t (fun x => { x with reissue := rest v, issuedAt := none }) with freeIx := s.freeIx + b2n (v.isSome && open_) }
  let fail (w : Trouble) : State :=
    if w.cause = .ecc then (match s.launchOf c with | some l => s.contain (s.partOf c) l w.sub.toNat | none => s)
    else s.restop c t (before ++ r :: after) w (some before.length)
  let i := r.sWord
  if r.kind = 2 then keep ((s.release c (fenceRelease i)).acquire c (fenceAcquire i)) none
  else if isQueued i then
    match (if translated i r.opa then some ((s.strand c t).issuedAt) else none) with
    | some none => s.onStrand c t (fun x => { x with issuedAt := some (s.core c).slotNo })
    | at_ =>
      if at_.any (·.any (fun n => (s.core c).slotNo < n + 3)) then s
      else match perform s c t i r.opa r.opb (BitVec.ofNat 64 (leValue (r.ext.take 8))) false false with
        | .busy => s
        | .fault w => fail w
        | .done s' v => keep (s'.onStrand c t (fun x => x.takeLoad i v)) v
  else if dropped i r.opa then keep s none
  else match s.again c t i r.opa r.opb with
    | .wait s' => s'
    | .fault w => fail w
    | .done s' => keep s' none

/-- The V-op records that stand directly before a running V-entry record. -/
def vopsBefore (l : List Rec) : List Rec := l.filter (fun r => r.kind = 1)

/-- The engine of an entry record (R304). -/
def Rec.eng (r : Rec) : Eng := if r.kind = 3 then .v else if r.kind = 4 then .m else .x

/-- An 8-byte field of a record's extension. -/
def Rec.word8 (r : Rec) (off : Nat) : Word := BitVec.ofNat 64 (leValue ((r.ext.drop off).take 8))

/-- What an entry record's entry continues with (R304, R310). -/
def Rec.goesOn (r : Rec) (vops : List Rec) : Resume :=
  let run := r.word.getLsbD 8
  let nregs := if r.eng = .v then 8 else 16
  { run := run, idx := bitsOf r.prog.toNat 8 0, pass := bitsOf r.prog.toNat 20 9
    regs := if run then (List.range nregs).map (fun n => r.word8 (32 + 8 * n)) else []
    bytes := (r.word8 16).toNat
    byp := if r.word.getLsbD 9 then some ((r.ext.drop (32 + 8 * nregs)).take 4416) else none
    recs := if r.eng = .v && run then vops else [] }

/-- The entry an entry record of launch l puts back (R304, R310). -/
def Rec.entry (r : Rec) (s : State) (c : Nat) (t : BitVec 2) (l : BitVec 10) (vops : List Rec) : Entry :=
  let at_ := (blockOf s (s.partOf c) l r.eng (r.word.toNat % 256)).getD (0, 0, 0)
  { blk := BitVec.ofNat 8 r.word.toNat, p0 := r.opa, p1 := r.opb, sync := r.word8 0, strand := t, map := (r.word8 8).setWidth 12
    launch := l, base := at_.1, words := at_.2.1, start := at_.2.2, hw := r.hw, resume := some (r.goesOn vops) }

/-- Put entries back into an engine's queue (R310): behind the running entry and behind entries of earlier resumes that have not
started, ahead of every other entry; an entry that is not at the head any more waits no longer. -/
def Core.requeue (k : Core) (en : Eng) (new : List Entry) : Core :=
  let q := k.queue en
  let n := b2n (k.running en)
  let back := (q.drop n).takeWhile (fun e => e.resume.isSome)
  let q' := q.take n ++ back ++ new ++ (q.drop n).dropWhile (fun e => e.resume.isSome)
  let k' := k.setQueue en q'
  if q'.head? = q.head? then k' else k'.dropWait (.head en)

/-- How a strand goes on after its resume: it runs, or takes the stop that has met it meanwhile; one that had ended has ended. -/
def Strand.lifeOn (x : Strand) : Life := if x.stop.isSome then .stopped else if x.done then .ended else .running

/-- The last part of a resume (R310): fixed-latency records land PROG own slots on, the entries return to their queues, and the
strand goes on at its PC. A swapped team's strand that has its lease again goes on as it was (R292, R325). -/
def State.finishResume (s : State) (c : Nat) (t : BitVec 2) (l : List Rec) : State :=
  let x := s.strand c t
  if Memory.byte x.area 0 ≠ 2 then s.onStrand c t (fun y => { y with life := y.lifeOn, lastTick := s.tick })
  else
  let fly := l.filterMap (fun r =>
    if r.kind.toNat = 0 then
      match fixedResult r.sWord r.opa r.opb with
      | some (d, v) => some ({ due := x.slots + r.prog.toNat, dest := d, val := v, op := r.sWord, opa := r.opa, opb := r.opb } : Landing)
      | none => none
    else none)
  let kept (en : Eng) : Nat := s.kept c en t none
  let entries (n : Nat) : List Entry := (l.filter (fun r => r.kind.toNat = n)).map (fun r => r.entry s c t x.lridx (vopsBefore l))
  s.onCore c (fun k =>
    let k := ((k.requeue .v (entries 3)).requeue .m (entries 4)).requeue .x (entries 5)
    let count (q : List Entry) : Nat := (q.filter (fun e => e.strand = t)).length
    let ids := (List.range fly.length).map (fun n => { fly.getD n { due := 0, dest := .sreg 0, val := 0, op := .vnop false, opa := 0, opb := 0 } with id := x.nextId + n })
    k.setStrand t { k.strand t with
      life := x.lifeOn, flight := ids, nextId := x.nextId + fly.length, reissue := [], noBrk := true, recv := none, lastTick := s.tick
      cntV := count k.vq + kept .v, cntM := count k.mq + kept .m, cntX := count k.xq + kept .x
      area := Memory.store x.area 0 [0] })

/-- One step of a resuming strand (R310, R325): it acquires its lease, then the V-op records read their operands, then each record
that must perform does, one a step, then the rest goes on. -/
def State.reissueStep (s : State) (c : Nat) (t : BitVec 2) : State :=
  let x := s.strand c t
  if x.life ≠ .resuming then s
  else if x.relend ≠ 0 then
    let n := x.wantedLease
    if n = 0 then s.onStrand c t (fun x => { x with relend := 0 })
    else if x.request.isNone ∧ pwqBad (s.core c) t n then s.restop c t x.reissue ⟨.power, 0, 0⟩ none
    else
      let s := if x.request.isNone then s.placePwq c t n else s
      if (s.granted c t).isSome then (s.dropRequest c t).onStrand c t (fun x => { x with relend := 0 }) else s
  else if x.reissue.any (fun r => r.kind = 1 && r.cap.isNone) then
    s.onStrand c t (fun x => { x with reissue := x.reissue.map (·.readOperands x) })
  else
    let before := x.reissue.takeWhile (fun r => !r.first)
    match x.reissue.drop before.length with
    | r :: after => s.reissueOne c t r before after
    | [] => s.finishResume c t x.reissue

/-- RECORD_REISSUE (R310, R325, R330): a resuming strand takes its next step, unless its core is lull-halted. -/
def execRecordReissue (c : Nat) (t : BitVec 2) (s : State) : Out := .next (if (s.core c).lull then s else s.reissueStep c t)

-- POOLSTALL

/-- Has an allocation waited its limit (R255, R258)? -/
def Request.stalled (r : Request) (tick : Nat) : Bool := r.talc && r.granted.isNone && r.limit ≠ 0 && r.tick + r.limit ≤ tick

/-- POOLSTALL (R177, R258): a request that has waited LIMIT ticks leaves its queue. TALC takes its own slot and is the last S-op
record, with the n and the target it read (R304); a reissued one makes its strand stop again; an XALC stops its entry (u = 4). A core
that is quiet under a lull halt keeps its state (R330). -/
def execPoolstall (c : Nat) (u : BitVec 3) (s : State) : Out :=
  let w : Trouble := ⟨.poolstall, 0, 0⟩
  if s.quiet c then .next s
  else if u.toNat = 4 then
    match (s.core c).xrun with
    | none => .next s
    | some r => match r.request with
      | none => .next s
      | some q =>
        if !(q.stalled s.tick) then .next s
        else .next (((s.onCore c (fun k => { k with xrun := some { r with request := none } })).withdraw q.target q.part c 4).entryStop c .x w)
  else
    let t : BitVec 2 := u.setWidth 2
    let x := s.strand c t
    match x.request with
    | none => .next s
    | some q =>
      if !(q.stalled s.tick) then .next s
      else
        let s := (s.withdraw q.target q.part c u).dropRequest c t
        if x.life = .resuming then
          let before := x.reissue.takeWhile (fun r => !r.first)
          match x.reissue.drop before.length with
          | r :: after => .next (s.restop c t (before ++ r :: after) w (some before.length))
          | [] => .next s
        else match s.wordAt c x.pc with
          | some (.talc ctl rd ra rb) =>
            .next (s.onStrand c t (fun y =>
              let y := y.landDue
              (y.advance ctl 0 (y.pc + 4) s.tick).stopFor
                { why := w, at_ := .issue (some { due := 0, dest := .sreg 0, val := 0, op := .talc ctl rd ra rb, opa := q.opa, opb := q.opb,
                                                  links := q.links, id := y.nextId })
                  slot := (s.core c).slotNo, tick := s.tick }))
          | _ => .next s

-- Pre-emption

/-- The context of a core that moves (R312), put back over the core as it now stands: its trace, breakpoint and debug controls and
its counters stay. -/
def Core.restoreFrom (k v : Core) : Core :=
  { v with brkb := k.brkb, trbase := k.trbase, tren := k.tren, trerr := k.trerr, trhead := k.trhead, trlog := k.trlog
           lull := k.lull, cut := k.cut, counters := k.counters, fenced := k.fenced, balance := k.balance }

/-- May the cores of a partition be halted now: every issued step has finished? -/
def State.preemptReady (s : State) (p : Nat) : Bool := (s.partCores p).all (fun c => (s.core c).stepsDone (fun _ => true))

/-- PREEMPT meets a resuming strand (R299, R310, R312): a blocked record that was granted completes, and the records it has still to
perform are its list. -/
def State.preemptResuming (s : State) (c : Nat) (t : BitVec 2) (w : Trouble) : State :=
  let s := if (s.granted c t).isSome || (s.core c).semGranted (.strand t) then s.reissueStep c t else s
  if (s.strand c t).life = .resuming then (s.settleRequest c t none).restop c t (s.strand c t).reissue w none else s

/-- An ended strand takes the PREEMPT stop too where entries of its launch are still queued or running (R106, R312, R364). -/
def State.leftBehind (s : State) (c : Nat) (t : BitVec 2) : Bool :=
  (s.strand c t).life = .ended && [Eng.v, .m, .x].any (fun en => ((s.core c).queue en).any (fun e => e.strand = t && s.launchOf c = some e.launch))

/-- The entries on a core that no strand's records hold go to Skyo, launch by launch (R312, R364); fuel bounds the launches. -/
def keepAll : Nat → State → Nat → Eng → State
  | 0, s, _, _ => s
  | fuel + 1, s, c, en =>
    match (s.core c).queue en with
    | [] => s
    | e :: _ => keepAll fuel (s.keepEntries c en e.launch (((s.core c).runEntry en).bind (·.2.2) |>.getD ⟨.preempt, 0, 0⟩)) c en

/-- Stop every strand of a core with PREEMPT and write its records, and move the context (R312). DEDUCED (log entry 75): an ended strand
with entries of its launch stops like the others, and entries of launches that no strand runs become records that Skyo keeps. -/
def State.preemptCore (s : State) (c : Nat) : State :=
  let w : Trouble := ⟨.preempt, 0, 0⟩
  let s := allStrands.foldl (fun s t =>
    let st : Stop := { why := w, at_ := .outside, slot := (s.core c).slotNo, tick := s.tick }
    let s := if s.leftBehind c t then s.onStrand c t (·.stopLate st) else s.stopStrand c t st
    match (s.strand c t).life, (s.strand c t).stop with
    | .resuming, st => s.preemptResuming c t ((st.map (·.why)).getD w)
    | _, some st => s.deliver c t st
    | _, none => s) s
  let s := [Eng.v, .m, .x].foldl (fun s en => keepAll 64 s c en) s
  let s := allStrands.foldl (fun s t =>
    (s.onStrand c t (fun x => { x with relend := if x.lease = 0 then x.relend else x.lease })).releaseLease c t) s
  let v := s.core c
  (s.onPart (s.partOf c) (fun x => { x with saved := x.saved ++ [(c, v)] })).setCore c { v with
    strands := v.strands.map (fun x => { x with life := .idle, stop := none, fifo := [], flight := [], loads := [], stores := []
                                                fences := [], reissue := [] }), vq := [], mq := [], xq := []
    vrun := none, mrun := none, xrun := none, waits := [], team := none }

/-- A stop or an entry's fault with ECC that has not been delivered on a core: the launch it kills, and the subcause (R314). -/
def State.eccPending (s : State) (c : Nat) : Option (BitVec 10 × Nat) :=
  let k := s.core c
  let ofStrand := allStrands.findSome? (fun t => match (k.strand t).stop with
    | some st => if st.why.cause = .ecc then (s.launchOf c).map (fun l => (l, st.why.sub.toNat)) else none
    | none => none)
  match ofStrand with
  | some r => some r
  | none => [Eng.v, .m, .x].findSome? (fun en => match k.runEntry en with
    | some (e, _, some w) => if w.cause = .ecc then some (e.launch, w.sub.toNat) else none
    | _ => none)

/-- The accesses that the ended strands of a core have outstanding perform (R106, R312 step 3). -/
def State.drainEnded (s : State) (c : Nat) : State :=
  allStrands.foldl (fun s t => if (s.strand c t).life = .ended then drainEndedHeads 64 s c t else s) s

/-- Has every ended strand of a core performed its accesses? -/
def Core.endedDrained (k : Core) : Bool :=
  k.strands.toList.all (fun x => x.life ≠ .ended || (x.loads.isEmpty && x.stores.isEmpty && x.fences.isEmpty))

/-- PREEMPT (R312, R325): a launch that an error is to end is killed first (R314); the accesses that ended strands have outstanding
perform, and while one waits so does the pre-emption; then every core of a partition halts, every strand takes a PREEMPT stop, the leases
return, the contexts move to shadow storage, and every store buffer drains to memory. -/
def execPreempt (p : Nat) (s : State) : Out :=
  if !(s.preemptReady p) || (s.part p).saved ≠ [] then .next s
  else match (s.partCores p).findSome? s.eccPending with
    | some (l, n) => .next (s.contain p l n)
    | none =>
      let s := (s.partCores p).foldl State.drainEnded s
      .next (if (s.partCores p).all (fun c => (s.core c).endedDrained) then ((s.partCores p).foldl (fun s c => s.preemptCore c) s).drainPart p
        else s)

/-- Is a core of the partition halted and without work? -/
def Core.halted (k : Core) : Bool :=
  k.team.isNone && k.vq.isEmpty && k.mq.isEmpty && k.xq.isEmpty && k.strands.toList.all (fun x => x.life = .idle || x.life = .ended)

/-- PARTITION_RESTORE (R312): the saved contexts return to their cores, as an acquire at system scope. -/
def execPartitionRestore (p : Nat) (s : State) : Out :=
  let l := (s.part p).saved
  if l.any (fun e => !(s.core e.1).halted) then .next s
  else
    let s := l.foldl (fun s e => (s.onCore e.1 (fun k => k.restoreFrom e.2)).moveIn e.1 true) s
    .next (s.onPart p (fun x => { x with saved := [] }))

/-- PARTITION_CLEAR (R313): a halted core's state before it runs another partition: everything a partition can read of it is as after
reset, and the scratchpad takes that partition's saved image, or 0. Its halts, its fence, its core slots and its counters stay. -/
def execPartitionClear (c : Nat) (s : State) : Out :=
  let k := s.core c
  if !k.halted then .next s
  else
    let img := (((s.part (s.partOf c)).saved.find? (fun e => e.1 = c)).map (fun e => e.2.spad)).getD []
    .next (s.setCore c { Core.reset with
      spad := img, lull := k.lull, cut := k.cut, cutAt := k.cutAt, fenced := k.fenced, slotNo := k.slotNo, counters := k.counters })

end Sys2Proof.Machine
end

