-- ==== Sys2Proof/Machine/Harts.lean ====
section
/-! DEFINITION. What stands outside the C-dies and reaches them: the harts' accesses (R105, R352), the chassis host's (R350), and what
Skyo sets (R81, R321). -/
namespace Sys2Proof.Machine

-- BAR0 (R350)

/-- A read of BAR0: only an aligned one of 8 bytes that names a register completes; any other is an Unsupported Request. -/
def State.bar0Read (s : State) (off n : Nat) : Option Word := if n = 8 ∧ off % 8 = 0 then s.bar0 off else none

/-- A write of BAR0: BOOTDB starts bring-up, a read-only register stays as it is; any other write is an Unsupported Request and changes
nothing. The answer says whether it was one. -/
def State.bar0Write (s : State) (off n : Nat) (v : Word) : Bool × State :=
  if (s.bar0Read off n).isNone then (true, s)
  else if off = 0x10 then (false, match execBootdbWrite v s with | .next u => u | _ => s)
  else (false, s)

/-- An access of the chassis host (R350): its last read's value stays in lastRead, and whether its last access was an Unsupported
Request in hostUr. What it stores in its own memory, devices read (R353). -/
def State.hostStep (s : State) : HostOp → State
  | .read off n => match s.bar0Read off n with
    | some v => { s with lastRead := v, hostUr := false }
    | none => { s with hostUr := true }
  | .write off n v =>
    let (ur, s) := s.bar0Write off n v
    { s with hostUr := ur }
  | .memory pa v => if isHost pa then { s with mem := Memory.store s.mem pa [v] } else s

-- Skyo (R81, R321)

/-- Does no partition run: no core holds work and no launch is armed? -/
def State.noneRuns (s : State) : Bool :=
  s.cores.all (fun e => e.2.halted) && s.parts.all (fun e => e.2.launches.all (fun l => l.2.isNone))

/-- Skyo sets MEMSPLIT while no partition runs (R81), or a die's power budget (R321), whose power manager then serves its queue
(R324); it caches the translation it has made of the foreign binary that SRCHASH names (R344); or it sets COLLTO (R335). -/
def State.skyoStep (s : State) : SkyoOp → State
  | .memsplit u => if u ≤ 16 ∧ s.noneRuns then { s with memsplit := u } else s
  | .budget d n => (s.onDie d.toNat (fun x => { x with budget := n })).serveLeases d.toNat
  | .translate bs => if (Container.parse bs).formOk then s.keepTranslation (Container.parse bs) else s
  | .collto n => { s with collto := n }

-- Harts

/-- Where a hart's access goes (R352): BAR0, HBM, a core window or the host region; none for a hole, a fenced unit, or a size that its
window range does not take (R83), which its own core reports. -/
inductive HartPlace where
  | bar0 (off : Nat)
  | memory
  deriving DecidableEq, Repr

def State.hartPlace (s : State) (a : HartOp) : Option HartPlace :=
  let (pa, n) := a.range
  let atomic : Bool := a.writes && !a.isStore || a.isLr
  if 0x0F00_0000 ≤ pa ∧ pa < 0x0F01_0000 then (if atomic then none else some (.bar0 (pa - 0x0F00_0000)))
  else if (s.eccAt 4 pa).isSome then none
  else if isHbm pa then some .memory
  else if isHost pa then (if atomic then none else some .memory)
  else match winSplit pa with
    | none => none
    | some (_, off) =>
      if winRange off = .outside || !winSizeOk off n || pa % n ≠ 0 || (atomic && winRange off ≠ .spad) then none else some .memory

/-- Must a hart's write wait at a halted cluster (R330), or any access of it for an accumulator tile in use (R187)? -/
def State.hartWaits (s : State) (a : HartOp) : Bool :=
  s.tileBusy a.range.1 || (a.writes && match winSplit a.range.1 with
    | some (c, off) => winRange off ≠ .sysreg && (List.range 8).all (fun i => (s.core (8 * clusterOf c + i)).lull)
    | none => false)

/-- A hart's write at its home, which ends the reservations of the others (R105); of an atomic the clusters' copies follow (R98). -/
def State.hartWrite (s : State) (h : BitVec 5) (pa : Nat) (bs : List Byte) (atomic : Bool) : State :=
  let own := s.resvs.filter (fun r => r.hart = h)
  let s := physWrite { s with resvs := s.resvs.filter (fun r => r.hart ≠ h) } pa bs 0
  let s := { s with resvs := own ++ s.resvs }
  if atomic then s.clusters.foldl (fun r e => updateLines r e.1 pa bs) s else s

/-- Hart h holds this reservation, or none. -/
def State.reserve? (s : State) (h : BitVec 5) (r : Option (Nat × Nat)) : State :=
  { s with resvs := s.resvs.filter (fun r => r.hart ≠ h) ++ r.toList.map (fun e => ⟨h, e.1, e.2⟩) }

/-- An access of hart h performs at its place: the value it returns (1 for a store-conditional that fails), and the state. A
store-conditional succeeds only where its hart holds the reservation of its bytes; it may also fail then (log entry 88). -/
def State.hartAccess (s : State) (h : BitVec 5) (place : HartPlace) (a : HartOp) (fwd : Option (List Byte)) : Option Word × State :=
  let val (bs : List Byte) : Option Word := some (BitVec.ofNat 64 (leValue bs))
  match place, a with
  | .bar0 off, .load _ n => (s.bar0Read off n, s)
  | .bar0 off, .store _ n v => (none, (s.bar0Write off n v).2)
  | .bar0 _, _ => (none, s)
  | .memory, .load pa n => (val (fwd.getD (physRead s pa n)), s)
  | .memory, .store pa n v => (none, s.hartWrite h pa (leBytes n v.toNat) false)
  | .memory, .amo pa n op v _ _ =>
    let old := physRead s pa n
    (val old, s.hartWrite h pa (leBytes n (atomicOp op n (leValue old) (v.toNat % 2 ^ (8 * n)))) true)
  | .memory, .lr pa n _ _ => (val (physRead s pa n), s.reserve? h (some (pa, n)))
  | .memory, .sc pa n v _ _ =>
    let u := { s.reserve? h none with freeIx := s.freeIx + 1 }
    if s.resvs.contains ⟨h, pa, n⟩ && Config.freeBit s.freeIx then (some 0, u.hartWrite h pa (leBytes n v.toNat) true)
    else (some 1, u)
  | .memory, .fence .. => (none, s)

/-- The k-th item of hart h performs, where its hart's order lets it (R105): what it returned is kept by its number. An access that its
own core reports does nothing here. -/
def State.hartPerform (s : State) (h : BitVec 5) (k : Nat) : State :=
  let x := s.hart h
  match x.items[k]? with
  | none => s
  | some i =>
    if !x.ready k then s
    else
      let done (y : Hart) : Hart := { y with items := settleHart [] (y.items.eraseIdx k) }
      match s.hartPlace i.op with
      | none => s.setHart h { done x with got := x.got ++ [(i.id, none)] }
      | some place =>
        if s.hartWaits i.op then s
        else
          let (v, s') := s.hartAccess h place i.op (forwarded (x.items.take k) i.op)
          s'.setHart h { done x with got := x.got ++ [(i.id, v)] }

/-- What a hart does: it issues an access or fence, which depends on the results of the earlier ones it names; one of its accesses
performs; or it calls Skyo (R346). -/
def State.hartStep (s : State) (h : BitVec 5) : HartAct → State
  | .issue op deps =>
    let x := s.hart h
    s.setHart h { x with items := settleHart [] (x.items ++ [{ id := x.next, op := op, deps := deps }]), next := x.next + 1 }
  | .perform k => s.hartPerform h k
  | .call => { s with skyo := { s.skyo with caller := h } }

end Sys2Proof.Machine
end

