-- ==== Sys2Proof/Machine/Calls.lean ====
section
/-! DEFINITION. Skyo's calls on records, memory, events, pools, code, clocks, counters and stopped strands (R346). A call that
device strands make too (0x005, 0x009, 0x00D) is one operation for both. -/
namespace Sys2Proof.Machine

/-- What a call comes to: its state, status and result; none while it blocks. -/
abbrev Called := Option (State × Status × Nat)

/-- LREC_ARM (R346, R278): a release at system scope of every access that the calling hart has made. -/
def execLrecArm (p : Nat) (i : BitVec 64) (s : State) : Out :=
  let n := i.toNat
  if (s.hart s.skyo.caller).items ≠ [] then .next s
  else if !s.recUsable p n then .next (s.ret .arg)
  else if s.recState p n ≠ 0 then .next (s.ret .ok 6)
  else
    let s := s.armRecord p n
    .next (s.ret .ok (s.recField p n 12 4))

/-- LREC_WAIT (R346, R279). -/
def callLrecWait (p n : Nat) (s : State) : Called :=
  if !s.recUsable p n then some (s, .arg, 0)
  else if !s.recSettled p n then none
  else some (s.recWaited p n, .ok, s.recField p n 12 4)

def execLrecWait (p : Nat) (i : BitVec 64) (s : State) : Out :=
  match callLrecWait p i.toNat s with
  | some (s', st, v) => .next (s'.ret st v)
  | none => .next s

/-- LAUNCH_KILL (R315, R346). -/
def execLaunchKill (p : Nat) (i : BitVec 64) (s : State) : Out :=
  if s.recUsable p i.toNat then .next ((s.killLaunch p (BitVec.ofNat 10 i.toNat) 4 0 0).ret .ok) else .next (s.ret .arg)

/-- Is a run of virtual addresses one that tables map: whole pages outside the window aperture (R80, R86)? -/
def mappable (va size : Nat) : Bool :=
  va % 65536 = 0 && size % 65536 = 0 && size ≠ 0
  && (va + size ≤ 0x1000_0000_0000 || (0x2000_0000_0000 ≤ va && va + size ≤ 2 ^ 48))

/-- MEM_MAP (R90, R346); the PTE's bits [7:2] stand in their places. -/
def execMemMap (p : Nat) (va pa size bits : BitVec 64) (s : State) : Out :=
  if mappable va.toNat size.toNat && pa.toNat % 65536 = 0 && pa.toNat + size.toNat ≤ 2 ^ 48 && bits.toNat < 256 && bits.toNat % 4 = 0 then
    .next ((s.mapPages p va.toNat pa.toNat (size.toNat / 65536) (bits.toNat / 4)).ret .ok)
  else .next (s.ret .arg)

/-- MEM_UNMAP (R90, R346). -/
def execMemUnmap (p : Nat) (va size : BitVec 64) (s : State) : Out :=
  if mappable va.toNat size.toNat then .next ((s.unmapPages p va.toNat (size.toNat / 65536)).ret .ok) else .next (s.ret .arg)

/-- Names that the table of a die holds (R288). -/
def State.tableCount (s : State) (d : Nat) : Nat :=
  (s.parts.map (fun e => (e.2.events.filter (fun v => v.2.isSome && v.1 % 4 = d)).length)).sum

/-- Reserve one name (R288): a name whose die's table is full spills. -/
def State.reserve (s : State) (p n : Nat) : State :=
  let d := n % 4
  let s := if 4096 ≤ s.tableCount d then s.onDie d (fun x => { x with spills := x.spills + 1 }) else s
  s.setEvent p n {}

/-- EVENT_RESERVE (R288, R346): the next n names of the partition. -/
def callEventReserve (p n : Nat) (s : State) : Called :=
  let a := (s.part p).nextEvent
  if n = 0 ∨ 4096 < n then some (s, .arg, 0)
  else if 0xFFFF < a + n then some (s, .nospace, 0)
  else
    let s := (List.range n).foldl (fun s i => s.reserve p (a + i)) s
    some (s.onPart p (fun x => { x with nextEvent := a + n }), .ok, a)

def execEventReserve (p : Nat) (n : BitVec 64) (s : State) : Out :=
  match callEventReserve p n.toNat s with
  | some (s', st, v) => .next (s'.ret st v)
  | none => .next s

/-- POOL_CONFIG (R251, R346). DESIGN CHOICE: ARG comes before BUSY (log entry 103). -/
def execPoolConfig (p : Nat) (i part half : BitVec 64) (s : State) : Out :=
  let n := i.toNat
  let q := part.toNat
  let h := half.toNat
  if !s.recUsable p n || 8 ≤ q || 2 ^ 14 ≤ h || 8 < h % 16 || 256 < bitsOf h 12 4 then .next (s.ret .arg)
  else if s.recState p n ≠ 0 then .next (s.ret .busy)
  else
    let cfg := (List.range 8).map (fun j => if j = q then h else s.recField p n (144 + 2 * j) 2)
    if 524288 < layoutBytes cfg then .next (s.ret .poolSize)
    else .next ((s.setRecField p n (144 + 2 * q) 2 h).ret .ok)

/-- CODE_PATCH (R332, R346): ICINV completes everywhere, and the event is posted, after the stores that a fence puts before the call. -/
def execCodePatch (p : Nat) (a w ev : BitVec 64) (s : State) : Out :=
  if s.callHeld 0 0 then .next s
  else if a.toNat % 4 ≠ 0 ∨ 2 ^ 32 ≤ w.toNat ∨ 2 ^ 16 ≤ ev.toNat ∨ (ev.toNat ≠ 0xFFFF ∧ (s.event p ev.toNat).isNone) then .next (s.ret .arg)
  else .next (((s.icinv 0 (2 ^ 48)).postEvent p ev.toNat).ret .ok)

/-- The partitions that hold a cluster. -/
def State.livePartitions (s : State) : List Nat :=
  (List.range Config.clusterCount).foldl (fun l k => let p := (s.cluster k).part; if l.contains p then l else l ++ [p]) []

/-- CLOCK_LOCK (R326, R346): every die runs at 850 MHz, and each partition has its share of every die's budget. -/
def execClockLock (v : BitVec 64) (s : State) : Out :=
  if v = 1 then
    let ps := s.livePartitions
    let s := { s with locked := true, dies := s.dies.map (fun (d : Die) => { d with mhz := 850 }) }
    .next ((ps.foldl (fun s p => s.onPart p (fun x => { x with share := ps.length })) s).ret .ok)
  else if v = 0 then .next (((List.range 4).foldl State.serveLeases { s with locked := false }).ret .ok)
  else .next (s.ret .arg)

/-- COUNTERS_START (R334, R346). -/
def callCountersStart (p : Nat) (a : Word) (size k : Nat) (s : State) : Called :=
  if k < 10 ∨ 24 < k ∨ size < Config.counterRecord then some (s, .arg, 0)
  else
    let r : CounterRing := { on := true, part := p, addr := BitVec.ofNat 64 (addr48 a.toNat), slots := size / Config.counterRecord, k := k }
    some ({ s with ring := r, dies := s.dies.map (fun (d : Die) => { d with dropped := 0 }) }, .ok, 0)

def execCountersStart (p : Nat) (a size k : BitVec 64) (s : State) : Out :=
  match callCountersStart p a size.toNat k.toNat s with
  | some (s', st, v) => .next (s'.ret st v)
  | none => .next s

/-- STOP_HANDLER_SET (R346): 4 names no handler. -/
def execStopHandlerSet (p : Nat) (i h : BitVec 64) (s : State) : Out :=
  let n := i.toNat
  if !s.recUsable p n || 4 < h.toNat then .next (s.ret .arg)
  else if s.recState p n ≠ 0 then .next (s.ret .busy)
  else .next ((s.setRecField p n 8 1 (if h.toNat = 4 then 0 else 4 + h.toNat)).ret .ok)

-- RESUME_STRAND

/-- The core and strand of a stop descriptor's window address (R302). -/
def descStrand (s : State) (p a : Nat) : Option (Nat × BitVec 2) :=
  match winCheck s p (addr48 a) with
  | .ok (c, off) => if winRange off = .area ∧ off % 0x1_0000 = 0 then some (c, BitVec.ofNat 2 ((off - 0x34_0000) / 0x1_0000)) else none
  | .error _ => none

/-- The entries of such a stop return to their queue, or retire without a signal (R310, R364): their records are read from its stop area
and checked as RESUME checks a list (R309). The answer is the result of RESUME. -/
def State.resumeOrphan (s : State) (o : Orphan) (discard : Bool) : BitVec 24 × State :=
  let p := s.partOf o.core
  let near := s.mem.filter (fun e => o.addr ≤ e.1 && e.1 < o.addr + 65536)
  let x : Strand := { area := near.map (fun e => (e.1 - o.addr, e.2)) }
  match x.checkList (fun en b => (blockOf s p o.launch en b).isSome) with
  | .error n => (rstatOf 2 n, s)
  | .ok l =>
    let s := s.onPart p (fun q => { q with orphans := q.orphans.filter (fun u => u ≠ o) })
    let back := List.zip o.owners (l.filter (fun r => 3 ≤ r.kind.toNat))
    let s := s.putMem o.addr [0]
    (0, if discard then back.foldl (fun s e => s.onStrand o.core e.1 (fun x => x.addCnt o.en (· - 1))) s
      else s.onCore o.core (fun k => k.requeue o.en (back.map (fun e =>
        let vops := (vopsBefore l).map (fun r => (r.cleared).readOperands (k.strand e.1))
        e.2.entry s o.core e.1 o.launch vops))))

/-- Skyo performs the call a strand stopped for with SYSC (R307, R346): status to s1, result to s2; LREC_WAIT returns as an acquire of
the launch's completion (R279). none while the call blocks. -/
def State.serveSysc (s : State) (c : Nat) (t : BitVec 2) : Option State :=
  let x := s.strand c t
  if x.areaField 1 1 ≠ 18 then some s
  else
    let p := s.partOf c
    let n := x.areaField 26 2
    let r : Called :=
      if n = 5 then (callLrecWait p (x.sreg 1).toNat s).map (fun (s, st, v) => (if st = .ok then s.acquire c 4 else s, st, v))
      else if n = 9 then callEventReserve p (x.sreg 1).toNat s
      else if n = 13 then callCountersStart p (x.sreg 1) (x.sreg 2).toNat (x.sreg 3).toNat s
      else some (s, .denied, 0)
    r.map (fun (s, st, v) => (s.putSreg c t 1 (BitVec.ofNat 64 st.code)).putSreg c t 2 (BitVec.ofNat 64 v))

/-- RESUME_STRAND (R309, R310, R346, R364). -/
def execResumeStrand (p : Nat) (desc discard : BitVec 64) (s : State) : Out :=
  if s.callHeld (addr48 desc.toNat) 65536 then .next s
  else if 1 < discard.toNat then .next (s.ret .arg)
  else match (s.part p).orphans.find? (fun o => o.addr = addr48 desc.toNat) with
    | some o =>
      let (st, s') := s.resumeOrphan o (discard = 1)
      .next (s'.ret .ok st.toNat)
    | none => match descStrand s p desc.toNat with
      | none => .next (s.ret .arg)
      | some (c, t) =>
        let x := s.strand c t
        if !(x.life = .stopped && x.stop.isNone && x.recv.isNone) then .next (s.ret .ok (rstatOf 1 0).toNat)
        else
          let listOk := match x.checkList (fun en b => (blockOf s p x.lridx en b).isSome) with | .ok _ => true | .error _ => false
          match (if discard = 1 || !listOk then some s else s.serveSysc c t) with
          | none => .next s
          | some s' =>
            let (st, s'') := s'.resumeTarget c t (discard = 1)
            .next (s''.ret .ok st.toNat)

end Sys2Proof.Machine
end

