-- ==== Sys2Proof/Machine/Collective.lean ====
section
/-! DEFINITION. The package collective engine (R335, R355): barrier, all-gather, and the sums of all-reduce and reduce-scatter. -/
namespace Sys2Proof.Machine

/-- Element width of a sum, and the sum of two elements (R355). -/
def collWidth : CollKind → Nat
  | .allReduceBf16 | .reduceScatterBf16 => 2
  | _ => 4

def collAdd (k : CollKind) (a b : Nat) : Nat :=
  match k with
  | .allReduceF32 | .reduceScatterF32 => (fAdd fmtF32 .rne false a b).1
  | .allReduceBf16 | .reduceScatterBf16 => (fAdd fmtBf16 .rne false a b).1
  | _ => (a + b) % 2 ^ 32

/-- The sum of the participants' buffers of n bytes, element by element, in ring order from the first (log entry 43). -/
def collSum (k : CollKind) (n : Nat) (bufs : List (List Byte)) : List Byte :=
  let w := collWidth k
  let elems (b : List Byte) : List Nat := (rowsOf (n / w) w b).map leValue
  match bufs with
  | [] => []
  | b :: rest => ((rest.foldl (fun a b => List.zipWith (collAdd k) a (elems b)) (elems b)).flatMap (leBytes w))

/-- What each participant receives: bytes for its destination. -/
def collResults (k : CollKind) (n : Nat) (bufs : List (List Byte)) : List (List Byte) :=
  let m := bufs.length
  match k with
  | .barrier => []
  | .allGather => List.replicate m bufs.flatten
  | .allReduceF32 | .allReduceBf16 | .allReduceI32 => List.replicate m (collSum k n bufs)
  | .reduceScatterF32 | .reduceScatterBf16 | .reduceScatterI32 => rowsOf m (n / m / collWidth k * collWidth k) (collSum k n bufs)

/-- Is a participant of this package halted, by a lull, a cut or a stop (R335)? -/
def State.partHalted (s : State) (p : Nat) : Bool :=
  (s.partCores p).any (fun c => (s.core c).lull || (s.core c).cut || (s.core c).strands.toList.any (fun x => x.life = .stopped))

/-- Is some participant halted (R335)? -/
def Collective.someHalted (c : Collective) (s : State) : Bool := s.partHalted c.part || !c.halted.isEmpty

/-- Has every other package arrived? -/
def Collective.all (c : Collective) : Bool := (List.range c.m).all (fun j => j = c.me || c.peers.any (fun e => e.1 = j))

/-- The participants' buffers in ring order, this package's own one read from its memory. -/
def Collective.bufs (c : Collective) (s : State) : List (List Byte) :=
  (List.range c.m).map (fun j =>
    if j = c.me then physRead s c.src.toNat c.n else (c.peers.find? (fun e => e.1 = j)).elim [] (·.2.2))

/-- The arrival ticks in ring order, of the packages that have arrived (R356). -/
def Collective.ticks (c : Collective) : List (Option Nat) :=
  (List.range c.m).map (fun j => if j = c.me then some c.start else (c.peers.find? (fun e => e.1 = j)).map (·.2.1))

/-- Are two collectives instances of the same one (R356, log entry 61)? -/
def Arrivals.same (r : Arrivals) (c : Collective) : Bool := r.kind = c.kind && r.part = c.part && r.n = c.n && r.me = c.me

/-- The arrival skew that the engine reports of an instance (R335): its last arrival less its first. -/
def Arrivals.skew (r : Arrivals) : Nat :=
  match r.ticks.filterMap id with | [] => 0 | t :: ts => ts.foldl max t - ts.foldl min t

/-- The engine records an instance's arrivals, in place of those of the instance before it (R356). -/
def State.arrived (s : State) (c : Collective) : State :=
  let base := (s.arrivals.find? (·.same c)).elim 0 (·.done)
  { s with arrivals := s.arrivals.filter (fun r => !r.same c)
      ++ [{ kind := c.kind, part := c.part, n := c.n, me := c.me, ticks := c.ticks, base := base, done := s.tick }] }

/-- Perform a collective: the destination takes what this package receives (R355). -/
def State.collect (s : State) (c : Collective) : State :=
  physWrite s c.dst.toNat ((collResults c.kind c.n (c.bufs s)).getD c.me []) 0

/-- The frequency an early package's clock is lowered to (R356): the package would have arrived just at the last arrival of the previous
instance and no earlier; never below 400 MHz (log entry 61). -/
def Arrivals.lowered (r : Arrivals) (mhz : Nat) : Nat :=
  let own := (r.ticks.getD r.me none).getD 0
  let last := (r.ticks.filterMap id).foldl max 0
  if own < last && r.base < last then min mhz (max 400 (mhz * (own - r.base) / (last - r.base))) else mhz

/-- Skew balancing (R356): the clocks of the C-dies are lowered, and the current freed goes back to the die budgets; in locked-clock mode
nothing changes. -/
def State.balance (s : State) (i : Nat) : State :=
  match s.arrivals[i]? with
  | none => s
  | some r =>
    if s.locked || r.asked then s
    else
      let s := { s with
        arrivals := s.arrivals.set i { r with asked := true }
        dies := s.dies.map (fun (x : Die) => { x with
          mhz := r.lowered x.mhz
          budget := x.budget + (if r.lowered x.mhz < x.mhz then Config.freedCurrent x.mhz (r.lowered x.mhz) else 0) }) }
      (List.range 4).foldl State.serveLeases s

/-- COLLECTIVE (R335, R355, R356). Collectives are performed in the order in which they are called; the oldest waits for every package
and while a participant is halted. -/
def execCollective (a : CollAct) (p j m : Nat) (b : CollBufs) (s : State) : Out :=
  let head (f : Collective → List Collective → State) : Out := .next (match s.colls with | [] => s | c :: rest => f c rest)
  match a with
  | .call k =>
    .next { s with colls := s.colls ++ [{ kind := k, part := p, me := j, m := m, src := b.src, dst := b.dst, n := b.n, start := s.tick }] }
  | .arrive buf => head (fun c rest =>
      if c.m ≤ j || j = c.me || buf.length ≠ c.n || c.peers.any (fun e => e.1 = j) then s
      else { s with colls := { c with peers := c.peers ++ [(j, s.tick, buf)] } :: rest })
  | .peer h d => head (fun c rest =>
      let flag (l : List Nat) (b : Bool) : List Nat := let l := l.filter (· ≠ j); if b then l ++ [j] else l
      { s with colls := { c with halted := flag c.halted h, held := flag c.held d } :: rest })
  | .finish => head (fun c rest =>
      if c.all && !c.someHalted s then { ((s.collect c).arrived c) with colls := rest, collStat := 0 } else s)
  | .balance => .next (s.balance j)

/-- COLLECTIVE_TIMEOUT (R335): with a participant halted, status TIMEOUT after COLLTO; the arrivals stay recorded (R356). -/
def execCollectiveTimeout (s : State) : Out :=
  match s.colls with
  | [] => .next s
  | c :: rest => .next (if c.someHalted s && s.collto ≤ c.waited then { s.arrived c with colls := rest, collStat := 1 } else s)

/-- A run of n free bytes, the next ones drawn (log entry 20). -/
def State.freeBytes (s : State) (n : Nat) : List Byte × State :=
  ((List.range n).map (fun i => Config.freeByte (s.freeIx + i)), { s with freeIx := s.freeIx + n })

/-- QUEUE_PAIR_ERROR (R355): the collective under way ends with LINK, and its destination holds no defined byte; the arrivals stay
recorded (R356). -/
def execQueuePairError (s : State) : Out :=
  match s.colls with
  | [] => .next s
  | c :: rest =>
    let (bs, s) := s.freeBytes ((collResults c.kind c.n (List.replicate c.m (List.replicate c.n 0))).getD c.me []).length
    .next { (physWrite (s.arrived c) c.dst.toNat bs 0) with colls := rest, collStat := 2 }

end Sys2Proof.Machine
end

