-- ==== Sys2Proof/Machine/Scalar.lean ====
section
/-! DEFINITION. The S words that compute, choose and branch (R68 to R75). Each reads its operands at issue and puts its
result in flight. -/
namespace Sys2Proof.Machine

/-- ADD (R68). -/
def execAdd (ctl : BitVec 2) (rd ra rb : BitVec 5) (s : State) : Out :=
  .next (s.aluWord (.add ctl rd ra rb) ctl ra rb)

/-- SUB (R68). -/
def execSub (ctl : BitVec 2) (rd ra rb : BitVec 5) (s : State) : Out :=
  .next (s.aluWord (.sub ctl rd ra rb) ctl ra rb)

/-- AND (R68). -/
def execAnd (ctl : BitVec 2) (rd ra rb : BitVec 5) (s : State) : Out :=
  .next (s.aluWord (.and ctl rd ra rb) ctl ra rb)

/-- OR (R68). -/
def execOr (ctl : BitVec 2) (rd ra rb : BitVec 5) (s : State) : Out := .next (s.aluWord (.or ctl rd ra rb) ctl ra rb)

/-- XOR (R68). -/
def execXor (ctl : BitVec 2) (rd ra rb : BitVec 5) (s : State) : Out :=
  .next (s.aluWord (.xor ctl rd ra rb) ctl ra rb)

/-- ANDN (R68). -/
def execAndn (ctl : BitVec 2) (rd ra rb : BitVec 5) (s : State) : Out :=
  .next (s.aluWord (.andn ctl rd ra rb) ctl ra rb)

/-- SHL (R68). -/
def execShl (ctl : BitVec 2) (rd ra rb : BitVec 5) (s : State) : Out :=
  .next (s.aluWord (.shl ctl rd ra rb) ctl ra rb)

/-- SHR (R68). -/
def execShr (ctl : BitVec 2) (rd ra rb : BitVec 5) (s : State) : Out :=
  .next (s.aluWord (.shr ctl rd ra rb) ctl ra rb)

/-- SRA (R68). -/
def execSra (ctl : BitVec 2) (rd ra rb : BitVec 5) (s : State) : Out :=
  .next (s.aluWord (.sra ctl rd ra rb) ctl ra rb)

/-- MUL (R68). -/
def execMul (ctl : BitVec 2) (rd ra rb : BitVec 5) (s : State) : Out :=
  .next (s.aluWord (.mul ctl rd ra rb) ctl ra rb)

/-- MULH (R68). -/
def execMulh (ctl : BitVec 2) (rd ra rb : BitVec 5) (s : State) : Out :=
  .next (s.aluWord (.mulh ctl rd ra rb) ctl ra rb)

/-- MULHN (R68). -/
def execMulhn (ctl : BitVec 2) (rd ra rb : BitVec 5) (s : State) : Out :=
  .next (s.aluWord (.mulhn ctl rd ra rb) ctl ra rb)

/-- DIV (R68). -/
def execDiv (ctl : BitVec 2) (rd ra rb : BitVec 5) (s : State) : Out :=
  .next (s.aluWord (.div ctl rd ra rb) ctl ra rb)

/-- DIVN (R68). -/
def execDivn (ctl : BitVec 2) (rd ra rb : BitVec 5) (s : State) : Out :=
  .next (s.aluWord (.divn ctl rd ra rb) ctl ra rb)

/-- REM (R68). -/
def execRem (ctl : BitVec 2) (rd ra rb : BitVec 5) (s : State) : Out :=
  .next (s.aluWord (.rem ctl rd ra rb) ctl ra rb)

/-- REMN (R68). -/
def execRemn (ctl : BitVec 2) (rd ra rb : BitVec 5) (s : State) : Out :=
  .next (s.aluWord (.remn ctl rd ra rb) ctl ra rb)

/-- MIN (R68). -/
def execMin (ctl : BitVec 2) (rd ra rb : BitVec 5) (s : State) : Out :=
  .next (s.aluWord (.min ctl rd ra rb) ctl ra rb)

/-- MAX (R68). -/
def execMax (ctl : BitVec 2) (rd ra rb : BitVec 5) (s : State) : Out :=
  .next (s.aluWord (.max ctl rd ra rb) ctl ra rb)

/-- MINN (R68). -/
def execMinn (ctl : BitVec 2) (rd ra rb : BitVec 5) (s : State) : Out :=
  .next (s.aluWord (.minn ctl rd ra rb) ctl ra rb)

/-- MAXN (R68). -/
def execMaxn (ctl : BitVec 2) (rd ra rb : BitVec 5) (s : State) : Out :=
  .next (s.aluWord (.maxn ctl rd ra rb) ctl ra rb)

/-- ADDW (R68). -/
def execAddw (ctl : BitVec 2) (rd ra rb : BitVec 5) (s : State) : Out :=
  .next (s.aluWord (.addw ctl rd ra rb) ctl ra rb)

/-- SUBW (R68). -/
def execSubw (ctl : BitVec 2) (rd ra rb : BitVec 5) (s : State) : Out :=
  .next (s.aluWord (.subw ctl rd ra rb) ctl ra rb)

/-- CLZ (R68). -/
def execClz (ctl : BitVec 2) (rd ra : BitVec 5) (s : State) : Out := .next (s.aluWord (.clz ctl rd ra) ctl ra 0)

/-- CTZ (R68). -/
def execCtz (ctl : BitVec 2) (rd ra : BitVec 5) (s : State) : Out := .next (s.aluWord (.ctz ctl rd ra) ctl ra 0)

/-- POPC (R68). -/
def execPopc (ctl : BitVec 2) (rd ra : BitVec 5) (s : State) : Out := .next (s.aluWord (.popc ctl rd ra) ctl ra 0)

/-- ADDI (R69). -/
def execAddi (ctl : BitVec 2) (rd ra : BitVec 5) (imm : BitVec 12) (s : State) : Out :=
  .next (s.aluWord (.addi ctl rd ra imm) ctl ra 0)

/-- ANDI (R69). -/
def execAndi (ctl : BitVec 2) (rd ra : BitVec 5) (imm : BitVec 12) (s : State) : Out :=
  .next (s.aluWord (.andi ctl rd ra imm) ctl ra 0)

/-- ORI (R69). -/
def execOri (ctl : BitVec 2) (rd ra : BitVec 5) (imm : BitVec 12) (s : State) : Out :=
  .next (s.aluWord (.ori ctl rd ra imm) ctl ra 0)

/-- XORI (R69). -/
def execXori (ctl : BitVec 2) (rd ra : BitVec 5) (imm : BitVec 12) (s : State) : Out :=
  .next (s.aluWord (.xori ctl rd ra imm) ctl ra 0)

/-- SHLI (R69). -/
def execShli (ctl : BitVec 2) (rd ra : BitVec 5) (sh : BitVec 6) (s : State) : Out :=
  .next (s.aluWord (.shli ctl rd ra sh) ctl ra 0)

/-- SHRI (R69). -/
def execShri (ctl : BitVec 2) (rd ra : BitVec 5) (sh : BitVec 6) (s : State) : Out :=
  .next (s.aluWord (.shri ctl rd ra sh) ctl ra 0)

/-- SRAI (R69). -/
def execSrai (ctl : BitVec 2) (rd ra : BitVec 5) (sh : BitVec 6) (s : State) : Out :=
  .next (s.aluWord (.srai ctl rd ra sh) ctl ra 0)

/-- ADDWI (R69). -/
def execAddwi (ctl : BitVec 2) (rd ra : BitVec 5) (imm : BitVec 12) (s : State) : Out :=
  .next (s.aluWord (.addwi ctl rd ra imm) ctl ra 0)

/-- sext32(imm20 << 12), as a 64-bit value (R70). -/
def lihValue (imm : BitVec 20) : Word := ((imm.setWidth 32) <<< 12).signExtend 64

/-- LIH (R70). -/
def execLih (ctl : BitVec 2) (rd : BitVec 5) (imm : BitVec 20) (s : State) : Out :=
  .next (s.resultWord (.lih ctl rd imm) ctl (lihValue imm))

/-- LIHP (R70): PC is the address of the word. -/
def execLihp (ctl : BitVec 2) (rd : BitVec 5) (imm : BitVec 20) (s : State) : Out :=
  .next (s.resultWord (.lihp ctl rd imm) ctl (s.cur.pc + lihValue imm))

/-- CMP (R71). -/
def execCmp (ctl gd : BitVec 2) (ra rb : BitVec 5) (cond : BitVec 6) (s : State) : Out :=
  .next (s.aluWord (.cmp ctl gd ra rb cond) ctl ra rb)

/-- CMPI (R71). -/
def execCmpi (ctl gd : BitVec 2) (ra : BitVec 5) (imm : BitVec 12) (cond : BitVec 2) (s : State) : Out :=
  .next (s.aluWord (.cmpi ctl gd ra imm cond) ctl ra 0)

/-- A word of two guard operands (R72). -/
def State.guardWord (s : State) (i : Instr) (ctl ga gb : BitVec 2) : State :=
  s.fixedWord i ctl (boolWord (s.cur.guardBit ga)) (boolWord (s.cur.guardBit gb)) 0 0

/-- GAND (R72). -/
def execGand (ctl gd ga gb : BitVec 2) (s : State) : Out := .next (s.guardWord (.gand ctl gd ga gb) ctl ga gb)

/-- GOR (R72). -/
def execGor (ctl gd ga gb : BitVec 2) (s : State) : Out := .next (s.guardWord (.gor ctl gd ga gb) ctl ga gb)

/-- GXOR (R72). -/
def execGxor (ctl gd ga gb : BitVec 2) (s : State) : Out := .next (s.guardWord (.gxor ctl gd ga gb) ctl ga gb)

/-- GANDN (R72). -/
def execGandn (ctl gd ga gb : BitVec 2) (s : State) : Out := .next (s.guardWord (.gandn ctl gd ga gb) ctl ga gb)

/-- SEL (R73): a false guard gives s[rb]. DESIGN CHOICE (log entry 72): the never-true guard !g0 does so too, although R33 says that a
word under it performs nothing. -/
def execSel (ctl : BitVec 2) (rd ra rb : BitVec 5) (g : BitVec 3) (s : State) : Out :=
  .next (s.resultWord (.sel ctl rd ra rb g) ctl (if s.cur.guard g then s.cur.sreg ra else s.cur.sreg rb))

/-- A taken branch (R74): two empty slots are owed, and a call puts its link in flight. -/
def State.branchTo (s : State) (i : Instr) (ctl : BitVec 2) (link : Bool) (target : Word) : State :=
  s.issue ctl 2 target (fun x => if link then x.fly i (x.pc + 4) 0 [] else x)

/-- A branch to a target (R74, R75): a false guard performs nothing, and a misaligned target stops with ALIGN, the saved PC being the
branch's own; a is what the record holds as its target. DESIGN CHOICE (log entry 72): VADDR takes all 64 bits of the target. -/
def State.jumpTo (s : State) (i : Instr) (ctl : BitVec 2) (g : BitVec 3) (link : Bool) (target a : Word) : State :=
  if !(s.cur.guard g) then s.issue ctl 0 s.nextPc id
  else if target.toNat % 4 ≠ 0 then s.faultWord i ctl s.cur.pc ⟨.align, 0, target⟩ a 0
  else s.branchTo i ctl link target

/-- BR and CALL (R74). -/
def State.branchWord (s : State) (i : Instr) (ctl : BitVec 2) (g : BitVec 3) (link : Bool) (off : BitVec 21) : State :=
  s.jumpTo i ctl g link (s.cur.pc + (off.signExtend 64 <<< 2)) 0

/-- JR and CALLR (R74, R75). -/
def State.jumpWord (s : State) (i : Instr) (ctl : BitVec 2) (g : BitVec 3) (link : Bool) (ra : BitVec 5) : State :=
  s.jumpTo i ctl g link (s.cur.sreg ra) (s.cur.sreg ra)

/-- BR (R74). -/
def execBr (ctl : BitVec 2) (g : BitVec 3) (off : BitVec 21) (s : State) : Out :=
  .next (s.branchWord (.br ctl g off) ctl g false off)

/-- CALL (R74). -/
def execCall (ctl : BitVec 2) (g : BitVec 3) (off : BitVec 21) (s : State) : Out :=
  .next (s.branchWord (.call ctl g off) ctl g true off)

/-- JR (R74). -/
def execJr (ctl : BitVec 2) (ra : BitVec 5) (g : BitVec 3) (s : State) : Out :=
  .next (s.jumpWord (.jr ctl ra g) ctl g false ra)

/-- CALLR (R74). -/
def execCallr (ctl : BitVec 2) (ra : BitVec 5) (g : BitVec 3) (s : State) : Out :=
  .next (s.jumpWord (.callr ctl ra g) ctl g true ra)

end Sys2Proof.Machine
end

