-- ==== Sys2Proof/Machine/System.lean ====
section
/-! DEFINITION. System registers (R76 to R78), stop words and RESUME (R307 to R310), END and HALT (R123, R66), region
marks (R327) and the illegal S word (R44). -/
namespace Sys2Proof.Machine

/-- MFS (R76): the register is read at issue. -/
def execMfs (ctl : BitVec 2) (rd : BitVec 5) (num : BitVec 14) (s : State) : Out :=
  let v := sysregValue s s.focus s.curStrand num.toNat
  let s' := s.resultWord (.mfs ctl rd num) ctl v
  .next (if num = 0x100 then s'.onStrand s.focus s.curStrand (fun x => { x with fifo := x.fifo.drop 1 }) else s')

/-- STOPNEXT_READ (R308): MFS of STOPNEXT. -/
def execStopnextRead (ctl : BitVec 2) (rd : BitVec 5) (s : State) : Out :=
  let v := sysregValue s s.focus s.curStrand 0x100
  let s' := s.resultWord (.stopnextRead ctl rd) ctl v
  .next (s'.onStrand s.focus s.curStrand (fun x => { x with fifo := x.fifo.drop 1 }))

/-- MTS (R76): PRIV on a core-scope register and on one without an RW field. -/
def execMts (ctl : BitVec 2) (ra : BitVec 5) (num : BitVec 14) (s : State) : Out :=
  let a := s.cur.sreg ra
  if strandWritable num then .next (s.fixedWord (.mts ctl ra num) ctl a 0 ra 0)
  else .next (s.faultWord (.mts ctl ra num) ctl s.nextPc ⟨.priv, 0, 0⟩ a 0 (s.cur.linkOf ra 0))

/-- SYSC (R307): the stop goes to Skyo, which performs the call (R346). -/
def execSysc (ctl : BitVec 2) (num : BitVec 14) (s : State) : Out := .next (s.stopWord ctl s.nextPc .sysc num)

/-- TRAP (R307). -/
def execTrap (ctl : BitVec 2) (num : BitVec 14) (s : State) : Out := .next (s.stopWord ctl s.nextPc .trap num)

/-- BRK (R307): the saved PC is its own address. -/
def execBrk (ctl : BitVec 2) (s : State) : Out := .next (s.stopWord ctl s.cur.pc .brk 0)

/-- HALT (R66, R307): the writes in flight land first. -/
def execHalt (ctl : BitVec 2) (s : State) : Out :=
  .next ((s.onStrand s.focus s.curStrand Strand.landAll).stopWord ctl s.nextPc .halt 0)

/-- END (R66, R123, R325): the writes in flight land and the strand issues nothing more; its mask names the queues its
own entries must leave before the next kernel. -/
def execEndK (ctl : BitVec 2) (mask : BitVec 3) (s : State) : Out :=
  let t := s.curStrand
  .next ((s.issue ctl 0 s.nextPc Strand.landAll).endStrand s.focus t mask)

/-- Is this strand the handler strand of its team's launch (R310)? -/
def State.isHandler (s : State) (c : Nat) (t : BitVec 2) : Bool :=
  match (s.core c).team with
  | none => false
  | some m =>
    let h := s.recField (s.partOf c) m.launch.toNat 8 1
    bitsOf h 2 2 = 1 && h % 4 = t.toNat && t.toNat < m.strands

/-- The stop-record area of strand t as a RESUME by strand h reads it: each store to it that is still in h's store queue is seen or not,
by the n-th free choice and those after it (R319). -/
def State.seenArea (s : State) (c : Nat) (h t : BitVec 2) : Mem :=
  let x := s.strand c h
  let area := (s.strand c t).area
  ((List.range x.stores.length).zip x.stores).foldl (fun m (i, q) => match q.op with
    | .st _ _ _ _ sz _ => match s.scalarTarget c q.opa.toNat (2 ^ sz.toNat) .store true with
      | .ok pa =>
        let a := descAddr c t
        if a ≤ pa && pa < a + 0x1_0000 && Memory.byte area 0 = 1 && Config.freeBit (s.freeIx + i) then
          Memory.store m (pa - a) (leBytes (2 ^ sz.toNat) q.opb.toNat)
        else m
      | .error _ => m
    | _ => m) area

/-- RESUME (R307, R309, R310, R319): PRIV for every strand but the handler, with no record; otherwise RSTAT takes the result. -/
def execResume (ctl : BitVec 2) (s : State) : Out :=
  let c := s.focus
  let h := s.curStrand
  let x := s.cur
  if !(s.isHandler c h) then .next (s.stopWord ctl s.nextPc .priv 0)
  else
    let t : BitVec 2 := x.rstrand.setWidth 2
    let held := (s.strand c t).recv = some h && (s.strand c t).life = .stopped && (s.strand c t).stop.isNone
    if !(x.rstrand.getLsbD 2 && held) then .next (s.issue ctl 0 s.nextPc (fun y => { y with rstat := rstatOf 1 0 }))
    else
      let seen := s.onStrand c t (fun y => { y with area := s.seenArea c h t })
      let (st, u) := seen.resumeTarget c t (x.rstrand.getLsbD 3)
      let s' := { (if st = 0 then u else s) with freeIx := s.freeIx + x.stores.length }
      .next (s'.issue ctl 0 s.nextPc (fun y =>
        if st = 0 then { y with rstat := 0, rstrand := y.rstrand &&& 0xB, fifo := y.fifo.filter (fun u => u ≠ t) }
        else { y with rstat := st }))

/-- A region mark issues (R327), writes its trace record (R328), and takes a cut halt that was asked for and has not stopped the strand before (R331). -/
def State.regionWord (s : State) (ctl : BitVec 2) (kind : Nat) (f : Strand → Strand) : State :=
  let c := s.focus
  let t := s.curStrand
  let s' := (s.issue ctl 0 s.nextPc f).trace c t kind
  if (s.core c).cut && !s.cur.cutDone then s'.stopStrand c t { why := ⟨.debug, 0, 0⟩, at_ := .outside } else s'

/-- ENTER (R327). -/
def execEnter (ctl : BitVec 2) (num : BitVec 14) (s : State) : Out := .next (s.regionWord ctl 0 (·.enterRegion num))

/-- LEAVE (R327). -/
def execLeave (ctl : BitVec 2) (s : State) : Out := .next (s.regionWord ctl 1 Strand.leaveRegion)

/-- ILLEGAL_S_WORD (R44): the word performs nothing, its CTL mark has no effect, and its record holds 0, 0. -/
def execIllegalSWord (w : BitVec 32) (s : State) : Out :=
  .next (s.faultWord (.illegalSWord w) 0 s.nextPc ⟨.illegal, 0, 0⟩ 0 0)

end Sys2Proof.Machine
end

