-- ==== Sys2Proof/Machine/Vector.lean ====
section
/-! DEFINITION. The lanewise V words: integer and float arithmetic (R135 to R138), bits, moves and selection (R139 to R141),
immediates (R142, R143), conversions (R144 to R148), masks (R149, R150), and b-registers and vshape (R129). Each reads
its operands at issue; its result is that of vCompute. -/
namespace Sys2Proof.Machine

/-- VADD (R135, R138). -/
def execVadd (e : Bool) (vd va vb : BitVec 5) (s : State) : Out := .next (s.vFixed (.vadd e vd va vb) e)

/-- VSUB (R135, R138). -/
def execVsub (e : Bool) (vd va vb : BitVec 5) (s : State) : Out := .next (s.vFixed (.vsub e vd va vb) e)

/-- VMUL (R135, R138). -/
def execVmul (e : Bool) (vd va vb : BitVec 5) (s : State) : Out := .next (s.vFixed (.vmul e vd va vb) e)

/-- VMULH (R135). -/
def execVmulh (e : Bool) (vd va vb : BitVec 5) (s : State) : Out := .next (s.vFixed (.vmulh e vd va vb) e)

/-- VFMA (R135, R138). -/
def execVfma (e : Bool) (vd va vb vc : BitVec 5) (s : State) : Out := .next (s.vFixed (.vfma e vd va vb vc) e)

/-- VFMS (R135, R138). -/
def execVfms (e : Bool) (vd va vb vc : BitVec 5) (s : State) : Out := .next (s.vFixed (.vfms e vd va vb vc) e)

/-- VFNMA (R135, R138). -/
def execVfnma (e : Bool) (vd va vb vc : BitVec 5) (s : State) : Out := .next (s.vFixed (.vfnma e vd va vb vc) e)

/-- VMIN (R135, R138). -/
def execVmin (e : Bool) (vd va vb : BitVec 5) (s : State) : Out := .next (s.vFixed (.vmin e vd va vb) e)

/-- VMAX (R135, R138). -/
def execVmax (e : Bool) (vd va vb : BitVec 5) (s : State) : Out := .next (s.vFixed (.vmax e vd va vb) e)

/-- VABS (R135, R138). -/
def execVabs (e : Bool) (vd va : BitVec 5) (s : State) : Out := .next (s.vFixed (.vabs e vd va) e)

/-- VNEG (R135, R138). -/
def execVneg (e : Bool) (vd va : BitVec 5) (s : State) : Out := .next (s.vFixed (.vneg e vd va) e)

/-- VADDS (R135). -/
def execVadds (e : Bool) (vd va vb : BitVec 5) (s : State) : Out := .next (s.vFixed (.vadds e vd va vb) e)

/-- VSUBS (R135). -/
def execVsubs (e : Bool) (vd va vb : BitVec 5) (s : State) : Out := .next (s.vFixed (.vsubs e vd va vb) e)

/-- VAVG (R135). -/
def execVavg (e : Bool) (vd va vb : BitVec 5) (s : State) : Out := .next (s.vFixed (.vavg e vd va vb) e)

/-- VAND (R139). -/
def execVand (e : Bool) (vd va vb : BitVec 5) (s : State) : Out := .next (s.vFixed (.vand e vd va vb) e)

/-- VOR (R139). -/
def execVor (e : Bool) (vd va vb : BitVec 5) (s : State) : Out := .next (s.vFixed (.vor e vd va vb) e)

/-- VXOR (R139). -/
def execVxor (e : Bool) (vd va vb : BitVec 5) (s : State) : Out := .next (s.vFixed (.vxor e vd va vb) e)

/-- VANDN (R139). -/
def execVandn (e : Bool) (vd va vb : BitVec 5) (s : State) : Out := .next (s.vFixed (.vandn e vd va vb) e)

/-- VNOT (R139). -/
def execVnot (e : Bool) (vd va : BitVec 5) (s : State) : Out := .next (s.vFixed (.vnot e vd va) e)

/-- VSHL (R135). -/
def execVshl (e : Bool) (vd va vb : BitVec 5) (s : State) : Out := .next (s.vFixed (.vshl e vd va vb) e)

/-- VSHR (R135). -/
def execVshr (e : Bool) (vd va vb : BitVec 5) (s : State) : Out := .next (s.vFixed (.vshr e vd va vb) e)

/-- VSRA (R135). -/
def execVsra (e : Bool) (vd va vb : BitVec 5) (s : State) : Out := .next (s.vFixed (.vsra e vd va vb) e)

/-- VMOV (R139). -/
def execVmov (e : Bool) (vd va : BitVec 5) (s : State) : Out := .next (s.vFixed (.vmov e vd va) e)

/-- VSEL (R140). -/
def execVsel (e : Bool) (vd va vb : BitVec 5) (kn : BitVec 3) (s : State) : Out :=
  .next (s.vFixed (.vsel e vd va vb kn) e)

/-- VCMP (R141). -/
def execVcmp (e : Bool) (kd : BitVec 3) (va vb : BitVec 5) (cond : BitVec 4) (s : State) : Out :=
  .next (s.vFixed (.vcmp e kd va vb cond) e)

/-- VCLZ (R135). -/
def execVclz (e : Bool) (vd va : BitVec 5) (s : State) : Out := .next (s.vFixed (.vclz e vd va) e)

/-- VPOPC (R135). -/
def execVpopc (e : Bool) (vd va : BitVec 5) (s : State) : Out := .next (s.vFixed (.vpopc e vd va) e)

/-- VCPYS (R138). -/
def execVcpys (e : Bool) (vd va vb : BitVec 5) (s : State) : Out := .next (s.vFixed (.vcpys e vd va vb) e)

/-- VADDI (R142). -/
def execVaddi (e : Bool) (vd va : BitVec 5) (imm : BitVec 14) (s : State) : Out :=
  .next (s.vFixed (.vaddi e vd va imm) e)

/-- VMULI (R142). -/
def execVmuli (e : Bool) (vd va : BitVec 5) (imm : BitVec 14) (s : State) : Out :=
  .next (s.vFixed (.vmuli e vd va imm) e)

/-- VANDI (R142). -/
def execVandi (e : Bool) (vd va : BitVec 5) (imm : BitVec 14) (s : State) : Out :=
  .next (s.vFixed (.vandi e vd va imm) e)

/-- VORI (R142). -/
def execVori (e : Bool) (vd va : BitVec 5) (imm : BitVec 14) (s : State) : Out :=
  .next (s.vFixed (.vori e vd va imm) e)

/-- VXORI (R142). -/
def execVxori (e : Bool) (vd va : BitVec 5) (imm : BitVec 14) (s : State) : Out :=
  .next (s.vFixed (.vxori e vd va imm) e)

/-- VSHLI (R142). -/
def execVshli (e : Bool) (vd va sh : BitVec 5) (s : State) : Out := .next (s.vFixed (.vshli e vd va sh) e)

/-- VSHRI (R142). -/
def execVshri (e : Bool) (vd va sh : BitVec 5) (s : State) : Out := .next (s.vFixed (.vshri e vd va sh) e)

/-- VSRAI (R142). -/
def execVsrai (e : Bool) (vd va sh : BitVec 5) (s : State) : Out := .next (s.vFixed (.vsrai e vd va sh) e)

/-- VSPLI (R143). -/
def execVspli (e : Bool) (vd : BitVec 5) (imm : BitVec 14) (s : State) : Out := .next (s.vFixed (.vspli e vd imm) e)

/-- VIOTA (R143). -/
def execViota (e : Bool) (vd : BitVec 5) (imm : BitVec 14) (s : State) : Out := .next (s.vFixed (.viota e vd imm) e)

/-- VSPLB (R143). -/
def execVsplb (e : Bool) (vd : BitVec 5) (bn : BitVec 3) (s : State) : Out := .next (s.vFixed (.vsplb e vd bn) e)

/-- VCVT (R144). -/
def execVcvt (e : Bool) (vd va : BitVec 5) (src : BitVec 4) (s : State) : Out :=
  .next (s.vFixed (.vcvt e vd va src) e)

/-- VWID (R145, R146). -/
def execVwid (e : Bool) (vd va : BitVec 5) (s : State) : Out := .next (s.vFixed (.vwid e vd va) e)

/-- VNAR (R145, R146). -/
def execVnar (e : Bool) (vd va : BitVec 5) (s : State) : Out := .next (s.vFixed (.vnar e vd va) e)

/-- VQNT (R145, R147). -/
def execVqnt (e : Bool) (vd va vb : BitVec 5) (s : State) : Out := .next (s.vFixed (.vqnt e vd va vb) e)

/-- VDQN (R145, R147). -/
def execVdqn (e : Bool) (vd va vb : BitVec 5) (s : State) : Out := .next (s.vFixed (.vdqn e vd va vb) e)

/-- VRND (R148). -/
def execVrnd (e : Bool) (vd va : BitVec 5) (s : State) : Out := .next (s.vFixed (.vrnd e vd va) e)

/-- KAND (R149). -/
def execKand (e : Bool) (kd ka kb : BitVec 3) (s : State) : Out := .next (s.vFixed (.kand e kd ka kb) e)

/-- KOR (R149). -/
def execKor (e : Bool) (kd ka kb : BitVec 3) (s : State) : Out := .next (s.vFixed (.kor e kd ka kb) e)

/-- KXOR (R149). -/
def execKxor (e : Bool) (kd ka kb : BitVec 3) (s : State) : Out := .next (s.vFixed (.kxor e kd ka kb) e)

/-- KANDN (R149). -/
def execKandn (e : Bool) (kd ka kb : BitVec 3) (s : State) : Out := .next (s.vFixed (.kandn e kd ka kb) e)

/-- KNOT (R149). -/
def execKnot (e : Bool) (kd ka : BitVec 3) (s : State) : Out := .next (s.vFixed (.knot e kd ka) e)

/-- KSET (R149). -/
def execKset (e : Bool) (kd : BitVec 3) (s : State) : Out := .next (s.vFixed (.kset e kd) e)

/-- KPOP (R150). -/
def execKpop (e : Bool) (vd : BitVec 5) (ka : BitVec 3) (s : State) : Out := .next (s.vFixed (.kpop e vd ka) e)

/-- KMOV (R149). -/
def execKmov (e : Bool) (kd ka : BitVec 3) (s : State) : Out := .next (s.vFixed (.kmov e kd ka) e)

/-- VBLI (R129). -/
def execVbli (e : Bool) (bn : BitVec 3) (imm : BitVec 21) (s : State) : Out := .next (s.vFixed (.vbli e bn imm) e)

/-- VBADD (R129). -/
def execVbadd (e : Bool) (bn : BitVec 3) (imm : BitVec 21) (s : State) : Out := .next (s.vFixed (.vbadd e bn imm) e)

/-- VBMOV (R129). -/
def execVbmov (e : Bool) (vd ba : BitVec 3) (s : State) : Out := .next (s.vFixed (.vbmov e vd ba) e)

/-- VSHP (R129). -/
def execVshp (e : Bool) (bn : BitVec 3) (s : State) : Out := .next (s.vFixed (.vshp e bn) e)

/-- VSHPB (R129). -/
def execVshpb (e : Bool) (bn : BitVec 3) (s : State) : Out := .next (s.vFixed (.vshpb e bn) e)

/-- VFLG (R129). -/
def execVflg (e : Bool) (bn : BitVec 3) (s : State) : Out := .next (s.vFixed (.vflg e bn) e)

/-- VNOP (R129). -/
def execVnop (e : Bool) (s : State) : Out := .next (s.vNothing (.vnop e) e)

end Sys2Proof.Machine
end

