-- ==== Sys2Proof/Machine/VectorLanes.lean ====
section
/-! DEFINITION. The cross-lane V words: permutes (R163), reductions (R164) and special functions (R165). -/
namespace Sys2Proof.Machine

/-- VPERM (R163). -/
def execVperm (e : Bool) (vd va vb : BitVec 5) (s : State) : Out := .next (s.vFixed (.vperm e vd va vb) e)

/-- VBCST (R163). -/
def execVbcst (e : Bool) (vd va : BitVec 5) (lane : BitVec 10) (s : State) : Out :=
  .next (s.vFixed (.vbcst e vd va lane) e)

/-- VSLUP (R163). -/
def execVslup (e : Bool) (vd va : BitVec 5) (lane : BitVec 10) (s : State) : Out :=
  .next (s.vFixed (.vslup e vd va lane) e)

/-- VSLDN (R163). -/
def execVsldn (e : Bool) (vd va : BitVec 5) (lane : BitVec 10) (s : State) : Out :=
  .next (s.vFixed (.vsldn e vd va lane) e)

/-- VREV (R163). -/
def execVrev (e : Bool) (vd va : BitVec 5) (s : State) : Out := .next (s.vFixed (.vrev e vd va) e)

/-- VCMPR (R163). -/
def execVcmpr (e : Bool) (vd va : BitVec 5) (s : State) : Out := .next (s.vFixed (.vcmpr e vd va) e)

/-- VEXPN (R163). -/
def execVexpn (e : Bool) (vd va : BitVec 5) (s : State) : Out := .next (s.vFixed (.vexpn e vd va) e)

/-- VSCAN (R164). -/
def execVscan (e : Bool) (vd va : BitVec 5) (s : State) : Out := .next (s.vFixed (.vscan e vd va) e)

/-- VRSUM (R164). -/
def execVrsum (e : Bool) (vd va : BitVec 5) (s : State) : Out := .next (s.vFixed (.vrsum e vd va) e)

/-- VRMIN (R164). -/
def execVrmin (e : Bool) (vd va : BitVec 5) (s : State) : Out := .next (s.vFixed (.vrmin e vd va) e)

/-- VRMAX (R164). -/
def execVrmax (e : Bool) (vd va : BitVec 5) (s : State) : Out := .next (s.vFixed (.vrmax e vd va) e)

/-- VRCP (R165). -/
def execVrcp (e : Bool) (vd va : BitVec 5) (s : State) : Out := .next (s.vFixed (.vrcp e vd va) e)

/-- VRSQ (R165). -/
def execVrsq (e : Bool) (vd va : BitVec 5) (s : State) : Out := .next (s.vFixed (.vrsq e vd va) e)

/-- VSQRT (R165). -/
def execVsqrt (e : Bool) (vd va : BitVec 5) (s : State) : Out := .next (s.vFixed (.vsqrt e vd va) e)

/-- VDIVF (R165). -/
def execVdivf (e : Bool) (vd va vb : BitVec 5) (s : State) : Out := .next (s.vFixed (.vdivf e vd va vb) e)

/-- VEXP2 (R165). -/
def execVexp2 (e : Bool) (vd va : BitVec 5) (s : State) : Out := .next (s.vFixed (.vexp2 e vd va) e)

/-- VLOG2 (R165). -/
def execVlog2 (e : Bool) (vd va : BitVec 5) (s : State) : Out := .next (s.vFixed (.vlog2 e vd va) e)

/-- VSIN (R165). -/
def execVsin (e : Bool) (vd va : BitVec 5) (s : State) : Out := .next (s.vFixed (.vsin e vd va) e)

/-- VTANH (R165). -/
def execVtanh (e : Bool) (vd va : BitVec 5) (s : State) : Out := .next (s.vFixed (.vtanh e vd va) e)

/-- VDOT4 (R164). It draws the free lanes past a 16-bit register's end (log entry 23). -/
def execVdot4 (e : Bool) (vd va vb : BitVec 5) (s : State) : Out :=
  .next { s.vFixed (.vdot4 e vd va vb) e with freeIx := s.freeIx + 1 }

end Sys2Proof.Machine
end

