-- ==== Sys2Proof/Machine/Dispatch.lean ====
section
/-! DEFINITION. The meaning of every instruction and of every device step, one arm each. -/
namespace Sys2Proof.Machine

/-- What an instruction or a device step does in a state (R8). -/
def exec (i : Instr) (s : State) : Host.Outcome State Fault Refusal :=
  match i with
  | .add ctl rd ra rb => Sys2Proof.Machine.execAdd ctl rd ra rb s
  | .sub ctl rd ra rb => Sys2Proof.Machine.execSub ctl rd ra rb s
  | .and ctl rd ra rb => Sys2Proof.Machine.execAnd ctl rd ra rb s
  | .or ctl rd ra rb => Sys2Proof.Machine.execOr ctl rd ra rb s
  | .xor ctl rd ra rb => Sys2Proof.Machine.execXor ctl rd ra rb s
  | .andn ctl rd ra rb => Sys2Proof.Machine.execAndn ctl rd ra rb s
  | .shl ctl rd ra rb => Sys2Proof.Machine.execShl ctl rd ra rb s
  | .shr ctl rd ra rb => Sys2Proof.Machine.execShr ctl rd ra rb s
  | .sra ctl rd ra rb => Sys2Proof.Machine.execSra ctl rd ra rb s
  | .mul ctl rd ra rb => Sys2Proof.Machine.execMul ctl rd ra rb s
  | .mulh ctl rd ra rb => Sys2Proof.Machine.execMulh ctl rd ra rb s
  | .mulhn ctl rd ra rb => Sys2Proof.Machine.execMulhn ctl rd ra rb s
  | .div ctl rd ra rb => Sys2Proof.Machine.execDiv ctl rd ra rb s
  | .divn ctl rd ra rb => Sys2Proof.Machine.execDivn ctl rd ra rb s
  | .rem ctl rd ra rb => Sys2Proof.Machine.execRem ctl rd ra rb s
  | .remn ctl rd ra rb => Sys2Proof.Machine.execRemn ctl rd ra rb s
  | .min ctl rd ra rb => Sys2Proof.Machine.execMin ctl rd ra rb s
  | .max ctl rd ra rb => Sys2Proof.Machine.execMax ctl rd ra rb s
  | .minn ctl rd ra rb => Sys2Proof.Machine.execMinn ctl rd ra rb s
  | .maxn ctl rd ra rb => Sys2Proof.Machine.execMaxn ctl rd ra rb s
  | .clz ctl rd ra => Sys2Proof.Machine.execClz ctl rd ra s
  | .ctz ctl rd ra => Sys2Proof.Machine.execCtz ctl rd ra s
  | .popc ctl rd ra => Sys2Proof.Machine.execPopc ctl rd ra s
  | .addw ctl rd ra rb => Sys2Proof.Machine.execAddw ctl rd ra rb s
  | .subw ctl rd ra rb => Sys2Proof.Machine.execSubw ctl rd ra rb s
  | .sel ctl rd ra rb g => Sys2Proof.Machine.execSel ctl rd ra rb g s
  | .cmp ctl gd ra rb cond => Sys2Proof.Machine.execCmp ctl gd ra rb cond s
  | .cmpi ctl gd ra imm cond => Sys2Proof.Machine.execCmpi ctl gd ra imm cond s
  | .gand ctl gd ga gb => Sys2Proof.Machine.execGand ctl gd ga gb s
  | .gor ctl gd ga gb => Sys2Proof.Machine.execGor ctl gd ga gb s
  | .gxor ctl gd ga gb => Sys2Proof.Machine.execGxor ctl gd ga gb s
  | .gandn ctl gd ga gb => Sys2Proof.Machine.execGandn ctl gd ga gb s
  | .enter ctl num => Sys2Proof.Machine.execEnter ctl num s
  | .leave ctl => Sys2Proof.Machine.execLeave ctl s
  | .addi ctl rd ra imm => Sys2Proof.Machine.execAddi ctl rd ra imm s
  | .andi ctl rd ra imm => Sys2Proof.Machine.execAndi ctl rd ra imm s
  | .ori ctl rd ra imm => Sys2Proof.Machine.execOri ctl rd ra imm s
  | .xori ctl rd ra imm => Sys2Proof.Machine.execXori ctl rd ra imm s
  | .shli ctl rd ra sh => Sys2Proof.Machine.execShli ctl rd ra sh s
  | .shri ctl rd ra sh => Sys2Proof.Machine.execShri ctl rd ra sh s
  | .srai ctl rd ra sh => Sys2Proof.Machine.execSrai ctl rd ra sh s
  | .addwi ctl rd ra imm => Sys2Proof.Machine.execAddwi ctl rd ra imm s
  | .ld ctl rd ra imm sz => Sys2Proof.Machine.execLd ctl rd ra imm sz s
  | .ldn ctl rd ra imm sz => Sys2Proof.Machine.execLdn ctl rd ra imm sz s
  | .st ctl rs ra imm sz g => Sys2Proof.Machine.execSt ctl rs ra imm sz g s
  | .mark ctl => Sys2Proof.Machine.execMark ctl s
  | .atm ctl rd ra rb op sz g => Sys2Proof.Machine.execAtm ctl rd ra rb op sz g s
  | .acas ctl rd ra rb sz g => Sys2Proof.Machine.execAcas ctl rd ra rb sz g s
  | .fence ctl kind scope => Sys2Proof.Machine.execFence ctl kind scope s
  | .waitc ctl limL limS limV limM limX => Sys2Proof.Machine.execWaitc ctl limL limS limV limM limX s
  | .mfs ctl rd num => Sys2Proof.Machine.execMfs ctl rd num s
  | .mts ctl ra num => Sys2Proof.Machine.execMts ctl ra num s
  | .sysc ctl num => Sys2Proof.Machine.execSysc ctl num s
  | .trap ctl num => Sys2Proof.Machine.execTrap ctl num s
  | .brk ctl => Sys2Proof.Machine.execBrk ctl s
  | .resume ctl => Sys2Proof.Machine.execResume ctl s
  | .halt ctl => Sys2Proof.Machine.execHalt ctl s
  | .endK ctl mask => Sys2Proof.Machine.execEndK ctl mask s
  | .br ctl g off => Sys2Proof.Machine.execBr ctl g off s
  | .call ctl g off => Sys2Proof.Machine.execCall ctl g off s
  | .jr ctl ra g => Sys2Proof.Machine.execJr ctl ra g s
  | .callr ctl ra g => Sys2Proof.Machine.execCallr ctl ra g s
  | .disp ctl en blk ra rb ss => Sys2Proof.Machine.execDisp ctl en blk ra rb ss s
  | .semw ctl ra num => Sys2Proof.Machine.execSemw ctl ra num s
  | .sems ctl ra num => Sys2Proof.Machine.execSems ctl ra num s
  | .semsAddress ctl rd ra => Sys2Proof.Machine.execSemsAddress ctl rd ra s
  | .semr ctl rd num => Sys2Proof.Machine.execSemr ctl rd num s
  | .semi ctl ra num => Sys2Proof.Machine.execSemi ctl ra num s
  | .evw ctl ra => Sys2Proof.Machine.execEvw ctl ra s
  | .evp ctl ra => Sys2Proof.Machine.execEvp ctl ra s
  | .eva ctl ra rb => Sys2Proof.Machine.execEva ctl ra rb s
  | .evt ctl rd ra => Sys2Proof.Machine.execEvt ctl rd ra s
  | .qpost ctl ra => Sys2Proof.Machine.execQpost ctl ra s
  | .qtake ctl rd => Sys2Proof.Machine.execQtake ctl rd s
  | .qdone ctl ra => Sys2Proof.Machine.execQdone ctl ra s
  | .lpat ctl ra rb field => Sys2Proof.Machine.execLpat ctl ra rb field s
  | .larm ctl ra => Sys2Proof.Machine.execLarm ctl ra s
  | .lwait ctl rd ra => Sys2Proof.Machine.execLwait ctl rd ra s
  | .talc ctl rd ra rb => Sys2Proof.Machine.execTalc ctl rd ra rb s
  | .tseal ctl ra => Sys2Proof.Machine.execTseal ctl ra s
  | .tdrop ctl ra rb => Sys2Proof.Machine.execTdrop ctl ra rb s
  | .tadr ctl rd ra => Sys2Proof.Machine.execTadr ctl rd ra s
  | .tcnt ctl rd ra => Sys2Proof.Machine.execTcnt ctl rd ra s
  | .tstat ctl rd ts => Sys2Proof.Machine.execTstat ctl rd ts s
  | .ovpop ctl rd => Sys2Proof.Machine.execOvpop ctl rd s
  | .pwq ctl ra => Sys2Proof.Machine.execPwq ctl ra s
  | .pwrel ctl => Sys2Proof.Machine.execPwrel ctl s
  | .lih ctl rd imm => Sys2Proof.Machine.execLih ctl rd imm s
  | .lihp ctl rd imm => Sys2Proof.Machine.execLihp ctl rd imm s
  | .vadd e vd va vb => Sys2Proof.Machine.execVadd e vd va vb s
  | .vsub e vd va vb => Sys2Proof.Machine.execVsub e vd va vb s
  | .vmul e vd va vb => Sys2Proof.Machine.execVmul e vd va vb s
  | .vmulh e vd va vb => Sys2Proof.Machine.execVmulh e vd va vb s
  | .vfma e vd va vb vc => Sys2Proof.Machine.execVfma e vd va vb vc s
  | .vfms e vd va vb vc => Sys2Proof.Machine.execVfms e vd va vb vc s
  | .vfnma e vd va vb vc => Sys2Proof.Machine.execVfnma e vd va vb vc s
  | .vmin e vd va vb => Sys2Proof.Machine.execVmin e vd va vb s
  | .vmax e vd va vb => Sys2Proof.Machine.execVmax e vd va vb s
  | .vabs e vd va => Sys2Proof.Machine.execVabs e vd va s
  | .vneg e vd va => Sys2Proof.Machine.execVneg e vd va s
  | .vadds e vd va vb => Sys2Proof.Machine.execVadds e vd va vb s
  | .vsubs e vd va vb => Sys2Proof.Machine.execVsubs e vd va vb s
  | .vavg e vd va vb => Sys2Proof.Machine.execVavg e vd va vb s
  | .vand e vd va vb => Sys2Proof.Machine.execVand e vd va vb s
  | .vor e vd va vb => Sys2Proof.Machine.execVor e vd va vb s
  | .vxor e vd va vb => Sys2Proof.Machine.execVxor e vd va vb s
  | .vandn e vd va vb => Sys2Proof.Machine.execVandn e vd va vb s
  | .vnot e vd va => Sys2Proof.Machine.execVnot e vd va s
  | .vshl e vd va vb => Sys2Proof.Machine.execVshl e vd va vb s
  | .vshr e vd va vb => Sys2Proof.Machine.execVshr e vd va vb s
  | .vsra e vd va vb => Sys2Proof.Machine.execVsra e vd va vb s
  | .vmov e vd va => Sys2Proof.Machine.execVmov e vd va s
  | .vsel e vd va vb kn => Sys2Proof.Machine.execVsel e vd va vb kn s
  | .vcmp e kd va vb cond => Sys2Proof.Machine.execVcmp e kd va vb cond s
  | .vclz e vd va => Sys2Proof.Machine.execVclz e vd va s
  | .vpopc e vd va => Sys2Proof.Machine.execVpopc e vd va s
  | .vcpys e vd va vb => Sys2Proof.Machine.execVcpys e vd va vb s
  | .vaddi e vd va imm => Sys2Proof.Machine.execVaddi e vd va imm s
  | .vmuli e vd va imm => Sys2Proof.Machine.execVmuli e vd va imm s
  | .vandi e vd va imm => Sys2Proof.Machine.execVandi e vd va imm s
  | .vori e vd va imm => Sys2Proof.Machine.execVori e vd va imm s
  | .vxori e vd va imm => Sys2Proof.Machine.execVxori e vd va imm s
  | .vshli e vd va sh => Sys2Proof.Machine.execVshli e vd va sh s
  | .vshri e vd va sh => Sys2Proof.Machine.execVshri e vd va sh s
  | .vsrai e vd va sh => Sys2Proof.Machine.execVsrai e vd va sh s
  | .vspli e vd imm => Sys2Proof.Machine.execVspli e vd imm s
  | .viota e vd imm => Sys2Proof.Machine.execViota e vd imm s
  | .vsplb e vd bn => Sys2Proof.Machine.execVsplb e vd bn s
  | .vcvt e vd va src => Sys2Proof.Machine.execVcvt e vd va src s
  | .vwid e vd va => Sys2Proof.Machine.execVwid e vd va s
  | .vnar e vd va => Sys2Proof.Machine.execVnar e vd va s
  | .vqnt e vd va vb => Sys2Proof.Machine.execVqnt e vd va vb s
  | .vdqn e vd va vb => Sys2Proof.Machine.execVdqn e vd va vb s
  | .vrnd e vd va => Sys2Proof.Machine.execVrnd e vd va s
  | .vperm e vd va vb => Sys2Proof.Machine.execVperm e vd va vb s
  | .vbcst e vd va lane => Sys2Proof.Machine.execVbcst e vd va lane s
  | .vslup e vd va lane => Sys2Proof.Machine.execVslup e vd va lane s
  | .vsldn e vd va lane => Sys2Proof.Machine.execVsldn e vd va lane s
  | .vrev e vd va => Sys2Proof.Machine.execVrev e vd va s
  | .vcmpr e vd va => Sys2Proof.Machine.execVcmpr e vd va s
  | .vexpn e vd va => Sys2Proof.Machine.execVexpn e vd va s
  | .vscan e vd va => Sys2Proof.Machine.execVscan e vd va s
  | .vrsum e vd va => Sys2Proof.Machine.execVrsum e vd va s
  | .vrmin e vd va => Sys2Proof.Machine.execVrmin e vd va s
  | .vrmax e vd va => Sys2Proof.Machine.execVrmax e vd va s
  | .vdot4 e vd va vb => Sys2Proof.Machine.execVdot4 e vd va vb s
  | .vrcp e vd va => Sys2Proof.Machine.execVrcp e vd va s
  | .vrsq e vd va => Sys2Proof.Machine.execVrsq e vd va s
  | .vsqrt e vd va => Sys2Proof.Machine.execVsqrt e vd va s
  | .vdivf e vd va vb => Sys2Proof.Machine.execVdivf e vd va vb s
  | .vexp2 e vd va => Sys2Proof.Machine.execVexp2 e vd va s
  | .vlog2 e vd va => Sys2Proof.Machine.execVlog2 e vd va s
  | .vsin e vd va => Sys2Proof.Machine.execVsin e vd va s
  | .vtanh e vd va => Sys2Proof.Machine.execVtanh e vd va s
  | .vld e vd bn off tok => Sys2Proof.Machine.execVld e vd bn off tok s
  | .vldc e vd bn off tok => Sys2Proof.Machine.execVldc e vd bn off tok s
  | .vst e vd bn off tok => Sys2Proof.Machine.execVst e vd bn off tok s
  | .vldx e vd bn vi sc z tok => Sys2Proof.Machine.execVldx e vd bn vi sc z tok s
  | .vstx e vd bn vi sc z tok => Sys2Proof.Machine.execVstx e vd bn vi sc z tok s
  | .vlds e vd bn off tok => Sys2Proof.Machine.execVlds e vd bn off tok s
  | .vatm e vd bn vi sc z tok => Sys2Proof.Machine.execVatm e vd bn vi sc z tok s
  | .vmark e => Sys2Proof.Machine.execVmark e s
  | .tkw e mask => Sys2Proof.Machine.execTkw e mask s
  | .kand e kd ka kb => Sys2Proof.Machine.execKand e kd ka kb s
  | .kor e kd ka kb => Sys2Proof.Machine.execKor e kd ka kb s
  | .kxor e kd ka kb => Sys2Proof.Machine.execKxor e kd ka kb s
  | .kandn e kd ka kb => Sys2Proof.Machine.execKandn e kd ka kb s
  | .knot e kd ka => Sys2Proof.Machine.execKnot e kd ka s
  | .kset e kd => Sys2Proof.Machine.execKset e kd s
  | .kpop e vd ka => Sys2Proof.Machine.execKpop e vd ka s
  | .kmov e kd ka => Sys2Proof.Machine.execKmov e kd ka s
  | .vbli e bn imm => Sys2Proof.Machine.execVbli e bn imm s
  | .vbadd e bn imm => Sys2Proof.Machine.execVbadd e bn imm s
  | .vbmov e vd ba => Sys2Proof.Machine.execVbmov e vd ba s
  | .vshp e bn => Sys2Proof.Machine.execVshp e bn s
  | .vshpb e bn => Sys2Proof.Machine.execVshpb e bn s
  | .vflg e bn => Sys2Proof.Machine.execVflg e bn s
  | .vnop e => Sys2Proof.Machine.execVnop e s
  | .go2d e vd vq vA => Sys2Proof.Machine.execGo2d e vd vq vA s
  | .go3d e vd vq vA => Sys2Proof.Machine.execGo3d e vd vq vA s
  | .gic e vd vq vA => Sys2Proof.Machine.execGic e vd vq vA s
  | .gis e vd vq vA => Sys2Proof.Machine.execGis e vd vq vA s
  | .gsx e vd vA => Sys2Proof.Machine.execGsx e vd vA s
  | .mnop e => Sys2Proof.Machine.execMnop e s
  | .mzro e acc => Sys2Proof.Machine.execMzro e acc s
  | .mma e acc ea eb cna cnb byp ls mc => Sys2Proof.Machine.execMma e acc ea eb cna cnb byp ls mc s
  | .mdrn e acc ed dt ts md er => Sys2Proof.Machine.execMdrn e acc ed dt ts md er s
  | .mlda e acc ea => Sys2Proof.Machine.execMlda e acc ea s
  | .msta e acc ea => Sys2Proof.Machine.execMsta e acc ea s
  | .meadd e ed ea eb => Sys2Proof.Machine.execMeadd e ed ea eb s
  | .meli e ed imm => Sys2Proof.Machine.execMeli e ed imm s
  | .memov e ed ea => Sys2Proof.Machine.execMemov e ed ea s
  | .mrep e n k => Sys2Proof.Machine.execMrep e n k s
  | .xnop e => Sys2Proof.Machine.execXnop e s
  | .xcpy e ed es en cn cb => Sys2Proof.Machine.execXcpy e ed es en cn cb s
  | .xten e eh ed ec xp dir => Sys2Proof.Machine.execXten e eh ed ec xp dir s
  | .xfil e ed ev en => Sys2Proof.Machine.execXfil e ed ev en s
  | .xgat e ed es ei => Sys2Proof.Machine.execXgat e ed es ei s
  | .xsct e ed es ei => Sys2Proof.Machine.execXsct e ed es ei s
  | .xbrd e ed es en mc => Sys2Proof.Machine.execXbrd e ed es en mc s
  | .xred e ed es en ty => Sys2Proof.Machine.execXred e ed es en ty s
  | .xsig e ea en => Sys2Proof.Machine.execXsig e ea en s
  | .xrfl e eh => Sys2Proof.Machine.execXrfl e eh s
  | .xalc e ed ea eb => Sys2Proof.Machine.execXalc e ed ea eb s
  | .xmrk e => Sys2Proof.Machine.execXmrk e s
  | .xeadd e ed ea eb => Sys2Proof.Machine.execXeadd e ed ea eb s
  | .xeli e ed imm => Sys2Proof.Machine.execXeli e ed imm s
  | .xemov e ed ea => Sys2Proof.Machine.execXemov e ed ea s
  | .xrep e n k => Sys2Proof.Machine.execXrep e n k s
  | .fixedLatencyWriteLands c u => Sys2Proof.Machine.execFixedLatencyWriteLands c u s
  | .sqForcedSwitch c => Sys2Proof.Machine.execSqForcedSwitch c s
  | .scalarLoadComplete c t stale => Sys2Proof.Machine.execScalarLoadComplete c t stale s
  | .storeQueuePerform c h => Sys2Proof.Machine.execStoreQueuePerform c h s
  | .entryHeadWait c en => Sys2Proof.Machine.execEntryHeadWait c en s
  | .entryStart c en => Sys2Proof.Machine.execEntryStart c en s
  | .entryCompletion c en => Sys2Proof.Machine.execEntryCompletion c en s
  | .tokenComplete c q stale part => Sys2Proof.Machine.execTokenComplete c q stale part s
  | .mStepFinish c k f => Sys2Proof.Machine.execMStepFinish c k f s
  | .transferMovePhaseDone c k stale part => Sys2Proof.Machine.execTransferMovePhaseDone c k stale part s
  | .consumingCheck c en a n => Sys2Proof.Machine.execConsumingCheck c en a n s
  | .consumingCount c en a n => Sys2Proof.Machine.execConsumingCount c en a n s
  | .poolstall c u => Sys2Proof.Machine.execPoolstall c u s
  | .kernelStart c => Sys2Proof.Machine.execKernelStart c s
  | .teamEntryGenerate p r cl => Sys2Proof.Machine.execTeamEntryGenerate p r cl s
  | .teamTake c => Sys2Proof.Machine.execTeamTake c s
  | .launchCompletion p r => Sys2Proof.Machine.execLaunchCompletion p r s
  | .teamSwap c => Sys2Proof.Machine.execTeamSwap c s
  | .swappedTeamReenter p k => Sys2Proof.Machine.execSwappedTeamReenter p k s
  | .stopDelivery c t => Sys2Proof.Machine.execStopDelivery c t s
  | .watchdog c t => Sys2Proof.Machine.execWatchdog c t s
  | .stopnextRead ctl rd => Sys2Proof.Machine.execStopnextRead ctl rd s
  | .recordReissue c t => Sys2Proof.Machine.execRecordReissue c t s
  | .preempt p => Sys2Proof.Machine.execPreempt p s
  | .partitionRestore p => Sys2Proof.Machine.execPartitionRestore p s
  | .partitionClear c => Sys2Proof.Machine.execPartitionClear c s
  | .eccUncorrectable u c t => Sys2Proof.Machine.execEccUncorrectable u c t s
  | .correctedSoftError d => Sys2Proof.Machine.execCorrectedSoftError d s
  | .hostReadErrorCompletion c t => Sys2Proof.Machine.execHostReadErrorCompletion c t s
  | .hostReadTimeout c t => Sys2Proof.Machine.execHostReadTimeout c t s
  | .linkReplayFail a b => Sys2Proof.Machine.execLinkReplayFail a b s
  | .railOvercurrent d => Sys2Proof.Machine.execRailOvercurrent d s
  | .windowRegisterWrite c off v => Sys2Proof.Machine.execWindowRegisterWrite c off v s
  | .windowVregWrite c gran v tag => Sys2Proof.Machine.execWindowVregWrite c gran v tag s
  | .windowTagWrite c tag v => Sys2Proof.Machine.execWindowTagWrite c tag v s
  | .semaphoreWindowStore c m v => Sys2Proof.Machine.execSemaphoreWindowStore c m v s
  | .accumulatorWindowAccess c cell wr => Sys2Proof.Machine.execAccumulatorWindowAccess c cell wr s
  | .dbgctlLull c v => Sys2Proof.Machine.execDbgctlLull c v s
  | .dbgctlCut c v => Sys2Proof.Machine.execDbgctlCut c v s
  | .cutHaltTimeout c t => Sys2Proof.Machine.execCutHaltTimeout c t s
  | .trctlEnable c en log2n => Sys2Proof.Machine.execTrctlEnable c en log2n s
  | .trctlErrClear c => Sys2Proof.Machine.execTrctlErrClear c s
  | .counterLatch => Sys2Proof.Machine.execCounterLatch s
  | .collective a p j m b => Sys2Proof.Machine.execCollective a p j m b s
  | .collectiveTimeout => Sys2Proof.Machine.execCollectiveTimeout s
  | .packageReset => Sys2Proof.Machine.execPackageReset s
  | .bootdbWrite v => Sys2Proof.Machine.execBootdbWrite v s
  | .trainingComplete res => Sys2Proof.Machine.execTrainingComplete res s
  | .objLoad p a size => Sys2Proof.Machine.execObjLoad p a size s
  | .objUnload p h => Sys2Proof.Machine.execObjUnload p h s
  | .lrecGet p h idx => Sys2Proof.Machine.execLrecGet p h idx s
  | .lrecArm p idx => Sys2Proof.Machine.execLrecArm p idx s
  | .lrecWait p idx => Sys2Proof.Machine.execLrecWait p idx s
  | .launchKill p idx => Sys2Proof.Machine.execLaunchKill p idx s
  | .memMap p va pa size bits => Sys2Proof.Machine.execMemMap p va pa size bits s
  | .memUnmap p va size => Sys2Proof.Machine.execMemUnmap p va size s
  | .eventReserve p n => Sys2Proof.Machine.execEventReserve p n s
  | .poolConfig p idx part half => Sys2Proof.Machine.execPoolConfig p idx part half s
  | .codePatch p a w ev => Sys2Proof.Machine.execCodePatch p a w ev s
  | .clockLock v => Sys2Proof.Machine.execClockLock v s
  | .countersStart p a size k => Sys2Proof.Machine.execCountersStart p a size k s
  | .stopHandlerSet p idx h => Sys2Proof.Machine.execStopHandlerSet p idx h s
  | .resumeStrand p desc discard => Sys2Proof.Machine.execResumeStrand p desc discard s
  | .illegalSWord w => Sys2Proof.Machine.execIllegalSWord w s
  | .illegalEngineWord c en => Sys2Proof.Machine.execIllegalEngineWord c en s
  | .emptySlot c t => Sys2Proof.Machine.execEmptySlot c t s
  | .chargeBucketRefill => Sys2Proof.Machine.execChargeBucketRefill s
  | .lockedClockGrant d => Sys2Proof.Machine.execLockedClockGrant d s
  | .dieFrequencyChange d mhz => Sys2Proof.Machine.execDieFrequencyChange d mhz s
  | .hbmRefresh stack => Sys2Proof.Machine.execHbmRefresh stack s
  | .queuePairError => Sys2Proof.Machine.execQueuePairError s
  | .bar2ImageWrite off v => Sys2Proof.Machine.execBar2ImageWrite off v s
  | .fuseCounterRaise svn => Sys2Proof.Machine.execFuseCounterRaise svn s

end Sys2Proof.Machine
end

