-- ==== Sys2Proof/Machine/Sequencer.lean ====
section
/-! DEFINITION. One core slot of the Scalar Sequencer (R62 to R65), one slot of each engine (R111, R133, R161, R235), and
the agents of the machine. The order in which agents move is the state's agenda (log entry 7). -/
namespace Sys2Proof.Machine

/-- The agenda after its first agent has moved: the last agent listed keeps moving. -/
def popAgenda : List Agent → List Agent
  | [] => []
  | [a] => [a]
  | _ :: rest => rest

/-- The core in focus, with strand t current and its due writes landed. -/
def State.select (s : State) (c : Nat) (t : BitVec 2) : State :=
  { s with focus := c }.onCore c (fun k => { k.setStrand t (k.strand t).landDue with cur := t })

/-- What trying a strand in a core slot comes to (R64): the slot is used, or the strand is not eligible; the waits and
requests its blocked word has placed stand. -/
inductive Attempt where
  | used (o : Out)
  | blocked (s : State)

/-- Has the word of strand t issued or stopped the strand? Otherwise its condition fails (R62). -/
def issued (s s' : State) (c : Nat) (t : BitVec 2) : Bool :=
  (s.strand c t).slots ≠ (s'.strand c t).slots || (s'.strand c t).life ≠ .running

/-- The instruction an S word is (R44): an illegal word is a step of its own. -/
def sInstr (w : Code) : Instr := match decodeS w with | .ok i => i | .error _ => .illegalSWord w

/-- A word that has not issued takes no slot, so that no write has landed in it (R66): its strand is as before but for the
request it has placed. -/
def State.unslotted (s' s : State) (c : Nat) (t : BitVec 2) : State :=
  (s'.setStrand c t { s.strand c t with request := (s'.strand c t).request }).onCore c (fun k => { k with cur := (s.core c).cur })

/-- Try strand t of core c (R64, R75): a fetch that fails stops it before the word. -/
def State.attempt (s : State) (c : Nat) (t : BitVec 2) : Attempt :=
  let x := s.strand c t
  if x.life ≠ .running ∨ (s.core c).lull then .blocked s
  else
    let s1 := s.select c t
    match s1.fetch c x.pc with
    | .error w => .used (.next (s1.stopStrand c t { why := w, at_ := .outside }))
    | .ok w => match exec (sInstr w) s1 with
      | .next s2 => if issued s1 s2 c t then .used (.next s2) else .blocked (s2.unslotted s c t)
      | o => .used o

/-- Would the next word of strand t block now (R64)? -/
def State.wouldBlock (s : State) (c : Nat) (t : BitVec 2) : Bool := match s.attempt c t with | .blocked _ => true | .used _ => false

/-- Choose among strands in order (R64): the first eligible one becomes current, and its word issues or it spends the empty slot it
owes. -/
def State.choose (c : Nat) (owing : List (BitVec 2)) (old : BitVec 2) : List (BitVec 2) → State → Out
  | [], s => .next (s.onCore c (fun k => { k with cur := old, switch := true, blocked := true }))
  | t :: ts, s =>
    let fresh := s.onCore c (fun k => { k with held := 0, switch := false })
    if owing.contains t then
      if fresh.wouldBlock c t then State.choose c owing old ts s
      else .next (fresh.onCore c (fun k => { k with cur := t, held := 1 }))
    else match fresh.attempt c t with
      | .used o => o
      | .blocked s' => State.choose c owing old ts s'

/-- One core slot of the SQ of core c (R63, R64). -/
def State.sqSlot (s : State) (c : Nat) : Out :=
  let k := s.core c
  let owing := allStrands.filter (fun t => !k.lull && (k.strand t).life = .running && (k.strand t).owed ≠ 0)
  let s := { s.onCore c (fun k => { k with slotNo := k.slotNo + 1, blocked := false }) with focus := c }
  let s := if owing = [] then s else s.onCore c (fun k => owing.foldl Core.spendEmpty k)
  let order := [k.cur + 1, k.cur + 2, k.cur + 3, k.cur]
  if k.forceSwitch.switch then State.choose c owing k.cur order s
  else if owing.contains k.cur then .next s
  else match s.attempt c k.cur with
    | .used o => o
    | .blocked s' => State.choose c owing k.cur order s'

/-- What the engine of a core does next with its queue (R111): it issues the next word of its running entry, lets a
trailing slot pass, completes the entry, or takes the head entry's wait and starts it. -/
def State.engineSlot (s : State) (c : Nat) (en : Eng) : Out :=
  let s := { s with focus := c }
  let k := s.core c
  match k.runWord en with
  | none => match k.queue en with
    | [] => .next s
    | e :: _ => if syncWen e.sync && !e.hw then exec (.entryHeadWait c en) s else exec (.entryStart c en) s
  | some (e, idx, done, flt) =>
    if s.entryFrozen c e flt then .next s
    else if done then
      if en = .v ∧ k.trailing then exec (.fixedLatencyWriteLands c 4) s else exec (.entryCompletion c en) s
    else match entryWord s c en e idx with
      | .error w => if w.cause = .illegal then exec (.illegalEngineWord c en) s else .next (s.wordStop c en w)
      | .ok i => exec i s

/-- The VE starts the load at word index j of its block early (R161, R162). -/
def State.slipSlot (s : State) (c j : Nat) (now : Bool) : Out := .next (s.slipLoad c j now)

/-- One move of an agent of the C-dies, or a device step. -/
def State.act (s : State) : Agent → Out
  | .sq c => s.sqSlot c
  | .ve c => s.engineSlot c .v
  | .me c => (s.onCore c Core.meSlot).engineSlot c .m
  | .xe c => s.engineSlot c .x
  | .slip c j now => s.slipSlot c j now
  | .home k i => .next (s.homeStep k i)
  | .hart h a => .next (s.hartStep h a)
  | .host a => .next (s.hostStep a)
  | .skyo a => .next (s.skyoStep a)
  | .code c pa hit => .next (s.codeStep c pa hit)
  | .ev i => exec i s

/-- May an agent move before Skyo runs (R350, R351)? The chassis host may, and the steps of bring-up, the tick counter and the fuses. -/
def Agent.bringUp : Agent → Bool
  | .host _ => true
  | .ev i => (match i with
    | .bar2ImageWrite .. | .bootdbWrite .. | .trainingComplete .. | .packageReset | .chargeBucketRefill | .fuseCounterRaise .. => true
    | _ => false)
  | _ => false

/-- One move of an agent: below stage 4 and at stage 15 the package runs nothing (R351). -/
def State.move (s : State) (a : Agent) : Out := if s.pkg.stage = 4 || a.bringUp then s.act a else .next s

/-- The agent that moves next: the first of the agenda, else the SQ of the core in focus. -/
def State.agent (s : State) : Agent := s.agenda.headD (.sq s.focus)

/-- One step of the machine. -/
def State.advance (s : State) : Out := State.move { s with agenda := popAgenda s.agenda } s.agent

-- Placing a word where it is fetched next (log entry 7)

/-- A physical page for code placed from outside the machine, and the virtual address engine words are placed at. -/
def placedFrame : Nat := 0x2000_0000
def placedVa : Nat := 0x1_0000

/-- Map the 64 KiB page of a virtual address of partition p to the placed frame, for every access (R86, R87). -/
def State.mapPlaced (s : State) (p va : Nat) : State :=
  s.setPage p va (placedFrame + s.placeBits placedFrame + 0x1F)

/-- Store a code word at a virtual address, mapping its page when a fetch there does not translate. -/
def State.placeCode (s : State) (p va : Nat) (w : Code) : State :=
  match translate s p (addr48 va) .fetch false with
  | .ok pa => { s with mem := Memory.store s.mem pa (codeBytes w) }
  | .error _ =>
    let s := s.mapPlaced p (addr48 va)
    { s with mem := Memory.store s.mem (placedFrame + va % 65536) (codeBytes w) }

/-- The state with bring-up done, which a placed program needs (R351). -/
def State.skyoRuns (s : State) : State := { s with pkg := { s.pkg with stage := 4 } }

/-- Place an S word: the current strand of the core in focus runs, owes no empty slot, and its PC fetches the word. -/
def State.placeScalar (s : State) (w : Code) : State :=
  let c := s.focus
  let t := s.curStrand
  let s := s.placeCode (s.partOf c) s.cur.pc.toNat w
  { s.skyoRuns.onCore c (fun k => { k.setStrand t { k.strand t with life := .running, owed := 0, stop := none } with
      held := 0, switch := false, lull := false }) with agenda := [] }

/-- The entry whose block holds one placed word. -/
def placedEntry : Entry :=
  { blk := 0, p0 := 0, p1 := 0, sync := 0, strand := 0, map := 0, launch := 0, base := BitVec.ofNat 64 placedVa, words := 1,
    start := 0, hw := true }

/-- Place an engine word: an entry of that engine runs on the core in focus and reaches the word next. -/
def State.placeEngine (s : State) (en : Eng) (w : Code) : State :=
  let c := s.focus
  let s := s.placeCode (s.partOf c) placedVa w
  let z : Vector Word 16 := Vector.replicate 16 0
  let s := s.onCore c (fun k =>
    let k := k.setQueue en (placedEntry :: (k.queue en).drop (b2n (k.running en)))
    match en with
    | .v => { k with vrun := some { entry := placedEntry, b := Vector.replicate 8 0 } }
    | .m => { k with mrun := some { entry := placedEntry, e := z } }
    | .x => { k with xrun := some { entry := placedEntry, e := z } })
  { s.skyoRuns with agenda := [match en with | .v => .ve c | .m => .me c | .x => .xe c] }

/-- A word of one stream placed where its unit takes it next. -/
def State.place (s : State) (st : Stream) (w : Code) : State :=
  match st with
  | .s => s.placeScalar w
  | .v => s.placeEngine .v w
  | .m => s.placeEngine .m w
  | .x => s.placeEngine .x w

end Sys2Proof.Machine
end

