-- ==== Sys2Proof/Machine/Step.lean ====
section
/-! DEFINITION. The step of the machine and the placing of a table word. -/
namespace Sys2Proof.Machine

/-- One step: the agent whose turn it is moves (R13, R62 to R65). -/
def step (s : State) : Host.Outcome State Fault Refusal := s.advance

/-- s with a table word placed where step takes its next instruction; a word no stream decodes is placed as an S word. -/
def State.withFetchWord (s : State) (nbits w : Nat) : State :=
  let code : Code := BitVec.ofNat 32 (w % 2 ^ nbits)
  s.place ((tableStream code).getD .s) code

end Sys2Proof.Machine
end

