-- ==== Sys2Proof/Safety.lean ====
section
/-! DEFINITION. The terms in which statements speak of a step: what it changes and that it changes nothing else. Each is written
out field by field, apart from the operations of Machine/. -/
namespace Sys2Proof.Machine

-- Frames

/-- t is s with core c standing as k: every other core, all of memory and every other field are as in s. -/
def OnlyCore (s t : State) (c : Nat) (k : Core) : Prop :=
  t.core c = k ∧ (∀ d, d ≠ c → t.core d = s.core d) ∧ { t with cores := s.cores } = s

/-- The byte that storage holds at a physical address: memory, or a scratchpad by its window (R20); the register ranges of a
window are no storage. -/
def State.byteAt (s : State) (a : Nat) : Byte :=
  match winSplit a with
  | some (c, off) => if winRange off = .spad then Memory.byte (s.core c).spad off else 0
  | none => Memory.byte s.mem a

/-- The byte that a party of cluster k sees there: in memory, its cluster's stores that have not reached their homes stand over them
(R101). -/
def State.seen (s : State) (k a : Nat) : Byte :=
  if (winSplit a).isSome then s.byteAt a else (overlay (s.cluster k).pending a [s.byteAt a]).headD 0

/-- Does a store of cluster k on its way home touch address a? -/
def onTheWay (s : State) (k a : Nat) : Prop := ∃ p ∈ (s.cluster k).pending, p.pa ≤ a ∧ a < p.pa + p.bytes.length

/-- No byte of storage differs. -/
def SameBytes (s t : State) : Prop := ∀ a, t.byteAt a = s.byteAt a

/-- u is s but that stores of cluster k may have reached their homes (R101): no party of the cluster sees a byte change, and no byte that
no such store touches changes. -/
def Homing (s u : State) (k : Nat) : Prop :=
  (∀ a, u.seen k a = s.seen k a) ∧ (∀ a, ¬ onTheWay s k a → u.byteAt a = s.byteAt a)
  ∧ ∀ j, j ≠ k → u.cluster j = s.cluster j

/-- r is s after a release at die scope or wider by a party of core c (R101): every store of its cluster has reached its home, and nothing
else but the cluster's own cached copies and the reservations of harts may differ. That it takes the stores of the whole cluster along is
log entry 13. -/
def Released (s r : State) (c : Nat) : Prop :=
  (r.cluster (c / 8)).pending = [] ∧ (∀ a, r.byteAt a = s.seen (c / 8) a)
  ∧ { r.cluster (c / 8) with cache := [], past := [], pending := [] } = { s.cluster (c / 8) with cache := [], past := [], pending := [] }
  ∧ (∀ k, k ≠ c / 8 → r.cluster k = s.cluster k) ∧ { r with mem := s.mem, clusters := s.clusters, resvs := s.resvs } = s

/-- The n bytes from address a of memory on are those of f, as cluster k sees them and, where near is false, at their homes; no other byte that
the cluster sees differs, and none at its home but those that stores of the cluster have under way (R101). -/
def LaysDown (s u : State) (k : Nat) (near : Bool) (a n : Nat) (f : Nat → Byte) : Prop :=
  (∀ b, b < n → u.seen k (a + b) = f b ∧ (near = false → u.byteAt (a + b) = f b))
  ∧ ∀ b, (b < a ∨ a + n ≤ b) → u.seen k b = s.seen k b ∧ (¬ onTheWay s k b → u.byteAt b = s.byteAt b)

/-- The bytes bs lie over the ranges dst, in order and the last standing where two meet, as cluster k sees them and at their homes; no other
byte that the cluster sees differs, and none at its home but those that stores of the cluster have under way (R101). -/
def LaysList (s u : State) (k : Nat) (dst : List (Nat × Nat)) (bs : List Byte) : Prop :=
  let places := (dst.flatMap (fun p => (List.range p.2).map (fun i => p.1 + i))).zip bs
  ∀ a, match places.reverse.find? (fun e => e.1 = a) with
    | some e => u.seen k a = e.2 ∧ u.byteAt a = e.2
    | none => u.seen k a = s.seen k a ∧ (¬ onTheWay s k a → u.byteAt a = s.byteAt a)

/-- Only the n bytes from physical address a on may differ. -/
def BytesOutside (s t : State) (a n : Nat) : Prop := ∀ b, b < a ∨ a + n ≤ b → t.byteAt b = s.byteAt b

-- Scalar words

/-- The core in focus after a word of its current strand has issued (R62 to R64): the strand's own part is x, its own-slot
number is one more, it owes the empty slots of its CTL mark and owe more, its next word stands at pc, and the current strand has
held the SQ one slot more. -/
def issuedCore (s : State) (ctl : BitVec 2) (owe : Nat) (pc : Word) (x : Strand) : Core :=
  let k := s.core s.focus
  { k with
    strands := k.strands.set k.cur.toNat
      { x with slots := x.slots + 1, owed := x.owed + (if ctl = 1 then 1 else if ctl = 2 then 3 else 0) + owe, pc := pc,
               noBrk := false, lastTick := s.tick } k.cur.isLt
    held := k.held + 1
    switch := k.switch || ctl = 3
    counters := k.counters.set 0 (k.counters[0] + 1) }

/-- Core k with strand t standing as y. -/
def withStrand (k : Core) (t : BitVec 2) (y : Strand) : Core := { k with strands := k.strands.set t.toNat y t.isLt }

/-- t is s after a word of the current strand of the core in focus has issued, and nothing else differs. -/
def Issued (s t : State) (ctl : BitVec 2) (owe : Nat) (pc : Word) (x : Strand) : Prop :=
  OnlyCore s t s.focus (issuedCore s ctl owe pc x) ∧ SameBytes s t

/-- The same on top of a change of the machine that the word makes beside its own slot: u is s with that change, which leaves the
issuing strand as it was. -/
def IssuedOver (s u t : State) (ctl : BitVec 2) (owe : Nat) (pc : Word) (x : Strand) : Prop :=
  u.focus = s.focus ∧ Issued u t ctl owe pc x

/-- The empty links of a word whose operands are no registers (R306). -/
def noLinks : Links := []

/-- The result of a fixed-latency word in flight (R17, R66): it lands val in d when the strand's own-slot number reaches the
word's own slot and n. Its record holds a and b, which R304 gives for register operands and log entry 28 (DEDUCED) for the others,
and lk names the outstanding loads they were read from (R306). -/
def inFlight (x : Strand) (i : Instr) (d : Dest) (val : Word) (n : Nat) (a b : Word) (lk : Links) : Strand :=
  { x with
    flight := x.flight ++ [{ due := x.slots + n, dest := d, val := val, op := i, opa := a, opb := b, links := lk, id := x.nextId }]
    nextId := x.nextId + 1 }

/-- The word i issues in s, takes one own slot, goes on to the next word and has val land in d n own slots later; nothing else
changes. What the record holds of an immediate or of guards is log entry 28 (DEDUCED), that an issue slot is counted log entry 33. -/
def Yields (s : State) (i : Instr) (ctl : BitVec 2) (d : Dest) (val : Word) (n : Nat) (a b : Word) (lk : Links) : Prop :=
  ∃ t, exec i s = .next t ∧ Issued s t ctl 0 (s.cur.pc + 4) (inFlight s.cur i d val n a b lk)

/-- The word i issues in s and performs nothing but its own slot. -/
def Passes (s : State) (i : Instr) (ctl : BitVec 2) : Prop :=
  ∃ t, exec i s = .next t ∧ Issued s t ctl 0 (s.cur.pc + 4) s.cur

/-- The strand x has taken a stop at its own slot (R299): it issues nothing more until it is resumed. A strand that has a stop already
takes none (R308), nor does one that is idle or has ended; one that resumes keeps it for its first own slot (log entry 71). -/
def stopped (x : Strand) (st : Stop) : Strand :=
  if x.stop = none then
    (if x.life = .running then { x with life := .stopped, stop := some st }
     else if x.life = .resuming then { x with stop := some st } else x)
  else x

/-- A stop that is found now on core c, with cause w (R299, R301, R302). -/
def stopAt (s : State) (c : Nat) (w : Trouble) (at_ : StopAt) (num : BitVec 14 := 0) : Stop :=
  { why := w, at_ := at_, tnum := num, slot := (s.core c).slotNo, tick := s.tick }

/-- Are sixteen entries of the load queue, or of the store queue, taken (R92)? A MARK or FENCE holds one in each. -/
def noRoom (x : Strand) (load : Bool) : Bool :=
  16 ≤ (if load then x.loads.length else x.stores.length)
    + x.fences.countP (fun f => match f.op with | .semw .. => false | _ => true)

/-- The entry of a scalar queue that the next word of the current strand makes (R92, R304). -/
def entering (s : State) (i : Instr) (a b ext : Word) (lk : Links) : QItem :=
  { id := s.cur.nextId, op := i, opa := a, opb := b, ext := ext, links := lk, tick := s.tick,
    slot := (s.core s.focus).slotNo }

/-- The word i enters its queue, or waits and changes nothing while the queue is full (R62, R92). -/
def Enters (s : State) (i : Instr) (ctl : BitVec 2) (load : Bool) (a b ext : Word) (lk : Links) : Prop :=
  let x := s.cur
  let q := entering s i a b ext lk
  (noRoom x load = false → ∃ t, exec i s = .next t ∧ Issued s t ctl 0 (x.pc + 4)
    (if load then { x with loads := x.loads ++ [q], nextId := x.nextId + 1 }
     else { x with stores := x.stores ++ [q], nextId := x.nextId + 1 }))
  ∧ (noRoom x load = true → exec i s = .next s)

/-- Has the acquire half of fence f nothing to wait for (R95, R99): MARK and FENCE.SC wait for every earlier access, the others for the
earlier loads and atomics. -/
def fires (x : Strand) (f : FenceItem) : Prop :=
  match f.op with
  | .fence _ 0 _ => true ∉ x.earlier f.id
  | .fence _ 1 _ => true ∉ x.earlier f.id
  | .fence _ 2 _ => true ∉ x.earlier f.id
  | _ => x.earlier f.id = []

/-- Must fence f stay (R92, R95, R99): an earlier access that it orders has not performed; FENCE.ACQ orders earlier loads and atomics,
every other form all accesses. -/
def stays (x : Strand) (f : FenceItem) : Bool :=
  match f.op with
  | .fence _ 0 _ => decide (true ∈ x.earlier f.id)
  | _ => decide (x.earlier f.id ≠ [])

/-- The scope of a fence with an acquire half (R99, R101); 0 for the others. -/
def acquireScope (f : FenceItem) : Nat := match f.op with | .fence _ 1 _ => 0 | .fence _ _ sc => sc.toNat | _ => 0

/-- The scope of a fence with a release half (R99, R101); 0 for the others. -/
def releaseScope (f : FenceItem) : Nat := match f.op with | .fence _ 0 _ => 0 | .fence _ _ sc => sc.toNat | _ => 0

/-- u is mid after strand t of core c has come to stand as y: of its fences those stay that still have something to wait for; when one
with an acquire half at die scope or wider first finds nothing to wait for, the lines of the cluster's cache are dropped, and when one
with such a release half retires, every store of the cluster has reached its home (R101); when one with a release half retires, the entries
dispatched from then on come after every acquire of the cluster until then (R104); no other strand, no other part of a core and
no other field differs, save the cluster's cache, stores reaching their homes and the reservations of harts they end. -/
def Performed (mid u : State) (c : Nat) (t : BitVec 2) (y : Strand) : Prop :=
  (∃ (fs : List FenceItem) (e : Nat), u.strand c t = { y with fences := fs, since := e }
    ∧ fs.map (fun f => (f.id, f.op)) = (y.fences.filter (stays y)).map (fun f => (f.id, f.op))
    ∧ ((∃ f ∈ y.fences, stays y f = false ∧ 1 ≤ releaseScope f) → e = (u.cluster (c / 8)).epoch)
    ∧ ((∀ f ∈ y.fences, stays y f = false → releaseScope f = 0) → e = y.since))
  ∧ ((∃ f ∈ y.fences, f.fired = false ∧ fires y f ∧ 3 ≤ acquireScope f) → (u.cluster (c / 8)).cache = [])
  ∧ ((∃ f ∈ y.fences, stays y f = false ∧ 3 ≤ releaseScope f) → (u.cluster (c / 8)).pending = [])
  ∧ ((∀ f ∈ y.fences, acquireScope f < 3 ∧ releaseScope f < 3) → u.clusters = mid.clusters ∧ u.mem = mid.mem ∧ u.resvs = mid.resvs)
  ∧ (∀ d r, d ≠ c ∨ r ≠ t → u.strand d r = mid.strand d r)
  ∧ (∀ d, { u.core d with strands := (mid.core d).strands } = mid.core d)
  ∧ { u with cores := mid.cores, clusters := mid.clusters, mem := mid.mem, resvs := mid.resvs } = mid
  ∧ Homing mid u (c / 8)

/-- A register of a strand as a load leaves it: s0 keeps nothing (R32, R93). -/
def withReg (x : Strand) (r : BitVec 5) (v : Word) : Strand := if r = 0 then x else { x with s := x.s.set r.toNat v r.isLt }

/-- The head q of a scalar queue may perform now: it has no fault and no stop is pending, its slot has come (R318), and no fence or order
of its strand holds it back (R95, R99, R103, R118). -/
def loadReady (s : State) (c : Nat) (t : BitVec 2) (q : QItem) : Prop :=
  (s.strand c t).loads.head? = some q ∧ q.flt = none ∧ (s.strand c t).stop = none ∧ q.due (s.core c) = true
  ∧ (s.strand c t).fenceHolds q.id false = false
def storeReady (s : State) (c : Nat) (t : BitVec 2) (q : QItem) : Prop :=
  (s.strand c t).stores.head? = some q ∧ q.flt = none ∧ (s.strand c t).stop = none ∧ q.due (s.core c) = true
  ∧ s.storeReady c (s.strand c t) q = true

/-- Is the word a store, an atomic or a release, which FENCE.REL holds back? SEMI, LPAT and EVA are none of these (R99, R118, R289). -/
def heldLate (i : Instr) : Bool := match i with | .semi .. | .lpat .. | .eva .. => false | _ => true

/-- The machine in which STORE_QUEUE_PERFORM comes to the head q of the store queue: the fences of its strand take what effect they can
first, as Performed says, unless the step is to perform near a word that no release holds back. -/
def State.ahead (s : State) (c : Nat) (t : BitVec 2) (q : QItem) (near : Bool) : State :=
  if near = true ∧ heldLate q.op = false then s else s.settleFences c t

/-- u is mid after strand t of core c has come to stand as y: where near says so its fences are left as they are until a later step. -/
def Leaves (mid u : State) (c : Nat) (t : BitVec 2) (y : Strand) (near : Bool) : Prop :=
  (near = true → OnlyCore mid u c (withStrand (mid.core c) t y)) ∧ (near = false → Performed mid u c t y)

/-- STORE_QUEUE_PERFORM on a queue whose head may perform takes it out of the queue, with mid the machine after the access. -/
def PerformsStore (s : State) (c : Nat) (t : BitVec 2) (near : Bool) (mid : State) : Prop :=
  ∃ u, exec (.storeQueuePerform c ⟨t, near⟩) s = .next u
    ∧ Leaves mid u c t { mid.strand c t with stores := (s.strand c t).stores.tail } near

/-- The head of a scalar queue of strand t stops with trouble w (R299): it stays in its queue, marked, and nothing else changes. A
strand that has ended takes the stop too (log entry 48, DEDUCED), and one that resumes keeps it (log entry 71, DEDUCED). -/
def QueueStops (s u : State) (c : Nat) (t : BitVec 2) (load : Bool) (q : QItem) (w : Trouble) : Prop :=
  let x := s.strand c t
  let mark (l : List QItem) : List QItem := l.map (fun e => if e.id = q.id then { e with flt := some w } else e)
  let y : Strand :=
    { x with
      loads := if load then mark x.loads else x.loads
      stores := if load then x.stores else mark x.stores
      life := if x.life = .running ∨ x.life = .ended then .stopped else x.life
      stop := if x.life = .running ∨ x.life = .ended ∨ x.life = .resuming then some (stopAt s c w (.queue q.id)) else x.stop }
  OnlyCore s u c { s.core c with strands := (s.core c).strands.set t.toNat y t.isLt }

/-- The word i takes its own slot and stops the strand with trouble w; its record holds a and b (R299, R301, R304; for operands that
are no registers log entry 28, DEDUCED). -/
def FaultsAtIssue (s : State) (i : Instr) (ctl : BitVec 2) (w : Trouble) (a b : Word) : Prop :=
  ∃ t l, exec i s = .next t ∧ l.op = i ∧ l.opa = a ∧ l.opb = b ∧ l.id = s.cur.nextId
    ∧ Issued s t ctl 0 (s.cur.pc + 4) (stopped s.cur (stopAt s s.focus w (.issue (some l))))

/-- The head q of the store queue of strand t stops with trouble w, where o is the machine that the step comes to it in. -/
def StoreQueueStops (s o : State) (c : Nat) (t : BitVec 2) (near : Bool) (q : QItem) (w : Trouble) : Prop :=
  ∃ u, exec (.storeQueuePerform c ⟨t, near⟩) s = .next u ∧ QueueStops o u c t false q w

/-- Does a wait stand that its unit cannot grant now? -/
def waitsOn (k : Core) (w : SemWait) : Prop := w.granted = false → (k.semCount w.sem.toNat).toNat < (k.waitCount w).toNat

/-- k' is k after its semaphore unit has granted what it can (R121): the first wait in the order of arrival whose count is there takes it,
a SEMW then issuing next and a head entry having its wait behind it, and so on until none is left. -/
inductive Woken : Core → Core → Prop where
  | rest {k : Core} (h : ∀ w ∈ k.waits, waitsOn k w) : Woken k k
  | grant {k k' : Core} (before after : List SemWait) (w : SemWait) (hw : k.waits = before ++ w :: after)
      (hb : ∀ u ∈ before, waitsOn k u) (hg : w.granted = false) (hn : k.waitCount w ≤ k.semCount w.sem.toNat)
      (h : Woken ((k.setSem w.sem.toNat (k.semCount w.sem.toNat - k.waitCount w)).grantWait w) k') : Woken k k'

/-- u is s with the count of semaphore m of core d at v, and nothing else changed but the note of a far release (R117) and the waits that
are granted thereby. -/
def SemSet (s u : State) (d m v : Nat) : Prop :=
  ∃ k0 k, OnlyCore s u d k ∧ Woken k0 k ∧ { k0 with sem := (s.core d).sem, semFar := (s.core d).semFar } = s.core d
    ∧ (k0.semCount m).toNat = v ∧ ∀ j, j ≠ m → k0.semCount j = (s.core d).semCount j

/-- u is s with event n of partition p as e, and nothing else changed. -/
def EventSet (s u : State) (p n : Nat) (e : Event) : Prop :=
  u.event p n = some e ∧ (∀ m, m ≠ n → u.event p m = s.event p m)
    ∧ { u.part p with events := (s.part p).events } = s.part p ∧ (∀ q, q ≠ p → u.part q = s.part q) ∧ { u with parts := s.parts } = s

/-- u is s with the lines of the cluster of core c dropped from its cache (R101), one acquire later, and nothing else changed: an entry that
need not come after it may still find them (R104, R363). -/
def LinesDropped (s u : State) (c : Nat) : Prop :=
  let k := s.cluster (c / 8)
  let old := k.cache.filterMap (fun e => e.2.map (fun l => { line := e.1, drop := k.epoch, bytes := l }))
  u.cluster (c / 8) = { k with cache := [], epoch := k.epoch + 1, past := k.past ++ old } ∧ (∀ j, j ≠ c / 8 → u.cluster j = s.cluster j)
    ∧ { u with clusters := s.clusters } = s

/-- n bytes of a launch record of partition p from offset off on (R270, R271). -/
def recBytes (s : State) (p i off n : Nat) : List Byte := Memory.bytes s.mem (s.recAddr p i + off) n

/-- u is s with the field of n bytes at offset off of record i holding v, and nothing else changed, save the reservations of harts (R105). -/
def RecordSet (s u : State) (p i off n v : Nat) : Prop :=
  leValue (recBytes u p i off n) = v % 256 ^ n ∧ { u with mem := s.mem, resvs := s.resvs } = s
    ∧ ∀ a, a < s.recAddr p i + off ∨ s.recAddr p i + off + n ≤ a → Memory.byte u.mem a = Memory.byte s.mem a

/-- k is core c of s with slot n of pool partition p standing as x, and nothing else changed. -/
def SlotSet (s : State) (c p n : Nat) (x : Slot) (k : Core) : Prop :=
  (k.poolPart p).slot n = x ∧ { k with pool := (s.core c).pool } = s.core c
  ∧ (∀ q m, q ≠ p ∨ m ≠ n → (k.poolPart q).slot m = ((s.core c).poolPart q).slot m)
  ∧ ∀ q, (k.poolPart q).queue = ((s.core c).poolPart q).queue

/-- The stop of a pool check (R264). -/
def poolStop (sub : BitVec 8) : Trouble := ⟨.pool, sub, 0⟩

/-- Where record n of a strand's list begins (R303): the records are packed from byte 40H of its area on, each 32 · LEN bytes long. -/
def recPlace (x : Strand) : Nat → Nat
  | 0 => 0x40
  | n + 1 => recPlace x n + 32 * max 1 (Memory.byte x.area (recPlace x n + 3)).toNat

/-- Record n of a strand's list passes the checks of R309: KIND, SEQ, the LEN that R304 gives it, HW, the bits that R304 has as 0, LINK and
LOP, and for an entry record its block, with no other of its kind before a running one; V-op records stand directly before a running
V entry. block says which blocks the kernel has. -/
def RecordOk (x : Strand) (block : Eng → Nat → Bool) (n : Nat) : Prop :=
  let f (m off len : Nat) : Nat := leValue (Memory.bytes x.area (recPlace x m + off) len)
  let kind (m : Nat) : Nat := f m 0 1 % 16
  let word := f n 8 4
  let prog := f n 12 4
  let s : Option Instr := match decodeS (BitVec.ofNat 32 word) with | .ok i => some i | .error _ => none
  let v : Option Instr := match decodeV (BitVec.ofNat 32 word) with | .ok i => some i | .error _ => none
  let acas : Nat := match s with | some (.acas ..) => 1 | _ => 0
  let vlds : Nat := match v with | some (.vlds ..) => 1 | _ => 0
  let run := word.testBit 8 = true
  let byp := word.testBit 9 = true
  let lop := f n 0 1 / 64
  let link := f n 6 2
  let feeds (m : Nat) : Prop := kind m = 0 ∧ ∃ i, decodeS (BitVec.ofNat 32 (f m 8 4)) = .ok i ∧ (loadDest i).isSome = true
  let en : Eng := if kind n = 3 then .v else if kind n = 4 then .m else .x
  let runs (m : Nat) : Prop := (f m 8 4).testBit 8 = true
  kind n ≤ 5 ∧ f n 4 2 = n ∧ (f n 0 1 / 32 % 2 = 1 → 3 ≤ kind n)
  ∧ (kind n = 0 → f n 3 1 = 1 + acas ∧ (acas = 1 → f n 40 24 = 0))
  ∧ (kind n = 1 → f n 3 1 = 1 + vlds + 16 * ((List.range 15).countP (fun j => prog.testBit (16 + j))) + (if prog.testBit 31 then 4 else 0)
      ∧ f n 16 8 < 2 ^ 40 ∧ (vlds = 1 → f n 40 24 = 0))
  ∧ (kind n = 2 → f n 3 1 = 1 ∧ prog = 0 ∧ f n 16 8 = 0 ∧ f n 24 8 = 0)
  ∧ (3 ≤ kind n → f n 3 1 = 2 + (if word.testBit 8 then (if kind n = 3 then 2 else 4) else 0) + (if word.testBit 9 then 138 else 0)
      ∧ word < 2 ^ 10 ∧ prog < 2 ^ 21 ∧ (¬ run → prog = 0 ∧ ¬ byp) ∧ (byp → kind n = 4) ∧ f n 40 8 < 2 ^ 12 ∧ f n 56 8 = 0
      ∧ block en (word % 256) = true ∧ (run → ∀ m < n, kind m ≠ kind n))
  ∧ (link = 0xFFFF → lop = 0) ∧ (link ≠ 0xFFFF → kind n = 0 ∧ lop ≠ 0 ∧ link < n ∧ feeds link)
  ∧ (kind n = 1 → ∃ m, n < m ∧ m < leValue (Memory.bytes x.area 4 2) ∧ kind m = 3 ∧ runs m ∧ ∀ j, n < j → j < m → kind j = 1)

/-- Core c is quiet under a lull halt (R329): LULL is set, and every counter of its strands stands at 0, a store counting until it has
reached its home (R92). -/
def Quiet (s : State) (c : Nat) : Prop :=
  (s.core c).lull = true ∧ ∀ t : BitVec 2,
    let x := s.strand c t
    x.loads = [] ∧ x.stores = [] ∧ x.cntV = 0 ∧ x.cntM = 0 ∧ x.cntX = 0 ∧ ∀ p ∈ (s.cluster (c / 8)).pending, p.by_ ≠ some (c, t)

-- Engine words

/-- Lane j of a vector register at width w (R126). -/
def laneAt (v : VReg) (w j : Nat) : Nat := v.toNat / 2 ^ (w * j) % 2 ^ w

/-- Fraction bits of a float type, the exponent K at which 2^−K is its smallest subnormal, and the magnitude pattern of ∞ (R127, R136). -/
def fracBits (ty : Nat) : Nat := if ty = 9 then 10 else if ty = 10 then 7 else 23
def unitExp (ty : Nat) : Nat := if ty = 9 then 24 else if ty = 10 then 133 else 149
def infOf (ty : Nat) : Nat := 2 ^ (tWidth ty - 1) - 2 ^ fracBits ty

/-- What a magnitude pattern of a float type stands for, in units of 2^−K; at ∞ the number that would follow the largest finite one. -/
def magOf (ty m : Nat) : Nat :=
  let q := 2 ^ fracBits ty
  if m < q then m else (q + m % q) * 2 ^ (m / q - 1)

/-- Sign, and value in units, of a pattern of a float type; which patterns are NaNs, and which are finite (R136). -/
def negF (ty v : Nat) : Bool := decide (2 ^ (tWidth ty - 1) ≤ v)
def valF (ty v : Nat) : Int := if negF ty v then -(magOf ty (v - 2 ^ (tWidth ty - 1)) : Int) else magOf ty v
abbrev nanF (ty v : Nat) : Prop := infOf ty < v % 2 ^ (tWidth ty - 1)
abbrev finF (ty v : Nat) : Prop := v % 2 ^ (tWidth ty - 1) < infOf ty

/-- A NaN quieted, the default NaN, and ∞ and 0 of a sign (R137). -/
def quietF (ty v : Nat) : Nat := v ||| 2 ^ (fracBits ty - 1)
def defaultF (ty : Nat) : Nat := infOf ty + 2 ^ (fracBits ty - 1)
def signF (ty : Nat) (s : Bool) : Nat := if s then 2 ^ (tWidth ty - 1) else 0

/-- An exact result: its sign, and how its magnitude compares with x quarters of a unit: x below it or equal, x above it or equal. -/
structure Exact where
  neg : Bool
  le  : Nat → Prop
  ge  : Nat → Prop

/-- The exact result of n / d units; zs is its sign where it is 0. -/
def ratioF (n : Int) (d : Nat) (zs : Bool) : Exact :=
  { neg := if n = 0 then zs else decide (n < 0), le := fun x => x * d ≤ 4 * n.natAbs, ge := fun x => 4 * n.natAbs ≤ x * d }

/-- m is the magnitude pattern that the exact result rounds to under RM (0 to nearest, ties to even, 1 to zero, 2 up, 3 down), as if the
exponent had no upper limit; the pattern of ∞ stands for everything past the largest finite number (R136). -/
def Exact.rounded (x : Exact) (ty rm m : Nat) : Prop :=
  let g (j : Nat) : Nat := magOf ty j
  let up (j : Nat) : Prop :=
    (rm = 0 ∧ x.le (2 * (g j + g (j + 1))) ∧ (x.ge (2 * (g j + g (j + 1))) → j % 2 = 1))
    ∨ (rm = 2 ∧ x.neg = false ∧ ¬ x.ge (4 * g j)) ∨ (rm = 3 ∧ x.neg = true ∧ ¬ x.ge (4 * g j))
  (x.le (4 * g (infOf ty)) → m = infOf ty)
  ∧ ∀ j, j < infOf ty → x.le (4 * g j) → ¬ x.le (4 * g (j + 1)) → (up j → m = j + 1) ∧ (¬ up j → m = j)

/-- Is the exact result no number of the type; does its rounding overflow; and is it tiny after rounding with an exponent that has no lower
limit (R136)? -/
def Exact.inexact (x : Exact) (ty : Nat) : Prop := ∀ j, j < infOf ty → ¬ (x.le (4 * magOf ty j) ∧ x.ge (4 * magOf ty j))
def Exact.overflows (x : Exact) (ty rm : Nat) : Prop := x.rounded ty rm (infOf ty)
def Exact.tiny (x : Exact) (ty rm : Nat) : Prop :=
  let q := 2 ^ (fracBits ty + 2)
  ¬ x.le q ∧ ¬ (rm = 0 ∧ x.le (q - 1)) ∧ ¬ (rm = 2 ∧ x.neg = false ∧ ¬ x.ge (q - 2)) ∧ ¬ (rm = 3 ∧ x.neg = true ∧ ¬ x.ge (q - 2))

/-- y is the exact result rounded once to the type (R136): on overflow ∞, or the largest finite number by the mode or under SAT. -/
def Exact.result (x : Exact) (ty rm : Nat) (sat : Bool) (y : Nat) : Prop :=
  ∃ m, x.rounded ty rm m ∧
    let top : Nat := if sat ∨ rm = 1 ∨ (rm = 2 ∧ x.neg = true) ∨ (rm = 3 ∧ x.neg = false) then infOf ty - 1 else infOf ty
    y = signF ty x.neg + (if m = infOf ty then top else m)

/-- The sign of an exact zero sum of two terms (R136). -/
def zeroSum (rm : Nat) (s u : Bool) : Bool := (s && u) || ((s != u) && decide (rm = 3))

/-- y is the sum of a and b on a float type: the NaN rule, infinities, and else the exact sum rounded once (R136, R137). -/
def SumF (ty rm : Nat) (sat : Bool) (a b y : Nat) : Prop :=
  (nanF ty a → y = quietF ty a) ∧ (¬ nanF ty a → nanF ty b → y = quietF ty b)
  ∧ (¬ nanF ty a → ¬ finF ty a → ¬ nanF ty b → y = if finF ty b ∨ negF ty a = negF ty b then a else defaultF ty)
  ∧ (finF ty a → ¬ finF ty b → ¬ nanF ty b → y = b)
  ∧ (finF ty a → finF ty b → (ratioF (valF ty a + valF ty b) 1 (zeroSum rm (negF ty a) (negF ty b))).result ty rm sat y)

/-- y is minimumNumber, or maximumNumber, of a and b (R138). -/
def LeastF (ty : Nat) (max : Bool) (a b y : Nat) : Prop :=
  let below : Prop := valF ty a < valF ty b ∨ (valF ty a = valF ty b ∧ negF ty a = true)
  (nanF ty a → nanF ty b → y = quietF ty a) ∧ (nanF ty a → ¬ nanF ty b → y = b) ∧ (¬ nanF ty a → nanF ty b → y = a)
  ∧ (¬ nanF ty a → ¬ nanF ty b → (below → y = if max then b else a) ∧ (¬ below → y = if max then a else b))

/-- z is n / d rounded to an integer under RM (R144, R148). -/
def IntegerF (rm : Nat) (n : Int) (d : Nat) (z : Int) : Prop :=
  match rm with
  | 0 => (2 * (z * d - n)).natAbs ≤ d ∧ ((2 * (z * d - n)).natAbs = d → z % 2 = 0)
  | 1 => z = n.tdiv d
  | 2 => z = -(-n / d)
  | _ => z = n / d

/-- The determinant of three rows of three. -/
def det3 (r : Nat → Nat → Int) (a b c : Nat) : Int :=
  r a 0 * (r b 1 * r c 2 - r b 2 * r c 1) - r a 1 * (r b 0 * r c 2 - r b 2 * r c 0) + r a 2 * (r b 0 * r c 1 - r b 1 * r c 0)

/-- The determinant of a predicate (R199); x n is coordinate n of its points, one point after the other, the last the point that the others
are taken from. -/
def exactDet (w : Det) (x : Nat → Int) : Int :=
  match w with
  | .go2d => (x 0 - x 4) * (x 3 - x 5) - (x 1 - x 5) * (x 2 - x 4)
  | .go3d => det3 (fun p j => x (3 * p + j) - x (9 + j)) 0 1 2
  | .gic =>
    let g (p j : Nat) : Int := x (2 * p + j) - x (6 + j)
    det3 (fun p j => if j < 2 then g p j else g p 0 ^ 2 + g p 1 ^ 2) 0 1 2
  | .gis =>
    let g (p j : Nat) : Int := x (3 * p + j) - x (12 + j)
    let lift (p : Nat) : Int := g p 0 ^ 2 + g p 1 ^ 2 + g p 2 ^ 2
    lift 1 * det3 g 0 2 3 - lift 0 * det3 g 1 2 3 - lift 2 * det3 g 0 1 3 + lift 3 * det3 g 0 1 2

/-- An expression of R202 over the coordinates of a predicate's points, numbered as in exactDet. -/
inductive GeoExpr where
  | diff (a b : Nat)
  | mul (e f : GeoExpr)
  | add (e f : GeoExpr)
  | sub (e f : GeoExpr)

namespace GeoExpr

/-- The degree of an expression: its value is counted in units of 2^(−149 · degree), and so is an integer. -/
def deg : GeoExpr → Nat
  | diff _ _ => 1
  | mul e f => e.deg + f.deg
  | add e _ => e.deg
  | sub e _ => e.deg

/-- The value of an expression with its differences rounded by rd0 and its products and sums by rd; with pos that of P, in which the
differences and the terms of each sum are taken by their absolute values (R202, R203). -/
def val (rd0 rd : Int → Int) (pos : Bool) (x : Nat → Int) : GeoExpr → Int
  | diff a b => let d := rd0 (x a - x b); if pos then d.natAbs else d
  | mul e f => rd (e.val rd0 rd pos x * f.val rd0 rd pos x)
  | add e f => rd (e.val rd0 rd pos x + f.val rd0 rd pos x)
  | sub e f => rd (if pos then e.val rd0 rd pos x + f.val rd0 rd pos x else e.val rd0 rd pos x - f.val rd0 rd pos x)

/-- z rounded to p significant bits, to nearest, ties to even. -/
def round (p : Nat) (z : Int) : Int :=
  let u := 2 ^ (z.natAbs.log2 + 1 - p)
  let q := z.natAbs / u
  let r := z.natAbs % u
  z.sign * ((if u < 2 * r ∨ (2 * r = u ∧ q % 2 = 1) then q + 1 else q) * u : Nat)

/-- No operation of a stage-0 evaluation overflows f32 or has an exact result that is nonzero and below 2^−126 (R202). -/
def inRange (pos : Bool) (x : Nat → Int) : GeoExpr → Prop
  | diff a b => fits 1 (x a - x b)
  | mul e f => e.inRange pos x ∧ f.inRange pos x ∧ fits (e.deg + f.deg) (v e * v f)
  | add e f => e.inRange pos x ∧ f.inRange pos x ∧ fits e.deg (v e + v f)
  | sub e f => e.inRange pos x ∧ f.inRange pos x ∧ fits e.deg (if pos then v e + v f else v e - v f)
where
  fits (d : Nat) (z : Int) : Prop := z = 0 ∨ (2 ^ (149 * d - 126) ≤ z.natAbs ∧ (round 24 z).natAbs < 2 ^ (149 * d + 128))
  v (e : GeoExpr) : Int := e.val (round 24) (round 24) pos x

end GeoExpr

/-- The expression D0 of R202 for a predicate, in the order written. -/
def geoExpr (w : Det) : GeoExpr :=
  let n := match w with | .go2d => 2 | .gis => 4 | _ => 3
  let dim := match w with | .go2d => 2 | .gic => 2 | _ => 3
  let g (p j : Nat) : GeoExpr := .diff (dim * p + j) (dim * n + j)
  let square (p j : Nat) : GeoExpr := .mul (g p j) (g p j)
  let sum (a b c : GeoExpr) : GeoExpr := .add (.add a b) c
  match w with
  | .go2d => .sub (.mul (g 0 0) (g 1 1)) (.mul (g 0 1) (g 1 0))
  | .go3d => sum (.mul (g 0 2) (.sub (.mul (g 1 0) (g 2 1)) (.mul (g 2 0) (g 1 1))))
      (.mul (g 1 2) (.sub (.mul (g 2 0) (g 0 1)) (.mul (g 0 0) (g 2 1)))) (.mul (g 2 2) (.sub (.mul (g 0 0) (g 1 1)) (.mul (g 1 0) (g 0 1))))
  | .gic =>
    let lift (p : Nat) : GeoExpr := .add (square p 0) (square p 1)
    sum (.mul (lift 0) (.sub (.mul (g 1 0) (g 2 1)) (.mul (g 2 0) (g 1 1))))
      (.mul (lift 1) (.sub (.mul (g 2 0) (g 0 1)) (.mul (g 0 0) (g 2 1)))) (.mul (lift 2) (.sub (.mul (g 0 0) (g 1 1)) (.mul (g 1 0) (g 0 1))))
  | .gis =>
    let lift (p : Nat) : GeoExpr := sum (square p 0) (square p 1) (square p 2)
    let m (p q : Nat) : GeoExpr := .sub (.mul (g p 0) (g q 1)) (.mul (g q 0) (g p 1))
    let z (p : Nat) (e : GeoExpr) : GeoExpr := .mul (g p 2) e
    let abc := GeoExpr.add (.sub (z 0 (m 1 2)) (z 1 (m 0 2))) (z 2 (m 0 1))
    let bcd := GeoExpr.add (.sub (z 1 (m 2 3)) (z 2 (m 1 3))) (z 3 (m 1 2))
    let cda := sum (z 2 (m 3 0)) (z 3 (m 0 2)) (z 0 (m 2 3))
    let dab := sum (z 3 (m 0 1)) (z 0 (m 1 3)) (z 1 (m 3 0))
    .add (.sub (.mul (lift 3) abc) (.mul (lift 2) dab)) (.sub (.mul (lift 1) cda) (.mul (lift 0) bcd))

/-- D exceeds κ · P in magnitude, with κ at ε = 2^−n (R202, R203). -/
def exceeds (w : Det) (n : Nat) (d p : Int) : Prop :=
  let (a, b) : Nat × Nat := match w with | .go2d => (3, 16) | .go3d => (7, 56) | .gic => (10, 96) | .gis => (16, 224)
  ((a * 2 ^ n + b : Nat) : Int) * p < d.natAbs * 2 ^ (2 * n)

/-- The cofactors of SOS after D itself, in order (R209); x as in exactDet. -/
def exactCofactors (w : Det) (x : Nat → Int) : List Int :=
  let d := match w with | .go2d => 2 | .gic => 2 | _ => 3
  let c (p j : Nat) : Int := x (d * p + j)
  let o (j k p q r : Nat) : Int := (c p j - c r j) * (c q k - c r k) - (c p k - c r k) * (c q j - c r j)
  let o3 (p q r s : Nat) : Int := det3 (fun i j => c ([p, q, r].getD i 0) j - c s j) 0 1 2
  match w with
  | .go2d => [c 1 1 - c 2 1, c 2 0 - c 1 0, c 2 1 - c 0 1, -1]
  | .gic => [o 0 1 1 2 3, -(o 0 1 0 2 3), o 0 1 0 1 3, -(o 0 1 0 1 2)]
  | .gis => [-(o3 1 2 3 4), o3 0 2 3 4, -(o3 0 1 3 4), o3 0 1 2 4, -(o3 0 1 2 3)]
  | .go3d =>
    [o 1 2 1 2 3, -(o 0 2 1 2 3), o 0 1 1 2 3, -(o 1 2 0 2 3), c 3 2 - c 2 2, c 2 1 - c 3 1, o 0 2 0 2 3, c 2 2 - c 3 2, c 3 0 - c 2 0,
      -(o 0 1 0 2 3), c 3 1 - c 2 1, c 2 0 - c 3 0, o 1 2 0 1 3, c 1 2 - c 3 2, c 3 1 - c 1 1, c 3 2 - c 0 2, -1]

/-- An entry of an engine of core c stops with trouble w (R45, R299, R364): the entry keeps it, and its strand takes the stop while it
runs a kernel of the entry's launch; the first fault stands, but one with ECC before any other (R314), and it is noted whether the strand
was stopping already for an earlier core slot's stop (R301); k is that core before, and nothing else changes. -/
def EntryStops (s t : State) (c : Nat) (k : Core) (en : Eng) (e : Entry) (w : Trouble) : Prop :=
  let x := k.strand e.strand
  let y := if k.team.map (·.launch) = some e.launch then stopped x (stopAt s c w (.entry en)) else x
  let k' : Core := { k with strands := k.strands.set e.strand.toNat y e.strand.isLt }
  let late : Bool := x.stop.any (fun st => st.slot ≠ k.slotNo)
  let first (old : Option Trouble) : Option Trouble := if w.cause = .ecc then some w else some (old.getD w)
  OnlyCore s t c (match en with
    | .v => { k' with vrun := k.vrun.map (fun r => { r with flt := first r.flt }) }
    | .m => { k' with mrun := k.mrun.map (fun r => { r with flt := first r.flt, late := if r.flt = none then late else r.late }) }
    | .x => { k' with xrun := k.xrun.map (fun r => { r with flt := first r.flt, late := if r.flt = none then late else r.late }) })

/-- The running V entry r of the core in focus may issue its next word (R111, R134): k is that core after the writes due by this slot
have landed, and neither the entry nor its strand has a stop. -/
def MayIssueV (s : State) (k : Core) (r : VRun) : Prop :=
  (s.core s.focus).landV = k ∧ k.vrun = some r ∧ r.ended = false ∧ r.flt = none ∧ (s.strand s.focus r.entry.strand).stop = none

/-- The running V entry after a word with end bit e has issued from it (R58, R133). -/
def afterV (r : VRun) (e : Bool) : VRun :=
  { r with idx := r.idx + 1, slot := r.slot + 1, seq := r.seq + 1, ended := e, slip := r.slip.filter (fun u => u.idx ≠ r.idx) }

/-- The charge of a step of some cost (R322, R323): a core with no lease pays at most its bucket's capacity. -/
def costOf (k : Core) (cost : Nat) : Nat :=
  if k.strands.toList.all (fun x => x.lease = 0) then min cost (64 * k.level) else cost

/-- The core k can pay a step of some cost now: its bucket holds it, and no engine later in the order V, M, X (rank 0, 1, 2) has paid in
this core slot (R323). -/
def Affords (k : Core) (rank cost : Nat) : Prop :=
  costOf k cost ≤ 64 * k.level
    ∧ (costOf k cost = 0 ∨ (costOf k cost ≤ k.balance ∧ (k.debit.1 = k.slotNo → k.debit.2 ≤ rank)))

/-- The core k with the charge of a step paid. -/
def charged (k : Core) (rank cost : Nat) : Core :=
  if costOf k cost = 0 then k else { k with balance := k.balance - costOf k cost, debit := (k.slotNo, rank) }

/-- t is s after a V word has issued: the core is k with the charge paid (R322, R323) and the running entry at r; nothing else differs. -/
def IssuedV (s t : State) (k : Core) (cost : Nat) (r : VRun) : Prop :=
  OnlyCore s t s.focus { charged k 0 cost with vrun := some r }

/-- t is s after a V word of some cost that is complete at once has issued (R153, R201): the entry goes on, v, with its queues as they
stood, the registers regs take the tag g and keep their lanes, and nothing else differs but the note, in words that captured one of
them, that it has been written (R305). -/
def DoneAtOnce (s t : State) (k : Core) (r v : VRun) (e : Bool) (cost : Nat) (regs : List (BitVec 5)) (g : BitVec 4) : Prop :=
  let x := k.strand r.entry.strand
  let y := t.strand s.focus r.entry.strand
  let noted (e : Entry) : Entry := { e with resume := none }
  (∀ q, y.vtag q = if q ∈ regs then g else x.vtag q) ∧ { y with tag := x.tag, reissue := x.reissue } = x
  ∧ OnlyCore s t s.focus { charged (withStrand { k with vq := (t.core s.focus).vq } r.entry.strand y) 0 cost with vrun := some v }
  ∧ (t.core s.focus).vq.map noted = k.vq.map noted
  ∧ v.idx = r.idx + 1 ∧ v.slot = r.slot + 1 ∧ v.seq = r.seq + 1 ∧ v.ended = e ∧ noted v.entry = noted r.entry ∧ v.b = r.b ∧ v.flt = none
  ∧ v.vlq.map (·.seq) = r.vlq.map (·.seq) ∧ v.vsq.map (·.seq) = r.vsq.map (·.seq) ∧ v.esu.map (·.seq) = r.esu.map (·.seq)
  ∧ v.flight.map (·.seq) = r.flight.map (·.seq)

/-- What a V word captures at its issue (R304, R305), a lane of the destination of a load that has slipped reading old or new (R162). -/
def capturedV (k : Core) (r : VRun) (i : Instr) : Capture :=
  let x := k.strand r.entry.strand
  r.slipRead (x.capture r.b (vOperands i (x.vshape.toNat % 16) x.vtag))

/-- The V word i captures the registers regs, in this order, the shape and the mask k[KSEL], all ones for KSEL 0 (R126, R128, R304, R305); its operands are these registers as they stand, but where a slipped load has made its access (R162). -/
def Captures (k : Core) (r : VRun) (i : Instr) (regs : List (BitVec 5)) : Prop :=
  let x := k.strand r.entry.strand
  let p := capturedV k r i
  let n : BitVec 3 := x.vshape.extractLsb' 15 3
  p.shape = x.vshape ∧ p.regs = regs ∧ p.kval = (if n = 0 then BitVec.allOnes 1024 else x.k[n.toNat]'n.isLt)
  ∧ ((∀ u ∈ r.slip, u.data = none) → p.vals = regs.map x.vreg)

/-- The V word i of fixed latency lat and charge cost: where ok, its checks of R131, it captures the registers regs and issues, its result, as
vCompute gives it, due lat entry slots later; it waits for its charge and for room in the records (log entry 24); where not ok, the
entry stops with FORMAT. draws free values are drawn. -/
def FixedV (s : State) (k : Core) (r : VRun) (i : Instr) (e : Bool) (cost lat draws : Nat) (regs : List (BitVec 5)) (ok : Prop) : Prop :=
  let p := capturedV k r i
  let x := k.strand r.entry.strand
  let res := vCompute i p { x with fflags := x.fflags ||| r.flags } s.freeIx
  let w : VLanding := { due := r.slot + lat, seq := r.seq, op := i, writes := res.1, flags := res.2, cap := p }
  let u : State := { s with freeIx := s.freeIx + draws }
  MayIssueV s k r →
    (ok → Captures k r i regs ∧ p.tagA = (match regs with | v :: _ => x.vtag v | [] => 0))
    ∧ (ok → r.recordsFull regs.length = false → Affords k 0 cost →
      ∃ t, exec i s = .next t ∧ IssuedV u t k cost { afterV r e with flight := r.flight ++ [w] })
    ∧ (ok → r.recordsFull regs.length = true ∨ ¬ Affords k 0 cost → exec i s = .next u)
    ∧ (¬ ok → ∃ t, exec i s = .next t ∧ EntryStops u t s.focus k .v r.entry ⟨.format, 0, 0⟩)

/-- What a register write res of a V word leaves (R130): lane j of vd, below n and active, holds g j and every other lane what it held;
vd's tag is the type ty; no other register, tag or mask changes; FFLAGS gains the word's flags. -/
def LaneResult (k : Core) (t : BitVec 2) (p : Capture) (vd : BitVec 5) (ty n : Nat) (res : VResult) (g : Nat → Nat) : Prop :=
  let x := k.strand t
  let y := (k.landResult t res).strand t
  let w := tWidth ty
  (∀ j, w * j + w ≤ 4096 → laneAt (y.vreg vd) w j =
      if j < p.shape.toNat / 16 % 2048 ∧ j < n ∧ p.kval.getLsbD j = true then g j else laneAt (x.vreg vd) w j)
  ∧ y.vtag vd = BitVec.ofNat 4 ty ∧ (∀ q, q ≠ vd → y.vreg q = x.vreg q ∧ y.vtag q = x.vtag q)
  ∧ y.k = x.k ∧ y.fflags = x.fflags ||| res.2

/-- The running M entry, or X entry, r of the core in focus may issue its next word: neither it nor its strand has a stop (R111). -/
def MayIssueM (s : State) (r : MRun) : Prop :=
  (s.core s.focus).mrun = some r ∧ r.ended = false ∧ r.flt = none ∧ (s.strand s.focus r.entry.strand).stop = none
def MayIssueX (s : State) (r : XRun) : Prop :=
  (s.core s.focus).xrun = some r ∧ r.ended = false ∧ r.flt = none ∧ (s.strand s.focus r.entry.strand).stop = none

/-- Where an entry goes on after a word with end bit e (R58, R60): the next word; at the last word of a repeat, the first one again
while passes remain, its end bit counting on the final pass only. -/
def onward (idx pass : Nat) (rep : Option Repeat) (e : Bool) : Nat × Nat × Option Repeat × Bool :=
  match rep with
  | none => (idx + 1, 0, none, e)
  | some r =>
    if idx + 1 < r.first + r.n then (idx + 1, pass, some r, false)
    else if pass + 1 < r.k then (r.first, pass + 1, some r, false)
    else (idx + 1, 0, none, e)

def afterM (r : MRun) (e : Bool) : MRun :=
  let o := onward r.idx r.pass r.rep e
  { r with idx := o.1, pass := o.2.1, rep := o.2.2.1, ended := o.2.2.2 }

def afterX (r : XRun) (e : Bool) : XRun :=
  let o := onward r.idx r.pass r.rep e
  { r with idx := o.1, pass := o.2.1, rep := o.2.2.1, ended := o.2.2.2 }

/-- t is s with the running M entry, or X entry, of the core in focus at r, and nothing else changed. -/
def RunsM (s t : State) (r : MRun) : Prop := OnlyCore s t s.focus { s.core s.focus with mrun := some r }
def RunsX (s t : State) (r : XRun) : Prop := OnlyCore s t s.focus { s.core s.focus with xrun := some r }

/-- Element n of width w of packed elements (R127, R217). -/
def elemAt (w : Nat) (bs : List Byte) (n : Nat) : Nat := leValue bs / 2 ^ (w * n) % 2 ^ w

/-- The accumulator cell that holds the integer z: its residues mod 8191 in bits [12:0], mod 2^21 in [33:13] and mod 8193 in [47:34]
(R221, R222). -/
def cellOf (z : Int) : BitVec 48 :=
  BitVec.ofNat 48 ((z % 8191).toNat + (z % 2 ^ 21).toNat * 2 ^ 13 + (z % 8193).toNat * 2 ^ 34)

/-- Bytes laid over ranges in order, in ordinary memory. -/
def storeAll : Mem → List (Nat × Nat) → List Byte → Mem
  | m, [], _ => m
  | m, (a, n) :: rest, bs => storeAll (Memory.store m a (bs.take n)) rest (bs.drop n)

-- Device steps

/-- t is s with cluster k, with partition p, or with die d standing as x: the others and every other field are as in s. -/
def OnlyCluster (s t : State) (k : Nat) (x : Cluster) : Prop :=
  t.cluster k = x ∧ (∀ j, j ≠ k → t.cluster j = s.cluster j) ∧ { t with clusters := s.clusters } = s
def OnlyPart (s t : State) (p : Nat) (x : Partition) : Prop :=
  t.part p = x ∧ (∀ j, j ≠ p → t.part j = s.part j) ∧ { t with parts := s.parts } = s
def OnlyDie (s t : State) (d : Nat) (x : Die) : Prop :=
  t.die d = x ∧ (∀ j, j ≠ d → t.die j = s.die j) ∧ { t with dies := s.dies } = s

/-- The result of Skyo's last call is status st with value v (R346). -/
def Answered (t : State) (st v : Nat) : Prop := t.skyo.a0 = BitVec.ofNat 64 st ∧ t.skyo.a1 = BitVec.ofNat 64 v

/-- The call i answers status st with value v, and nothing else changes. -/
def OnlyAnswers (s : State) (i : Instr) (st v : Nat) : Prop :=
  exec i s = .next { s with skyo := { s.skyo with a0 := BitVec.ofNat 64 st, a1 := BitVec.ofNat 64 v } }

/-- Strand x has no word of a scalar queue, no fence and no request outstanding, and holds no lease. -/
def idleQueues (x : Strand) : Prop :=
  x.loads = [] ∧ x.stores = [] ∧ x.fences = [] ∧ x.request = none ∧ x.lease = 0

/-- Core k has no entry in a queue and none running. -/
def noEntries (k : Core) : Prop :=
  k.vq = [] ∧ k.mq = [] ∧ k.xq = [] ∧ k.vrun = none ∧ k.mrun = none ∧ k.xrun = none

/-- No core of partition p has an entry, no strand of it has an access outstanding, and every strand of a team that has started is
past its start: a kill there has nothing to wait for. -/
def KillIsQuick (s : State) (p : Nat) : Prop :=
  ∀ c ∈ s.partCores p, noEntries (s.core c) ∧ (∀ t : BitVec 2, idleQueues (s.strand c t))
    ∧ ∀ m, (s.core c).team = some m → m.started = true → ∀ t : BitVec 2, t.toNat < m.strands → (s.strand c t).life ≠ .idle

/-- f is s with a unit fenced (R314, R358), and nothing else changed. -/
def Fences (s f : State) (u : EccUnit) : Prop :=
  match u with
  | .core d _ => OnlyCore s f d { s.core d with fenced := true }
  | .cluster k => OnlyCluster s f k { s.cluster k with fenced := true }
  | .channel st ch => f = { s with pkg := { s.pkg with channels :=
      if (st.toNat, ch.toNat) ∈ s.pkg.channels then s.pkg.channels else s.pkg.channels ++ [(st.toNat, ch.toNat)] } }

/-- Every store of partition p has reached its home in u (R101); no store of it is on its way to address a in s. -/
def PartHome (s u : State) (p : Nat) : Prop := ∀ k, (s.cluster k).part = p → (u.cluster k).pending = []
def partStill (s : State) (p a : Nat) : Prop := ∀ k, (s.cluster k).part = p → ¬ onTheWay s k a

/-- u is s after launch r of partition p has been killed with STATUS CODE code, CAUSE and SUB (R274, R291, R314, R315): the record is
DONE, its two events are poisoned where they are reserved, no bank of the partition holds a team of it, none of its strands runs, every
store of the partition has reached its home, and no byte of memory outside the record's STATE and STATUS differs that no such store touches. -/
def Killed (s u : State) (p : Nat) (r : BitVec 10) (code cause sub : Nat) : Prop :=
  let i := r.toNat
  let st := leValue (recBytes u p i 12 4)
  let poisoned (n : Nat) : Prop := ∀ e, s.event p n = some e → ∃ f, u.event p n = some f ∧ f.poison = true
  u.launch? p r = none ∧ leValue (recBytes u p i 1 1) = 3
  ∧ bitsOf st 7 0 = code ∧ bitsOf st 23 16 = cause ∧ bitsOf st 31 24 = sub
  ∧ poisoned (s.recField p i 4 2) ∧ poisoned (s.recField p i 6 2)
  ∧ (∀ k < 384, (s.cluster k).part = p → ∀ b ∈ (u.cluster k).bank, b.isTeamOf r = false)
  ∧ (∀ c ∈ s.partCores p, s.launchOf c = some r → ∀ t, (u.strand c t).life = .idle ∨ (u.strand c t).life = .ended)
  ∧ PartHome s u p ∧ ∀ a, a ≠ s.recAddr p i + 1 → (a < s.recAddr p i + 12 ∨ s.recAddr p i + 16 ≤ a) → partStill s p a →
      Memory.byte u.mem a = Memory.byte s.mem a

end Sys2Proof.Machine
end

