-- ==== Sys2Proof/Certificates/Slice0/Obligations.lean ====
section
/-! DEFINITION. The statements for the provers. Each says which rules of the manual it formalises; a clause that rests on a choice
of the model names its log entry. -/
open Sys2Proof Sys2Proof.Machine

-- Scalar words

/-- R68, R66, R17: every ALU word reads s[ra] and s[rb] at its issue and has its result land in rd, two own slots later, four for
the multiplications, twenty for the divisions; nothing else changes. The count words read s[ra].
R69, R70: the words with an immediate. The immediate of 12 bits is sign-extended; a shift count stands in six bits; LIH gives
its 20 bits shifted left by 12, and LIHP adds the address of its own word. That the record holds 0 for an immediate is log entry 28,
DEDUCED.
That a word's issue slot is counted is log entry 33, DESIGN CHOICE. -/
def Obligations.AluResults : Prop :=
  (∀ (s : State) (ctl : BitVec 2) (rd ra rb : BitVec 5),
  let a := s.cur.sreg ra
  let b := s.cur.sreg rb
  let n := b.toNat % 64
  let y (i : Instr) (v : Word) (lat : Nat) : Prop := Yields s i ctl (.sreg rd) v lat a b (s.cur.linkOf ra rb)
  let one (i : Instr) (v : Word) : Prop := Yields s i ctl (.sreg rd) v 2 a 0 (s.cur.linkOf ra 0)
  y (.add ctl rd ra rb) (a + b) 2 ∧ y (.sub ctl rd ra rb) (a - b) 2
  ∧ y (.and ctl rd ra rb) (a &&& b) 2 ∧ y (.or ctl rd ra rb) (a ||| b) 2
  ∧ y (.xor ctl rd ra rb) (a ^^^ b) 2 ∧ y (.andn ctl rd ra rb) (a &&& ~~~b) 2
  ∧ y (.shl ctl rd ra rb) (a <<< n) 2 ∧ y (.shr ctl rd ra rb) (a >>> n) 2 ∧ y (.sra ctl rd ra rb) (a.sshiftRight n) 2
  ∧ y (.mul ctl rd ra rb) (BitVec.ofNat 64 (a.toNat * b.toNat)) 4
  ∧ y (.mulh ctl rd ra rb) ((a.signExtend 128 * b.signExtend 128).extractLsb' 64 64) 4
  ∧ y (.mulhn ctl rd ra rb) ((a.setWidth 128 * b.setWidth 128).extractLsb' 64 64) 4
  ∧ y (.div ctl rd ra rb) (if b = 0 then BitVec.allOnes 64 else a.sdiv b) 20
  ∧ y (.divn ctl rd ra rb) (if b = 0 then BitVec.allOnes 64 else a / b) 20
  ∧ y (.rem ctl rd ra rb) (if b = 0 then a else a.srem b) 20
  ∧ y (.remn ctl rd ra rb) (if b = 0 then a else a % b) 20
  ∧ y (.min ctl rd ra rb) (if a.sle b then a else b) 2 ∧ y (.max ctl rd ra rb) (if a.sle b then b else a) 2
  ∧ y (.minn ctl rd ra rb) (BitVec.ofNat 64 (Nat.min a.toNat b.toNat)) 2
  ∧ y (.maxn ctl rd ra rb) (BitVec.ofNat 64 (Nat.max a.toNat b.toNat)) 2
  ∧ y (.addw ctl rd ra rb) (((a + b).extractLsb' 0 32).signExtend 64) 2
  ∧ y (.subw ctl rd ra rb) (((a - b).extractLsb' 0 32).signExtend 64) 2
  ∧ (∃ k ≤ 64, one (.clz ctl rd ra) (BitVec.ofNat 64 k) ∧ (∀ j < k, a.getLsbD (63 - j) = false) ∧ (k < 64 → a.getLsbD (63 - k) = true))
  ∧ (∃ k ≤ 64, one (.ctz ctl rd ra) (BitVec.ofNat 64 k) ∧ (∀ j < k, a.getLsbD j = false) ∧ (k < 64 → a.getLsbD k = true))
  ∧ one (.popc ctl rd ra) (BitVec.ofNat 64 ((List.range 64).countP (fun j => a.getLsbD j))))
  ∧ (∀ (s : State) (ctl : BitVec 2) (rd ra : BitVec 5) (imm : BitVec 12) (sh : BitVec 6)
    (big : BitVec 20),
  let a := s.cur.sreg ra
  let i := imm.signExtend 64
  let y (j : Instr) (v : Word) : Prop := Yields s j ctl (.sreg rd) v 2 a 0 (s.cur.linkOf ra 0)
  let z (j : Instr) (v : Word) : Prop := Yields s j ctl (.sreg rd) v 2 v 0 noLinks
  y (.addi ctl rd ra imm) (a + i) ∧ y (.andi ctl rd ra imm) (a &&& i) ∧ y (.ori ctl rd ra imm) (a ||| i)
  ∧ y (.xori ctl rd ra imm) (a ^^^ i) ∧ y (.shli ctl rd ra sh) (a <<< sh) ∧ y (.shri ctl rd ra sh) (a >>> sh)
  ∧ y (.srai ctl rd ra sh) (a.sshiftRight sh.toNat) ∧ y (.addwi ctl rd ra imm) (((a + i).extractLsb' 0 32).signExtend 64)
  ∧ z (.lih ctl rd big) ((big ++ 0#12).signExtend 64) ∧ z (.lihp ctl rd big) (s.cur.pc + (big ++ 0#12).signExtend 64))

/-- R66, R71, R72, R73: the comparisons and the guard words set guard gd, two own slots later, and SEL chooses by its guard as it
stands at issue: bits [1:0] name it, bit [2] negates it, and g0 is true; R66 gives the two slots. That the record holds 0 for an
immediate and the guards as they were read is log entry 28, DEDUCED; that SEL under !g0 gives s[rb] is log entry 72.
That a word's issue slot is counted is log entry 33, DESIGN CHOICE. -/
def Obligations.GuardResults : Prop := ∀ (s : State) (ctl gd ga gb : BitVec 2) (rd ra rb : BitVec 5) (imm : BitVec 12)
    (g : BitVec 3),
  let a := s.cur.sreg ra
  let b := s.cur.sreg rb
  let i := imm.signExtend 64
  let w (p : Bool) : Word := if p then 1 else 0
  let c (n : BitVec 6) (p : Bool) : Prop := Yields s (.cmp ctl gd ra rb n) ctl (.guard gd) (w p) 2 a b (s.cur.linkOf ra rb)
  let d (n : BitVec 2) (p : Bool) : Prop := Yields s (.cmpi ctl gd ra imm n) ctl (.guard gd) (w p) 2 a 0 (s.cur.linkOf ra 0)
  let ta : Bool := ga = 0 || s.cur.g.getLsbD ga.toNat
  let tb : Bool := gb = 0 || s.cur.g.getLsbD gb.toNat
  let q (j : Instr) (p : Bool) : Prop := Yields s j ctl (.guard gd) (w p) 2 (w ta) (w tb) noLinks
  let named : Bool := g.extractLsb' 0 2 = 0 || s.cur.g.getLsbD (g.extractLsb' 0 2).toNat
  let sel : Word := if (if g.getLsbD 2 then !named else named) then a else b
  c 0 (a = b) ∧ c 1 (a ≠ b) ∧ c 2 (decide (a.toInt < b.toInt)) ∧ c 3 (decide (b.toInt ≤ a.toInt))
  ∧ c 4 (decide (a.toNat < b.toNat)) ∧ c 5 (decide (b.toNat ≤ a.toNat))
  ∧ d 0 (a = i) ∧ d 1 (a ≠ i) ∧ d 2 (decide (a.toInt < i.toInt)) ∧ d 3 (decide (i.toInt ≤ a.toInt))
  ∧ q (.gand ctl gd ga gb) (ta && tb) ∧ q (.gor ctl gd ga gb) (ta || tb) ∧ q (.gxor ctl gd ga gb) (ta != tb)
  ∧ q (.gandn ctl gd ga gb) (ta && !tb)
  ∧ Yields s (.sel ctl rd ra rb g) ctl (.sreg rd) sel 2 sel 0 noLinks

/-- R74, R75, R63: a branch or call whose guard is true goes on at its target and owes two empty slots more, and a call has the
address of the word after it land in s31; with its guard false each performs nothing. A target that is no multiple of 4 stops each of
the four with ALIGN, and the saved PC is the branch's own. That VADDR holds all 64 bits of the target is log entry 72, DESIGN CHOICE.
That a word's issue slot is counted is log entry 33, DESIGN CHOICE. -/
def Obligations.Branches : Prop := ∀ (s : State) (ctl : BitVec 2) (g : BitVec 3) (off : BitVec 21) (ra : BitVec 5),
  let x := s.cur
  let near := x.pc + (off ++ 0#2).signExtend 64
  let far := x.sreg ra
  let calls (i : Instr) : Strand := inFlight x i (.sreg 31) (x.pc + 4) 2 (x.pc + 4) 0 noLinks
  let goes (i : Instr) (tgt : Word) (y : Strand) : Prop := ∃ t, exec i s = .next t ∧ Issued s t ctl 2 tgt y
  let stops (i : Instr) (tgt a : Word) : Prop := ∃ t l, exec i s = .next t ∧ l.op = i ∧ l.opa = a ∧ l.id = x.nextId
    ∧ Issued s t ctl 0 x.pc (stopped x (stopAt s s.focus ⟨.align, 0, tgt⟩ (.issue (some l))))
  (x.guard g = false → Passes s (.br ctl g off) ctl ∧ Passes s (.call ctl g off) ctl
    ∧ Passes s (.jr ctl ra g) ctl ∧ Passes s (.callr ctl ra g) ctl)
  ∧ (x.guard g = true → near.extractLsb' 0 2 = 0 → goes (.br ctl g off) near x ∧ goes (.call ctl g off) near (calls (.call ctl g off)))
  ∧ (x.guard g = true → near.extractLsb' 0 2 ≠ 0 → stops (.br ctl g off) near 0 ∧ stops (.call ctl g off) near 0)
  ∧ (x.guard g = true → far.extractLsb' 0 2 = 0 →
      goes (.jr ctl ra g) far x ∧ goes (.callr ctl ra g) far (calls (.callr ctl ra g)))
  ∧ (x.guard g = true → far.extractLsb' 0 2 ≠ 0 → stops (.jr ctl ra g) far far ∧ stops (.callr ctl ra g) far far)

/-- R17, R66, R67: a result lands at the own slot it is due in and at none before: FIXED_LATENCY_WRITE_LANDS on a strand writes each
result in flight that is due, in issue order, and keeps the others in flight; nothing but the destinations and the list changes.
s0 takes no write (R32), g0 none. On a core that is quiet under a lull halt nothing lands (R330). That a slot's landings come first in
it is log entry 38, DEDUCED, that none comes in a lull log entry 69, DEDUCED.
R63, R64: a running strand that owes an empty slot spends it as an own slot: its results due by then land, and the counter of
empty slots advances (its counting is log entry 33, DESIGN CHOICE); one that owes none, or whose core is under a lull halt (R330), is unchanged. After 64 own slots as the current
strand the SQ is marked to choose anew. -/
def Obligations.ResultsLand : Prop :=
  (∀ (s : State) (c : Nat) (t : BitVec 2),
  let x := s.strand c t
  let due := x.flight.filter (fun w => w.due ≤ x.slots)
  let land (y : Strand) (w : Landing) : Strand :=
    match w.dest with
    | .sreg r => if r = 0 then y else { y with s := y.s.set r.toNat w.val r.isLt }
    | .guard g =>
      if g = 0 then y
      else if w.val.getLsbD 0 then { y with g := y.g ||| (1#4 <<< g.toNat) }
      else { y with g := y.g &&& ~~~(1#4 <<< g.toNat) }
    | .sysreg n v =>
      if n = 0x040 then { y with fflags := v.extractLsb' 0 6 }
      else if n = 0x101 then { y with rstrand := v.extractLsb' 0 4 }
      else if n = 0x300 then { y with limit := v.extractLsb' 0 32 }
      else y
  let y : Strand := { due.foldl land x with flight := x.flight.filter (fun w => x.slots < w.due) }
  (¬ Quiet s c → ∃ u, exec (.fixedLatencyWriteLands c (t.setWidth 3)) s = .next u
    ∧ OnlyCore s u c { s.core c with strands := (s.core c).strands.set t.toNat y t.isLt }
    ∧ SameBytes s u)
  ∧ (Quiet s c → exec (.fixedLatencyWriteLands c (t.setWidth 3)) s = .next s))
  ∧ (∀ (s : State) (c : Nat) (t : BitVec 2),
  let k := s.core c
  let x := s.strand c t
  let y : Strand := { x.landDue with slots := x.slots + 1, owed := x.owed - 1 }
  let spent : Core :=
    { k with
      strands := k.strands.set t.toNat y t.isLt
      counters := k.counters.set 1 (k.counters[1] + 1)
      held := if k.cur = t then k.held + 1 else k.held }
  (x.life = .running → 0 < x.owed → k.lull = false → ∃ u, exec (.emptySlot c t) s = .next u ∧ OnlyCore s u c spent)
  ∧ (x.life ≠ .running ∨ x.owed = 0 ∨ k.lull = true → ∃ u, exec (.emptySlot c t) s = .next u ∧ OnlyCore s u c k)
  ∧ (∃ u, exec (.sqForcedSwitch c) s = .next u ∧ OnlyCore s u c { k with switch := k.switch || decide (64 ≤ k.held) }))

-- The scalar queues

/-- R92 to R97, R118, R258 to R260, R276, R284, R289: every word of the scalar queues reads its operands at issue and takes the
last place of its queue, with the address it performs at; it waits without an own slot while the queue is full; a store or atomic
whose guard is false enters no queue. DEDUCED: that a misaligned access enters and stops later (log entry 29), as do words naming an
event or record that is not there (log entry 30), and what their records hold (log entry 28); that SEMS with an address makes its
checks before it waits for room is log entry 73, DESIGN CHOICE.
That a word's issue slot is counted is log entry 33, DESIGN CHOICE. -/
def Obligations.QueueWordsEnter : Prop := ∀ (s : State) (ctl : BitVec 2) (r ra rb : BitVec 5) (imm : BitVec 9) (sz : BitVec 2)
    (g : BitVec 3) (op : BitVec 4) (num : BitVec 8) (fld : BitVec 6),
  let x := s.cur
  let a := x.sreg ra
  let b := x.sreg rb
  let ad := a + (imm.signExtend 64 <<< sz.toNat)
  let one (i : Instr) : Prop := Enters s i ctl false a 0 0 (x.linkOf ra 0)
  let two (i : Instr) : Prop := Enters s i ctl false a b 0 (x.linkOf ra rb)
  Enters s (.ld ctl r ra imm sz) ctl true ad 0 0 (x.linkOf ra 0)
  ∧ Enters s (.ldn ctl r ra imm sz) ctl true ad 0 0 (x.linkOf ra 0)
  ∧ (x.guard g = true →
      Enters s (.st ctl r ra imm sz g) ctl false ad (x.sreg r) 0 (x.linkOf ra r)
      ∧ Enters s (.atm ctl r ra rb op sz g) ctl false a b 0 (x.linkOf ra rb)
      ∧ Enters s (.acas ctl r ra rb sz g) ctl false a b (x.sreg r) (x.linkOf ra rb))
  ∧ (x.guard g = false → Passes s (.st ctl r ra imm sz g) ctl ∧ Passes s (.atm ctl r ra rb op sz g) ctl
      ∧ Passes s (.acas ctl r ra rb sz g) ctl)
  ∧ one (.sems ctl ra num) ∧ one (.semi ctl ra num) ∧ one (.tseal ctl ra) ∧ two (.tdrop ctl ra rb)
  ∧ one (.evp ctl ra) ∧ two (.eva ctl ra rb) ∧ one (.qpost ctl ra) ∧ one (.qdone ctl ra)
  ∧ one (.larm ctl ra) ∧ two (.lpat ctl ra rb fld)
  ∧ (∀ d, semTarget s s.focus (x.sreg r).toNat = .ok d →
      Enters s (.semsAddress ctl r ra) ctl false (x.sreg r) a 0 (x.linkOf r ra))
  ∧ (∀ w, semTarget s s.focus (x.sreg r).toNat = .error w →
      ∃ t l, exec (.semsAddress ctl r ra) s = .next t ∧ l.op = .semsAddress ctl r ra ∧ l.opa = x.sreg r ∧ l.opb = a
        ∧ Issued s t ctl 0 (x.pc + 4) (stopped x (stopAt s s.focus w (.issue (some l)))))

/-- R92, R95, R99, R101, R102, R317: MARK and FENCE take an entry in each scalar queue and block nothing but while one of the two is full.
A MARK, or a FENCE of kind REL, AR or SC, stays while any earlier access of its strand is outstanding, an ACQ while an earlier load or
atomic is, and each retires when there is none; while it stays, the later accesses it orders do not perform. A fence whose acquire half
finds nothing to wait for drops the lines of its cluster's cache at die scope or wider; a release there finds every store of the cluster
at its home (log entry 13). A step of the store queue lets the fences take what effect they can before it looks at the head of the queue,
unless it performs near a word that no release holds (log entry 105, DESIGN CHOICE). WAITC issues when every named counter is at or below
its limit, 15 naming no limit, a store counting until it has reached its home, and until then nothing changes.
That a word's issue slot is counted is log entry 33, DESIGN CHOICE. -/
def Obligations.FencesAndWaits : Prop := ∀ (s : State) (ctl kind : BitVec 2) (scope : BitVec 3) (l st v m x : BitVec 4)
    (c : Nat) (t : BitVec 2) (near : Bool) (q : QItem),
  let y := s.cur
  let room := noRoom y true = false ∧ noRoom y false = false
  let atoms := y.stores.filter (fun q => match q.op with | .atm .. => true | .acas .. => true | _ => false)
  let older := ∀ q ∈ y.loads ++ y.stores, q.id < y.nextId
  let waits (i : Instr) : Prop := match i with
    | .fence _ 0 _ => y.loads ≠ [] ∨ atoms ≠ []
    | _ => y.loads ≠ [] ∨ y.stores ≠ []
  let fence (i : Instr) : Prop :=
    (room → ∃ mid u, exec i s = .next u
      ∧ Issued s mid ctl 0 (y.pc + 4) { y with fences := y.fences ++ [{ id := y.nextId, op := i }], nextId := y.nextId + 1 }
      ∧ Performed mid u s.focus s.curStrand (mid.strand s.focus s.curStrand)
      ∧ (older → ((∃ f ∈ u.cur.fences, f.id = y.nextId ∧ f.op = i) ↔ waits i))
      ∧ (3 ≤ acquireScope { id := y.nextId, op := i } → fires y { id := y.nextId, op := i } → (u.cluster (s.focus / 8)).cache = []))
    ∧ (¬ room → exec i s = .next s)
  let z := s.strand c t
  let holds (f : FenceItem) (late : Bool) : Prop := match f.op with
    | .fence _ 0 _ => true ∈ z.earlier f.id
    | .fence _ 1 _ => late = true ∧ z.earlier f.id ≠ []
    | .fence _ 2 _ => true ∈ z.earlier f.id ∨ (late = true ∧ z.earlier f.id ≠ [])
    | _ => z.earlier f.id ≠ []
  let below (lim : BitVec 4) (n : Nat) : Prop := lim = 15 ∨ n ≤ lim.toNat
  let away := (s.cluster (s.focus / 8)).pending.filter (fun p => p.by_ = some (s.focus, s.curStrand))
  let met := below l (y.loads.length + atoms.length) ∧ below st (y.stores.length + away.length) ∧ below v y.cntV ∧ below m y.cntM ∧ below x y.cntX
  fence (.mark ctl) ∧ fence (.fence ctl kind scope)
  ∧ (∀ f ∈ z.fences, f.id < q.id →
      (holds f false → z.loads.head? = some q → exec (.scalarLoadComplete c t near) s = .next s)
      ∧ (holds f (heldLate q.op) → z.stores.head? = some q →
          exec (.storeQueuePerform c ⟨t, near⟩) s = .next (if q.due (s.core c) then s.ahead c t q near else s)))
  ∧ Performed s (s.settleFences c t) c t z
  ∧ (3 ≤ scope.toNat → Released s (s.release c scope.toNat) c) ∧ (scope.toNat < 3 → s.release c scope.toNat = s)
  ∧ (met → Passes s (.waitc ctl l st v m x) ctl) ∧ (¬ met → exec (.waitc ctl l st v m x) s = .next s)

/-- R93, R101: the head of a load queue performs: rd takes the bytes at the address as its cluster sees them, sign-extended for LD and
zero-extended for LDN, from memory, a window or (stale) the cluster cache; a load into s0 keeps nothing; no byte that the cluster sees
changes. What a cached copy holds is log entry 70, DESIGN CHOICE.
R94, R101: the head of a store queue that is a store performs, in its cluster's cache or at its home: the bytes of the word, as its
cluster sees them, are the low bytes of s[rs], lowest first, and every other byte is as before; at home no byte changes but those, and
those that earlier stores of the cluster have under way; a store to the register ranges of a window changes no byte of storage. That
the stores of a cluster reach their homes so is log entry 13, DESIGN CHOICE. -/
def Obligations.LoadsAndStoresPerform : Prop :=
  (∀ (s : State) (c : Nat) (t : BitVec 2) (stale : Bool) (q : QItem) (pa : Nat)
    (ctl : BitVec 2) (rd ra : BitVec 5) (imm : BitVec 9) (sz : BitVec 2) (signed : Bool),
  let n := 2 ^ sz.toNat
  let bytes := if stale && isHbm pa then cachedBytes s (clusterOf c) none pa n else viewRead s (clusterOf c) pa n
  let v := leValue bytes
  let w : Word := if signed && decide (2 ^ (8 * n - 1) ≤ v) then BitVec.ofInt 64 ((v : Int) - 2 ^ (8 * n)) else BitVec.ofNat 64 v
  loadReady s c t q → q.op = (if signed then .ld ctl rd ra imm sz else .ldn ctl rd ra imm sz) →
  s.scalarTarget c q.opa.toNat n .load true = .ok pa → s.tileBusy pa = false →
  ∃ mid u, exec (.scalarLoadComplete c t stale) s = .next u
    ∧ { mid with clusters := s.clusters, dies := s.dies } = s
    ∧ Performed mid u c t (withReg { s.strand c t with loads := (s.strand c t).loads.tail } rd w)
    ∧ Homing s u (c / 8))
  ∧ (∀ (s : State) (c : Nat) (t : BitVec 2) (q : QItem) (pa : Nat)
    (ctl : BitVec 2) (rs ra : BitVec 5) (imm : BitVec 9) (sz : BitVec 2) (g : BitVec 3) (near : Bool),
  let n := 2 ^ sz.toNat
  let k := c / 8
  let storage : Bool := match winSplit pa with | some (_, off) => decide (winRange off = .spad) | none => true
  let o := s.ahead c t q near
  let mid := storePhys o c pa (leBytes n q.opb.toNat) 0 near (some t)
  let byte (a : Nat) : Byte := BitVec.ofNat 8 (q.opb.toNat / 256 ^ (a - pa))
  let mine (a : Nat) : Prop := storage = true ∧ pa ≤ a ∧ a < pa + n
  storeReady o c t q → q.op = .st ctl rs ra imm sz g →
  o.scalarTarget c q.opa.toNat n .store true = .ok pa → o.tileBusy pa = false → o.portShut c pa = false →
  ∃ u, exec (.storeQueuePerform c ⟨t, near⟩) s = .next u
    ∧ Leaves mid u c t { mid.strand c t with stores := (s.strand c t).stores.tail } near
    ∧ (∀ a, mine a → u.seen k a = byte a ∧ (near = false → u.byteAt a = byte a))
    ∧ (∀ a, ¬ mine a → u.seen k a = s.seen k a ∧ (¬ onTheWay s k a → u.byteAt a = s.byteAt a)))

/-- R96, R97, R98, R101: the head of a store queue that is an atomic performs as one action: the location takes f(old, b) at its home, rd
the old value sign-extended, and every other byte that the cluster sees is as before.
R93, R94, R96, R97, R88: an access whose address is no multiple of its size stops its strand with ALIGN and names that address, before
any check of translation; the access performs nothing. That this is found when the access performs is log entry 29, that a strand which
has ended takes the stop log entry 48, and that one which resumes does log entry 71, all DEDUCED.
R80, R86 to R89, R353: an address outside the window aperture, taken mod 2^48, is walked through four levels of tables of 8-byte entries from
the partition's root. The first entry that is not valid gives INVALID, the first that breaks R87 FORMAT; at a leaf the checks go in the order
FRAME, PLACEMENT, PERM, HANDLER, which th leaves out, and ATOMIC, and the first that fails gives its subcause; else the access goes to the
frame. That a malformed entry ends the walk before a later invalid one is log entry 78, DESIGN CHOICE. -/
def Obligations.AtomicsPerform : Prop :=
  ((∀ (s : State) (c : Nat) (t : BitVec 2) (q : QItem) (pa : Nat)
    (ctl : BitVec 2) (rd ra rb : BitVec 5) (op : BitVec 4) (sz : BitVec 2) (g : BitVec 3) (near : Bool),
  let n := 2 ^ sz.toNat
  let w := 8 * n
  let k := c / 8
  let o := s.ahead c t q near
  let old := leValue ((List.range n).map (fun i => s.seen k (pa + i)))
  let b := q.opb.toNat % 2 ^ w
  let sx (v : Nat) : Int := if 2 ^ (w - 1) ≤ v then (v : Int) - 2 ^ w else v
  let f : Nat :=
    match op.toNat with
    | 0 => (old + b) % 2 ^ w
    | 1 => if sx b < sx old then b else old
    | 2 => if sx old < sx b then b else old
    | 3 => Nat.min old b
    | 4 => Nat.max old b
    | 5 => Nat.land old b
    | 6 => Nat.lor old b
    | 7 => Nat.xor old b
    | 8 => b
    | _ => (fAdd fmtF32 .rne false old b).1
  let swap : Nat := if old = q.ext.toNat % 2 ^ w then b else old
  let mine (a : Nat) : Prop := pa ≤ a ∧ a < pa + n
  let does (new : Nat) : Prop :=
    ∃ mid u, exec (.storeQueuePerform c ⟨t, near⟩) s = .next u
      ∧ Leaves mid u c t (withReg { mid.strand c t with stores := (s.strand c t).stores.tail } rd (BitVec.ofInt 64 (sx old))) near
      ∧ (∀ d r, mid.strand d r = o.strand d r)
      ∧ (∀ a, mine a → u.seen k a = BitVec.ofNat 8 (new / 256 ^ (a - pa)) ∧ u.byteAt a = BitVec.ofNat 8 (new / 256 ^ (a - pa)))
      ∧ (∀ a, ¬ mine a → u.seen k a = s.seen k a ∧ (¬ onTheWay s k a → u.byteAt a = s.byteAt a))
  storeReady o c t q → o.scalarTarget c q.opa.toNat n .atomic true = .ok pa → o.portShut c pa = false →
  (q.op = .atm ctl rd ra rb op sz g → does f) ∧ (q.op = .acas ctl rd ra rb sz g → does swap))
  ∧ (∀ (s : State) (c : Nat) (t : BitVec 2) (q : QItem) (stale near : Bool)
    (ctl : BitVec 2) (r ra rb : BitVec 5) (imm : BitVec 9) (sz : BitVec 2) (g : BitVec 3) (op : BitVec 4),
  let a := q.opa.toNat % 2 ^ 48
  let w : Trouble := ⟨.align, 0, BitVec.ofNat 64 a⟩
  let o := s.ahead c t q near
  a % 2 ^ sz.toNat ≠ 0 →
  (loadReady s c t q → q.op ∈ [Instr.ld ctl r ra imm sz, .ldn ctl r ra imm sz] →
    ∃ u, exec (.scalarLoadComplete c t stale) s = .next u ∧ QueueStops s u c t true q w)
  ∧ (storeReady o c t q → q.op ∈ [Instr.st ctl r ra imm sz g, .atm ctl r ra rb op sz g, .acas ctl r ra rb sz g] →
    StoreQueueStops s o c t near q w)))
  ∧ (∀ (s : State) (p a : Nat) (acc : Acc) (th : Bool) (l : Nat),
  let v := a % 2 ^ 48
  let hi (l : Nat) : Nat := 39 - 9 * l
  let lo (l : Nat) : Nat := if l = 3 then 16 else hi l
  let index (l : Nat) : Nat := if l = 3 then v / 2 ^ 16 % 32 else v / 2 ^ hi l % 512
  let adr (e : Nat) : Nat := e / 2 ^ 8 % 2 ^ 40 * 256
  let entry (table l : Nat) : Nat := (Sparse.get 0 (s.part p).tables (table + 8 * index l)).toNat
  let e0 := entry (s.part p).root 0
  let e1 := entry (adr e0) 1
  let e2 := entry (adr e1) 2
  let e (l : Nat) : Nat := match l with | 0 => e0 | 1 => e1 | 2 => e2 | _ => entry (adr e2) 3
  let valid (l : Nat) : Prop := e l % 2 = 1
  let leaf (l : Nat) : Prop := valid l ∧ e l / 2 ^ 48 = 0 ∧ e l / 2 % 2 = 1 ∧ 1 ≤ l ∧ adr (e l) % 2 ^ lo l = 0 ∧ e l / 2 ^ 6 % 4 ≠ 3
  let pointer (l : Nat) : Prop := valid l ∧ e l / 2 ^ 48 = 0 ∧ e l / 2 % 2 = 0 ∧ l < 3 ∧ e l / 4 % 64 = 0 ∧ (l < 2 → adr (e l) % 4096 = 0)
  let reached := l < 4 ∧ ∀ m < l, pointer m
  let frame := adr (e l)
  let place := e l / 2 ^ 6 % 4
  let bit (n : Nat) : Prop := e l / 2 ^ n % 2 = 1
  let host := 0x2000_0000_0000 ≤ frame ∧ frame < 0x2900_0000_0000
  let split := s.memsplit * 2 ^ 36
  let there := frame < 2 ^ 40 ∨ host
  let placed := (place = 0 ∧ frame < split) ∨ (place = 1 ∧ split ≤ frame ∧ frame < 2 ^ 40) ∨ (place = 2 ∧ host)
  let may := match acc with | .load => bit 2 | .store => bit 3 | .atomic => bit 2 ∧ bit 3 | .fetch => bit 4
  let trapped := th = true ∧ bit 5
  let barred := acc = .atomic ∧ host
  let fails (sub : BitVec 8) : Prop := resolveIn s p a acc th = .error ⟨.xlate, sub, BitVec.ofNat 64 v⟩
  s.memsplit ≤ 16 → (v < 0x1000_0000_0000 ∨ 0x2000_0000_0000 ≤ v) → reached →
    (¬ valid l → fails 0) ∧ (valid l → ¬ leaf l → ¬ pointer l → fails 1)
    ∧ (leaf l → (¬ there → fails 2) ∧ (there → ¬ placed → fails 3) ∧ (there → placed → ¬ may → fails 4)
        ∧ (there → placed → may → trapped → fails 5) ∧ (there → placed → may → ¬ trapped → barred → fails 6)
        ∧ (there → placed → may → ¬ trapped → ¬ barred → resolveIn s p a acc th = .ok (frame + v % 2 ^ lo l))))

-- Semaphores, events, records, tasks and pools

/-- R118, R119, R113, R101: SEMS and SEMS with an address add the amount to the semaphore they name when they perform; a sum of 2^32 or
more stops the strand with SEMOVF and leaves the count (log entry 48, DEDUCED, for a strand that has ended); a signal to another cluster
is a release there, which takes all the cluster's stores along (log entry 13, DESIGN CHOICE). SEMI replaces the count. The unit then grants what waits it can. SEMR reads the count two own slots on.
R117, R121, R103: SEMW issues when the unit has granted it, or when the count is at least its amount and no wait that came before it
on the semaphore could be granted first; the grant subtracts the amount, and the unit grants what it then can. It drops the cluster
cache's lines where a far release came, and its strand's later accesses follow the earlier ones. Until then it takes no own slot and
stands in the unit's order of arrival.
That a word's issue slot is counted is log entry 33, DESIGN CHOICE. -/
def Obligations.SemaphoreWords : Prop :=
  (∀ (s : State) (c : Nat) (t : BitVec 2) (q : QItem) (near : Bool) (ctl : BitVec 2)
    (rd ra : BitVec 5) (num : BitVec 8) (d m : Nat),
  let o := s.ahead c t q near
  let n := q.opa.toNat % 2 ^ 32
  let v := ((o.core c).semCount num.toNat).toNat
  let far := q.opb.toNat % 2 ^ 32
  let w := ((o.core d).semCount m).toNat
  let r := if c / 8 = d / 8 then o else o.release c 3
  (storeReady o c t q → q.op = .sems ctl ra num →
    (v + n < 2 ^ 32 → ∃ mid, SemSet o mid c num.toNat (v + n) ∧ PerformsStore s c t near mid)
    ∧ (2 ^ 32 ≤ v + n → StoreQueueStops s o c t near q ⟨.semovf, 0, 0⟩))
  ∧ (storeReady o c t q → q.op = .semi ctl ra num → ∃ mid, SemSet o mid c num.toNat n ∧ PerformsStore s c t near mid)
  ∧ (storeReady o c t q → q.op = .semsAddress ctl rd ra → semTarget o c q.opa.toNat = .ok (d, m) → o.portClosed c d = false →
    (w + far < 2 ^ 32 → ∃ mid, SemSet r mid d m (w + far) ∧ PerformsStore s c t near mid)
    ∧ (2 ^ 32 ≤ w + far → StoreQueueStops s o c t near q ⟨.semovf, 0, 0⟩))
  ∧ (let r : Word := ((s.core s.focus).semCount num.toNat).setWidth 64
     Yields s (.semr ctl rd num) ctl (.sreg rd) r 2 r 0 noLinks))
  ∧ (∀ (s : State) (ctl : BitVec 2) (ra : BitVec 5) (num : BitVec 8),
  let k := s.core s.focus
  let me := Waiter.strand s.curStrand
  let n := (s.cur.sreg ra).toNat % 2 ^ 32
  let v := (k.semCount num.toNat).toNat
  let others := k.waits.filter (fun w => w.who ≠ me)
  let ahead := k.waits.takeWhile (fun w => w.who ≠ me)
  let given := ∃ w ∈ k.waits, w.who = me ∧ w.granted = true
  let now := n ≤ v ∧ ∀ w ∈ ahead, w.sem = num → w.granted = false → v < (k.waitCount w).toNat
  let x : Strand := if s.cur.loads = [] ∧ s.cur.stores = [] then s.cur
    else { s.cur with fences := s.cur.fences ++ [{ id := s.cur.nextId, op := .semw ctl ra num }], nextId := s.cur.nextId + 1 }
  let far := Sparse.get false k.semFar num.toNat
  let goes (k' : Core) : Prop := ∃ w u t, exec (.semw ctl ra num) s = .next t ∧ OnlyCore s w s.focus k'
    ∧ (far = true → LinesDropped w u s.focus) ∧ (far = false → u = w) ∧ IssuedOver s u t ctl 0 (s.cur.pc + 4) x
  let wait : SemWait := { sem := num, who := me, n := BitVec.ofNat 32 n, reg := some ra }
  (given → goes { k with waits := others })
  ∧ (¬ given → now → ∃ k', Woken { k.setSem num.toNat (BitVec.ofNat 32 (v - n)) with waits := others } k' ∧ goes k')
  ∧ (¬ given → ¬ now → ∃ t, exec (.semw ctl ra num) s = .next t
    ∧ OnlyCore s t s.focus { k with waits := if k.waits.any (fun w => w.who = me) then k.waits.map (fun w => if w.who = me then wait else w)
                                             else k.waits ++ [wait] }))

/-- R289, R288: EVP lowers COUNT and sets SET when it is 0, changing nothing on a poisoned event; EVA writes COUNT and clears POISON;
both stop with EVENT on a name that is not reserved, and with ECC when the link to its table's die has failed (R288, R357), when they perform
(log entry 30, DEDUCED; log entry 48, DEDUCED, for a strand that has ended); EVP is a release (of all the cluster's stores: log entry 13,
DESIGN CHOICE). EVT reads SET + 2 · POISON; EVW passes once SET or POISON is 1, dropping the
cluster cache's lines when SET, and until then nothing changes; both stop as those do.
R282 to R284: QPOST copies its record into the bank of the cluster its TARGET names, behind the tasks already posted; QDONE
posts the event its record names; both are releases (of all the cluster's stores: log entry 13, DESIGN CHOICE). QPOST stops with ALIGN on an
address that is no multiple of 64, with what its address meets, with WINDOW in a stop-record area, and with FORMAT on a bad record (a
cluster outside the partition counts as one: log entry 21); QDONE stops with what the address of its halfword meets, and with EVENT on a
name that is not reserved. QTAKE gives the address the first task it may take was posted with, one own slot on, and takes the
task out; with none to take nothing changes, and a failed link that its search comes to stops it with ECC (log entry 94, DEDUCED).
That a word's issue slot is counted is log entry 33, DESIGN CHOICE. -/
def Obligations.EventAndTaskWords : Prop :=
  (∀ (s : State) (c : Nat) (t : BitVec 2) (q : QItem) (near : Bool) (ctl : BitVec 2) (rd ra rb : BitVec 5)
    (e : Event),
  let o := s.ahead c t q near
  let p := s.partOf c
  let n := q.opa.toNat % 2 ^ 16
  let cut := s.linkDown (c / 768) (n % 4) = true
  let less := if e.count = 0 then e.count else e.count - 1
  let bad : Trouble := ⟨.event, 0, 0⟩
  let ecc : Trouble := ⟨.ecc, 4, 0⟩
  let a := s.cur.sreg ra
  let m := a.toNat % 2 ^ 16
  let here := s.partOf s.focus
  let off := s.linkDown (s.focus / 768) (m % 4) = true
  let v : Word := BitVec.ofNat 64 ((if e.set then 1 else 0) + (if e.poison then 2 else 0))
  (storeReady o c t q → q.op = .evp ctl ra →
    (s.event p n = some e → ¬ cut → ∃ mid, PerformsStore s c t near mid
      ∧ EventSet (o.release c 4) mid p n (if e.poison then e else { e with count := less, set := e.set || less = 0 }))
    ∧ (s.event p n = some e → cut → StoreQueueStops s o c t near q ecc)
    ∧ (s.event p n = none → StoreQueueStops s o c t near q bad))
  ∧ (storeReady o c t q → q.op = .eva ctl ra rb →
    (s.event p n = some e → ¬ cut → ∃ mid, PerformsStore s c t near mid
      ∧ EventSet o mid p n { count := q.opb.extractLsb' 0 32, set := q.opb.extractLsb' 0 32 = 0, poison := false,
                             armer := some (s.strand c t).lridx })
    ∧ (s.event p n = some e → cut → StoreQueueStops s o c t near q ecc)
    ∧ (s.event p n = none → StoreQueueStops s o c t near q bad))
  ∧ (s.event here m = some e → ¬ off →
    Yields s (.evt ctl rd ra) ctl (.sreg rd) v 2 v 0 noLinks
    ∧ (e.set = true → ∃ u t, exec (.evw ctl ra) s = .next t ∧ LinesDropped s u s.focus
        ∧ IssuedOver s u t ctl 0 (s.cur.pc + 4) s.cur)
    ∧ (e.set = false → e.poison = true → Passes s (.evw ctl ra) ctl)
    ∧ (e.set = false → e.poison = false → exec (.evw ctl ra) s = .next s))
  ∧ (s.event here m = some e → off → FaultsAtIssue s (.evt ctl rd ra) ctl ecc a 0 ∧ FaultsAtIssue s (.evw ctl ra) ctl ecc a 0)
  ∧ (s.event here m = none → FaultsAtIssue s (.evt ctl rd ra) ctl bad a 0 ∧ FaultsAtIssue s (.evw ctl ra) ctl bad a 0))
  ∧ (∀ (s : State) (c : Nat) (t : BitVec 2) (q : QItem) (near : Bool) (ctl : BitVec 2) (rd ra : BitVec 5)
    (pa : Nat) (e : Event) (w : Trouble),
  let o := s.ahead c t q near
  let p := s.partOf c
  let r := o.release c 4
  let post := Memory.bytes r.mem pa 64
  let f (n len : Nat) : Nat := leValue ((post.drop n).take len)
  let k := if f 38 2 = 0xFFFF then c / 8 else f 38 2 / 128 % 4 * 96 + f 38 2 % 128
  let unknown (n : Nat) : Prop := n ≠ 0xFFFF ∧ s.event p n = none
  let bad := 8 ≤ f 36 1 ∨ 3 ≤ f 37 1 ∨ unknown (f 32 2) ∨ unknown (f 34 2)
    ∨ (f 38 2 ≠ 0xFFFF ∧ (512 ≤ f 38 2 ∨ 96 ≤ f 38 2 % 128)) ∨ (s.cluster k).part ≠ p
  let area (a : Nat) : Bool := match winSplit a with | some (_, off) => decide (winRange off = .area) | none => false
  let a48 := q.opa.toNat % 2 ^ 48
  let put := BankEntry.task (BitVec.ofNat 3 (taskField post 36 1)) (s.cluster k).postSeq (BitVec.ofNat 64 q.opa.toNat) post
  let pev := leValue (Memory.bytes r.mem pa 2)
  let c' := s.focus
  (storeReady o c t q → q.op = .qpost ctl ra →
    (a48 % 64 ≠ 0 → StoreQueueStops s o c t near q ⟨.align, 0, BitVec.ofNat 64 a48⟩)
    ∧ (a48 % 64 = 0 → resolve r c q.opa.toNat .load true = .error w → StoreQueueStops s o c t near q w)
    ∧ (a48 % 64 = 0 → resolve r c q.opa.toNat .load true = .ok pa →
        (area pa = true → StoreQueueStops s o c t near q ⟨.window, 0, BitVec.ofNat 64 a48⟩)
        ∧ (isHbm pa = true → bad → StoreQueueStops s o c t near q ⟨.format, 0, 0⟩)))
  ∧ (storeReady o c t q → q.op = .qpost ctl ra → a48 % 64 = 0 → resolve r c q.opa.toNat .load true = .ok pa →
    isHbm pa = true → ¬ bad → (s.cluster k).bank.length < 512 →
    s.linkDown (c / 768) (k / 96) = false → (s.cluster k).fenced = false →
    (∀ m v, s.event p m = some v → v.poison = false) →
    ∃ mid, PerformsStore s c t near mid ∧ (mid.cluster k).bank = (s.cluster k).bank ++ [put]
      ∧ (∀ d, d ≠ k → (mid.cluster d).bank = (s.cluster d).bank) ∧ (∀ d, (mid.cluster d).ring = (s.cluster d).ring)
      ∧ { mid with clusters := r.clusters, dies := r.dies } = r)
  ∧ (storeReady o c t q → q.op = .qdone ctl ra → r.scalarTarget c (q.opa.toNat + 34) 2 .load true = .error w →
    StoreQueueStops s o c t near q w)
  ∧ (storeReady o c t q → q.op = .qdone ctl ra → r.scalarTarget c (q.opa.toNat + 34) 2 .load true = .ok pa → isHbm pa = true →
    (pev = 0xFFFF → ∃ mid, PerformsStore s c t near mid ∧ { mid with clusters := r.clusters, dies := r.dies } = r)
    ∧ (pev ≠ 0xFFFF → s.event p pev = none → StoreQueueStops s o c t near q ⟨.event, 0, 0⟩)
    ∧ (pev ≠ 0xFFFF → s.event p pev = some e → s.linkDown (c / 768) (pev % 4) = false →
        ∃ w mid, PerformsStore s c t near mid ∧ EventSet w mid p pev e.post ∧ { w with clusters := r.clusters, dies := r.dies } = r))
  ∧ (∀ b x, s.findTask (s.partOf c') (clusterOf c') = .ok (some (b, x)) →
    ∃ u t, exec (.qtake ctl rd) s = .next t
      ∧ IssuedOver s u t ctl 0 (s.cur.pc + 4) (inFlight s.cur (.qtake ctl rd) (.sreg rd) x.addr 1 x.addr 0 noLinks)
      ∧ (u.cluster b).bank = ((s.cluster b).removeEntry x).bank ∧ (u.cluster b).ring = ((s.cluster b).removeEntry x).ring
      ∧ { u with clusters := s.clusters } = s)
  ∧ (s.findTask (s.partOf c') (clusterOf c') = .ok none → exec (.qtake ctl rd) s = .next s)
  ∧ (s.findTask (s.partOf c') (clusterOf c') = .error w → FaultsAtIssue s (.qtake ctl rd) ctl w 0 0))

/-- R276 to R279: LPAT writes its field of an IDLE record; LARM arms an IDLE record whose extents and bindings are good, with the
partition's next arm sequence number; an extent over 65,536 or bad bindings leave their STATUS, and an extent of 0 a record that is DONE
at once, its event posted; both stop with PRIV on a record that is not IDLE or not usable (log entry 48, DEDUCED, for a strand that has
ended). LARM is a release (of all the cluster's stores: log entry 13, DESIGN CHOICE); NLEV outside 1 to 8 and the binding codes 6 and 7
are log entries 91 and 92, DESIGN CHOICE. LWAIT reads STATUS of a record
that is IDLE or DONE into rd for the next word, makes a DONE record IDLE, and until then nothing changes.
That a word's issue slot is counted is log entry 33, DESIGN CHOICE. -/
def Obligations.RecordWords : Prop := ∀ (s : State) (c : Nat) (t : BitVec 2) (q : QItem) (near : Bool) (ctl : BitVec 2) (rd ra rb : BitVec 5)
    (fld : BitVec 6),
  let o := s.ahead c t q near
  let p := s.partOf c
  let i := q.opa.toNat
  let v := q.opb.toNat
  let f := fld.toNat
  let usable (s : State) (p i : Nat) : Prop := i < 1024 ∧ recBytes s p i 0 1 = [1]
  let state (s : State) (p i : Nat) : Nat := leValue (recBytes s p i 1 1)
  let priv : Trouble := ⟨.priv, 0, 0⟩
  let idle (s : State) : Prop := usable s p i ∧ state s p i = 0
  let r := o.release c 4
  let sh := r.recShape p i
  let long := ∃ e ∈ sh, 65536 < e.1
  let bad := bindOrder (sh.map (·.2)) = false ∨ 4 < teamStrands sh
  let none_ := ∃ e ∈ sh, e.1 = 0
  let cev := leValue (recBytes r p i 4 2)
  let next := (r.part p).armseq + 1
  let a := s.cur.sreg ra
  let here := s.partOf s.focus
  let j := a.toNat
  let status : Word := BitVec.ofNat 64 (leValue (recBytes s here j 12 4))
  (storeReady o c t q → q.op = .lpat ctl ra rb fld → f ≤ 19 →
    (idle o → ∃ mid, PerformsStore s c t near mid
      ∧ (f < 8 → RecordSet o mid p i (16 + 8 * f) 8 v)
      ∧ (8 ≤ f → f < 16 → RecordSet o mid p i (80 + 4 * (f - 8)) 4 (if v < 2 ^ 32 then v else 0xFFFF_FFFF))
      ∧ (f = 16 → RecordSet o mid p i 3 1 (Nat.min v 7)) ∧ (f = 17 → RecordSet o mid p i 4 2 v)
      ∧ (f = 18 → RecordSet o mid p i 6 2 v) ∧ (f = 19 → RecordSet o mid p i 8 1 (v % 8)))
    ∧ (¬ idle o → StoreQueueStops s o c t near q priv))
  ∧ (storeReady o c t q → q.op = .larm ctl ra →
    (idle r → long → ∃ mid, PerformsStore s c t near mid ∧ RecordSet r mid p i 12 4 2)
    ∧ (idle r → ¬ long → bad → ∃ mid, PerformsStore s c t near mid ∧ RecordSet r mid p i 12 4 3)
    ∧ (idle r → ¬ long → ¬ bad → none_ → ∃ w w' mid, PerformsStore s c t near mid ∧ RecordSet r w p i 12 4 1 ∧ RecordSet w w' p i 1 1 3
        ∧ (∀ e, r.event p cev = some e → EventSet w' mid p cev e.post) ∧ (r.event p cev = none → mid = w'))
    ∧ (idle r → ¬ long → ¬ bad → ¬ none_ → ∃ mid, PerformsStore s c t near mid
      ∧ recBytes mid p i 1 1 = [1] ∧ leValue (recBytes mid p i 12 4) = 0
      ∧ leValue (recBytes mid p i 168 8) = next % 2 ^ 64
      ∧ (mid.part p).armseq = next ∧ Sparse.get none (mid.part p).launches i = some { armseq := next }
      ∧ { mid with mem := r.mem, parts := r.parts, resvs := r.resvs } = r)
    ∧ (¬ idle r → StoreQueueStops s o c t near q priv))
  ∧ (usable s here j → state s here j = 0 → ∃ u t, exec (.lwait ctl rd ra) s = .next t ∧ LinesDropped s u s.focus
      ∧ IssuedOver s u t ctl 0 (s.cur.pc + 4) (inFlight s.cur (.lwait ctl rd ra) (.sreg rd) status 1 status 0 noLinks))
  ∧ (usable s here j → state s here j = 3 → ∃ w u t, exec (.lwait ctl rd ra) s = .next t ∧ RecordSet s w here j 1 1 0
      ∧ LinesDropped w u s.focus
      ∧ IssuedOver s u t ctl 0 (s.cur.pc + 4) (inFlight s.cur (.lwait ctl rd ra) (.sreg rd) status 1 status 0 noLinks))
  ∧ (usable s here j → state s here j ≠ 0 → state s here j ≠ 3 → exec (.lwait ctl rd ra) s = .next s)
  ∧ (¬ usable s here j → FaultsAtIssue s (.lwait ctl rd ra) ctl priv a 0)

/-- R256, R259, R260: TSEAL makes an OPEN slot its launch owns SEALED, with the TAG its first byte holds, or FREE when it declares no
reads; TDROP takes reads from a SEALED slot, and at none left the slot becomes FREE, its generation one more; where an allocation waits
for it, that one has it, OPEN, at once. A stale handle, a slot in another state, another launch's slot and too many reads stop with POOL
and change nothing (log entry 48, DEDUCED, for a strand that has ended).
R255, R258: TALC on its own core's pool takes the lowest FREE slot, which becomes OPEN with the declared reads and this launch as its
owner, and gives its handle to the next word; with none FREE its request stands in the partition's queue, and no own slot passes. It does
the same on the pool of a peer core of its cluster whose partition is SHARED. More than 65,535 reads, and a target that is no pool
partition of the launch, or a peer's that is not SHARED, stop with POOL.
That a word's issue slot is counted is log entry 33, DESIGN CHOICE. -/
def Obligations.PoolWords : Prop :=
  (∀ (s : State) (c : Nat) (t : BitVec 2) (q : QItem) (near : Bool) (ctl : BitVec 2) (ra rb : BitVec 5)
    (po : Pool) (al : Alloc) (als : List Alloc),
  let o := s.ahead c t q near
  let h := q.opa.toNat % 2 ^ 32
  let d := bitsOf h 31 30 * 768 + bitsOf h 29 23 * 8 + bitsOf h 22 20
  let p := bitsOf h 19 17
  let n := bitsOf h 16 9
  let m := q.opb.toNat
  let part := (o.core d).poolPart p
  let x := part.slot n
  let named := bitsOf h 29 23 < 96 ∧ d / 8 = c / 8 ∧ n < part.count ∧ x.st ≠ .free ∧ x.gen.toNat = h % 512
  let mine := x.owner = (s.strand c t).lridx
  let becomes (y : Slot) : Prop := ∃ mid k, OnlyCore o mid d k ∧ SlotSet o d p n y k ∧ PerformsStore s c t near mid
  let tag : BitVec 4 := (Memory.byte (o.core d).spad (part.base + n * (256 * 2 ^ part.sz.toNat))).setWidth 4
  let freed : Slot := { st := .free, gen := x.gen + 1, reads := 0, pend := 0, owner := 0, tag := 0 }
  let told (r : Option Request) : Option Request := r.map (fun g => { g with granted := some (handleOf d p n (x.gen + 1)) })
  let passed := (o.core d).pool = some po → part.queue = al :: als → part.freeSlots = [] → ∃ mid, PerformsStore s c t near mid
    ∧ ((mid.core d).poolPart p).slot n = { freed with st := .open_, reads := al.n, owner := po.launch }
    ∧ ((mid.core d).poolPart p).queue = als
    ∧ (al.unit.toNat = 4 → (mid.core al.core).xrun = (o.core al.core).xrun.map (fun r => { r with request := told r.request }))
    ∧ (al.unit.toNat < 4 → let z := o.strand al.core (al.unit.extractLsb' 0 2)
        mid.strand al.core (al.unit.extractLsb' 0 2) = { z with request := told z.request })
  (storeReady o c t q → q.op = .tseal ctl ra →
    (named → x.st = .open_ → mine → x.reads ≠ 0 → becomes { x with st := .sealed, tag := tag })
    ∧ (named → x.st = .open_ → mine → x.reads = 0 → (part.queue = [] → becomes freed) ∧ passed)
    ∧ (¬ named → StoreQueueStops s o c t near q (poolStop 3))
    ∧ (named → x.st = .sealed → StoreQueueStops s o c t near q (poolStop 4))
    ∧ (named → x.st = .open_ → ¬ mine → StoreQueueStops s o c t near q (poolStop 5)))
  ∧ (storeReady o c t q → q.op = .tdrop ctl ra rb →
    (named → x.st = .sealed → mine → m ≤ x.reads - x.pend → m = 0 → PerformsStore s c t near o)
    ∧ (named → x.st = .sealed → mine → m ≤ x.reads - x.pend → 0 < m → m < x.reads → becomes { x with reads := x.reads - m })
    ∧ (named → x.st = .sealed → mine → m ≤ x.reads - x.pend → 0 < m → m = x.reads → (part.queue = [] → becomes freed) ∧ passed)
    ∧ (named → x.st = .sealed → mine → x.reads - x.pend < m → StoreQueueStops s o c t near q (poolStop 6))
    ∧ (¬ named → StoreQueueStops s o c t near q (poolStop 3))
    ∧ (named → x.st = .open_ → StoreQueueStops s o c t near q (poolStop 4))))
  ∧ (∀ (s : State) (ctl : BitVec 2) (rd ra rb : BitVec 5) (po : Pool) (m : Nat) (ms : List Nat)
    (peer : Nat),
  let c := s.focus
  let k := s.core c
  let n := s.cur.sreg ra
  let p := (s.cur.sreg rb).toNat
  let part := k.poolPart p
  let x := part.slot m
  let i := Instr.talc ctl rd ra rb
  let h := handleOf c p m x.gen
  let d := c / 8 * 8 + peer
  let far := (s.core d).poolPart (p % 8)
  (s.cur.request = none → n.toNat ≤ 65535 → k.pool = none → k.away = [] → p < 8 → FaultsAtIssue s i ctl (poolStop 7) n (s.cur.sreg rb))
  ∧ (s.cur.request = none → peer < 8 → d ≠ c → p = 8 + 16 * peer + p % 8 → (s.core d).pool = some po → po.live = true →
    po.launch = s.cur.lridx → n.toNat ≤ 65535 →
    (far.count ≠ 0 → far.shared = true → far.queue = [] → far.freeSlots = m :: ms →
      ∃ u t k', exec i s = .next t ∧ OnlyCore s u d k'
        ∧ SlotSet s d (p % 8) m { far.slot m with st := .open_, reads := n.toNat, pend := 0, owner := po.launch } k'
        ∧ let v := handleOf d (p % 8) m (far.slot m).gen
          IssuedOver s u t ctl 0 (s.cur.pc + 4) (inFlight s.cur i (.sreg rd) v 1 v 0 noLinks))
    ∧ (far.count = 0 ∨ far.shared = false → FaultsAtIssue s i ctl (poolStop 7) n (s.cur.sreg rb)))
  ∧ (s.cur.request = none → p < 8 → k.pool = some po → po.live = true → po.launch = s.cur.lridx →
  (n.toNat ≤ 65535 → part.count ≠ 0 → part.queue = [] → part.freeSlots = m :: ms →
    ∃ u t k', exec i s = .next t ∧ OnlyCore s u c k'
      ∧ SlotSet s c p m { x with st := .open_, reads := n.toNat, pend := 0, owner := po.launch } k'
      ∧ IssuedOver s u t ctl 0 (s.cur.pc + 4) (inFlight s.cur i (.sreg rd) h 1 h 0 noLinks))
  ∧ (n.toNat ≤ 65535 → part.count ≠ 0 → part.freeSlots = [] →
    ∃ t, exec i s = .next t ∧ t.cur.slots = s.cur.slots ∧ t.cur.pc = s.cur.pc ∧ t.cur.s = s.cur.s
      ∧ ((t.core c).poolPart p).queue = part.queue ++ [{ core := c, unit := s.curStrand.setWidth 3, n := n.toNat }])
  ∧ (65535 < n.toNat → FaultsAtIssue s i ctl (poolStop 6) n (s.cur.sreg rb))
  ∧ (n.toNat ≤ 65535 → part.count = 0 → FaultsAtIssue s i ctl (poolStop 7) n (s.cur.sreg rb))))

/-- R247, R249, R261: TSTAT reads a tile status register; OVPOP takes the oldest event out of the overflow queue, 0 when it is empty;
TADR gives the window address of a handle's slot, 0 when it names none of its launch's slots; TCNT gives the reads left in a slot of its
own core that is in use and current, all ones otherwise. Each result lands two own slots on.
R76, R77, R308: MFS reads a whole system register at issue; reading STOPNEXT also takes the stop it names out of the strand's FIFO.
MTS writes a register with an RW field two own slots on, and stops with PRIV on every other.
That a word's issue slot is counted is log entry 33, DESIGN CHOICE. -/
def Obligations.RegisterReads : Prop :=
  (∀ (s : State) (ctl : BitVec 2) (rd ra : BitVec 5) (ts : BitVec 4),
  let c := s.focus
  let h := (s.cur.sreg ra).toNat % 2 ^ 32
  let p := bitsOf h 19 17
  let n := bitsOf h 16 9
  let q := (s.newPool (s.partOf c) s.cur.lridx.toNat).parts.toList.getD p {}
  let at_ := coreWindow (bitsOf h 31 30 * 768 + bitsOf h 29 23 * 8 + bitsOf h 22 20) + q.base + n * (256 * 2 ^ q.sz.toNat)
  let x := ((s.core c).poolPart p).slot n
  let own := c < 3072 ∧ bitsOf h 31 30 * 768 + bitsOf h 29 23 * 8 + bitsOf h 22 20 = c ∧ bitsOf h 29 23 < 96
    ∧ n < ((s.core c).poolPart p).count ∧ x.st ≠ .free ∧ x.gen.toNat = h % 512
  let y (i : Instr) (v : Word) : Prop := Yields s i ctl (.sreg rd) v 2 v 0 noLinks
  let ev := ((s.core c).ovq.head?.map (·.1)).getD 0
  y (.tstat ctl rd ts) ((s.cur.ts[ts.toNat]'ts.isLt).setWidth 64)
  ∧ (∃ u t, exec (.ovpop ctl rd) s = .next t ∧ OnlyCore s u c { s.core c with ovq := (s.core c).ovq.tail }
      ∧ IssuedOver s u t ctl 0 (s.cur.pc + 4) (inFlight s.cur (.ovpop ctl rd) (.sreg rd) ev 2 ev 0 noLinks))
  ∧ (bitsOf h 29 23 < 96 → y (.tadr ctl rd ra) (if n < q.count then BitVec.ofNat 64 at_ else 0))
  ∧ (own → y (.tcnt ctl rd ra) (BitVec.ofNat 64 x.reads))
  ∧ (c < 3072 → ¬ own → y (.tcnt ctl rd ra) (BitVec.allOnes 64)))
  ∧ (∀ (s : State) (ctl : BitVec 2) (rd ra : BitVec 5) (num : BitVec 14),
  let c := s.focus
  let x := s.cur
  let a := x.sreg ra
  let reads (n : BitVec 14) (v : Word) : Prop := Yields s (.mfs ctl rd n) ctl (.sreg rd) v 2 v 0 noLinks
  let next : Word := match x.fifo with
    | [] => 0
    | u :: _ => BitVec.ofNat 64 (2 ^ 63 + u.toNat * 2 ^ 48 + (coreWindow c + 0x34_0000 + u.toNat * 0x1_0000))
  let pops (i : Instr) : Prop := ∃ t, exec i s = .next t
    ∧ Issued s t ctl 0 (x.pc + 4) { inFlight x i (.sreg rd) next 2 next 0 noLinks with fifo := x.fifo.tail }
  (num ≠ 0x100 → reads num (sysregValue s c s.curStrand num.toNat))
  ∧ reads 0x000 (BitVec.ofNat 64 (c / 768 * 2 ^ 12 + (c / 8 % 96) * 2 ^ 5 + (c % 8) * 4 + s.curStrand.toNat))
  ∧ reads 0x001 (BitVec.ofNat 64 (0x1000_0000_0000 + c / 768 * 2 ^ 32 + (c / 8 % 96) * 2 ^ 25 + (c % 8) * 2 ^ 22))
  ∧ reads 0x002 (BitVec.ofNat 64 s.tick) ∧ reads 0x003 (BitVec.ofNat 64 x.slots)
  ∧ (∀ j : Fin 8, reads (BitVec.ofNat 14 (8 + j.val)) (x.wid[j].setWidth 64) ∧ reads (BitVec.ofNat 14 (16 + j.val)) (x.wext[j].setWidth 64)
      ∧ reads (BitVec.ofNat 14 (32 + j.val)) x.lparam[j])
  ∧ reads 0x040 (x.fflags.setWidth 64) ∧ reads 0x101 (x.rstrand.setWidth 64) ∧ reads 0x102 (x.rstat.setWidth 64)
  ∧ reads 0x300 (x.limit.setWidth 64) ∧ reads 0x340 (s.part (s.partOf c)).lrbase ∧ reads 0x341 (x.lridx.setWidth 64)
  ∧ pops (.mfs ctl rd 0x100) ∧ pops (.stopnextRead ctl rd)
  ∧ (num ∈ [(0x040 : BitVec 14), 0x101, 0x300] → Yields s (.mts ctl ra num) ctl (.sysreg num a) a 2 a 0 (x.linkOf ra 0))
  ∧ (num ∉ [(0x040 : BitVec 14), 0x101, 0x300] → FaultsAtIssue s (.mts ctl ra num) ctl ⟨.priv, 0, 0⟩ a 0))

/-- R44, R299, R307, R66: SYSC and TRAP stop the strand at the word after them, with their number; BRK at its own address; HALT after
every write in flight has landed; an illegal word with ILLEGAL, its CTL mark having no effect. Each takes one own slot and changes
nothing else; the stop is delivered later.
R66, R123, R325: END lands every write in flight, and the strand has ended: it issues nothing more, its lease is 0 and its FIFO empty;
registers and memory stay. With no lease, no waiting lease requests and an empty FIFO only its own strand, the team's mask and, when
nothing of the core is left to stop, the core's cut request change (R331).
That a word's issue slot is counted is log entry 33, DESIGN CHOICE. -/
def Obligations.StopWords : Prop :=
  (∀ (s : State) (ctl : BitVec 2) (num : BitVec 14) (w : Code),
  let x := s.cur
  let stops (i : Instr) (pc : Word) (y : Strand) (why : Cause) (n : BitVec 14) : Prop :=
    ∃ t, exec i s = .next t ∧ Issued s t ctl 0 pc (stopped y (stopAt s s.focus ⟨why, 0, 0⟩ (.issue none) n))
  stops (.sysc ctl num) (x.pc + 4) x .sysc num ∧ stops (.trap ctl num) (x.pc + 4) x .trap num
  ∧ stops (.brk ctl) x.pc x .brk 0
  ∧ stops (.halt ctl) (x.pc + 4) { (sortBy (·.due) x.flight).foldl (fun y l => y.write l.dest l.val) x with flight := [] } .halt 0
  ∧ FaultsAtIssue s (.illegalSWord w) 0 ⟨.illegal, 0, 0⟩ 0 0)
  ∧ (∀ (s : State) (ctl : BitVec 2) (mask : BitVec 3),
  let x := s.cur
  let y : Strand := { (sortBy (·.due) x.flight).foldl (fun y l => y.write l.dest l.val) x with flight := [] }
  let k0 := issuedCore s ctl 0 (x.pc + 4) { y with life := .ended, done := true }
  let k : Core := { k0 with cut := k0.cut
      && !k0.strands.toList.all (fun z => (z.life ≠ .running && z.life ≠ .resuming && z.stop.isNone) || z.cutDone) }
  let quiet := x.lease = 0 ∧ x.fifo = [] ∧ (s.locked = true ∨ (s.die (dieOf s.focus)).queue = [])
  ∃ t, exec (.endK ctl mask) s = .next t
    ∧ t.cur.life = .ended ∧ t.cur.done = true ∧ t.cur.flight = [] ∧ t.cur.s = y.s ∧ t.cur.g = y.g ∧ t.cur.v = x.v ∧ t.cur.fifo = []
    ∧ t.cur.slots = x.slots + 1 ∧ t.cur.pc = x.pc + 4 ∧ SameBytes s t
    ∧ (quiet → OnlyCore s t s.focus { k with team := k.team.map (fun m => { m with masks := m.masks.set s.curStrand.toNat mask s.curStrand.isLt }) }))

/-- R308 to R310, R319: RESUME by a strand that is not its team's handler stops with PRIV; by the handler, with no stop of its own in RSTRAND,
it sets RSTAT to 1. Otherwise it checks the record area, as the handler's stores have reached it (R319): with records that fail, RSTAT is
2 and the first that failed; with records that pass, RSTAT is 0, RSTRAND.V is cleared, and the strand goes on from the PC, own slot and
empty slots of its descriptor, its records to be reissued first with their faults cleared, or with DISCARD it has ended, its entry records
retired. Records that pass have R309's form.
That a word's issue slot is counted is log entry 33, DESIGN CHOICE. -/
def Obligations.ResumeReturns : Prop := ∀ (s : State) (ctl : BitVec 2) (l : List Rec) (n : Nat) (r : Rec),
  let c := s.focus
  let h := s.curStrand
  let x := s.cur
  let t : BitVec 2 := x.rstrand.extractLsb' 0 2
  let sn := s.onStrand c t (fun z => { z with area := s.seenArea c h t })
  let y := sn.strand c t
  let word (off n : Nat) : Nat := leValue (Memory.bytes y.area off n)
  let block (en : Eng) (b : Nat) : Bool := (blockOf sn (s.partOf c) y.lridx en b).isSome
  let held := x.rstrand.getLsbD 2 = true ∧ y.recv = some h ∧ y.life = .stopped ∧ y.stop = none
  let drawn : State := { s with freeIx := s.freeIx + x.stores.length }
  let passed (u : State) : Prop := exec (.resume ctl) s = .next u ∧ u.cur.rstat = 0 ∧ u.cur.rstrand = x.rstrand &&& 0xB
    ∧ u.cur.slots = x.slots + 1 ∧ u.cur.fifo = x.fifo.filter (fun f => f ≠ t)
  let count (k : Nat) : Nat := (l.filter (fun r => r.kind.toNat = k)).length
  let mask := r.prog.toNat / 2 ^ 16
  let run := r.word.getLsbD 8
  (s.isHandler c h = false → ∃ u, exec (.resume ctl) s = .next u
    ∧ Issued s u ctl 0 (x.pc + 4) (stopped x (stopAt s c ⟨.priv, 0, 0⟩ (.issue none))))
  ∧ (s.isHandler c h = true → ¬ held → ∃ u, exec (.resume ctl) s = .next u ∧ Issued s u ctl 0 (x.pc + 4) { x with rstat := 1 })
  ∧ (s.isHandler c h = true → held → y.checkList block = .error n →
    ∃ u, exec (.resume ctl) s = .next u ∧ Issued drawn u ctl 0 (x.pc + 4) { x with rstat := BitVec.ofNat 24 (2 + n * 256) })
  ∧ (s.isHandler c h = true → held → h ≠ t → x.rstrand.getLsbD 3 = false → y.checkList block = .ok l →
    ∃ u, passed u
      ∧ u.strand c t = { y with life := .resuming, reissue := l.map (fun r => { r with flt := false, cause := 0, sub := 0 })
                                area := Memory.store y.area 0 [2], pc := BitVec.ofNat 64 (word 8 8), slots := word 16 8, owed := word 24 1 }
      ∧ (∀ d r, d ≠ c ∨ (r ≠ t ∧ r ≠ h) → u.strand d r = s.strand d r) ∧ SameBytes s u)
  ∧ (s.isHandler c h = true → held → h ≠ t → x.rstrand.getLsbD 3 = true → y.checkList block = .ok l →
    ∃ u, passed u ∧ let z := u.strand c t
      z.life = .ended ∧ z.done = true ∧ z.reissue = [] ∧ Memory.byte z.area 0 = 0 ∧ z.s = y.s ∧ ((s.die (dieOf c)).queue = [] → z.lease = 0)
      ∧ z.cntV = y.cntV - count 3 ∧ z.cntM = y.cntM - count 4 ∧ z.cntX = y.cntX - count 5)
  ∧ (y.checkList block = .ok l → word 0 1 = 1 ∧ l.length = word 4 2 ∧ (l.map (fun r => 32 + r.ext.length)).sum ≤ 65472 ∧
      (l[n]? = some r →
        r.kind.toNat ≤ 5 ∧ r.seq = n
        ∧ (r.link = 0xFFFF ∧ r.lop = 0 ∨ r.kind = 0 ∧ r.lop ≠ 0 ∧ r.link < n ∧ ∃ q, l[r.link]? = some q ∧ q.kind = 0
            ∧ ∃ i rd, decodeS q.word = .ok i ∧ loadDest i = some rd)
        ∧ (r.kind = 0 → r.ext.length ≤ 32) ∧ (r.kind = 2 → r.ext = [] ∧ r.prog = 0 ∧ r.opa = 0 ∧ r.opb = 0)
        ∧ (r.kind = 1 → ∃ v, v ≤ 32 ∧ r.ext.length = v + 512 * (List.range 15).countP (fun i => mask.testBit i) + 128 * (mask / 2 ^ 15))
        ∧ (3 ≤ r.kind.toNat → r.word.toNat < 1024
            ∧ block (if r.kind = 3 then .v else if r.kind = 4 then .m else .x) (r.word.toNat % 256) = true
            ∧ (run = false → r.ext.length = 32) ∧ (run = true → r.kind = 3 → r.ext.length = 96)
            ∧ (run = true → r.kind = 5 → r.ext.length = 160)
            ∧ (run = true → ∀ q ∈ l.take n, q.kind ≠ r.kind))))
  ∧ (word 0 1 ≠ 1 → y.checkList block = .error 0)

/-- R14, R59, R104, R110, R233, R333: DISP pushes an entry with its block, the two parameters, the whole sync slot, for the ME the strand's
tiles, the latest release fence at core scope or wider that has not retired, and with none the acquires its strand's entries come after,
behind the entries of its engine's queue, and counts it; it waits while the queue is full; a block that does not exist stops
with ILLEGAL, an armed breakpoint with BRK before the word.
That a word's issue slot is counted is log entry 33, DESIGN CHOICE. -/
def Obligations.DispatchPushes : Prop := ∀ (s : State) (ctl en : BitVec 2) (blk : BitVec 8) (ra rb : BitVec 5) (ss : BitVec 4)
    (base : Word) (words start : Nat),
  let k := s.core s.focus
  let x := s.cur
  let i := Instr.disp ctl en blk ra rb ss
  let depth := if en = 2 then 32 else 16
  let queue := if en = 0 then k.vq else if en = 1 then k.mq else k.xq
  let unit : Eng := if en = 0 then .v else if en = 1 then .m else .x
  let after := ((x.fences.filter (fun f => match f.op with | .fence _ k sc => decide (k ≠ 0 ∧ sc ≠ 0) | _ => false)).map (·.id)).foldl max 0
  let e : Entry :=
    { blk := blk, p0 := x.sreg ra, p1 := x.sreg rb, sync := x.sync[ss.toNat]'ss.isLt, strand := s.curStrand
      map := if en = 1 then x.accmap else 0, launch := x.lridx, base := base, words := words, start := start
      after := after, since := if after = 0 then some x.since else none }
  let counted : Strand :=
    { x with cntV := x.cntV + (if en = 0 then 1 else 0), cntM := x.cntM + (if en = 1 then 1 else 0), cntX := x.cntX + (if en = 2 then 1 else 0) }
  let armed (w : Word) : Prop := w.getLsbD 63 = true ∧ w.getLsbD (12 + s.curStrand.toNat) = true ∧ w.extractLsb' 8 2 = en ∧ w.extractLsb' 0 8 = blk
  let place := blockOf s (s.partOf s.focus) x.lridx unit blk.toNat
  en ≠ 3 →
  (depth ≤ queue.length → exec i s = .next s)
  ∧ (queue.length < depth → place = none → FaultsAtIssue s i 0 ⟨.illegal, 0, 0⟩ 0 0)
  ∧ (queue.length < depth → place = some (base, words, start) → (x.noBrk = true ∨ ∀ w ∈ k.brkb.toList, ¬ armed w) →
    ∃ u t, exec i s = .next t ∧ OnlyCore s u s.focus { k with vq := if en = 0 then k.vq ++ [e] else k.vq
                                                              mq := if en = 1 then k.mq ++ [e] else k.mq
                                                              xq := if en = 2 then k.xq ++ [e] else k.xq }
      ∧ IssuedOver s u t ctl 0 (x.pc + 4) counted)
  ∧ (queue.length < depth → place ≠ none → x.noBrk = false → (∃ w ∈ k.brkb.toList, armed w) →
    ∃ t, exec i s = .next t ∧ OnlyCore s t s.focus { k with
      strands := k.strands.set k.cur.toNat (stopped x (stopAt s s.focus ⟨.brk, 0, 0⟩ .outside)) k.cur.isLt })

/-- R324, R325, R321, R322: PWQ stops with POWER on a lease of 0, one over 48 units, a second lease of its strand, or a core's sum over 48;
otherwise, with room in the die's budget and no request waiting, it is granted at once, and the core's bucket is full at the new level; in
locked-clock mode, or without that room, its request waits at the die, no own slot passing, until it is granted. PWREL
gives the lease back, and without one does nothing.
R327, R328, R331: ENTER pushes its number on the strand's region stack, LEAVE takes the newest off, and nothing else changes with tracing
off; the stack keeps eight numbers and a depth that stays from 0 to 255. On a core asked to cut at its next region marks the strand stops
with DEBUG, unless the request has stopped it before. With tracing on, the mark writes a record of 16 bytes, the tick, the core, the strand, the kind and the stack as it then stands,
and HEAD counts it; a record that cannot be written sets ERR.
That a word's issue slot is counted is log entry 33, DESIGN CHOICE. -/
def Obligations.LeasesAndRegions : Prop :=
  (∀ (s : State) (ctl : BitVec 2) (ra : BitVec 5),
  let c := s.focus
  let k := s.core c
  let x := s.cur
  let n := (x.sreg ra).toNat
  let sum := (k.strands.toList.map (·.lease)).sum
  let bad := n = 0 ∨ 48 < n ∨ x.lease ≠ 0 ∨ 48 < sum - x.lease + n
  let level (m : Nat) : Nat := if m = 0 then 12 else m
  let leased (m : Nat) : Core :=
    { k with strands := k.strands.set k.cur.toNat { x with lease := m } k.cur.isLt
             balance := if level (sum - x.lease + m) = level sum then k.balance else 64 * level (sum - x.lease + m) }
  (x.request = none → bad → FaultsAtIssue s (.pwq ctl ra) ctl ⟨.power, 0, 0⟩ (x.sreg ra) 0)
  ∧ (x.request = none → ¬ bad → c < 3072 → s.locked = false → (s.die (dieOf c)).queue = [] → s.leased (dieOf c) + n ≤ (s.die (dieOf c)).budget →
    ∃ u t, exec (.pwq ctl ra) s = .next t ∧ OnlyCore s u c (leased n) ∧ IssuedOver s u t ctl 0 (x.pc + 4) { x with lease := n })
  ∧ (x.request = none → ¬ bad → c < 3072 →
      (s.locked = true ∨ ((s.die (dieOf c)).queue = [] ∧ (s.die (dieOf c)).budget < s.leased (dieOf c) + n)) →
    ∃ t, exec (.pwq ctl ra) s = .next t ∧ t.cur.slots = x.slots ∧ t.cur.pc = x.pc ∧ t.cur.lease = x.lease
      ∧ t.cur.request = some { talc := false, opa := x.sreg ra, tick := s.tick }
      ∧ (t.die (dieOf c)).queue = (s.die (dieOf c)).queue ++ [{ core := c, strand := s.curStrand, n := n, tick := s.tick }])
  ∧ (∀ g, x.request = some g → (g.granted = none → exec (.pwq ctl ra) s = .next s)
      ∧ (g.granted ≠ none → ∃ u t, exec (.pwq ctl ra) s = .next t
          ∧ OnlyCore s u c { k with strands := k.strands.set k.cur.toNat { x with request := none } k.cur.isLt }
          ∧ IssuedOver s u t ctl 0 (x.pc + 4) { x with request := none }))
  ∧ (x.lease = 0 → Passes s (.pwrel ctl) ctl)
  ∧ (x.lease ≠ 0 → (s.die (dieOf c)).queue = [] →
    ∃ u t, exec (.pwrel ctl) s = .next t ∧ OnlyCore s u c (leased 0) ∧ IssuedOver s u t ctl 0 (x.pc + 4) { x with lease := 0 }))
  ∧ (∀ (s : State) (ctl : BitVec 2) (num : BitVec 14) (pa : Nat),
  let x := s.cur
  let c := s.focus
  let k := s.core c
  let ends (y : Strand) : Strand := if k.cut = true ∧ x.cutDone = false then stopped y (stopAt s c ⟨.debug, 0, 0⟩ .outside) else y
  let pushed : Strand := { x with region := if x.depth < 8 then num :: x.region else x.region, depth := Nat.min 255 (x.depth + 1) }
  let popped : Strand := { x with region := if x.depth = 0 ∨ 8 < x.depth then x.region else x.region.tail, depth := x.depth - 1 }
  let on := k.tren = true ∧ k.trerr = false ∧ 8 ≤ k.trlog.toNat ∧ k.trlog.toNat ≤ 20 ∧ k.cut = false
  let at_ := k.trbase.toNat + 16 * (k.trhead.toNat % 2 ^ k.trlog.toNat)
  let stack (y : Strand) : Nat := y.depth * 2 ^ 28 + (if y.depth < 2 then 0 else (y.region.tail.headD 0).toNat * 2 ^ 14)
    + (if y.depth = 0 then 0 else (y.region.headD 0).toNat)
  let record (kind : Nat) (y : Strand) : List Byte := leBytes 8 s.tick
    ++ leBytes 8 (c * 2 ^ 40 + s.curStrand.toNat * 2 ^ 38 + kind * 2 ^ 36 + stack y % 2 ^ 36)
  let traced (i : Instr) (kind : Nat) (y : Strand) : Prop := ∃ mid t, exec i s = .next t ∧ Issued s mid ctl 0 (x.pc + 4) y
    ∧ t.core c = { mid.core c with trhead := k.trhead + 1 } ∧ (∀ d, d ≠ c → t.core d = mid.core d)
    ∧ { t with cores := s.cores, clusters := s.clusters, mem := s.mem, resvs := s.resvs } = s
    ∧ ∀ a, t.seen (c / 8) a = if pa ≤ a ∧ a < pa + 16 then (record kind y).getD (a - pa) 0 else s.seen (c / 8) a
  let fails (i : Instr) (y : Strand) : Prop := ∃ t, exec i s = .next t
    ∧ OnlyCore s t c { issuedCore s ctl 0 (x.pc + 4) y with trerr := true }
  (k.tren = false →
    (∃ t, exec (.enter ctl num) s = .next t ∧ Issued s t ctl 0 (x.pc + 4) (ends pushed))
    ∧ (∃ t, exec (.leave ctl) s = .next t ∧ Issued s t ctl 0 (x.pc + 4) (ends popped)))
  ∧ (on → resolve s c at_ .store true = .ok pa → isHbm pa = true →
    traced (.enter ctl num) 0 pushed ∧ traced (.leave ctl) 1 popped)
  ∧ (on → (∃ w, resolve s c at_ .store true = .error w) → fails (.enter ctl num) pushed ∧ fails (.leave ctl) popped))

-- Vector words

/-- R126, R131, R132, R135, R138 to R143, R322: the lanewise words whose operands are vector registers and immediates. ty is the strand's
TYPE. Each issues where its row's checks of TYPE and the tags hold, with va, vb and vc captured in this order under k[KSEL] and its result
due after the latency of its class, and stops its entry with FORMAT elsewhere. That it waits while its record would not fit beside
those of the entry is log entry 24, DEDUCED. -/
def Obligations.LanewiseWords : Prop := ∀ (s : State) (k : Core) (r : VRun) (e : Bool) (vd va vb vc : BitVec 5) (kd kn bn : BitVec 3)
    (cond : BitVec 4) (imm : BitVec 14) (sh : BitVec 5),
  let x := k.strand r.entry.strand
  let ty := x.vshape.toNat % 16
  let tg (v : BitVec 5) : Nat := (x.vtag v).toNat
  let num := 1 ≤ ty ∧ ty ≤ 11
  let int := 1 ≤ ty ∧ ty ≤ 8
  let flt := 9 ≤ ty ∧ ty ≤ 11
  let two := tg va = ty ∧ tg vb = ty
  let raw (v : BitVec 5) : Prop := tg v = 0 ∨ tg v = ty
  let w (i : Instr) (lat : Nat) (regs : List (BitVec 5)) (ok : Prop) : Prop := FixedV s k r i e 4 lat 0 regs ok
  w (.vadd e vd va vb) (if 9 ≤ ty then 3 else 2) [va, vb] (num ∧ two) ∧ w (.vsub e vd va vb) (if 9 ≤ ty then 3 else 2) [va, vb] (num ∧ two)
  ∧ w (.vmul e vd va vb) 4 [va, vb] (num ∧ two) ∧ w (.vmulh e vd va vb) 4 [va, vb] (int ∧ two)
  ∧ w (.vfma e vd va vb vc) 4 [va, vb, vc] (num ∧ two ∧ tg vc = ty) ∧ w (.vfms e vd va vb vc) 4 [va, vb, vc] (num ∧ two ∧ tg vc = ty)
  ∧ w (.vfnma e vd va vb vc) 4 [va, vb, vc] (num ∧ two ∧ tg vc = ty)
  ∧ w (.vmin e vd va vb) 2 [va, vb] (num ∧ two) ∧ w (.vmax e vd va vb) 2 [va, vb] (num ∧ two)
  ∧ w (.vabs e vd va) 2 [va] (num ∧ tg va = ty) ∧ w (.vneg e vd va) 2 [va] (num ∧ tg va = ty)
  ∧ w (.vadds e vd va vb) 2 [va, vb] (int ∧ two) ∧ w (.vsubs e vd va vb) 2 [va, vb] (int ∧ two) ∧ w (.vavg e vd va vb) 2 [va, vb] (int ∧ two)
  ∧ w (.vand e vd va vb) 2 [va, vb] (raw va ∧ raw vb) ∧ w (.vor e vd va vb) 2 [va, vb] (raw va ∧ raw vb)
  ∧ w (.vxor e vd va vb) 2 [va, vb] (raw va ∧ raw vb) ∧ w (.vandn e vd va vb) 2 [va, vb] (raw va ∧ raw vb) ∧ w (.vnot e vd va) 2 [va] (raw va)
  ∧ w (.vshl e vd va vb) 2 [va, vb] (int ∧ two) ∧ w (.vshr e vd va vb) 2 [va, vb] (int ∧ two) ∧ w (.vsra e vd va vb) 2 [va, vb] (int ∧ two)
  ∧ w (.vmov e vd va) 2 [va] True ∧ w (.vsel e vd va vb kn) 2 [va, vb] True ∧ w (.vcmp e kd va vb cond) 2 [va, vb] (num ∧ two)
  ∧ w (.vclz e vd va) 2 [va] (int ∧ tg va = ty) ∧ w (.vpopc e vd va) 2 [va] (int ∧ tg va = ty) ∧ w (.vcpys e vd va vb) 2 [va, vb] (flt ∧ two)
  ∧ w (.vaddi e vd va imm) 2 [va] (int ∧ tg va = ty) ∧ w (.vmuli e vd va imm) 4 [va] (int ∧ tg va = ty)
  ∧ w (.vandi e vd va imm) 2 [va] (raw va) ∧ w (.vori e vd va imm) 2 [va] (raw va) ∧ w (.vxori e vd va imm) 2 [va] (raw va)
  ∧ w (.vshli e vd va sh) 2 [va] (int ∧ tg va = ty) ∧ w (.vshri e vd va sh) 2 [va] (int ∧ tg va = ty)
  ∧ w (.vsrai e vd va sh) 2 [va] (int ∧ tg va = ty)
  ∧ w (.vspli e vd imm) 2 [] (ty ≤ 11) ∧ w (.viota e vd imm) 2 [] (ty ≤ 11) ∧ w (.vsplb e vd bn) 2 [] True
  ∧ (capturedV k r (.vsplb e vd bn)).b = r.b[bn.toNat]'bn.isLt

/-- R131, R132, R144 to R148, R163 to R165, R322: the conversions, permutes, reductions and special functions, likewise; a group of
registers begins at a multiple of the ratio q, and the special functions cost 8. VDOT4 draws the free values of log entry 23; its record
names va, vb and vd by log entry 22, DEDUCED, and the wait for room is log entry 24, DEDUCED. -/
def Obligations.CrossLaneWords : Prop := ∀ (s : State) (k : Core) (r : VRun) (e : Bool) (vd va vb : BitVec 5) (src : BitVec 4)
    (lane : BitVec 10),
  let x := k.strand r.entry.strand
  let ty := x.vshape.toNat % 16
  let tg (v : BitVec 5) : Nat := (x.vtag v).toNat
  let num := 1 ≤ ty ∧ ty ≤ 11
  let flt := 9 ≤ ty ∧ ty ≤ 11
  let raw := tg va = 0 ∨ tg va = ty
  let bits : Nat → Nat := tWidth
  let pairs := [(1, 3), (1, 5), (12, 3), (12, 5), (2, 4), (2, 6), (3, 5), (3, 7), (13, 5), (13, 7), (4, 6), (4, 8), (5, 7), (14, 7),
    (6, 8), (9, 11), (10, 11)]
  let q (wide narrow : Nat) : Nat := bits wide / bits narrow
  let whole (n : Nat) : Prop := ∀ j, j < n → tg (va + BitVec.ofNat 5 j) = tg va
  let scaled (f b : Nat) : Prop := 9 ≤ f ∧ f ≤ 11 ∧ 12 ≤ b ∧ b ≤ 14 ∧ q f b ∈ [1, 2, 4]
  let index := tg vb = 0 ∨ (1 ≤ tg vb ∧ tg vb ≤ 8 ∧ bits (tg vb) = bits ty)
  let group (n : Nat) : List (BitVec 5) := (List.range n).map (fun j => va + BitVec.ofNat 5 j)
  let w (i : Instr) (cost lat : Nat) (regs : List (BitVec 5)) (ok : Prop) : Prop := FixedV s k r i e cost lat 0 regs ok
  w (.vcvt e vd va src) 4 3 [va] (ty ≠ 0 ∧ ty ≠ 15 ∧ bits ty = bits src.toNat ∧ tg va = src.toNat)
  ∧ w (.vwid e vd va) 4 3 [va] ((tg va, ty) ∈ pairs ∧ vd.toNat % q ty (tg va) = 0)
  ∧ w (.vnar e vd va) 4 3 (group (q (tg va) ty)) ((ty, tg va) ∈ pairs ∧ va.toNat % q (tg va) ty = 0 ∧ whole (q (tg va) ty))
  ∧ w (.vqnt e vd va vb) 4 3 (group (q (tg va) ty) ++ [vb]) (scaled (tg va) ty ∧ va.toNat % q (tg va) ty = 0 ∧ whole (q (tg va) ty) ∧ tg vb = 11)
  ∧ w (.vdqn e vd va vb) 4 3 [va, vb] (scaled ty (tg va) ∧ vd.toNat % q ty (tg va) = 0 ∧ tg vb = 11)
  ∧ w (.vrnd e vd va) 4 3 [va] (flt ∧ tg va = ty)
  ∧ w (.vperm e vd va vb) 4 4 [va, vb] (8 ≤ bits ty ∧ raw ∧ index) ∧ w (.vbcst e vd va lane) 4 4 [va] raw
  ∧ w (.vslup e vd va lane) 4 4 [va] raw ∧ w (.vsldn e vd va lane) 4 4 [va] raw ∧ w (.vrev e vd va) 4 4 [va] raw
  ∧ w (.vcmpr e vd va) 4 4 [va] raw ∧ w (.vexpn e vd va) 4 4 [va] raw
  ∧ w (.vscan e vd va) 4 6 [va] (num ∧ tg va = ty) ∧ w (.vrsum e vd va) 4 6 [va] (num ∧ tg va = ty)
  ∧ w (.vrmin e vd va) 4 6 [va] (num ∧ tg va = ty) ∧ w (.vrmax e vd va) 4 6 [va] (num ∧ tg va = ty)
  ∧ (capturedV k r (.vdot4 e vd va vb)).tagB = x.vtag vb
  ∧ FixedV s k r (.vdot4 e vd va vb) e 4 6 1 [va, vb, vd] (tg vd = ty ∧
      ((ty = 7 ∧ tg va ∈ [3, 4, 13] ∧ tg vb ∈ [3, 4, 13]) ∨ (ty = 11 ∧ tg va ∈ [9, 10] ∧ tg vb ∈ [9, 10])))
  ∧ w (.vrcp e vd va) 8 12 [va] (flt ∧ tg va = ty) ∧ w (.vrsq e vd va) 8 12 [va] (flt ∧ tg va = ty)
  ∧ w (.vsqrt e vd va) 8 16 [va] (flt ∧ tg va = ty) ∧ w (.vdivf e vd va vb) 8 16 [va, vb] (flt ∧ tg va = ty ∧ tg vb = ty)
  ∧ w (.vexp2 e vd va) 8 14 [va] (flt ∧ tg va = ty) ∧ w (.vlog2 e vd va) 8 14 [va] (flt ∧ tg va = ty)
  ∧ w (.vsin e vd va) 8 18 [va] (flt ∧ tg va = ty) ∧ w (.vtanh e vd va) 8 18 [va] (flt ∧ tg va = ty)

/-- R129, R131, R132, R149, R150, R157, R160: the words of masks, b-registers and vshape issue under every type, with KPOP asking for a
16-bit or 32-bit integer type and VSHP and VSHPB for a legal shape, and have their result, which gives states, due two entry slots later;
VNOP writes nothing; TKW waits, with no slot passing, while a token it names counts an operation; VMARK enters the order of the memory
words outstanding, with the shape and end bit of its record; that it takes no place in VLQ or VSQ and issues however full they are is
log entry 36, DEDUCED. The flags that VFLG reads are FFLAGS with those of the entry's operations that have landed; after a resume these
start at none again (log entry 98, DESIGN CHOICE). KPOP under VL 0 is log entry 80, DESIGN CHOICE; the wait for room in the records is
log entry 24, DEDUCED. -/
def Obligations.MaskAndControlWords : Prop := ∀ (s : State) (k : Core) (r : VRun) (e : Bool) (vd : BitVec 5) (kd ka kb bn ba : BitVec 3)
    (imm : BitVec 21) (mask : BitVec 8),
  let x := k.strand r.entry.strand
  let ty := x.vshape.toNat % 16
  let b (n : BitVec 3) : Word := r.b[n.toNat]'n.isLt
  let kr (n : BitVec 3) : Mask := if n = 0 then BitVec.allOnes 1024 else x.k[n.toNat]'n.isLt
  let vl := x.vshape.toNat / 16 % 2048
  let shape := (b bn).toNat / 2 ^ 28 = 0 ∧ (b bn).toNat / 16 % 2048 ≤ 1024
  let w (i : Instr) (ok : Prop) (v : VWrite) : Prop :=
    FixedV s k r i e 4 2 0 [] ok ∧ vCompute i (capturedV k r i) { x with fflags := x.fflags ||| r.flags } s.freeIx = ([v], 0)
  let room := MayIssueV s k r ∧ r.recordsFull 0 = false ∧ Affords k 0 4
  let clear := ∀ n : Fin 8, mask.getLsbD n.val = true → (s.strand s.focus r.entry.strand).tok[n] = 0
  w (.kand e kd ka kb) True (.mask kd (BitVec.allOnes 1024) (kr ka &&& kr kb))
  ∧ w (.kor e kd ka kb) True (.mask kd (BitVec.allOnes 1024) (kr ka ||| kr kb))
  ∧ w (.kxor e kd ka kb) True (.mask kd (BitVec.allOnes 1024) (kr ka ^^^ kr kb))
  ∧ w (.kandn e kd ka kb) True (.mask kd (BitVec.allOnes 1024) (kr ka &&& ~~~(kr kb)))
  ∧ w (.knot e kd ka) True (.mask kd (BitVec.allOnes 1024) (~~~(kr ka)))
  ∧ w (.kset e kd) True (.mask kd (BitVec.allOnes 1024) (BitVec.ofNat 1024 (2 ^ min vl (4096 / tWidth ty) - 1)))
  ∧ w (.kmov e kd ka) True (.mask kd (BitVec.allOnes 1024) (kr ka))
  ∧ FixedV s k r (.kpop e vd ka) e 4 2 0 [] (5 ≤ ty ∧ ty ≤ 8)
  ∧ w (.vbli e bn imm) True (.breg bn (imm.signExtend 64))
  ∧ w (.vbadd e bn imm) True (.breg bn (b bn + imm.signExtend 64))
  ∧ w (.vbmov e bn ba) True (.breg bn (b ba))
  ∧ w (.vshp e bn) shape (.shape (BitVec.ofNat 32 ((b bn).toNat % 2 ^ 24)))
  ∧ w (.vshpb e bn) shape (.shape (BitVec.ofNat 32 ((b bn).toNat % 2 ^ 28)))
  ∧ w (.vflg e bn) True (.breg bn (BitVec.ofNat 64 (x.fflags ||| r.flags).toNat))
  ∧ (room → ∃ t, exec (.vnop e) s = .next t ∧ IssuedV s t k 4 (afterV r e))
  ∧ (room → clear → ∃ t, exec (.tkw e mask) s = .next t ∧ IssuedV s t k 4 (afterV r e))
  ∧ (MayIssueV s k r → ¬ clear → exec (.tkw e mask) s = .next s)
  ∧ (room → ∃ t, exec (.vmark e) s = .next t ∧ IssuedV s t k 4
      (if r.vlq = [] ∧ r.vsq = [] then afterV r e else { afterV r e with marks := r.marks ++ [{ seq := r.seq, shape := x.vshape, last := e }] }))

/-- R17, R78, R126, R130, R133, R134: a trailing slot of an ended V entry lands the writes due by it, those of an earlier slot first and
those of one slot in issue order, and passes while writes stay in flight. A write lands as the selected bits of its register, with
its tag, of its mask (k0 takes none) or b-register, or of vshape, and its flags are ORed into FFLAGS and among the entry's (R129). Where a
load, an atomic or a predicate of the same destination has landed meanwhile, each lane and the tag keep the one value or the other
(R158, R162). A core quiet under a lull halt passes no slot (log entry 69, DEDUCED). -/
def Obligations.VectorWritesLand : Prop := ∀ (s : State) (c : Nat) (r : VRun) (k : Core) (t : BitVec 2),
  let k0 := s.core c
  let late := r.flight.filter (fun w => r.slot < w.due)
  let due := sortBy (·.due) (r.flight.filter (fun w => w.due ≤ r.slot))
  let land (k : Core) (w : VLanding) : Core :=
    let ws := w.writes.map (fun v => v.meets w.crossed (k.strand r.entry.strand).vtag (Config.freeLand r.draw w.seq))
    let k1 := ws.foldl (fun k v => k.applyV r.entry.strand v) k
    let x := k1.strand r.entry.strand
    { k1 with
      strands := k1.strands.set r.entry.strand.toNat { x with fflags := x.fflags ||| w.flags } r.entry.strand.isLt
      vrun := k1.vrun.map (fun u => { u with flags := u.flags ||| w.flags }.fixedLanded (overOf ws)) }
  let k1 : Core := due.foldl land { k0 with vrun := some { r with flight := late } }
  let x := k.strand t
  (k0.vrun = some r → r.ended = true → r.flt = none → (s.strand c r.entry.strand).stop = none → ¬ Quiet s c →
    ∃ u, exec (.fixedLatencyWriteLands c 4) s = .next u ∧ OnlyCore s u c
      { k1 with vrun := k1.vrun.map (fun r => if late = [] then r else { r with slot := r.slot + 1 }) })
  ∧ (Quiet s c → exec (.fixedLatencyWriteLands c 4) s = .next s)
  ∧ (∀ (v : BitVec 5) (sel data : VReg) (tag : BitVec 4), let y := (k.applyV t (.vreg v sel data tag)).strand t
      { y with reissue := x.reissue }
        = { x with v := x.v.set v.toNat ((x.vreg v &&& ~~~sel) ||| (data &&& sel)) v.isLt, tag := x.tag.set v.toNat tag v.isLt })
  ∧ (∀ (n : BitVec 3) (sel data : Mask), let y := (k.applyV t (.mask n sel data)).strand t
      { y with reissue := x.reissue } = if n = 0 then x else { x with k := x.k.set n.toNat ((x.kreg n &&& ~~~sel) ||| (data &&& sel)) n.isLt })
  ∧ (∀ (n : BitVec 3) (v : Word), (k.applyV t (.breg n v)).vrun = k.vrun.map (fun r => { r with b := r.b.set n.toNat v n.isLt }))
  ∧ (∀ v : BitVec 32, (k.applyV t (.shape v)).strand t = { x with vshape := v })
  ∧ (∀ (v : BitVec 5) (sel data : VReg) (tag : BitVec 4) (o : Over) (f : Nat → Bool), ∃ sel' tag',
      (VWrite.vreg v sel data tag).meets o x.vtag f = .vreg v sel' data tag'
      ∧ (∀ i, sel'.getLsbD i = true → sel.getLsbD i = true)
      ∧ (∀ i, sel.getLsbD i = true → sel'.getLsbD i = false → (o.bits v).getLsbD i = true)
      ∧ (tag' = tag ∨ (o.tag v = true ∧ tag' = x.vtag v)))

/-- R130, R135, R142, R143: the integer lane results. a, b and c are the lane patterns of the operands as captured; za, zb and zc their
values under TYPE's signedness; m reduces mod 2^w. No flag is set, and inactive lanes keep their values.
R137 to R140, R142, R143: the words that act on lane patterns under every TYPE, VSEL and VSPLB among them, and the sign words on
floats: none of them sets a flag. -/
def Obligations.IntegerLanes : Prop :=
  (∀ (k : Core) (t : BitVec 2) (p : Capture) (x : Strand) (ix : Nat) (e : Bool)
    (vd va vb vc sh : BitVec 5) (imm : BitVec 14),
  let ty := p.shape.toNat % 16
  let w := tWidth ty
  let a (j : Nat) : Nat := laneAt (p.vals.getD 0 0) w j
  let b (j : Nat) : Nat := laneAt (p.vals.getD 1 0) w j
  let c (j : Nat) : Nat := laneAt (p.vals.getD 2 0) w j
  let sgn (v : Nat) : Int := if 2 ^ (w - 1) ≤ v then (v : Int) - 2 ^ w else v
  let z (v : Nat) : Int := if ty % 2 = 1 then sgn v else v
  let m (v : Int) : Nat := (v % 2 ^ w).toNat
  let lo : Int := if ty % 2 = 1 then -(2 ^ (w - 1)) else 0
  let hi : Int := if ty % 2 = 1 then 2 ^ (w - 1) - 1 else 2 ^ w - 1
  let clamp (v : Int) : Nat := m (if v < lo then lo else if hi < v then hi else v)
  let g (i : Instr) (f : Nat → Nat) : Prop :=
    LaneResult k t p vd ty (4096 / w) (vCompute i p x ix) f ∧ (vCompute i p x ix).2 = 0
  1 ≤ ty → ty ≤ 8 →
    g (.vadd e vd va vb) (fun j => (a j + b j) % 2 ^ w) ∧ g (.vsub e vd va vb) (fun j => m ((a j : Int) - b j))
    ∧ g (.vmul e vd va vb) (fun j => a j * b j % 2 ^ w) ∧ g (.vmulh e vd va vb) (fun j => m (z (a j) * z (b j) / 2 ^ w))
    ∧ g (.vfma e vd va vb vc) (fun j => (a j * b j + c j) % 2 ^ w) ∧ g (.vfms e vd va vb vc) (fun j => m (a j * b j - (c j : Int)))
    ∧ g (.vfnma e vd va vb vc) (fun j => m (c j - (a j * b j : Int)))
    ∧ g (.vmin e vd va vb) (fun j => if z (a j) ≤ z (b j) then a j else b j)
    ∧ g (.vmax e vd va vb) (fun j => if z (a j) ≤ z (b j) then b j else a j)
    ∧ g (.vabs e vd va) (fun j => m (if z (a j) < 0 then -(z (a j)) else z (a j))) ∧ g (.vneg e vd va) (fun j => m (-(a j : Int)))
    ∧ g (.vadds e vd va vb) (fun j => clamp (z (a j) + z (b j))) ∧ g (.vsubs e vd va vb) (fun j => clamp (z (a j) - z (b j)))
    ∧ g (.vavg e vd va vb) (fun j => m ((z (a j) + z (b j) + 1) / 2))
    ∧ g (.vshl e vd va vb) (fun j => if w ≤ b j then 0 else a j * 2 ^ b j % 2 ^ w)
    ∧ g (.vshr e vd va vb) (fun j => if w ≤ b j then 0 else a j / 2 ^ b j)
    ∧ g (.vsra e vd va vb) (fun j => if w ≤ b j then m (if sgn (a j) < 0 then -1 else 0) else m (sgn (a j) / 2 ^ b j))
    ∧ g (.vclz e vd va) (fun j => if a j = 0 then w else w - 1 - (a j).log2)
    ∧ g (.vpopc e vd va) (fun j => (List.range w).countP (fun i => (a j).testBit i))
    ∧ g (.vaddi e vd va imm) (fun j => m (a j + imm.toInt)) ∧ g (.vmuli e vd va imm) (fun j => m (a j * imm.toInt))
    ∧ g (.vshli e vd va sh) (fun j => if w ≤ sh.toNat then 0 else a j * 2 ^ sh.toNat % 2 ^ w)
    ∧ g (.vshri e vd va sh) (fun j => if w ≤ sh.toNat then 0 else a j / 2 ^ sh.toNat)
    ∧ g (.vsrai e vd va sh) (fun j => if w ≤ sh.toNat then m (if sgn (a j) < 0 then -1 else 0) else m (sgn (a j) / 2 ^ sh.toNat))
    ∧ g (.vspli e vd imm) (fun _ => m imm.toInt) ∧ g (.viota e vd imm) (fun j => m (imm.toInt + j)))
  ∧ (∀ (k : Core) (t : BitVec 2) (p : Capture) (x : Strand) (ix : Nat) (e : Bool) (vd va vb : BitVec 5)
    (kn bn : BitVec 3) (imm : BitVec 14),
  let ty := p.shape.toNat % 16
  let w := tWidth ty
  let a (j : Nat) : Nat := laneAt (p.vals.getD 0 0) w j
  let b (j : Nat) : Nat := laneAt (p.vals.getD 1 0) w j
  let m : Nat := (imm.toInt % 2 ^ w).toNat
  let g (i : Instr) (f : Nat → Nat) : Prop :=
    LaneResult k t p vd ty (4096 / w) (vCompute i p x ix) f ∧ (vCompute i p x ix).2 = 0
  g (.vand e vd va vb) (fun j => a j &&& b j) ∧ g (.vor e vd va vb) (fun j => a j ||| b j)
  ∧ g (.vxor e vd va vb) (fun j => a j ^^^ b j) ∧ g (.vandn e vd va vb) (fun j => a j &&& (2 ^ w - 1 - b j))
  ∧ g (.vnot e vd va) (fun j => 2 ^ w - 1 - a j) ∧ g (.vmov e vd va) a
  ∧ g (.vsel e vd va vb kn) (fun j => if kn = 0 ∨ (x.kreg kn).getLsbD j = true then a j else b j)
  ∧ g (.vandi e vd va imm) (fun j => a j &&& m) ∧ g (.vori e vd va imm) (fun j => a j ||| m)
  ∧ g (.vxori e vd va imm) (fun j => a j ^^^ m) ∧ g (.vsplb e vd bn) (fun _ => p.b.toNat % 2 ^ w)
  ∧ (9 ≤ ty → ty ≤ 11 →
      g (.vabs e vd va) (fun j => a j % 2 ^ (w - 1))
      ∧ g (.vneg e vd va) (fun j => if a j < 2 ^ (w - 1) then a j + 2 ^ (w - 1) else a j - 2 ^ (w - 1))
      ∧ g (.vcpys e vd va vb) (fun j => a j % 2 ^ (w - 1) + (if b j < 2 ^ (w - 1) then 0 else 2 ^ (w - 1)))))

/-- R141, R149, R150: VCMP writes its condition to the bits of kd of active lanes, by signedness on integers and by value on floats, where
a NaN makes two numbers unordered and, quiet under an order or signalling, sets NV, and leaves the others; the mask words write all 1,024 bits; KSET sets the low min(VL, N) bits, and KPOP counts those of a mask into
lane 0, the count 0 under VL 0 (log entry 80, DESIGN CHOICE). k0 reads as ones.
R163: the permutes move the lane patterns of va, as captured, between active lanes; VCMPR packs the active lanes downward and VEXPN
spreads them. A lane without a source keeps its value. -/
def Obligations.MaskAndPermuteLanes : Prop :=
  (∀ (k : Core) (t : BitVec 2) (p : Capture) (ix : Nat) (e : Bool) (va vb vd : BitVec 5)
    (kd ka kb : BitVec 3) (cond : BitVec 4),
  let x := k.strand t
  let ty := p.shape.toNat % 16
  let w := tWidth ty
  let z (v : Nat) : Int := if ty % 2 = 1 ∧ 2 ^ (w - 1) ≤ v then (v : Int) - 2 ^ w else v
  let a (j : Nat) : Int := z (laneAt (p.vals.getD 0 0) w j)
  let b (j : Nat) : Int := z (laneAt (p.vals.getD 1 0) w j)
  let active (j : Nat) : Prop := j < p.shape.toNat / 16 % 2048 ∧ j < 4096 / w ∧ p.kval.getLsbD j = true
  let m := min (p.shape.toNat / 16 % 2048) (4096 / w)
  let read (n : BitVec 3) (j : Nat) : Bool := n = 0 || (x.k[n.toNat]'n.isLt).getLsbD j
  let after (i : Instr) : Strand := (k.landResult t (vCompute i p x ix)).strand t
  let test (j : Nat) : Prop := match cond.toNat with
    | 0 => a j = b j | 1 => a j ≠ b j | 2 => a j < b j | 3 => a j ≤ b j | 4 => b j < a j | 5 => b j ≤ a j | 6 => False | _ => True
  let fa (j : Nat) : Nat := laneAt (p.vals.getD 0 0) w j
  let fb (j : Nat) : Nat := laneAt (p.vals.getD 1 0) w j
  let un (j : Nat) : Prop := nanF ty (fa j) ∨ nanF ty (fb j)
  let signals (v : Nat) : Prop := nanF ty v ∧ v / 2 ^ (fracBits ty - 1) % 2 = 0
  let testF (j : Nat) : Prop := let u := valF ty (fa j); let v := valF ty (fb j); match cond.toNat with
    | 0 => ¬ un j ∧ u = v | 1 => un j ∨ u ≠ v | 2 => ¬ un j ∧ u < v | 3 => ¬ un j ∧ u ≤ v | 4 => ¬ un j ∧ v < u | 5 => ¬ un j ∧ v ≤ u
    | 6 => un j | _ => ¬ un j
  let invalid : Prop := ∃ j, active j ∧ (signals (fa j) ∨ signals (fb j) ∨ (2 ≤ cond.toNat ∧ cond.toNat ≤ 5 ∧ un j))
  let sets (i : Instr) (f : Nat → Bool) : Prop := ∀ j, j < 1024 →
    ((after i).k[kd.toNat]'kd.isLt).getLsbD j = f j
  kd ≠ 0 →
    (1 ≤ ty → ty ≤ 8 → ∀ j, j < 1024 → let bit := ((after (.vcmp e kd va vb cond)).k[kd.toNat]'kd.isLt).getLsbD j
      (active j → (bit = true ↔ test j)) ∧ (¬ active j → bit = read kd j))
    ∧ (9 ≤ ty → ty ≤ 11 → let res := vCompute (.vcmp e kd va vb cond) p x ix
        (∀ j, j < 1024 → let bit := ((after (.vcmp e kd va vb cond)).k[kd.toNat]'kd.isLt).getLsbD j
          (active j → (bit = true ↔ testF j)) ∧ (¬ active j → bit = read kd j))
        ∧ (invalid → res.2 = 16) ∧ (¬ invalid → res.2 = 0))
    ∧ sets (.kand e kd ka kb) (fun j => read ka j && read kb j) ∧ sets (.kor e kd ka kb) (fun j => read ka j || read kb j)
    ∧ sets (.kxor e kd ka kb) (fun j => read ka j != read kb j) ∧ sets (.kandn e kd ka kb) (fun j => read ka j && !read kb j)
    ∧ sets (.knot e kd ka) (fun j => !read ka j) ∧ sets (.kmov e kd ka) (read ka) ∧ sets (.kset e kd) (fun j => decide (j < m))
    ∧ (5 ≤ ty → ty ≤ 8 → laneAt ((after (.kpop e vd ka)).vreg vd) w 0 = (List.range m).countP (read ka)))
  ∧ (∀ (k : Core) (t : BitVec 2) (p : Capture) (x : Strand) (ix : Nat) (e : Bool)
    (vd va vb : BitVec 5) (lane : BitVec 10),
  let ty := p.shape.toNat % 16
  let w := tWidth ty
  let n := 4096 / w
  let a (j : Nat) : Nat := laneAt (p.vals.getD 0 0) w j
  let b (j : Nat) : Nat := laneAt (p.vals.getD 1 0) w j
  let old (j : Nat) : Nat := laneAt ((k.strand t).vreg vd) w j
  let vl := p.shape.toNat / 16 % 2048
  let on (j : Nat) : Bool := decide (j < vl) && decide (j < n) && p.kval.getLsbD j
  let packed := (List.range n).filter on
  let y (i : Instr) : VReg := ((k.landResult t (vCompute i p x ix)).strand t).vreg vd
  let g (i : Instr) (f : Nat → Nat) : Prop := LaneResult k t p vd ty n (vCompute i p x ix) f ∧ (vCompute i p x ix).2 = 0
  g (.vperm e vd va vb) (fun j => if on (b j) then a (b j) else old j)
  ∧ g (.vbcst e vd va lane) (fun j => if on lane.toNat then a lane.toNat else old j)
  ∧ g (.vslup e vd va lane) (fun j => if lane.toNat ≤ j ∧ on (j - lane.toNat) then a (j - lane.toNat) else old j)
  ∧ g (.vsldn e vd va lane) (fun j => if on (j + lane.toNat) then a (j + lane.toNat) else old j)
  ∧ g (.vrev e vd va) (fun j => if j < min vl n ∧ on (min vl n - 1 - j) then a (min vl n - 1 - j) else old j)
  ∧ g (.vexpn e vd va) (fun j => a ((List.range j).countP on))
  ∧ (∀ j, j < n → laneAt (y (.vcmpr e vd va)) w j = match packed[j]? with | some r => a r | none => old j))

/-- R164: the integer reductions over the active lanes of va, with every sum mod 2^w: VRSUM, VRMIN and VRMAX write lane 0 of vd alone,
and nothing with no active lane; VSCAN writes each active lane the sum up to it; VDOT4 under i32 adds four products of bytes to each
active lane, each source by its own signedness.
R145, R146: widening and narrowing integers and bq numbers between one narrow register and the group of q wide ones: element i of
the narrow side is lane i / q of the wide register i mod q; widening keeps the value, narrowing clamps it; VL counts elements.
R164: on floats VRSUM, VRMIN and VRMAX combine the active lanes in the fixed pairwise tree, a node with one child absent passing the
other through, and VSCAN adds in ascending order, every sum rounded, its first lane as it is (a signalling NaN too: log entry 99, DESIGN
CHOICE); VDOT4 under f32 rounds the exact sum of the lane and four products once (over source lanes that exist: log entry 23). The sign of
an exact zero sum is log entry 8, DEDUCED. -/
def Obligations.ReductionLanes : Prop :=
  ((∀ (k : Core) (t : BitVec 2) (p : Capture) (x : Strand) (ix : Nat) (e : Bool) (vd va vb : BitVec 5),
  let ty := p.shape.toNat % 16
  let w := tWidth ty
  let n := 4096 / w
  let a (j : Nat) : Nat := laneAt (p.vals.getD 0 0) w j
  let z (v : Nat) : Int := if ty % 2 = 1 ∧ 2 ^ (w - 1) ≤ v then (v : Int) - 2 ^ w else v
  let active (j : Nat) : Prop := j < p.shape.toNat / 16 % 2048 ∧ j < n ∧ p.kval.getLsbD j = true
  let upTo (j : Nat) : List Nat := (List.range (j + 1)).filter (fun i => decide (i < p.shape.toNat / 16 % 2048) && decide (i < n) && p.kval.getLsbD i)
  let old (j : Nat) : Nat := laneAt ((k.strand t).vreg vd) w j
  let y (i : Instr) (j : Nat) : Nat := laneAt (((k.landResult t (vCompute i p x ix)).strand t).vreg vd) w j
  let none := ∀ j, ¬ active j
  let byte (tag : BitVec 4) (v : Nat) : Int := if tag ≠ 4 ∧ 128 ≤ v then (v : Int) - 256 else v
  let pa (l : Nat) : Int := byte p.tagA (laneAt (p.vals.getD 0 0) 8 l)
  let pb (l : Nat) : Int := byte p.tagB (laneAt (p.vals.getD 1 0) 8 l)
  let d (j : Nat) : Int := laneAt (p.vals.getD 2 0) 32 j
  let keeps (i : Instr) : Prop := (∀ j, 0 < j → j < n → y i j = old j) ∧ (none → y i 0 = old 0)
  1 ≤ ty → ty ≤ 8 →
    keeps (.vrsum e vd va) ∧ keeps (.vrmin e vd va) ∧ keeps (.vrmax e vd va)
    ∧ (¬ none → y (.vrsum e vd va) 0 = ((upTo n).map a).sum % 2 ^ w)
    ∧ (¬ none → (∃ j, active j ∧ y (.vrmin e vd va) 0 = a j) ∧ ∀ j, active j → z (y (.vrmin e vd va) 0) ≤ z (a j))
    ∧ (¬ none → (∃ j, active j ∧ y (.vrmax e vd va) 0 = a j) ∧ ∀ j, active j → z (a j) ≤ z (y (.vrmax e vd va) 0))
    ∧ (∀ j, j < n → (active j → y (.vscan e vd va) j = ((upTo j).map a).sum % 2 ^ w) ∧ (¬ active j → y (.vscan e vd va) j = old j))
    ∧ (ty = 7 → p.tagA ∈ [(3 : BitVec 4), 4, 13] → p.tagB ∈ [(3 : BitVec 4), 4, 13] →
        LaneResult k t p vd 7 128 (vCompute (.vdot4 e vd va vb) p x ix) (fun j =>
          ((d j + pa (4 * j) * pb (4 * j) + pa (4 * j + 1) * pb (4 * j + 1) + pa (4 * j + 2) * pb (4 * j + 2)
            + pa (4 * j + 3) * pb (4 * j + 3)) % 2 ^ 32).toNat)))
  ∧ (∀ (k : Core) (t : BitVec 2) (p : Capture) (x : Strand) (ix : Nat) (e : Bool) (vd va : BitVec 5),
  let ty := p.shape.toNat % 16
  let s := p.tagA.toNat
  let signed (c : Nat) : Bool := (c ≤ 8 && c % 2 = 1) || 12 ≤ c
  let bits (c : Nat) : Nat := if c = 14 then 12 else tWidth c
  let val (c v : Nat) : Int := let u := v % 2 ^ bits c
    if signed c = true ∧ 2 ^ (bits c - 1) ≤ u then (u : Int) - 2 ^ bits c else u
  let lo : Int := if signed ty then -(2 ^ (bits ty - 1)) else 0
  let hi : Int := if signed ty then 2 ^ (bits ty - 1) - 1 else 2 ^ bits ty - 1
  let clamp (v : Int) : Int := if v < lo then lo else if hi < v then hi else v
  let pairs := [(1, 3), (1, 5), (12, 3), (12, 5), (2, 4), (2, 6), (3, 5), (3, 7), (13, 5), (13, 7), (4, 6), (4, 8), (5, 7), (14, 7),
    (6, 8)]
  let active (i : Nat) : Prop := i < p.shape.toNat / 16 % 2048 ∧ p.kval.getLsbD i = true
  let q := tWidth ty / tWidth s
  let y := (k.landResult t (vCompute (.vwid e vd va) p x ix)).strand t
  let reg (i : Nat) : BitVec 5 := vd + BitVec.ofNat 5 (i % q)
  let r := tWidth s / tWidth ty
  ((s, ty) ∈ pairs → vd.toNat % q = 0 → ∀ i, i < 4096 / tWidth s →
    y.vtag (reg i) = BitVec.ofNat 4 ty ∧ y.fflags = (k.strand t).fflags
    ∧ (active i → laneAt (y.vreg (reg i)) (tWidth ty) (i / q)
        = (val s (laneAt (p.vals.getD 0 0) (tWidth s) i) % 2 ^ tWidth ty).toNat)
    ∧ (¬ active i → laneAt (y.vreg (reg i)) (tWidth ty) (i / q) = laneAt ((k.strand t).vreg (reg i)) (tWidth ty) (i / q)))
  ∧ ((ty, s) ∈ pairs → LaneResult k t p vd ty (4096 / tWidth ty) (vCompute (.vnar e vd va) p x ix) (fun i =>
      (clamp (val s (laneAt (p.vals.getD (i % r) 0) (tWidth s) (i / r))) % 2 ^ tWidth ty).toNat))))
  ∧ (∀ (k : Core) (t : BitVec 2) (p : Capture) (x : Strand) (ix : Nat) (e : Bool) (vd va vb : BitVec 5),
  let ty := p.shape.toNat % 16
  let w := tWidth ty
  let n := 4096 / w
  let rm := p.shape.toNat / 2 ^ 18 % 4
  let sat := p.shape.getLsbD 23
  let a (j : Nat) : Nat := laneAt (p.vals.getD 0 0) w j
  let on (j : Nat) : Bool := decide (j < p.shape.toNat / 16 % 2048) && decide (j < n) && p.kval.getLsbD j
  let old (j : Nat) : Nat := laneAt ((k.strand t).vreg vd) w j
  let y (i : Instr) (j : Nat) : Nat := laneAt (((k.landResult t (vCompute i p x ix)).strand t).vreg vd) w j
  let reduces (i : Instr) (both : Nat → Nat → Nat → Prop) : Prop :=
    (∀ j, 0 < j → j < n → y i j = old j) ∧ ((∀ j, on j = false) → y i 0 = old 0)
    ∧ ((∃ j, on j = true) → ∃ node : Nat → Nat → Option Nat, (∀ j, node 0 j = if on j then some (a j) else none)
        ∧ (∀ l m, match node l (2 * m), node l (2 * m + 1) with
          | some u, some v => ∃ z, node (l + 1) m = some z ∧ both u v z
          | some u, none => node (l + 1) m = some u
          | none, o => node (l + 1) m = o)
        ∧ node 10 0 = some (y i 0))
  let tA := p.tagA.toNat
  let tB := p.tagB.toNat
  let pa (l : Nat) : Nat := laneAt (p.vals.getD 0 0) 16 l
  let pb (l : Nat) : Nat := laneAt (p.vals.getD 1 0) 16 l
  let d (j : Nat) : Nat := laneAt (p.vals.getD 2 0) 32 j
  let part (l : Nat) : Int := valF tA (pa l) * valF tB (pb l)
  let K := unitExp tA + unitExp tB
  (9 ≤ ty → ty ≤ 11 →
    reduces (.vrsum e vd va) (SumF ty rm sat) ∧ reduces (.vrmin e vd va) (LeastF ty false) ∧ reduces (.vrmax e vd va) (LeastF ty true)
    ∧ (∀ j, j < n → on j = false → y (.vscan e vd va) j = old j)
    ∧ (∀ j, on j = true → (∀ i, i < j → on i = false) → y (.vscan e vd va) j = a j)
    ∧ ∀ i j, on i = true → on j = true → i < j → (∀ m, i < m → m < j → on m = false) →
        SumF ty rm sat (y (.vscan e vd va) i) (a j) (y (.vscan e vd va) j))
  ∧ (ty = 11 → (tA = 9 ∨ tA = 10) → (tB = 9 ∨ tB = 10) → ∀ j, on j = true → j < 64 → finF 11 (d j) →
      (∀ m, m < 4 → finF tA (pa (4 * j + m)) ∧ finF tB (pb (4 * j + m))) →
      (ratioF (valF 11 (d j) * 2 ^ K + (part (4 * j) + part (4 * j + 1) + part (4 * j + 2) + part (4 * j + 3)) * 2 ^ 149) (2 ^ K)
        ((negF 11 (d j) && (List.range 4).all (fun m => negF tA (pa (4 * j + m)) != negF tB (pb (4 * j + m)))) || decide (rm = 3))).result 11 rm sat
        (y (.vdot4 e vd va vb) j)))

/-- R136 to R138: on f16, bf16 and f32 an active lane of VADD, VSUB, VMUL and VFMA takes the first NaN of its operands, quieted, with
its sign and payload; without one, ∞ − ∞ and 0 · ∞ give the default NaN and an infinite operand an exact ∞; VMIN and VMAX of one NaN
give the other operand.
R136 to R138, R142, R143: finite f16, bf16 and f32 lanes of the arithmetic words take the exact result rounded once under RM, with
overflow by mode and SAT and the sign of an exact zero; where every active lane is finite, the word's flags are NX, OF and UF as those
roundings give them. VMIN and VMAX order −0 below +0. The sign of an exact zero sum, product or fused sum is log entry 8, DEDUCED. -/
def Obligations.FloatLanes : Prop :=
  (∀ (k : Core) (t : BitVec 2) (p : Capture) (x : Strand) (ix j : Nat) (e : Bool) (vd va vb vc : BitVec 5),
  let ty := p.shape.toNat % 16
  let w := tWidth ty
  let fb := if ty = 9 then 10 else if ty = 10 then 7 else 23
  let inf := 2 ^ (w - 1) - 2 ^ fb
  let a := laneAt (p.vals.getD 0 0) w j
  let b := laneAt (p.vals.getD 1 0) w j
  let c := laneAt (p.vals.getD 2 0) w j
  let nan (v : Nat) : Prop := inf < v % 2 ^ (w - 1)
  let isInf (v : Nat) : Prop := v % 2 ^ (w - 1) = inf
  let zero (v : Nat) : Prop := v % 2 ^ (w - 1) = 0
  let sign (v : Nat) : Nat := v / 2 ^ (w - 1)
  let quiet (v : Nat) : Nat := v ||| 2 ^ (fb - 1)
  let default := inf + 2 ^ (fb - 1)
  let y (i : Instr) : Nat := laneAt (((k.landResult t (vCompute i p x ix)).strand t).vreg vd) w j
  let two := [Instr.vadd e vd va vb, .vsub e vd va vb, .vmul e vd va vb]
  9 ≤ ty → ty ≤ 11 → j < p.shape.toNat / 16 % 2048 → j < 4096 / w → p.kval.getLsbD j = true →
    (nan a → (∀ i ∈ two, y i = quiet a) ∧ y (.vfma e vd va vb vc) = quiet a)
    ∧ (¬ nan a → nan b → (∀ i ∈ two, y i = quiet b) ∧ y (.vfma e vd va vb vc) = quiet b)
    ∧ (¬ nan a → ¬ nan b → nan c → y (.vfma e vd va vb vc) = quiet c)
    ∧ (isInf a → isInf b → y (.vadd e vd va vb) = (if sign a = sign b then a else default)
        ∧ y (.vsub e vd va vb) = (if sign a = sign b then default else a))
    ∧ (isInf a → zero b → y (.vmul e vd va vb) = default) ∧ (zero a → isInf b → y (.vmul e vd va vb) = default)
    ∧ (isInf a → ¬ nan b → ¬ zero b → y (.vmul e vd va vb) = inf + (if sign a = sign b then 0 else 2 ^ (w - 1)))
    ∧ (nan a → ¬ nan b → y (.vmin e vd va vb) = b ∧ y (.vmax e vd va vb) = b)
    ∧ (¬ nan a → nan b → y (.vmin e vd va vb) = a ∧ y (.vmax e vd va vb) = a))
  ∧ (∀ (k : Core) (t : BitVec 2) (p : Capture) (x : Strand) (ix : Nat) (e : Bool) (vd va vb vc : BitVec 5)
    (imm : BitVec 14),
  let ty := p.shape.toNat % 16
  let w := tWidth ty
  let K := unitExp ty
  let rm := p.shape.toNat / 2 ^ 18 % 4
  let sat := p.shape.getLsbD 23
  let src (n j : Nat) : Nat := laneAt (p.vals.getD n 0) w j
  let val (n j : Nat) : Int := valF ty (src n j)
  let neg (n j : Nat) : Bool := negF ty (src n j)
  let fin (n : Nat) (j : Nat) : Prop := ∀ m, m < n → finF ty (src m j)
  let active (j : Nat) : Prop := j < p.shape.toNat / 16 % 2048 ∧ j < 4096 / w ∧ p.kval.getLsbD j = true
  let y (i : Instr) (j : Nat) : Nat := laneAt (((k.landResult t (vCompute i p x ix)).strand t).vreg vd) w j
  let rounds (i : Instr) (n : Nat) (z : Nat → Exact) : Prop :=
    (∀ j, active j → fin n j → (z j).result ty rm sat (y i j))
    ∧ ((∀ j, active j → fin n j) → let fl := (vCompute i p x ix).2
      (fl.getLsbD 0 = true ↔ ∃ j, active j ∧ (z j).inexact ty)
      ∧ (fl.getLsbD 1 = true ↔ ∃ j, active j ∧ (z j).inexact ty ∧ (z j).tiny ty rm)
      ∧ (fl.getLsbD 2 = true ↔ ∃ j, active j ∧ (z j).overflows ty rm) ∧ fl.toNat < 8)
  let product (j : Nat) : Int := val 0 j * val 1 j
  let sp (j : Nat) : Bool := neg 0 j != neg 1 j
  9 ≤ ty → ty ≤ 11 →
    rounds (.vadd e vd va vb) 2 (fun j => ratioF (val 0 j + val 1 j) 1 (zeroSum rm (neg 0 j) (neg 1 j)))
    ∧ rounds (.vsub e vd va vb) 2 (fun j => ratioF (val 0 j - val 1 j) 1 (zeroSum rm (neg 0 j) (!neg 1 j)))
    ∧ rounds (.vmul e vd va vb) 2 (fun j => ratioF (product j) (2 ^ K) (sp j))
    ∧ rounds (.vfma e vd va vb vc) 3 (fun j => ratioF (product j + val 2 j * 2 ^ K) (2 ^ K) (zeroSum rm (sp j) (neg 2 j)))
    ∧ rounds (.vfms e vd va vb vc) 3 (fun j => ratioF (product j - val 2 j * 2 ^ K) (2 ^ K) (zeroSum rm (sp j) (!neg 2 j)))
    ∧ rounds (.vfnma e vd va vb vc) 3 (fun j => ratioF (val 2 j * 2 ^ K - product j) (2 ^ K) (zeroSum rm (!sp j) (neg 2 j)))
    ∧ rounds (.vspli e vd imm) 0 (fun _ => ratioF (imm.toInt * 2 ^ K) 1 false)
    ∧ rounds (.viota e vd imm) 0 (fun j => ratioF ((imm.toInt + j) * 2 ^ K) 1 false)
    ∧ (∀ j, active j → LeastF ty false (src 0 j) (src 1 j) (y (.vmin e vd va vb) j) ∧ LeastF ty true (src 0 j) (src 1 j) (y (.vmax e vd va vb) j)))

/-- R165: VRCP, VRSQ, VSQRT and VDIVF of finite lanes take the exact quotient or root rounded once; VEXP2 of an integral number and VLOG2 of
a power of two the exact power and exponent. The special functions take the stated results at 0, at ∞, below 0 and on a NaN.
R144, R146 to R148: the conversions of finite numbers round once under RM: VCVT and VQNT to integers, clamped, VCVT and VDQN to floats,
VRND to an integral value, VNAR from f32; VWID to f32 is exact. ∞ clamps or stays ∞; a NaN becomes 0 in an integer, and keeps its sign and
the top of its payload in a float, quieted (from bf16 to f16 log entry 81, DESIGN CHOICE). A bq12 element fills bits [15:12]
(for VCVT from bq12 log entry 85, DEDUCED). -/
def Obligations.FunctionsAndConversions : Prop :=
  (∀ (k : Core) (t : BitVec 2) (p : Capture) (x : Strand) (ix j : Nat) (e : Bool) (vd va vb : BitVec 5),
  let ty := p.shape.toNat % 16
  let w := tWidth ty
  let K := unitExp ty
  let rm := p.shape.toNat / 2 ^ 18 % 4
  let sat := p.shape.getLsbD 23
  let a := laneAt (p.vals.getD 0 0) w j
  let b := laneAt (p.vals.getD 1 0) w j
  let u := valF ty a
  let v := valF ty b
  let s := negF ty a
  let inf := infOf ty
  let one := (2 ^ (w - 2 - fracBits ty) - 1) * 2 ^ fracBits ty
  let bad := defaultF ty
  let y (i : Instr) : Nat := laneAt (((k.landResult t (vCompute i p x ix)).strand t).vreg vd) w j
  let rounds (i : Instr) (z : Exact) : Prop := z.result ty rm sat (y i)
  let rcp := y (.vrcp e vd va)
  let rsq := y (.vrsq e vd va)
  let sqrt := y (.vsqrt e vd va)
  let div := y (.vdivf e vd va vb)
  let exp2 := y (.vexp2 e vd va)
  let log2 := y (.vlog2 e vd va)
  let sin := y (.vsin e vd va)
  let tanh := y (.vtanh e vd va)
  let sd := signF ty (s != negF ty b)
  9 ≤ ty → ty ≤ 11 → j < p.shape.toNat / 16 % 2048 → j < 4096 / w → p.kval.getLsbD j = true →
    (finF ty a → u ≠ 0 → rounds (.vrcp e vd va) (ratioF (u.sign * 2 ^ (2 * K)) u.natAbs false))
    ∧ (finF ty a → 0 < u → rounds (.vsqrt e vd va) ⟨false, fun q => q * q ≤ 16 * u.natAbs * 2 ^ K, fun q => 16 * u.natAbs * 2 ^ K ≤ q * q⟩
        ∧ rounds (.vrsq e vd va) ⟨false, fun q => q * q * u.natAbs ≤ 16 * 2 ^ (3 * K), fun q => 16 * 2 ^ (3 * K) ≤ q * q * u.natAbs⟩)
    ∧ (finF ty a → finF ty b → v ≠ 0 → rounds (.vdivf e vd va vb) (ratioF (u * v.sign * 2 ^ K) v.natAbs (s != negF ty b)))
    ∧ (∀ n : Int, finF ty a → u = n * 2 ^ K → rounds (.vexp2 e vd va) (if 0 ≤ n then ratioF (2 ^ (K + n.toNat)) 1 false else ratioF (2 ^ K) (2 ^ (-n).toNat) false))
    ∧ (∀ n : Nat, finF ty a → u = 2 ^ n → rounds (.vlog2 e vd va) (ratioF (((n : Int) - K) * 2 ^ K) 1 false))
    ∧ (finF ty a → u = 0 → rcp = signF ty s + inf ∧ rsq = signF ty s + inf ∧ sqrt = a ∧ log2 = signF ty true + inf ∧ sin = a ∧ tanh = a)
    ∧ (¬ nanF ty a → u < 0 → rsq = bad ∧ sqrt = bad ∧ log2 = bad)
    ∧ (a = inf → rcp = 0 ∧ rsq = 0 ∧ sqrt = a ∧ exp2 = a ∧ log2 = a ∧ sin = bad ∧ tanh = one)
    ∧ (a = signF ty true + inf → rcp = signF ty true ∧ exp2 = 0 ∧ sin = bad ∧ tanh = signF ty true + one)
    ∧ (nanF ty a → ∀ z ∈ [rcp, rsq, sqrt, div, exp2, log2, sin, tanh], z = quietF ty a) ∧ (¬ nanF ty a → nanF ty b → div = quietF ty b)
    ∧ (finF ty a → u ≠ 0 → finF ty b → v = 0 → div = sd + inf) ∧ (finF ty a → u = 0 → finF ty b → v = 0 → div = bad)
    ∧ (¬ nanF ty a → ¬ finF ty a → ¬ nanF ty b → div = if finF ty b then sd + inf else bad)
    ∧ (finF ty a → ¬ finF ty b → ¬ nanF ty b → div = sd))
  ∧ (∀ (k : Core) (t : BitVec 2) (p : Capture) (x : Strand) (ix i : Nat) (e : Bool)
    (vd va vb : BitVec 5) (from_ : BitVec 4),
  let ty := p.shape.toNat % 16
  let rm := p.shape.toNat / 2 ^ 18 % 4
  let sat := p.shape.getLsbD 23
  let flt (c : Nat) : Prop := 9 ≤ c ∧ c ≤ 11
  let bq (c : Nat) : Prop := 12 ≤ c ∧ c ≤ 14
  let int (c : Nat) : Prop := (1 ≤ c ∧ c ≤ 8) ∨ bq c
  let signed (c : Nat) : Bool := (c ≤ 8 && c % 2 = 1) || 12 ≤ c
  let bits (c : Nat) : Nat := if c = 14 then 12 else tWidth c
  let num (c v : Nat) : Int := let u := v % 2 ^ bits c
    if signed c = true ∧ 2 ^ (bits c - 1) ≤ u then (u : Int) - 2 ^ bits c else u
  let lo : Int := if signed ty then -(2 ^ (bits ty - 1)) else 0
  let hi : Int := if signed ty then 2 ^ (bits ty - 1) - 1 else 2 ^ bits ty - 1
  let pat (z : Int) : Nat := ((if z < lo then lo else if hi < z then hi else z) % 2 ^ tWidth ty).toNat
  let limit (s : Bool) : Nat := pat (if s then lo else hi)
  let land (i : Instr) : Strand := (k.landResult t (vCompute i p x ix)).strand t
  let y (i : Instr) (l : Nat) : Nat := laneAt ((land i).vreg vd) (tWidth ty) l
  let active (n : Nat) : Prop := i < p.shape.toNat / 16 % 2048 ∧ i < n ∧ p.kval.getLsbD i = true
  -- r is the NaN v of float type c in TYPE
  let carried (c v : Nat) : Nat :=
    let f := v % 2 ^ fracBits c
    let g := if fracBits c ≤ fracBits ty then f * 2 ^ (fracBits ty - fracBits c) else f / 2 ^ (fracBits c - fracBits ty)
    quietF ty (signF ty (negF c v) + infOf ty + g)
  let toFloat (c v r : Nat) : Prop :=
    (finF c v → (ratioF (valF c v * 2 ^ unitExp ty) (2 ^ unitExp c) (negF c v)).result ty rm sat r)
    ∧ (¬ finF c v → ¬ nanF c v → r = signF ty (negF c v) + infOf ty) ∧ (nanF c v → r = carried c v)
  let s := p.tagA.toNat
  let a (c : Nat) : Nat := laneAt (p.vals.getD 0 0) (tWidth c) i
  let f := from_.toNat
  (active (4096 / tWidth ty) → tWidth f = tWidth ty → let r := y (.vcvt e vd va from_) i
    (flt f → int ty → (finF f (a f) → ∃ z, IntegerF rm (valF f (a f)) (2 ^ unitExp f) z ∧ r = pat z)
      ∧ (nanF f (a f) → r = 0) ∧ (¬ finF f (a f) → ¬ nanF f (a f) → r = limit (negF f (a f))))
    ∧ (int f → flt ty → (ratioF (num f (a f) * 2 ^ unitExp ty) 1 false).result ty rm sat r)
    ∧ (int f → int ty → r = pat (num f (a f))) ∧ (flt f → flt ty → f ≠ ty → toFloat f (a f) r) ∧ (flt f → f = ty → r = a f))
  ∧ (flt ty → active (4096 / tWidth ty) → let r := y (.vrnd e vd va) i
    (finF ty (a ty) → ∃ z, IntegerF rm (valF ty (a ty)) (2 ^ unitExp ty) z ∧ valF ty r = z * 2 ^ unitExp ty ∧ negF ty r = negF ty (a ty))
    ∧ (¬ finF ty (a ty) → r = if nanF ty (a ty) then quietF ty (a ty) else a ty))
  ∧ ((s = 9 ∨ s = 10) → ty = 11 → vd.toNat % 2 = 0 → active 256 →
    let r := laneAt ((land (.vwid e vd va)).vreg (vd + BitVec.ofNat 5 (i % 2))) 32 (i / 2)
    (finF s (a s) → valF 11 r * 2 ^ unitExp s = valF s (a s) * 2 ^ 149 ∧ negF 11 r = negF s (a s))
    ∧ (¬ finF s (a s) → r = if nanF s (a s) then carried s (a s) else signF 11 (negF s (a s)) + infOf 11))
  ∧ (s = 11 → (ty = 9 ∨ ty = 10) → active 256 → toFloat 11 (laneAt (p.vals.getD (i % 2) 0) 32 (i / 2)) (y (.vnar e vd va) i))
  ∧ (flt s → bq ty → tWidth s / tWidth ty ∈ [1, 2, 4] → active (4096 / tWidth ty) →
    let q := tWidth s / tWidth ty
    let v := laneAt (p.vals.getD (i % q) 0) (tWidth s) (i / q)
    let m := laneAt (p.vals.getD q 0) 32 (i / 64)
    let nothing := nanF s v ∨ nanF 11 m ∨ (valF s v = 0 ∧ ¬ finF 11 m) ∨ (¬ finF s v ∧ valF 11 m = 0)
    let r := y (.vqnt e vd va vb) i
    (nothing → r = 0) ∧ (¬ nothing → ¬ finF s v ∨ ¬ finF 11 m → r = limit (negF s v != negF 11 m))
    ∧ (finF s v → finF 11 m → ∃ z, IntegerF rm (valF s v * valF 11 m) (2 ^ (unitExp s + 149)) z ∧ r = pat z))
  ∧ (bq s → flt ty → tWidth ty / tWidth s ∈ [1, 2, 4] → vd.toNat % (tWidth ty / tWidth s) = 0 → active (4096 / tWidth s) →
    let q := tWidth ty / tWidth s
    let n := num s (a s)
    let m := laneAt (p.vals.getD 1 0) 32 (i / 64)
    let r := laneAt ((land (.vdqn e vd va vb)).vreg (vd + BitVec.ofNat 5 (i % q))) (tWidth ty) (i / q)
    (finF 11 m → (ratioF (n * valF 11 m * 2 ^ unitExp ty) (2 ^ 149) (decide (n < 0) != negF 11 m)).result ty rm sat r)
    ∧ (nanF 11 m → r = carried 11 m)
    ∧ (¬ finF 11 m → ¬ nanF 11 m → r = if n = 0 then defaultF ty else signF ty (decide (n < 0) != negF 11 m) + infOf ty)))

/-- R131, R151 to R155, R157, R159, R161, R162, R198, R201, R205, R302, R322: the vector memory words and the predicates. Where the word's
checks of TYPE and the tags hold and its queue has room, it enters it, its token counts one more, and it keeps what it read: its
operands, base and, for VLDS, stride, or those its start read when it slipped, with the lanes if it has made its access. A full queue or an
empty bucket holds it back, and so does a record that would not fit beside those of the entry (R302; the sum is log entry 24, DEDUCED); a
failed check stops the entry with FORMAT. A slipped load keeps the mask that its start read (log entry 96, DESIGN CHOICE). A predicate with
no active lane tags its destinations i32 and is complete at once.
R153, R156, R262, R264: VLDC with no active lane tags its register and is complete at once; one whose lanes lie in a SEALED slot of its
launch's pool with a read left to spare counts one more PEND on the slot and enters with that range; at PEND 16,383, and while the pool is
away, it waits. A range in no slot stops the entry at issue with POOL 2, an OPEN slot with POOL 0, a slot that is FREE or has no read to
spare with POOL 1, each with the range's first address, the word standing in its queue as the faulting one; a 4-bit type stops it with
FORMAT. -/
def Obligations.TokenWordsEnter : Prop :=
  (∀ (s : State) (k : Core) (r : VRun) (e : Bool) (vd vi vq vA : BitVec 5) (bn tok : BitVec 3)
    (off : BitVec 13) (sc : BitVec 2) (z : BitVec 6),
  let x := k.strand r.entry.strand
  let ty := x.vshape.toNat % 16
  let w := tWidth ty
  let tg (v : BitVec 5) : Nat := (x.vtag v).toNat
  let index := tg vi = 0 ∨ (1 ≤ tg vi ∧ tg vi ≤ 8 ∧ tWidth (tg vi) = w)
  let f32 (v : BitVec 5) (n : Nat) : Prop := ∀ j, j < n → tg (v + BitVec.ofNat 5 j) = 11
  let stages := x.vshape.getLsbD 22 = true
  let free := ty = 11 ∧ ¬ (stages ∧ vd = 31)
  let op (i : Instr) (bn tok : BitVec 3) : VOp :=
    let p := capturedV k r i
    match r.slip.find? (fun u => u.idx = r.idx) with
    | some u => { seq := r.seq, op := i, tok := tok, tick := s.tick, stride := vget u.b 0 (bn.toNat + 1), data := u.data.getD [],
                  found := u.found, crossed := u.crossed,
                  cap := { p with b := vget u.b 0 bn.toNat, kval := u.kval, vals := if u.vals = [] then p.vals else u.vals,
                                  dirty := p.dirty ||| ((if u.vals ≠ [] ∧ u.vals ≠ p.vals then 1 else 0) ||| (if u.kval ≠ p.kval then 0x8000 else 0)) } }
    | none => { seq := r.seq, op := i, tok := tok, tick := s.tick, stride := vget r.b 0 (bn.toNat + 1), cap := p }
  let counted (tok : BitVec 3) : Core :=
    withStrand k r.entry.strand { x with tok := x.tok.set tok.toNat (vget x.tok 0 tok.toNat + 1) tok.isLt }
  let group (v : BitVec 5) (n : Nat) : List (BitVec 5) := (List.range n).map (fun j => v + BitVec.ofNat 5 j)
  let enters (i : Instr) (bn tok : BitVec 3) (cost depth : Nat) (q : List VOp) (put : VRun → List VOp → VRun) (regs : List (BitVec 5))
      (ok : Prop) : Prop :=
    let held := depth ≤ q.length ∨ r.recordsFull regs.length = true ∨ ¬ Affords k 0 cost
    Captures k r i regs ∧ (MayIssueV s k r →
      (ok → ¬ held → ∃ t, exec i s = .next t ∧ IssuedV s t (counted tok) cost (put (afterV r e) (q ++ [op i bn tok])))
      ∧ (ok → held → exec i s = .next s)
      ∧ (¬ ok → ∃ t, exec i s = .next t ∧ EntryStops s t s.focus k .v r.entry ⟨.format, 0, 0⟩))
  let based (i : Instr) : Prop := (capturedV k r i).b = r.b[bn.toNat]'bn.isLt
  let ld (i : Instr) (regs : List (BitVec 5)) (ok : Prop) : Prop :=
    based i ∧ enters i bn tok 4 32 r.vlq (fun r q => { r with vlq := q }) regs ok
  let st (i : Instr) (regs : List (BitVec 5)) (ok : Prop) : Prop :=
    based i ∧ enters i bn tok 4 32 r.vsq (fun r q => { r with vsq := q }) regs ok
  let es (i : Instr) (regs : List (BitVec 5)) (ok : Prop) : Prop :=
    let p := capturedV k r i
    let idle := ∀ j, j < 128 → j < p.shape.toNat / 16 % 2048 → p.kval.getLsbD j = false
    (¬ idle → enters i 0 0 16 4 r.esu (fun r q => { r with esu := q }) regs (free ∧ ok))
    ∧ (idle → MayIssueV s k r → free → ok → r.esu.length < 4 → r.recordsFull p.regs.length = false → Affords k 0 16 →
        ∃ t v, exec i s = .next t ∧ DoneAtOnce s t k r v e 16 (if stages then [vd, vd + 1] else [vd]) 7)
  ld (.vld e vd bn off tok) [] (w ≠ 4) ∧ ld (.vlds e vd bn off tok) [] (w ≠ 4)
  ∧ ld (.vldx e vd bn vi sc z tok) [vi] ((w = 16 ∨ w = 32) ∧ index)
  ∧ st (.vst e vd bn off tok) [vd] (w ≠ 4) ∧ st (.vstx e vd bn vi sc z tok) [vd, vi] ((w = 16 ∨ w = 32) ∧ index)
  ∧ st (.vatm e vd bn vi sc z tok) [vd, vi] ((if z = 9 then ty = 11 else ty = 7 ∨ ty = 8) ∧ tg vd = ty ∧ index)
  ∧ es (.go2d e vd vq vA) (group vA 4 ++ group vq 2) (f32 vA 4 ∧ f32 vq 2) ∧ es (.go3d e vd vq vA) (group vA 9 ++ group vq 3) (f32 vA 9 ∧ f32 vq 3)
  ∧ es (.gic e vd vq vA) (group vA 6 ++ group vq 2) (f32 vA 6 ∧ f32 vq 2)
  ∧ es (.gis e vd vq vA) (group vA 12 ++ group vq 3) (f32 vA 12 ∧ f32 vq 3) ∧ es (.gsx e vd vA) (group vA 8) (f32 vA 8))
  ∧ (∀ (s u : State) (k : Core) (r : VRun) (e : Bool) (vd : BitVec 5) (bn tok : BitVec 3)
    (off : BitVec 13) (a n d p m : Nat),
  let i := Instr.vldc e vd bn off tok
  let q : VOp := { seq := r.seq, op := i, tok := tok, cap := capturedV k r i, stride := vget r.b 0 (bn.toNat + 1), tick := s.tick }
  let x := k.strand r.entry.strand
  let ty := x.vshape.toNat % 16
  let counted : Core := withStrand k r.entry.strand { x with tok := x.tok.set tok.toNat (vget x.tok 0 tok.toNat + 1) tok.isLt }
  let slot := ((s.core d).poolPart p).slot m
  let more (k : Core) : Core := k.setPoolPart p ((k.poolPart p).setSlot m { slot with pend := slot.pend + 1 })
  let room := MayIssueV s k r ∧ tWidth ty ≠ 4 ∧ r.vlq.length < 32 ∧ r.recordsFull 0 = false ∧ Affords k 0 4 ∧ ∀ u ∈ r.slip, u.idx ≠ r.idx
  let entered (held : Option (Nat × Nat)) : VRun := { afterV r e with vlq := r.vlq ++ [{ q with held := held }] }
  let lies := slotHolding s s.focus r.entry.launch a n = some (d, p, m)
  let stops (sub : BitVec 8) : Prop := ∃ t v o, exec i s = .next t ∧ (t.core s.focus).vrun = some v
    ∧ v.flt = some ⟨.pool, sub, BitVec.ofNat 64 (a % 2 ^ 48)⟩ ∧ v.vlq = r.vlq ++ [o] ∧ o.op = i ∧ o.flt = v.flt ∧ ∀ c, (t.core c).pool = (s.core c).pool
  Captures k r i [] ∧ q.cap.b = r.b[bn.toNat]'bn.isLt
  ∧ (room → q.span = none → ∃ t v, exec i s = .next t ∧ DoneAtOnce s t k r v e 4 [vd] (BitVec.ofNat 4 ty))
  ∧ (room → q.span = some (a, n) → lies → slot.st = .sealed → slot.pend < slot.reads → slot.pend < 16383 →
      (d = s.focus → ∃ t, exec i s = .next t ∧ IssuedV s t (more counted) 4 (entered (some (a, n))))
      ∧ (d ≠ s.focus → OnlyCore s u d (more (s.core d)) → ∃ t, exec i s = .next t ∧ IssuedV u t counted 4 (entered (some (a, n)))))
  ∧ (room → q.span = some (a, n) → lies → slot.st = .sealed → slot.pend < slot.reads → 16383 ≤ slot.pend → exec i s = .next s)
  ∧ (room → q.span = some (a, n) → lies → slot.st = .open_ → stops 0)
  ∧ (room → q.span = some (a, n) → lies → slot.st = .free ∨ (slot.st = .sealed ∧ slot.reads ≤ slot.pend) → stops 1)
  ∧ (room → q.span = some (a, n) → slotHolding s s.focus r.entry.launch a n = none →
      (slotAway s s.focus r.entry.launch a = false → stops 2) ∧ (slotAway s s.focus r.entry.launch a = true → exec i s = .next s))
  ∧ (MayIssueV s k r → tWidth ty = 4 → ∃ t, exec i s = .next t ∧ EntryStops s t s.focus k .v r.entry ⟨.format, 0, 0⟩))

/-- R91, R101, R151 to R153, R156, R157, R160: TOKEN_COMPLETE at the head of the load queue, with every lane's access allowed: the active lanes
of vd take the bytes at their addresses as the cluster sees them, its tag becomes TYPE, the word leaves the queue and its token counts one
fewer; other lanes, registers and all bytes stay. A lane that may not be read stops the entry, and nothing is written (log entry 14, DESIGN CHOICE). R18, R158: with
a part, the lanes it names, and the tag if it names it, land before the word completes. The lane addresses of the memory words, and their active lanes, are those of R151 and R130. R256: VLDC gives up its share of PEND
and one read of its slot, which becomes FREE at the last.
R154, R156, R157, R159: TOKEN_COMPLETE at the head of the store queue, a VST or VSTX whose lanes all lie in ordinary memory and that no
earlier load without its data meets: the lanes are stored in ascending order, so that the highest stands, and no other byte changes; the
word leaves the queue, its token counts one fewer, and the entry's byte total grows by its bytes. R101: they perform in the cluster's cache,
or at their homes, where its earlier stores to them go first (log entry 13). R155: VATM on lanes that share no byte leaves f(old, b) at each
and its old values in vd. -/
def Obligations.VectorMemoryCompletes : Prop :=
  (∀ (s : State) (c : Nat) (r : VRun) (q : VOp) (rest : List VOp) (pa : Nat → Nat) (e : Bool)
    (vd vi : BitVec 5) (bn tok : BitVec 3) (off : BitVec 13) (sc : BitVec 2) (z : BitVec 6) (w : Trouble) (j : Nat) (p : Early)
    (a l d pp m : Nat),
  let t := r.entry.strand
  let x := s.strand c t
  let ty := q.cap.shape.toNat % 16
  let n := tWidth ty / 8
  let mem := Instr.tokenComplete c .load false none
  let head := (s.core c).vrun = some r ∧ r.vlq = q :: rest ∧ r.flt = none ∧ x.stop = none ∧ q.flt = none ∧ q.tok = tok
    ∧ (q.op ∈ [Instr.vld e vd bn off tok, .vlds e vd bn off tok, .vldx e vd bn vi sc z tok] ∨ (q.op = .vldc e vd bn off tok ∧ q.held = some (a, l)))
    ∧ r.ready q = true ∧ tWidth ty ≠ 4 ∧ q.found = none ∧ q.early = {} ∧ q.data = [] ∧ q.crossed = []
  let slot (u : State) : Slot := ((u.core d).poolPart pp).slot m
  (head → (∀ i ∈ q.lanes, s.vTarget c (q.laneAddr i) n .load (!q.skipTH) = .ok (pa i) ∧ s.tileBusy (pa i) = false) →
    ∃ u v, exec mem s = .next u ∧ (u.core c).vrun = some v ∧ v.vlq.map (·.seq) = rest.map (·.seq) ∧ v.idx = r.idx ∧ v.b = r.b ∧ SameBytes s u
      ∧ (u.strand c t).tok = x.tok.set tok.toNat (vget x.tok 0 tok.toNat - 1) tok.isLt ∧ (u.strand c t).vtag vd = BitVec.ofNat 4 ty
      ∧ (u.strand c t).s = x.s ∧ (∀ g, g ≠ vd → (u.strand c t).vreg g = x.vreg g ∧ (u.strand c t).vtag g = x.vtag g)
      ∧ (∀ i, i < 4096 / tWidth ty → laneAt ((u.strand c t).vreg vd) (tWidth ty) i
          = if i ∈ q.lanes then leValue (viewRead s (c / 8) (pa i) n) else laneAt (x.vreg vd) (tWidth ty) i)
      ∧ (q.op = .vldc e vd bn off tok → slotHolding s c r.entry.launch a l = some (d, pp, m) → (slot s).st = .sealed → 0 < (slot s).pend →
          (1 < (slot s).reads → slot u = { slot s with pend := (slot s).pend - 1, reads := (slot s).reads - 1 })
          ∧ ((slot s).reads ≤ 1 → ((s.core d).poolPart pp).queue = [] → slot u = { gen := (slot s).gen + 1 } ∧ (slot u).st = .free)))
  ∧ (head → j ∈ q.lanes → s.vTarget c (q.laneAddr j) n .load (!q.skipTH) = .error w →
      (∀ i ∈ q.lanes, i < j → s.vTarget c (q.laneAddr i) n .load (!q.skipTH) = .ok (pa i)) →
      ∃ u v, exec mem s = .next u ∧ (u.core c).vrun = some v ∧ v.flt = some w ∧ (u.strand c t).v = x.v ∧ (u.strand c t).tok = x.tok
        ∧ SameBytes s u)
  ∧ (head → (∀ i ∈ q.lanes, s.vTarget c (q.laneAddr i) n .load (!q.skipTH) = .ok (pa i)) →
      (∀ i ∈ q.lanes, p.lanes.getLsbD i = true → s.tileBusy (pa i) = false) →
    ∃ u v, exec (.tokenComplete c .load false (some p)) s = .next u ∧ (u.core c).vrun = some v ∧ v.vlq.map (·.seq) = r.vlq.map (·.seq)
      ∧ (u.strand c t).tok = x.tok ∧ SameBytes s u ∧ (u.strand c t).vtag vd = (if p.tag then BitVec.ofNat 4 ty else x.vtag vd)
      ∧ (∀ g, g ≠ vd → (u.strand c t).vreg g = x.vreg g ∧ (u.strand c t).vtag g = x.vtag g)
      ∧ ∀ i, i < 4096 / tWidth ty → laneAt ((u.strand c t).vreg vd) (tWidth ty) i
          = if i ∈ q.lanes ∧ p.lanes.getLsbD i then leValue (viewRead s (c / 8) (pa i) n) else laneAt (x.vreg vd) (tWidth ty) i)
  ∧ (let base : Int := q.cap.b.toNat
    let idx (m : Nat) : Int := let v := laneAt (q.cap.vals.getD m 0) (tWidth ty) j; if 2 ^ (tWidth ty - 1) ≤ v then (v : Int) - 2 ^ tWidth ty else v
    let is (i : Instr) (a : Int) : Prop := q.op = i → q.laneAddr j = (a % 2 ^ 48).toNat
    is (.vld e vd bn off tok) (base + 64 * off.toInt + n * j) ∧ is (.vldc e vd bn off tok) (base + 64 * off.toInt + n * j)
    ∧ is (.vst e vd bn off tok) (base + 64 * off.toInt + n * j) ∧ is (.vlds e vd bn off tok) (base + 64 * off.toInt + j * q.stride.toInt)
    ∧ is (.vldx e vd bn vi sc z tok) (base + 2 ^ sc.toNat * idx 0 + 64 * z.toNat)
    ∧ is (.vstx e vd bn vi sc z tok) (base + 2 ^ sc.toNat * idx 1 + 64 * z.toNat) ∧ is (.vatm e vd bn vi sc z tok) (base + 2 ^ sc.toNat * idx 1))
  ∧ (j ∈ q.lanes ↔ q.lane ≤ j ∧ j < 4096 / tWidth ty ∧ j < q.cap.shape.toNat / 16 % 2048 ∧ q.cap.kval.getLsbD j = true))
  ∧ (∀ (s : State) (c : Nat) (r : VRun) (q : VOp) (rest : List VOp) (pa : Nat → Nat) (e : Bool)
    (vd vi : BitVec 5) (bn tok : BitVec 3) (off : BitVec 13) (sc : BitVec 2) (z : BitVec 6) (near : Bool),
  let t := r.entry.strand
  let x := s.strand c t
  let k := c / 8
  let ty := q.cap.shape.toNat % 16
  let n := tWidth ty / 8
  let value (i : Nat) : Nat := laneAt (q.cap.vals.getD 0 0) (tWidth ty) i
  let lane (a : Nat) : Option Nat := q.lanes.reverse.find? (fun i => decide (pa i ≤ a) && decide (a < pa i + n))
  let byte (v : Nat → Nat) (i a : Nat) : Byte := BitVec.ofNat 8 (v i / 256 ^ (a - pa i))
  let stored (l : List Nat) : State := l.foldl (fun u i => storeAt u c (pa i) (leBytes n (value i)) 0 near none) s
  let changed (l : List Nat) : State := l.foldl (fun u i => (u.atomicAt c (pa i) 4 none (vAtomic q i)).2) s
  let old (i : Nat) : Nat := leValue ((List.range 4).map (fun m => s.seen k (pa i + m)))
  let sx (v : Nat) : Int := if 2 ^ 31 ≤ v then (v : Int) - 2 ^ 32 else v
  let f (i : Nat) : Nat :=
    let o := old i
    let b := value i
    match z.toNat with
    | 0 => (o + b) % 2 ^ 32
    | 1 => if sx b < sx o then b else o
    | 2 => if sx o < sx b then b else o
    | 3 => Nat.min o b
    | 4 => Nat.max o b
    | 5 => Nat.land o b
    | 6 => Nat.lor o b
    | 7 => Nat.xor o b
    | 8 => b
    | _ => (fAdd fmtF32 .rne false o b).1
  let head := (s.core c).vrun = some r ∧ r.vsq = q :: rest ∧ r.flt = none ∧ x.stop = none ∧ q.flt = none ∧ q.tok = tok ∧ r.ready q = true
    ∧ tWidth ty ≠ 4 ∧ (∀ o ∈ r.vlq, o.seq < q.seq → ∀ u ∈ o.lanesAt s c (o.lanes.filter (fun i => !o.hasRead i)), ∀ v ∈ q.lanesAt s c q.lanes, u.meets v = false)
  let reach (acc : Acc) (u : List Nat → State) : Prop := ∀ before i after, q.lanes = before ++ i :: after →
    (u before).vTarget c (q.laneAddr i) n acc (!q.skipTH) = .ok (pa i) ∧ winSplit (pa i) = none
  let done (u : State) (v : VRun) : Prop :=
    exec (.tokenComplete c .store near none) s = .next u ∧ (u.core c).vrun = some v ∧ v.vsq.map (·.seq) = rest.map (·.seq)
    ∧ v.bytes = r.bytes + n * q.lanes.length ∧ v.idx = r.idx
    ∧ (u.strand c t).tok = x.tok.set tok.toNat (vget x.tok 0 tok.toNat - 1) tok.isLt
    ∧ (∀ d, (u.core d).spad = (s.core d).spad) ∧ (∀ d, d ≠ c → u.core d = s.core d)
  (head → q.op ∈ [Instr.vst e vd bn off tok, .vstx e vd bn vi sc z tok] → reach .store stored →
    ∃ u v, done u v ∧ (u.strand c t).v = x.v ∧ (u.strand c t).tag = x.tag
      ∧ ∀ a, match lane a with
        | some i => u.seen k a = byte value i a ∧ (near = false → u.byteAt a = byte value i a)
        | none => u.seen k a = s.seen k a ∧ (¬ onTheWay s k a → u.byteAt a = s.byteAt a))
  ∧ (head → q.op = .vatm e vd bn vi sc z tok → ty ∈ [7, 8, 11] → reach .atomic changed → q.olds = [] → q.early = {} → q.crossed = [] → q.lane = 0 →
      (∀ i ∈ q.lanes, ∀ j ∈ q.lanes, i < j → pa i + 4 ≤ pa j ∨ pa j + 4 ≤ pa i) →
    ∃ u v, done u v ∧ (u.strand c t).vtag vd = BitVec.ofNat 4 ty
      ∧ (∀ g, g ≠ vd → (u.strand c t).vreg g = x.vreg g ∧ (u.strand c t).vtag g = x.vtag g)
      ∧ (∀ i, i < 128 → laneAt ((u.strand c t).vreg vd) 32 i = if i ∈ q.lanes then old i else laneAt (x.vreg vd) 32 i)
      ∧ ∀ a, match lane a with
        | some i => u.seen k a = byte f i a ∧ u.byteAt a = byte f i a
        | none => u.seen k a = s.seen k a ∧ (¬ onTheWay s k a → u.byteAt a = s.byteAt a)))

/-- R199 to R201, R204 to R211, R213: TOKEN_COMPLETE at the oldest predicate. Under EXACT and SOS a non-finite active lane stops the entry
with GEOM and nothing is written; else each active lane of vd takes the sign that the stages find, at stage 2 that of the exact
determinant, and where it is 0 under SOS that of the first nonzero cofactor, for GO2D and GO3D never 0; or 2 where it is not finite, with
the flag GEOM. GSX takes its code from its four orientations, or −1. vd + 1 takes
the stage under GSTAT, for GSX the highest of its orientations; other lanes stay, vd is tagged
i32, and token 0 counts one fewer. -/
def Obligations.PredicatesComplete : Prop := ∀ (s : State) (c : Nat) (r : VRun) (q : VOp) (rest : List VOp) (e : Bool) (vd vq vA : BitVec 5),
  let t := r.entry.strand
  let x := s.strand c t
  let mode := q.cap.shape.toNat / 2 ^ 20 % 4
  let sos := mode % 2 = 1
  let active (j : Nat) : Prop := j < 128 ∧ j < q.cap.shape.toNat / 16 % 2048 ∧ q.cap.kval.getLsbD j = true
  let bad (j : Nat) : Prop := ∃ v ∈ q.cap.vals, laneAt v 32 j / 2 ^ 23 % 256 = 255
  let at_ (j n : Nat) : Nat := laneAt (q.cap.vals.getD n 0) 32 j
  let points (j : Nat) : List Dy := (List.range q.cap.vals.length).map (fun n => fDy fmtF32 (at_ j n))
  let step := Instr.tokenComplete c .esu false none
  let head := (s.core c).vrun = some r ∧ r.esu = q :: rest ∧ r.flt = none ∧ x.stop = none ∧ q.flt = none ∧ q.tok = 0
    ∧ q.early = {} ∧ q.crossed = []
  let word := q.op ∈ [Instr.go2d e vd vq vA, .go3d e vd vq vA, .gic e vd vq vA, .gis e vd vq vA, .gsx e vd vA]
  let sign (w : Det) : Prop := q.op = (match w with
    | .go2d => .go2d e vd vq vA | .go3d => .go3d e vd vq vA | .gic => .gic e vd vq vA | .gis => .gis e vd vq vA)
  let segments := q.op = .gsx e vd vA
  let stages := q.cap.shape.getLsbD 22 = true
  let y (u : State) (j : Nat) : Nat := laneAt ((u.strand c t).vreg vd) 32 j
  let stage (u : State) (j : Nat) : Nat := laneAt ((u.strand c t).vreg (vd + 1)) 32 j
  let pat (z : Int) : Nat := (z % 2 ^ 32).toNat
  -- the sign of an orientation of the segments' points, and one that SOS has made nonzero
  let triple (j : Nat) (a b d : Nat) : List Dy := [a, b, d].flatMap (fun m => [(points j).getD (2 * m) ⟨0, 0⟩, (points j).getD (2 * m + 1) ⟨0, 0⟩])
  let turn (j n : Nat) : Int × Nat := match n with
    | 1 => detSign .go2d (triple j 0 1 2) | 2 => detSign .go2d (triple j 0 1 3)
    | 3 => detSign .go2d (triple j 2 3 0) | _ => detSign .go2d (triple j 2 3 1)
  let o (j n : Nat) : Int := (turn j n).1
  let so (j n : Nat) : Nat := (turn j n).2
  let sorted (j n : Nat) : List Dy := match n with
    | 1 => triple j 0 1 2 | 2 => triple j 0 1 3 | 3 => triple j 0 2 3 | _ => triple j 1 2 3
  let perturbed (j n : Nat) : Int := if o j n ≠ 0 then o j n else ((cofactors .go2d (sorted j n)).find? (fun z => z ≠ 0)).getD 0
  -- the points of the segments in the order of a line they share
  let pt (j m : Nat) : Int × Int := (valF 11 (at_ j (2 * m)), valF 11 (at_ j (2 * m + 1)))
  let below (a b : Int × Int) : Prop := a.1 < b.1 ∨ (a.1 = b.1 ∧ a.2 < b.2)
  let on (j : Nat) (z : Int × Int) (m : Nat) : Prop := (¬ below z (pt j m) ∧ ¬ below (pt j (m + 1)) z) ∨ (¬ below z (pt j (m + 1)) ∧ ¬ below (pt j m) z)
  let shared (j : Nat) (z : Int × Int) : Prop := z ∈ [pt j 0, pt j 1, pt j 2, pt j 3] ∧ on j z 0 ∧ on j z 2
  (head → word → mode < 2 → (∃ j, active j ∧ bad j) →
    ∃ u v, exec step s = .next u ∧ (u.core c).vrun = some v ∧ v.flt = some ⟨.geom, 0, 0⟩ ∧ (u.strand c t).v = x.v ∧ (u.strand c t).tag = x.tag
      ∧ (u.strand c t).tok = x.tok)
  ∧ (head → word → (2 ≤ mode ∨ ∀ j, active j → ¬ bad j) →
    ∃ u v, exec step s = .next u ∧ (u.core c).vrun = some v ∧ v.esu.map (·.seq) = rest.map (·.seq)
      ∧ (u.strand c t).tok = x.tok.set 0 (x.tok[0] - 1) ∧ (u.strand c t).vtag vd = 7
      ∧ (∀ g, g ≠ vd → (stages → g ≠ vd + 1) → (u.strand c t).vreg g = x.vreg g ∧ (u.strand c t).vtag g = x.vtag g)
      ∧ (stages → (u.strand c t).vtag (vd + 1) = 7 ∧ (∀ j, active j → bad j → stage u j = 3)
          ∧ ∀ j, j < 128 → ¬ active j → stage u j = laneAt (x.vreg (vd + 1)) 32 j)
      ∧ (∀ j, j < 128 → ¬ active j → y u j = laneAt (x.vreg vd) 32 j)
      ∧ (∀ j, active j → bad j → y u j = if segments then 2 ^ 32 - 1 else 2)
      ∧ ((∃ j, active j ∧ bad j) → (u.strand c t).fflags = x.fflags ||| 32) ∧ ((∀ j, active j → ¬ bad j) → (u.strand c t).fflags = x.fflags)
      ∧ (∀ w j, sign w → active j → ¬ bad j →
          let z := detSign w (points j)
          (z.1 ≠ 0 → y u j = pat z.1) ∧ (z.1 = 0 → ¬ sos → y u j = 0)
          ∧ (z.1 = 0 → sos → y u j = pat (((cofactors w (points j)).find? (fun z => z ≠ 0)).getD 0))
          ∧ (sos → w = .go2d ∨ w = .go3d → y u j ≠ 0) ∧ y u j ∈ [0, 1, 2 ^ 32 - 1]
          ∧ (stages → stage u j = z.2) ∧ z.2 ≤ 2 ∧ (z.2 = 2 → z.1 = (exactDet w (fun n => valF 11 (at_ j n))).sign))
      ∧ (segments → ∀ j, active j → ¬ bad j → (stages → stage u j = max (max (so j 1) (so j 2)) (max (so j 3) (so j 4)))
          ∧ (sos → y u j = if perturbed j 1 ≠ perturbed j 2 ∧ perturbed j 3 ≠ perturbed j 4 then 1 else 0)
          ∧ (¬ sos → ¬ (o j 1 = 0 ∧ o j 2 = 0 ∧ o j 3 = 0 ∧ o j 4 = 0) →
              y u j = if o j 1 * o j 2 ≤ 0 ∧ o j 3 * o j 4 ≤ 0 then (if o j 1 * o j 2 * o j 3 * o j 4 = 0 then 2 else 1) else 0)
          ∧ (¬ sos → o j 1 = 0 → o j 2 = 0 → o j 3 = 0 → o j 4 = 0 →
              ((∀ z, ¬ shared j z) → y u j = 0) ∧ ((∃ z, shared j z ∧ ∀ z', shared j z' → z' = z) → y u j = 2)
              ∧ ((∃ z z', shared j z ∧ shared j z' ∧ z ≠ z') → y u j = 3))))

/-- R199, R202 to R204, R209: on finite coordinates the sign is that of the exact determinant, whichever stage resolves it. Stage 0 does where
its f32 evaluation in the order written stays in range and exceeds its bound; else stage 1, where the exponents span at most 100 and its
128-bit evaluation exceeds its bound; else stage 2. The cofactors of SOS have the signs of those of the manual's table, in its order. -/
def Obligations.PredicateSignsExact : Prop := ∀ (w : Det) (l : List Nat), (∀ v ∈ l, finF 11 v ∧ v < 2 ^ 32) →
  let x (n : Nat) : Int := valF 11 (l.getD n 0)
  let r := detSign w (l.map (fDy fmtF32))
  let d0 (pos : Bool) : Int := (geoExpr w).val (GeoExpr.round 24) (GeoExpr.round 24) pos x
  let d1 (pos : Bool) : Int := (geoExpr w).val id (GeoExpr.round 128) pos x
  let first := (geoExpr w).inRange false x ∧ (geoExpr w).inRange true x ∧ exceeds w 24 (d0 false) (d0 true)
  let span := ∀ u ∈ l, ∀ v ∈ l, valF 11 u ≠ 0 → valF 11 v ≠ 0 → (valF 11 u).natAbs.log2 ≤ (valF 11 v).natAbs.log2 + 100
  let second := span ∧ exceeds w 128 (d1 false) (d1 true)
  r.1 = (exactDet w x).sign
  ∧ (first → r.2 = 0) ∧ (¬ first → second → r.2 = 1) ∧ (¬ first → ¬ second → r.2 = 2)
  ∧ cofactors w (l.map (fDy fmtF32)) = (exactCofactors w x).map Int.sign

-- M and X words

/-- R60, R168, R236: the entry-register words of both engines complete in their issue slot: they write one register of the entry, and
the entry goes on. A repeat covers the next n words k times where R60 allows it, and stops its entry with ILLEGAL elsewhere. XMRK
waits until every move of its entry has performed (R178). -/
def Obligations.EntryRegisterWords : Prop := ∀ (s : State) (m : MRun) (x : XRun) (e : Bool) (ed ea eb : BitVec 4) (imm : BitVec 22)
    (n : BitVec 4) (k : BitVec 12),
  let c := s.focus
  let mset (v : Word) : MRun := afterM { m with e := m.e.set ed.toNat v ed.isLt } e
  let xset (v : Word) : XRun := afterX { x with e := x.e.set ed.toNat v ed.isLt } e
  let me (r : BitVec 4) : Word := m.e[r.toNat]'r.isLt
  let xe (r : BitVec 4) : Word := x.e[r.toNat]'r.isLt
  let mgo (i : Instr) (r : MRun) : Prop := ∃ t, exec i s = .next t ∧ RunsM s t r
  let xgo (i : Instr) (r : XRun) : Prop := ∃ t, exec i s = .next t ∧ RunsX s t r
  (MayIssueM s m →
    mgo (.mnop e) (afterM m e) ∧ mgo (.meadd e ed ea eb) (mset (me ea + me eb))
    ∧ mgo (.meli e ed imm) (mset (imm.signExtend 64)) ∧ mgo (.memov e ed ea) (mset (me ea))
    ∧ (e = false → repeatable s c .m m.entry n.toNat (m.idx + 1) = true →
        mgo (.mrep e n k) { m with idx := m.idx + 1, pass := 0, rep := some ⟨m.idx + 1, n.toNat, k.toNat⟩ })
    ∧ (e = true ∨ repeatable s c .m m.entry n.toNat (m.idx + 1) = false →
        ∃ t, exec (.mrep e n k) s = .next t ∧ EntryStops s t c (s.core c) .m m.entry ⟨.illegal, 0, 0⟩))
  ∧ (MayIssueX s x →
    xgo (.xnop e) (afterX x e) ∧ xgo (.xeadd e ed ea eb) (xset (xe ea + xe eb))
    ∧ xgo (.xeli e ed imm) (xset (imm.signExtend 64)) ∧ xgo (.xemov e ed ea) (xset (xe ea))
    ∧ (e = false → repeatable s c .x x.entry n.toNat (x.idx + 1) = true →
        xgo (.xrep e n k) { x with idx := x.idx + 1, pass := 0, rep := some ⟨x.idx + 1, n.toNat, k.toNat⟩ })
    ∧ (e = true ∨ repeatable s c .x x.entry n.toNat (x.idx + 1) = false →
        ∃ t, exec (.xrep e n k) s = .next t ∧ EntryStops s t c (s.core c) .x x.entry ⟨.illegal, 0, 0⟩)
    ∧ (x.moves = [] → xgo (.xmrk e) (afterX x e)) ∧ (x.moves ≠ [] → exec (.xmrk e) s = .next s))

/-- R233, R235, R237, R238, R241, R243, R244, R322, R323: the issue of the matrix steps, on a free unit and tile and with the charge paid.
The step enters the steps that have not finished, once its consuming accesses have passed their checks, with its tile as the entry maps it,
what it reads and writes, and the slot it finishes in at the earliest; the cells change at its finish. A step that finds its tile or unit
in use, no charge, or an unfinished step that touches its bytes waits; a charge above the capacity stops the entry with POWER; and
M_STEP_FINISH before the slot a step finishes in at the earliest changes nothing. That a step which touches the bytes of an unfinished one
waits to issue is log entry 15, that a step pays before its checks log entry 16, and that an MDRN has issued, for its number, once it no
longer waits log entry 17 (all DEDUCED). -/
def Obligations.MatrixStepsIssue : Prop := ∀ (s u : State) (r : MRun) (e : Bool) (acc : BitVec 2) (ea eb ed dt ts er : BitVec 4)
    (cna cnb byp ls : Bool) (mc : BitVec 3) (md : BitVec 2) (ty : Nat) (l : List (List (Nat × Nat))) (p q : List (Nat × Nat)),
  let c := s.focus
  let reg (n : BitVec 4) : Nat := (r.e[n.toNat]'n.isLt).toNat % 2 ^ 48
  let tile : BitVec 3 := r.entry.map.extractLsb' (3 * acc.toNat) 3
  let others (mma : Bool) : Prop := ∀ o ∈ r.steps, o.tile = tile → mma = true ∧ isMma o.op = true
  let ends := (r.steps.filter (fun o => isMma o.op)).map (·.fin)
  let drainFree := ∀ o ∈ r.steps, isMma o.op = true ∨ isMzro o.op = true
  let k := s.core c
  let waits (i : Instr) : Prop := exec i s = .next s
  let goes (i : Instr) (cost bump : Nat) (m : MStep) : Prop :=
    let k' : Core := { charged k 1 cost with drainSeq := k.drainSeq + BitVec.ofNat 16 bump }
    (Affords k 1 cost → r.conflicts m = true → waits i) ∧ (costOf k cost ≤ 64 * k.level → ¬ Affords k 1 cost → waits i)
    ∧ (64 * k.level < costOf k cost → ∃ t, exec i s = .next t ∧ EntryStops s t c k .m r.entry ⟨.power, 0, 0⟩)
    ∧ (Affords k 1 cost → r.conflicts m = false → (s.setCore c k').consumeAll c r.entry.launch m.held = .ok u →
      ∃ t, exec i s = .next t ∧ OnlyCore u t c { u.core c with
        mrun := some (afterM { r with steps := r.steps ++ [{ m with seq := k.drainSeq, issued := s.tick }] } e) })
  let zero : MStep := { op := .mzro e acc, tile := tile, fin := r.slot + 1 }
  let a := reg ea
  let b := reg eb
  let size := 64 + 512 * tWidth ty + 256
  let mma : MStep :=
    { op := .mma e acc ea eb cna cnb byp ls mc, tile := tile, tag := ty, src := if byp then [] else [(a, size)], src2 := [(b, size)]
      held := (if cna then [(a, size)] else []) ++ (if cnb then [(b, size)] else [])
      fin := max (r.slot + 68) (ends.foldl max r.mmaEnd + 64) }
  let object (x so : Nat) : Prop := x % 64 = 0 ∧ inSpad s c x size = true ∧ headerType (physRead s x 64) so = some ty
    ∧ s.eccAt (c / 768) x = none ∧ r.pending [(x, 64)] = false
  let drain (src dst : List (Nat × Nat)) : MStep :=
    { op := .mdrn e acc ed dt ts md er, tile := tile, src := src, dst := dst, fin := r.slot + 68 }
  let bytes := if 12 ≤ dt.toNat ∧ dt.toNat ≤ 14 then 64 + 512 * tWidth dt.toNat + 256 else 512 * tWidth dt.toNat
  let dest : List (Nat × Nat × Bool × Bool) := if md = 2 then [] else [(reg ed, bytes, md = 1, true)]
  let at_ := ((l.headD []).headD (0, 0)).1
  let recs : List (Nat × Nat × Bool × Bool) := if er = 0 then [] else [(reg er, 512, true, false)]
  MayIssueM s r →
    (others false → goes (.mzro e acc) 0 0 zero)
    ∧ (¬ others false → ∀ i ∈ [Instr.mzro e acc, .mdrn e acc ed dt ts md er, .mlda e acc ea, .msta e acc ea], waits i)
    ∧ (¬ others true ∨ 2 ≤ ends.length ∨ (∃ f ∈ ends, r.slot + 4 < f) → waits mma.op)
    ∧ (¬ drainFree → ∀ i ∈ [Instr.mdrn e acc ed dt ts md er, .mlda e acc ea, .msta e acc ea], waits i)
    ∧ (others true → ends.length ≤ 1 → (∀ f ∈ ends, f ≤ r.slot + 4) → object b 1 →
        (byp = false → object a 0) → (byp = true → ty = 13 ∧ cna = false ∧ r.byp.isSome = true ∧ ∀ o ∈ r.steps, writesBypass o.op = false) →
        inSpad s c b 64 = true → (byp = false → inSpad s c a 64 = true) → goes mma.op 512 0 mma)
    ∧ (others false → drainFree → drainRanges s (dest ++ recs) = .ok l →
        (md = 1 → 12 ≤ dt.toNat → dt.toNat ≤ 14 → r.pending [(at_, 64)] = false ∧ s.piecesEcc c [(at_, 64)] = none ∧ headerType (viewRead s (c / 8) at_ 64) 0 = some dt.toNat) →
        goes (.mdrn e acc ed dt ts md er) 256 1
          (drain (if er = 0 then [] else l.getLastD []) (if md = 2 then [] else l.headD [])))
    ∧ (others false → drainFree → drainRanges s [(reg ea, 32768, true, false)] = .ok [p] →
        goes (.mlda e acc ea) 256 0 { op := .mlda e acc ea, tile := tile, src := p, fin := r.slot + 260 })
    ∧ (others false → drainFree → drainRanges s [(reg ea, 32768, false, true)] = .ok [q] →
        goes (.msta e acc ea) 256 0 { op := .msta e acc ea, tile := tile, dst := q, fin := r.slot + 260 })
    ∧ ∀ n m stale, r.steps[n]? = some m → r.slot + 1 < m.fin → waits (.mStepFinish c n ⟨stale, none⟩)

/-- R221, R222, R224, R226, R227: a cell folds a product into the integer it holds, each residue by its own modulus; and a drain rebuilds
from the cell of x + k · M, for x in the cell's range, the integer x, and the number k that tells an overflow and its sign.
R137, R227, R229 to R232: an element of a drain under the scale s and the multiplier r, with o the old element in add mode. An integer or
bq destination takes X · s · r + D rounded to nearest and clamped, 0 where that is a NaN, and the end of its range where it is infinite; a
float takes X · s + D rounded once, or the NaN or infinity of R137 (an f32 NaN keeps the top of its payload: log entry 81, DESIGN CHOICE); on
an overflow it takes the largest finite number on k's side. The classes are those of R232. The sign of an exact zero is log entry 8,
and that a result counts as saturated when the rounded t lies outside the range is log entry 18 (both DEDUCED). -/
def Obligations.ResidueArithmetic : Prop :=
  (∀ (t z x k : Int),
  let M : Int := 8191 * 8192 * 8193
  foldCell (cellOf t) z = cellOf (t + z)
  ∧ (-(M / 2) ≤ x → x < M / 2 → -128 ≤ k → k < 128 → rebuild (cellOf (x + k * M)) = (x, k)))
  ∧ (∀ (x k : Int) (s r dt : Nat) (o : Option Nat),
  let M : Int := 8191 * 8192 * 8193
  let b := if dt = 14 then 12 else tWidth dt
  let lo : Int := -(2 ^ (b - 1))
  let hi : Int := 2 ^ (b - 1) - 1
  let clamp (v : Int) : Nat := ((if v < lo then lo else if hi < v then hi else v) % 2 ^ tWidth dt).toNat
  let D : Int := match o with | none => 0 | some d => if d % 2 ^ b < 2 ^ (b - 1) then d % 2 ^ b else (d % 2 ^ b : Nat) - 2 ^ b
  let y : Drained := drainElement dt (cellOf (x + k * M)) s r o
  let infinite (ty v : Nat) : Prop := ¬ finF ty v ∧ ¬ nanF ty v
  let invalid := nanF 11 s ∨ nanF 11 r ∨ ((¬ finF 11 s ∨ ¬ finF 11 r) ∧ (x = 0 ∨ valF 11 s = 0 ∨ valF 11 r = 0))
  let neg : Bool := decide (x < 0) != negF 11 s
  let d : Nat := o.getD 0
  let oNan := o ≠ none ∧ nanF dt d
  let oInf := o ≠ none ∧ infinite dt d
  let carried := quietF dt (signF dt (negF 11 s) + infOf dt + s % 2 ^ 23 / 2 ^ (23 - fracBits dt))
  let plain := y.sat = false ∧ y.ovf = false
  s < 2 ^ 32 → r < 2 ^ 32 → d < 2 ^ tWidth dt → -(M / 2) ≤ x → x < M / 2 → -128 ≤ k → k < 128 →
    (dt ∈ [3, 5, 7, 12, 13, 14] →
      (k = 0 → invalid → y = { bits := 0, nan := true })
      ∧ (k = 0 → ¬ invalid → ¬ finF 11 s ∨ ¬ finF 11 r → y = { bits := clamp (if neg != negF 11 r then lo else hi), sat := true, inf := true })
      ∧ (k = 0 → finF 11 s → finF 11 r → ∃ z, IntegerF 0 (x * valF 11 s * valF 11 r + D * 2 ^ 298) (2 ^ 298) z
          ∧ y = { bits := clamp z, sat := decide (z < lo ∨ hi < z) })
      ∧ (k ≠ 0 → y = { bits := clamp (if k < 0 then lo else hi), sat := true, ovf := true }))
    ∧ (dt ∈ [9, 10, 11] →
      (k = 0 → plain ∧ (y.nan = true ↔ nanF dt y.bits) ∧ (y.inf = true ↔ infinite dt y.bits))
      ∧ (k = 0 → nanF 11 s → y.bits = carried) ∧ (k = 0 → ¬ nanF 11 s → oNan → y.bits = quietF dt d)
      ∧ (k = 0 → infinite 11 s → ¬ oNan →
          y.bits = if x = 0 ∨ (oInf ∧ negF dt d ≠ neg) then defaultF dt else signF dt neg + infOf dt)
      ∧ (k = 0 → finF 11 s → oInf → y.bits = d)
      ∧ (k = 0 → finF 11 s → o = none → (ratioF (x * valF 11 s * 2 ^ unitExp dt) (2 ^ 149) neg).result dt 0 false y.bits)
      ∧ (k = 0 → finF 11 s → o ≠ none → finF dt d →
          (ratioF (x * valF 11 s * 2 ^ unitExp dt + valF dt d * 2 ^ 149) (2 ^ 149) (zeroSum 0 neg (negF dt d))).result dt 0 false y.bits)
      ∧ (k ≠ 0 → y = { bits := signF dt (decide (k < 0)) + infOf dt - 1, sat := true, ovf := true })))

/-- R223, R233, R237, R239, R243: M_STEP_FINISH of a step whose slot has come and that meets no fenced unit. MZRO sets the tile's cells to 0
and its scales to +1.0; MMA folds into cell (i, j) the inner product of row i of A and column j of B, tile objects of one type, and with
LS copies their scales; MLDA stores the words it reads, made canonical; MSTA writes its cells' words, in the cluster's cache or at their
homes (R101, log entry 13), which the byte total counts. The step leaves; other tiles stay.
R229 to R232, R241, R242, R246, R248: M_STEP_FINISH of MDRN. Each element takes what its cell stands for under the product of its row's
and column's scales, the record's multiplier of its row and, in add mode, the old element; a bq destination gets its header and the record's
output scales with them; the bytes go to the destination in memory or to the bypass buffer. The tile-status register takes the count of
saturated elements, to at most 255, and its flags; every block with an overflow that has not been converted pushes its event, in row-major
order, while the queue holds fewer than 32, and LOST is set when one is lost. A step that has its conversions up to a block end pushes
those of the blocks it passes and nothing else. The cells stay. That a part of
the blocks may give its events before the rest is log entry 14, DESIGN CHOICE; which results count as saturated is log entry 18, DEDUCED. -/
def Obligations.MatrixStepsFinish : Prop :=
  (∀ (s : State) (c n : Nat) (r : MRun) (m : MStep) (e : Bool) (acc : BitVec 2) (ea eb : BitVec 4)
    (cna cnb byp ls near : Bool) (mc : BitVec 3) (i j p : Nat),
  let k := s.core c
  let tile := k.tiles[m.tile.toNat]'m.tile.isLt
  let cell (t : Tile) (i j : Nat) : BitVec 48 := Sparse.get 0 t.cells (64 * i + j)
  let read (l : List (Nat × Nat)) : List Byte := l.flatMap (fun e => viewRead s (c / 8) e.1 e.2)
  let w := tWidth m.tag
  let A := if byp then r.byp.getD [] else read m.src
  let B := read m.src2
  let val (x : List Byte) (n : Nat) : Int := laneInt m.tag (elemAt w (x.drop 64) n)
  let sum : Int := ((List.range 64).map (fun q => val A (64 * i + q) * val B (64 * q + j))).sum
  let scale (x : List Byte) (n : Nat) : BitVec 32 := BitVec.ofNat 32 (leValue ((x.drop (64 + 512 * w + 4 * n)).take 4))
  let word := leValue (((read m.src).drop (8 * (64 * i + j))).take 8)
  let finishes (u : State) (t : Tile) : Prop := exec (.mStepFinish c n ⟨false, none⟩) s = .next u
    ∧ (u.core c).tiles = k.tiles.set m.tile.toNat t m.tile.isLt ∧ (∃ v, (u.core c).mrun = some v ∧ v.steps.length + 1 = r.steps.length
      ∧ v.idx = r.idx ∧ v.e = r.e) ∧ (∀ d, d ≠ c → u.core d = s.core d) ∧ (u.core c).strands = k.strands ∧ SameBytes s u
  k.mrun = some r → r.steps[n]? = some m → m.fin ≤ r.slot + 1 → s.stepEcc c m = none → i < 64 → j < 64 →
    (m.op = .mzro e acc → ∃ u, finishes u {})
    ∧ (m.op = .mma e acc ea eb cna cnb byp ls mc → m.held = [] → m.tag ∈ [12, 13, 14] → A.length = 320 + 512 * w → B.length = 320 + 512 * w →
        (∀ o ∈ r.steps.take n, isMma o.op = false) →
        ∃ u t, finishes u t ∧ cell t i j = foldCell (cell tile i j) sum
          ∧ (ls = true → Sparse.get 0x3F80_0000 t.rows i = scale A i ∧ Sparse.get 0x3F80_0000 t.cols j = scale B j)
          ∧ (ls = false → t.rows = tile.rows ∧ t.cols = tile.cols))
    ∧ (m.op = .mlda e acc ea → (read m.src).length = 32768 → ∃ u t, finishes u t ∧ t.rows = tile.rows ∧ t.cols = tile.cols
        ∧ cell t i j = BitVec.ofNat 48 (word % 8192 % 8191 + word / 2 ^ 13 % 2 ^ 21 * 2 ^ 13 + word / 2 ^ 34 % 2 ^ 14 % 8193 * 2 ^ 34))
    ∧ (m.op = .msta e acc ea → m.dst = [(p, 32768)] → winSplit p = none → ∃ u v, exec (.mStepFinish c n ⟨near, none⟩) s = .next u
        ∧ (u.core c).mrun = some v ∧ v.bytes = r.bytes + 32768 ∧ (u.core c).tiles = k.tiles
        ∧ LaysDown s u (c / 8) near p 32768 (fun b => BitVec.ofNat 8 ((cell tile (b / 512) (b / 8 % 64)).toNat / 256 ^ (b % 8)))))
  ∧ (∀ (s : State) (c n : Nat) (r : MRun) (m : MStep) (e near : Bool) (acc : BitVec 2)
    (ed dt ts er : BitVec 4) (md : BitVec 2) (p b : Nat),
  let k := s.core c
  let t := r.entry.strand
  let x := s.strand c t
  let tile := k.tiles[m.tile.toNat]'m.tile.isLt
  let cell (i j : Nat) : BitVec 48 := Sparse.get 0 tile.cells (64 * i + j)
  let read (l : List (Nat × Nat)) : List Byte := l.flatMap (fun e => viewRead s (c / 8) e.1 e.2)
  let ty := dt.toNat
  let w := tWidth ty
  let bq : Bool := 12 ≤ ty && ty ≤ 14
  let size := if bq then 64 + 512 * w + 256 else 512 * w
  let data (l : List Byte) : List Byte := if bq then (l.drop 64).take (512 * w) else l
  let number (l : List Byte) (at_ : Nat) : Nat := leValue ((l.drop at_).take 4)
  let one := 0x3F80_0000
  let row (i : Nat) : Nat := if er = 0 then one else number (read m.src) (4 * i)
  let out (i : Nat) : Nat := if er = 0 then one else number (read m.src) (256 + 4 * i)
  let elem (i j : Nat) : Drained := drainElement ty (cell i j)
    (fMul fmtF32 .rne false (Sparse.get 0x3F80_0000 tile.rows i).toNat (Sparse.get 0x3F80_0000 tile.cols j).toNat).1 (row i)
    (if md = 1 then some (elemAt w (data (read m.dst)) (64 * i + j)) else none)
  let all := (List.range 64).flatMap (fun i => (List.range 64).map (elem i))
  let written (bs : List Byte) : Prop := bs.length = size ∧ (∀ i j, i < 64 → j < 64 → elemAt w (data bs) (64 * i + j) = (elem i j).bits)
    ∧ (bq = true → headerType (bs.take 64) 0 = some ty ∧ ∀ i, i < 64 → number bs (64 + 512 * w + 4 * i) = out i)
  let block (b : Nat) : List Int := (List.range 8).flatMap (fun i => (List.range 8).map (fun j => (rebuild (cell (8 * (b / 8) + i) (8 * (b % 8) + j))).2))
  let event (b : Nat) : Word := BitVec.ofNat 64 (2 ^ 63 + m.seq.toNat * 2 ^ 32 + m.tile.toNat * 2 ^ 24 + t.toNat * 2 ^ 22 + acc.toNat * 2 ^ 20
    + ts.toNat * 2 ^ 16 + b2n ((block b).any (fun z => 0 < z)) * 2 ^ 15 + b2n ((block b).any (fun z => z < 0)) * 2 ^ 14 + b * 2 ^ 8
    + (block b).countP (fun z => z ≠ 0))
  let events (a b : Nat) : List Word := (((List.range b).drop a).filter (fun b => (block b).any (fun z => z ≠ 0))).map event
  let room := 32 - k.ovq.length
  let queue (a b : Nat) : List (Word × Nat) := k.ovq ++ ((events a b).take room).map (fun z => (z, s.armOf c r.entry.launch))
  let lost (a b : Nat) : Bool := m.lost || decide (room < (events a b).length)
  let status : Nat := min 255 (all.countP (·.sat)) * 256 + b2n (lost m.blocks 64) * 8 + b2n (all.any (·.ovf)) * 4 + b2n (all.any (·.inf)) * 2
    + b2n (all.any (·.nan))
  let finishes (u : State) (v : MRun) : Prop := exec (.mStepFinish c n ⟨near, none⟩) s = .next u ∧ (u.core c).mrun = some v
    ∧ v.steps.length + 1 = r.steps.length ∧ v.idx = r.idx ∧ v.e = r.e ∧ (u.core c).tiles = k.tiles ∧ (u.core c).ovq = queue m.blocks 64
    ∧ (u.core c).strands = k.strands.set t.toNat { x with ts := x.ts.set ts.toNat (BitVec.ofNat 16 status) ts.isLt } t.isLt
    ∧ ∀ d, d ≠ c → u.core d = s.core d
  k.mrun = some r → r.steps[n]? = some m → m.op = .mdrn e acc ed dt ts md er → 1 ≤ ty → ty ≤ 14 → s.stepEcc c m = none →
  (er ≠ 0 → (read m.src).length = 512) →
    (m.fin ≤ r.slot + 1 → md = 2 → near = false → ∃ u v bs, finishes u v ∧ v.byp = some bs ∧ written bs ∧ v.bytes = r.bytes ∧ SameBytes s u)
    ∧ (m.fin ≤ r.slot + 1 → md.toNat < 2 → m.dst = [(p, size)] → winSplit p = none → near = false →
        ∃ u v bs, finishes u v ∧ v.byp = r.byp ∧ written bs ∧ v.bytes = r.bytes + size
          ∧ LaysDown s u (c / 8) false p size (fun b => bs.getD b 0))
    ∧ (m.blocks < b → b ≤ 64 → ∃ u, exec (.mStepFinish c n ⟨near, some b⟩) s = .next u ∧ OnlyCore s u c { k with
        ovq := queue m.blocks b, mrun := some { r with steps := r.steps.set n { m with blocks := b, lost := lost m.blocks b } } }))

/-- R167, R169 to R175, R181, R322: the issue of a transfer step behind fewer than eight moves, with its charge paid. Where its checks
pass, with a length that is not 0 and below 2^32, it starts its move phase with the physical ranges they give and the entry goes on;
length 0 does nothing; a longer length stops the entry with FORMAT. R187, R323: it waits behind eight moves, for its charge, and while an
index list that it is to read lies in a tile in use; R93, R314: an index list in a fenced unit stops it with ECC as it reads it. That a
step has paid before its checks is log entry 16, DEDUCED; the ECC subcause is log entry 49, DEDUCED, and the VADDR of XBRD's WINDOW log
entry 100, DESIGN CHOICE. The checks of XTEN are those of TensorMoves. -/
def Obligations.TransferStepsStart : Prop := ∀ (s u s2 : State) (r : XRun) (e : Bool) (ed es en : BitVec 4) (cn cb ty dir : Bool)
    (mc : BitVec 3) (xp : BitVec 2) (ra rd : List (List (Nat × Nat))) (list : List (List (Nat × Nat))) (m : XMove),
  let c := s.focus
  let s1 := s.setCore c (charged (s.core c) 2 16)
  let num (n : BitVec 4) : Nat := (r.e[n.toNat]'n.isLt).toNat
  let at_ (n : BitVec 4) : Nat := num n % 2 ^ 48
  let n := num en
  let a := at_ es
  let d := at_ ed
  let may := MayIssueX s r ∧ r.moves.length < 8 ∧ Affords (s.core c) 2 16
  let next := afterX r e
  let idle (i : Instr) : Prop := ∃ t, exec i s = .next t ∧ OnlyCore s1 t c { s1.core c with xrun := some next }
  let starts (i : Instr) (s2 : State) (m : XMove) : Prop := s2.consumeAll c r.entry.launch m.held.toList = .ok u →
    ∃ t, exec i s = .next t ∧ OnlyCore u t c
      { u.core c with xrun := some { next with moves := r.moves ++ [{ m with after := (next.idx, next.pass), tick := s.tick }] } }
  let stops (i : Instr) (w : Trouble) : Prop := ∃ t, exec i s = .next t ∧ EntryStops s1 t c (s1.core c) .x r.entry w
  let plain := [Instr.xcpy e ed es en cn cb, .xfil e ed es en, .xbrd e ed es en mc, .xred e ed es en ty]
  let loads (l : List (Nat × Nat)) (r : List (List (Nat × Nat))) : Prop := resolveRanges s1 c .load transferOk l = .ok r
  let stores (l : List (Nat × Nat)) (r : List (List (Nat × Nat))) : Prop := resolveRanges s1 c .store transferOk l = .ok r
  let cz := if en.toNat = 15 then 0 else num (en + 1)
  let cnt := cz % 2 ^ 32
  let z := cz / 2 ^ 32 % 2 ^ 16
  let keys := words32 (readPieces s1 c false r.entry.since list.flatten).1
  let after := (readPieces s1 c false r.entry.since list.flatten).2
  let elems (b : Nat) : List (Nat × Nat) := keys.map (fun k => ((b + k * z) % 2 ^ 48, z))
  let busy := s1.piecesBusy list.flatten = true
  let clean := s1.piecesBusy list.flatten = false ∧ s1.piecesEcc c list.flatten = none
  let listed := en.toNat ≠ 15 ∧ cz / 2 ^ 48 = 0 ∧ cnt ≠ 0 ∧ z ≠ 0 ∧ cnt * z < 2 ^ 32 ∧ at_ en % 4 = 0 ∧ loads [(at_ en, 4 * cnt)] list
  let members := ((List.range 8).filter (fun i =>
    (s1.recField (s1.partOf c) r.entry.launch.toNat (127 + mc.toNat) 1).testBit i)).map (fun i => 8 * (c / 8) + i)
  let all := plain ++ [Instr.xgat e ed es en, .xsct e ed es en, .xten e ed es en xp dir]
  (MayIssueX s r → 8 ≤ r.moves.length ∨ ¬ Affords (s.core c) 2 16 → ∀ i ∈ all, exec i s = .next s)
  ∧ (may →
    (n = 0 → ∀ i ∈ plain, idle i) ∧ (2 ^ 32 ≤ n → ∀ i ∈ plain, stops i ⟨.format, 0, 0⟩)
    ∧ (0 < n → n < 2 ^ 32 →
        (boundsOf [(a, n), (d, n)] = none → loads [(a, n)] ra → stores [(d, n)] rd → starts (.xcpy e ed es en cn cb) s1
            { op := .xcpy e ed es en cn cb, src := ra.flatten, dst := rd.flatten, held := if cn then some (a, n) else none, bytes := n })
        ∧ (boundTrouble d n = none → stores [(d, n)] rd → starts (.xfil e ed es en) s1
            { op := .xfil e ed es en, dst := rd.flatten, fill := BitVec.ofNat 64 (num es), bytes := n })
        ∧ (boundTrouble a n = none → loads [(a, n)] ra → num ed + n ≤ 524288 → starts (.xbrd e ed es en mc) s1
            { op := .xbrd e ed es en mc, src := ra.flatten, bytes := n * members.length
              dst := members.map (fun k => (coreWindow k + num ed, n)) })
        ∧ (boundTrouble a n = none → loads [(a, n)] ra → 524288 < num ed + n → stops (.xbrd e ed es en mc) ⟨.window, 0, BitVec.ofNat 64 d⟩)
        ∧ (n % 4 = 0 → a % 4 = 0 → d % 4 = 0 → boundsOf [(a, n), (d, n)] = none → loads [(a, n)] ra →
            resolveRanges s1 c .atomic spadOnly [(d, n)] = .ok rd → starts (.xred e ed es en ty) s1
              { op := .xred e ed es en ty, src := ra.flatten, dst := rd.flatten, bytes := n }))
    ∧ (listed → boundsOf [(at_ en, 4 * cnt), (d, cnt * z)] = none → busy → exec (.xgat e ed es en) s = .next s)
    ∧ (listed → boundsOf [(at_ en, 4 * cnt), (a, cnt * z)] = none → busy → exec (.xsct e ed es en) s = .next s)
    ∧ (∀ w, listed → ¬ busy → s1.piecesEcc c list.flatten = some w →
        (boundsOf [(at_ en, 4 * cnt), (d, cnt * z)] = none → stops (.xgat e ed es en) (eccTrouble w))
        ∧ (boundsOf [(at_ en, 4 * cnt), (a, cnt * z)] = none → stops (.xsct e ed es en) (eccTrouble w)))
    ∧ (listed → clean → boundsOf [(at_ en, 4 * cnt), (d, cnt * z)] = none → boundsOf (sortBy (·.1) (elems a)) = none →
        resolveRanges after c .load transferOk (elems a) = .ok ra → resolveRanges after c .store transferOk [(d, cnt * z)] = .ok rd →
        starts (.xgat e ed es en) after { op := .xgat e ed es en, src := ra.flatten, dst := rd.flatten, bytes := cnt * z })
    ∧ (listed → clean → boundsOf [(at_ en, 4 * cnt), (a, cnt * z)] = none → boundsOf (sortBy (·.1) (elems d)) = none →
        resolveRanges after c .load transferOk [(a, cnt * z)] = .ok ra → resolveRanges after c .store transferOk (elems d) = .ok rd →
        starts (.xsct e ed es en) after { op := .xsct e ed es en, src := ra.flatten, dst := rd.flatten, bytes := cnt * z })
    ∧ (xtenPlan (.xten e ed es en xp dir) ed es en xp dir s1 r = .move s2 m → starts (.xten e ed es en xp dir) s2 m)
    ∧ (2 ^ 60 ≤ n → stops (.xten e ed es en xp dir) ⟨.format, 0, 0⟩)
    ∧ (n < 2 ^ 60 → d % 64 ≠ 0 → stops (.xten e ed es en xp dir) ⟨.align, 0, BitVec.ofNat 64 d⟩))

/-- R101, R176, R177, R185: XSIG, behind no move of its entry, adds to the semaphore its address names, a release at die scope to another
cluster's, and on a count past 2^32 − 1 stops the entry with SEMOVF; XRFL drops its record from its cluster's layout cache; XALC takes the lowest FREE slot of its core's partition,
which becomes OPEN, and writes its handle, or waits in the partition's queue. That the release takes along every store of the cluster is log
entry 13, DESIGN CHOICE. -/
def Obligations.TransferUnitWords : Prop := ∀ (s : State) (r : XRun) (e : Bool) (ea en ed : BitVec 4) (d m slot : Nat) (rest : List Nat)
    (po : Pool) (h : Word),
  let c := s.focus
  let k := s.core c
  let num (n : BitVec 4) : Nat := (r.e[n.toNat]'n.isLt).toNat
  let a := num ea % 2 ^ 48
  let p := num en
  let part := k.poolPart p
  let x := part.slot slot
  let sum := ((s.core d).semCount m).toNat + p % 2 ^ 32
  let with_ (v : Word) : XRun := afterX { r with e := r.e.set ed.toNat v ed.isLt, request := none } e
  let xalc := Instr.xalc e ed ea en
  let named := k.pool = some po ∧ po.live = true ∧ po.launch = r.entry.launch ∧ p < 8 ∧ part.count ≠ 0 ∧ num ea ≤ 65535 ∧ r.request = none
  MayIssueX s r →
    (r.moves = [] → a % 4 = 0 → semTarget s c a = .ok (d, m) → s.portClosed c d = false → sum < 2 ^ 32 →
      ∃ t u, exec (.xsig e ea en) s = .next t ∧ SemSet (if c / 8 = d / 8 then s else s.release c 3) u d m sum ∧ OnlyCore u t c { u.core c with xrun := some (afterX r e) })
    ∧ (r.moves = [] → a % 4 = 0 → semTarget s c a = .ok (d, m) → s.portClosed c d = false → 2 ^ 32 ≤ sum →
      ∃ t, exec (.xsig e ea en) s = .next t ∧ EntryStops s t c k .x r.entry ⟨.semovf, 0, 0⟩)
    ∧ (r.moves ≠ [] → exec (.xsig e ea en) s = .next s)
    ∧ (a % 64 = 0 → ∃ t, exec (.xrfl e ea) s = .next t ∧ RunsX s { t with clusters := s.clusters } (afterX r e)
        ∧ t.cluster (c / 8) = { s.cluster (c / 8) with layouts := (s.cluster (c / 8)).layouts.filter (fun x => x.1 ≠ a) }
        ∧ ∀ q, q ≠ c / 8 → t.cluster q = s.cluster q)
    ∧ (a % 64 ≠ 0 → ∃ t, exec (.xrfl e ea) s = .next t ∧ EntryStops s t c k .x r.entry ⟨.align, 0, BitVec.ofNat 64 a⟩)
    ∧ (named → part.queue = [] → part.freeSlots = slot :: rest → ∃ t u k', exec xalc s = .next t ∧ OnlyCore s u c k'
        ∧ SlotSet s c p slot { x with st := .open_, reads := num ea, pend := 0, owner := po.launch } k'
        ∧ OnlyCore u t c { k' with xrun := some (with_ (handleOf c p slot x.gen)) })
    ∧ (named → part.freeSlots = [] → ∃ t v, exec xalc s = .next t ∧ (t.core c).xrun = some v ∧ v.idx = r.idx ∧ v.e = r.e
        ∧ ((t.core c).poolPart p).queue = part.queue ++ [{ core := c, unit := 4, n := num ea }])
    ∧ (r.request.bind (·.granted) = some h → ∃ t, exec xalc s = .next t ∧ RunsX s t (with_ h))

/-- R167, R170 to R175, R186, R188: TRANSFER_MOVE_PHASE_DONE of a step of which nothing has moved, with a destination in memory or in
scratchpads, lays down its bytes and nothing else: a copy, a gather or a scatter those of its source, in order, a fill its pattern over and
over, XBRD its source at every member, XRED the sum at each element; the step leaves its entry and the byte total grows by its bytes. On a
whole vector register it writes the lanes and the tag raw. R171, R256: a copy that signals its bytes early adds them to the semaphore and not
to the total; one that consumes counts one read of its slot. With a part of the output of a copy, those bytes land and the step stays
(log entry 14, DESIGN CHOICE). Where source and destination share bytes, each takes the source byte as it stood or as the step wrote it
(log entry 19, DESIGN CHOICE).
R182, R183: XTEN's swizzle of a dense tile of rows in whole groups of 16 · 2^swz bytes is its own inverse, and so is the exchange
of a 64 × 64 tile, so that a tile written with them and read back is itself. -/
def Obligations.TransferMoves : Prop :=
  (∀ (s : State) (c n : Nat) (r : XRun) (m : XMove) (e cn cb ty : Bool) (ed es en : BitVec 4)
    (mc : BitVec 3) (a l d pp q p off x : Nat),
  let source : List Byte := m.src.flatMap (fun e => viewRead s (c / 8) e.1 e.2)
  let pattern : List Byte := (List.range m.bytes).map (fun k => BitVec.ofNat 8 (m.fill.toNat / 256 ^ (k % 8)))
  let word (bs : List Byte) (i : Nat) : Nat := leValue ((bs.drop (4 * i)).take 4)
  let old (i : Nat) : Nat := leValue ((List.range 4).map (fun j => s.seen (c / 8) (p + 4 * i + j)))
  let sums : List Byte := (List.range (m.bytes / 4)).flatMap (fun i =>
    leBytes 4 (if ty then (old i + word source i) % 2 ^ 32 else (fAdd fmtF32 .rne false (old i) (word source i)).1))
  let addrs (l : List (Nat × Nat)) : List Nat := l.flatMap (fun p => (List.range p.2).map (fun i => p.1 + i))
  let run (part : Option (Bool × Nat × Nat)) (u : State) : Prop := exec (.transferMovePhaseDone c n false part) s = .next u
  let only (u : State) : Prop := ∀ d, { u.core d with spad := (s.core d).spad, xrun := (s.core d).xrun } = s.core d
  let gone : XRun := { r with moves := r.moves.eraseIdx n, bytes := r.bytes + m.bytes }
  let done (bs : List Byte) : Prop := ∃ u, run none u ∧ LaysList s u (c / 8) m.dst bs ∧ (u.core c).xrun = some gone ∧ only u
  let fresh := (s.core c).xrun = some r ∧ r.moves[n]? = some m ∧ m.scl = [] ∧ m.rows = [] ∧ m.got = [] ∧ m.landed = []
    ∧ s.piecesBusy (m.src ++ m.dst) = false ∧ s.piecesEcc c (m.src ++ m.dst) = none ∧ s.piecesShut c m.dst = false
  let stored := ∀ p ∈ m.dst, (∀ i < p.2, winSplit (p.1 + i) = none) ∨ ∃ k o, winSplit p.1 = some (k, o) ∧ o + p.2 ≤ 524288
  let apart := rangesMeet m.src m.dst = false
  let same := (addrs m.src).length = (addrs m.dst).length
  let copy := m.op = .xcpy e ed es en cn cb
  let plain := m.held = none ∧ earlySignal r.entry m.op = false
  let slot (u : State) : Slot := ((u.core d).poolPart pp).slot q
  let sem (u : State) : Nat := ((u.core c).semCount (syncSsem r.entry.sync)).toNat
  (fresh → stored → plain → same → m.op ∈ [Instr.xgat e ed es en, .xsct e ed es en, .xcpy e ed es en cn cb] → apart → done source)
  ∧ (fresh → stored → plain → same → copy →
      ∃ bs, done bs ∧ bs.length = source.length ∧ ∀ i < bs.length, bs.getD i 0 = source.getD i 0
        ∨ ∃ j < bs.length, (addrs m.dst).getD j 0 = (addrs m.src).getD i 0 ∧ bs.getD i 0 = bs.getD j 0)
  ∧ (fresh → stored → plain → m.op = .xfil e ed es en → m.src = [] → (addrs m.dst).length = m.bytes → done pattern)
  ∧ (fresh → stored → plain → m.op = .xbrd e ed es en mc → source ≠ [] → (∀ p ∈ m.dst, p.2 = source.length) →
      done (List.replicate m.dst.length source).flatten)
  ∧ (fresh → stored → plain → m.op = .xred e ed es en ty → apart → m.dst = [(p, m.bytes)] → m.bytes % 4 = 0 → source.length = m.bytes → done sums)
  ∧ (fresh → plain → same → copy → apart → m.dst = [(p, 512)] → winSplit p = some (d, off) → winRange off = .vreg → off % 512 = 0 →
      let t : BitVec 2 := BitVec.ofNat 2 ((off - 0x10_0000) / 512 / 32)
      let g : BitVec 5 := BitVec.ofNat 5 ((off - 0x10_0000) / 512)
      ∃ u, run none u ∧ SameBytes s u ∧ ((u.strand d t).vreg g).toNat = leValue source ∧ (u.strand d t).vtag g = 0
        ∧ ∀ h, h ≠ g → (u.strand d t).vreg h = (s.strand d t).vreg h ∧ (u.strand d t).vtag h = (s.strand d t).vtag h)
  ∧ (fresh → stored → same → copy → apart → m.held = none → earlySignal r.entry m.op = true → (s.core c).waits = [] →
      (sem s + m.bytes < 2 ^ 32 → ∃ u, run none u ∧ LaysList s u (c / 8) m.dst source ∧ sem u = sem s + m.bytes
        ∧ (u.core c).xrun = some { r with moves := r.moves.eraseIdx n })
      ∧ (2 ^ 32 ≤ sem s + m.bytes → r.flt = none → ∃ u v, run none u ∧ LaysList s u (c / 8) m.dst source ∧ sem u = sem s
        ∧ (u.core c).xrun = some v ∧ v.flt = some ⟨.semovf, 0, 0⟩ ∧ v.idx = m.after.1 ∧ v.bytes = r.bytes + m.bytes))
  ∧ (fresh → stored → same → copy → apart → m.held = some (a, l) → earlySignal r.entry m.op = false →
      slotHolding s c r.entry.launch a l = some (d, pp, q) → (slot s).st = .sealed → 0 < (slot s).pend →
      ∃ u, run none u ∧ LaysList s u (c / 8) m.dst source ∧ (u.core c).xrun = some gone
        ∧ (1 < (slot s).reads → slot u = { slot s with pend := (slot s).pend - 1, reads := (slot s).reads - 1 })
        ∧ ((slot s).reads ≤ 1 → ((s.core d).poolPart pp).queue = [] → slot u = { gen := (slot s).gen + 1 }))
  ∧ (fresh → stored → plain → same → copy → apart → 0 < l → x + l ≤ (addrs m.dst).length →
      ∃ u v, run (some (false, x, l)) u ∧ LaysList s u (c / 8) (midBytes m.dst x l) ((source.drop x).take l) ∧ only u
        ∧ (u.core c).xrun = some v ∧ v.moves.map (·.op) = r.moves.map (·.op) ∧ v.bytes = r.bytes))
  ∧ (∀ (swz n m : Nat) (bs : List Byte) (rows : List (List Nat)),
  (bs.length = n * m → m % (16 * 2 ^ swz) = 0 → swizzle swz n m (swizzle swz n m bs) = bs)
  ∧ (rows.length = 64 → (∀ r ∈ rows, r.length = 64) → exchange (exchange rows) = rows))

/-- R178, R181 to R184, R186, R217: TRANSFER_MOVE_PHASE_DONE of XTEN of which nothing has moved. Inward, element i of dense row r is element i
of the tensor's row where that is in range and PAD elsewhere, exchanged with XP, its 16-byte chunks swizzled within their rows, with a header
and scales around them for a tile object; outward, each element in range takes its place in the tensor, and the scales theirs, where rows
share no address (otherwise either element stands: log entry 19, DESIGN CHOICE). A bq12 element has bits [15:12] filled (log entry 85,
DEDUCED); a tile object with TILE2 to TILE4 above 1 keeps its data together (log entry 84, DESIGN CHOICE).
R169, R179 to R181, R183 to R185, R187: the check phase of XTEN whose operands are aligned and legal. It takes its record from its
cluster's cache, or else from memory; it stops with FORMAT where the record breaks R180 or the exchange R183, and waits while a tile in use
holds the record; else, where the dense tile, the rows that e[C] selects and the scales pass the checks of R169, it starts a move of them with
the record kept. Row n is that of the indices of dimensions 1 to 4 that n counts, dimension 1 fastest; its tensor side holds as many
elements as are in range, none where a coordinate is not. SWZ above 3 is log entry 83, DEDUCED; a record in a core window is log entry 102,
a tile object of more than one tile log entry 84 (DESIGN CHOICE). -/
def Obligations.TensorMoves : Prop :=
  (∀ (s : State) (c n : Nat) (r : XRun) (m : XMove) (e dir : Bool) (eh ed ec : BitVec 4) (xp : BitVec 2),
  let l := layoutOf m.desc
  let w := tWidth l.ty
  let T := l.tile.headD 1
  let N := l.rowCount
  let R := l.rowBytes
  let fill (v : Nat) : Nat := if l.ty = 14 then v % 2 ^ 12 + (if v / 2 ^ 11 % 2 = 1 then 15 else 0) * 2 ^ 12 else v
  let read (l : List (Nat × Nat)) : List Byte := l.flatMap (fun e => viewRead s (c / 8) e.1 e.2)
  let count (i : Nat) : Nat := (m.rows.getD i (0, [])).1
  let place (i : Nat) : List (Nat × Nat) := (m.rows.getD i (0, [])).2
  let at_ (i b : Nat) : Nat := i * R + (if l.swz = 0 then b else Nat.xor (b / 16) (i % 2 ^ l.swz) * 16 + b % 16)
  -- data holds the elements f, swizzled
  let holds (data : List Byte) (f : Nat → Nat → Nat) : Prop := ∃ raw : List Byte, raw.length = N * R ∧ data.length = N * R
    ∧ (∀ i b, i < N → b < R → data.getD (i * R + b) 0 = raw.getD (at_ i b) 0)
    ∧ ∀ i j, i < N → j < T → elemAt w raw (i * T + j) = if xp = 0 then f i j else f j i
  let tensor (i j : Nat) : Nat := fill (if j < count i then elemAt w (read (place i)) j else l.pad % 2 ^ w)
  let run (u : State) : Prop := exec (.transferMovePhaseDone c n false none) s = .next u
    ∧ (u.core c).xrun = some { r with moves := r.moves.eraseIdx n, bytes := r.bytes + m.bytes }
    ∧ ∀ d, { u.core d with spad := (s.core d).spad, xrun := (s.core d).xrun } = s.core d
  let stored (l : List (Nat × Nat)) : Prop :=
    ∀ p ∈ l, (∀ i < p.2, winSplit (p.1 + i) = none) ∨ ∃ k o, winSplit p.1 = some (k, o) ∧ o + p.2 ≤ 524288
  let other := m.rows.flatMap (·.2) ++ m.scl
  let touched := m.src ++ m.dst ++ other
  (s.core c).xrun = some r → r.moves[n]? = some m → m.op = .xten e eh ed ec xp dir → m.held = none → m.got = [] → m.landed = [] →
  s.piecesBusy touched = false → s.piecesEcc c touched = none → s.piecesShut c touched = false → m.rows.length = N → stored (m.dst ++ other) →
  T * w % 8 = 0 → (∀ i < N, count i ≤ T ∧ (read (place i)).length = (count i * w + 7) / 8) → (xp ≠ 0 → T = 64 ∧ N = 64) →
  (l.swz ≠ 0 → R % (16 * 2 ^ l.swz) = 0) → 1 ≤ l.ty → l.ty ≤ 14 →
    (dir = false → (read m.dst).length = (if l.scl then 64 + N * R + 256 else N * R) → (read m.scl).length ≤ 256 → (l.scl = false → m.scl = []) →
      ∃ u data, run u ∧ holds data tensor ∧ LaysList s u (c / 8) m.dst (if l.scl then
          headerBytes l.ty l.so ++ data ++ read m.scl ++ List.replicate (256 - (read m.scl).length) 0 else data))
    ∧ (dir = true → (read m.src).length = (if l.scl then 64 + N * R + 256 else N * R) → (read m.scl).length ≤ 256 →
        (∀ i, i < N → w = 4 → count i % 2 = 0) → rowsMeet (m.rows.map (·.2)) = false → (l.scl = false → m.scl = []) →
      let data := if l.scl then ((read m.src).drop 64).take (N * R) else read m.src
      ∃ u f rows, run u ∧ holds data f ∧ (∀ i, i < N → (rows i).length = (read (place i)).length
          ∧ ∀ j, j < count i → elemAt w (rows i) j = fill (f i j))
        ∧ LaysList s u (c / 8) other ((List.range N).flatMap rows ++ ((read m.src).drop (64 + N * R)).take (read m.scl).length)))
  ∧ (∀ (s : State) (r : XRun) (e dir : Bool) (eh ed ec : BitVec 4) (xp : BitVec 2)
    (ps dn tn sn : List (List (Nat × Nat))),
  let c := s.focus
  let s1 := s.setCore c (charged (s.core c) 2 16)
  let num (n : BitVec 4) : Nat := (r.e[n.toNat]'n.isLt).toNat
  let h := num eh % 2 ^ 48
  let d := num ed % 2 ^ 48
  let q := num ec
  let b := (fetchLayout s1 c h ps.flatten).1
  let s2 := (fetchLayout s1 c h ps.flatten).2
  let f (off n : Nat) : Nat := leValue ((b.drop off).take n)
  let ty := f 8 1
  let w := tWidth ty
  let esz := if w = 4 then 1 else w / 8
  let swz := f 10 1
  let scl := f 11 1 % 2 = 1
  let so := f 11 1 / 2
  let dim (m : Nat) : Nat := f (16 + 8 * m) 8
  let tile (m : Nat) : Nat := f (96 + 2 * m) 2
  let str (m : Nat) : Int := let v := f (56 + 8 * m) 8; if 2 ^ 63 ≤ v then (v : Int) - 2 ^ 64 else v
  let N := tile 1 * tile 2 * tile 3 * tile 4
  let legal := ty < 15 ∧ 1 ≤ f 9 1 ∧ f 9 1 ≤ 5 ∧ swz ≤ 3 ∧ f 11 1 < 4 ∧ f 12 4 = 0 ∧ f 56 8 = 0 ∧ f 106 6 = 0 ∧ f 120 8 = 0 ∧ f 136 56 = 0
    ∧ (∀ m < 5, 1 ≤ dim m ∧ dim m ≤ 2 ^ 32 ∧ 1 ≤ tile m ∧ tile m ≤ 4096 ∧ (f 9 1 ≤ m → dim m = 1 ∧ tile m = 1))
    ∧ tile 0 * N * w ≤ 8 * 65536 ∧ f 0 8 % esz = 0 ∧ (∀ m < 5, 1 ≤ m → str m % esz = 0) ∧ (w = 4 → tile 0 % 2 = 0)
    ∧ (scl → 12 ≤ ty ∧ tile 0 = 64 ∧ tile 1 = 64 ∧ swz = 0) ∧ (swz ≠ 0 → tile 0 * w / 8 % (16 * 2 ^ swz) = 0)
    ∧ (xp ≠ 0 → 2 ≤ f 9 1 ∧ tile 0 = 64 ∧ tile 1 = 64 ∧ N = 64 ∧ w = 8 * xp.toNat)
  let at_ (m : Nat) : Nat := q / 2 ^ (12 * m) % 2 ^ 12 * tile m
  let pos (n m : Nat) : Nat := at_ m + n / (match m with | 1 => 1 | 2 => tile 1 | 3 => tile 1 * tile 2 | _ => tile 1 * tile 2 * tile 3) % tile m
  let count (n : Nat) : Nat := if ∀ m < 5, 1 ≤ m → pos n m < dim m then min (tile 0) (dim 0 - at_ 0) else 0
  let start (n : Nat) : Nat :=
    (((f 0 8 + at_ 0 * w / 8 : Nat) + pos n 1 * str 1 + pos n 2 * str 2 + pos n 3 * str 3 + pos n 4 * str 4 : Int) % 2 ^ 48).toNat
  let rows := (List.range N).map (fun n => (start n, (count n * w + 7) / 8))
  let size := tile 0 * w / 8 * N
  let dense := if scl then 64 + size + 256 else size
  let scales : Nat × Nat := if scl then ((f 112 8 + 4 * at_ (1 - so)) % 2 ^ 48, 4 * min 64 (dim (1 - so) - at_ (1 - so))) else (0, 0)
  let i := Instr.xten e eh ed ec xp dir
  let next := afterX r e
  let found := MayIssueX s r ∧ r.moves.length < 8 ∧ Affords (s.core c) 2 16 ∧ q < 2 ^ 60 ∧ h % 64 = 0 ∧ d % 64 = 0
    ∧ resolveRanges s1 c .load transferOk [(h, 192)] = .ok ps
  let may := found ∧ s1.piecesBusy ps.flatten = false ∧ s1.piecesEcc c ps.flatten = none
  let ways (out : Bool) (t : List (Nat × Nat)) (l : List (List (Nat × Nat))) : Prop :=
    resolveRanges s2 c (if out then .store else .load) transferOk t = .ok l
  (match (s.cluster (c / 8)).layouts.find? (fun e => e.1 = h) with
    | some z => b = z.2
    | none => b = ps.flatten.flatMap (fun e => physRead s1 e.1 e.2))
  ∧ (found → s1.piecesBusy ps.flatten = true → exec i s = .next s)
  ∧ (∀ w, found → s1.piecesBusy ps.flatten = false → s1.piecesEcc c ps.flatten = some w →
      ∃ t, exec i s = .next t ∧ EntryStops s1 t c (s1.core c) .x r.entry (eccTrouble w))
  ∧ (may → ¬ legal → ∃ t, exec i s = .next t ∧ EntryStops s2 t c (s2.core c) .x r.entry ⟨.format, 0, 0⟩)
  ∧ (may → legal → boundsOf ((d, dense) :: scales :: rows) = none → ways (!dir) [(d, dense)] dn → ways dir rows tn → ways dir [scales] sn →
      (dir = true → scl → s2.piecesBusy [dn.flatten.headD (0, 0)] = false ∧ s2.eccAt (c / 768) (dn.flatten.headD (0, 0)).1 = none
        ∧ leValue (viewRead s2 (c / 8) (dn.flatten.headD (0, 0)).1 1) = ty) →
      ∃ t m, exec i s = .next t ∧ OnlyCore s2 t c { s2.core c with xrun := some { next with moves := r.moves ++ [m] } }
        ∧ m = { op := i, src := if dir then dn.flatten else [], dst := if dir then [] else dn.flatten, desc := b
                rows := List.zip ((List.range N).map count) tn, scl := sn.flatten
                bytes := if dir then (rows.map (·.2)).sum + scales.2 else dense
                after := (next.idx, next.pass), tick := s.tick }))

-- Entries

/-- R14, R104, R111 to R114, R117, R121, R157, R187: the life of an entry. Its head wait takes WCNT when the count reaches it and no
earlier wait of the semaphore could be granted first; until then it stands in the unit's order, and the entry does not start. It starts,
with the acquire of its wait, once no access of its strand that a FENCE put before it is outstanding and the fence has retired: two registers are the parameters
and the others 0, or it goes on where a resume left it, its V records back in flight. A finished entry adds its amount to its semaphore
where its slot says so, leaves the queue and is counted no longer; a count past 2^32 − 1 stops it with SEMOVF. That an entry with no wait
is marked as past it at its start is log entry 67. -/
def Obligations.EntryLife : Prop := ∀ (s : State) (c : Nat) (en : Eng) (e : Entry) (rest : List Entry) (v : Resume) (bytes : Nat),
  let k := s.core c
  let x := k.strand e.strand
  let queue := match en with | .v => k.vq | .m => k.mq | .x => k.xq
  let free := match en with | .v => k.vrun = none | .m => k.mrun = none | .x => k.xrun = none
  let set (k : Core) (q : List Entry) : Core := match en with | .v => { k with vq := q } | .m => { k with mq := q } | .x => { k with xq := q }
  let me := Waiter.head en
  let m := (e.sync.extractLsb' 0 8).toNat
  let n := (e.sync.extractLsb' 8 16).toNat
  let count := (k.semCount m).toNat
  let others := k.waits.filter (fun w => w.who ≠ me)
  let given := ∃ w ∈ k.waits, w.who = me ∧ w.granted = true
  let now := n ≤ count ∧ ∀ w ∈ k.waits.takeWhile (fun w => w.who ≠ me), w.sem.toNat = m → w.granted = false → count < (k.waitCount w).toNat
  let wait : SemWait := { sem := e.sync.extractLsb' 0 8, who := me, n := BitVec.ofNat 32 n }
  let stands := if k.waits.any (fun w => w.who = me) then k.waits.map (fun w => if w.who = me then wait else w) else k.waits ++ [wait]
  let waits := e.sync.getLsbD 49 = true
  let gives (i : Instr) (k : Core) : Prop := ∃ t, exec i s = .next t ∧ OnlyCore s t c k
  let passes (k : Core) : Prop := gives (.entryHeadWait c en) (set k ({ e with hw := true } :: rest))
  let held := x.lridx = e.launch ∧ ((∃ q ∈ x.loads ++ x.stores, q.id < e.after)
    ∨ ∃ f ∈ x.fences, 1 ≤ releaseScope f ∧ f.id ≤ e.after ∧ e.after ≠ 0)
  let ready := free ∧ (waits → e.hw = true) ∧ ¬ held
  let far := waits ∧ Sparse.get false k.semFar m = true
  let go : Entry := { e with hw := true, since := some (if far then (s.cluster (c / 8)).epoch + 1 else e.since.getD x.since), resume := none }
  let starts (k : Core) : Prop := ∃ a t, exec (.entryStart c en) s = .next t
    ∧ (if far then LinesDropped s a c else a = s)
    ∧ OnlyCore { a with freeIx := if en = .v then s.freeIx + 1 else s.freeIx } t c k
  let regs (n : Nat) : Vector Word n := Vector.ofFn (fun i => if i.val = 0 then e.p0 else if i.val = 1 then e.p1 else 0)
  let again (r : Rec) : Option Instr := match decodeV r.word with | .ok i => some i | .error _ => none
  let words (q : Option VQueue) : List (Rec × Instr) :=
    v.recs.filterMap (fun r => (again r).bind (fun i => if vQueueOf i = q then some (r, i) else none))
  let prog (r : Rec) : Nat := r.prog.toNat % 2 ^ 16
  let refilled (q : VQueue) (l : List VOp) : Prop := l.map (fun o => (o.op, o.lane, some o.cap))
    = (words (some q)).map (fun w => (w.2, if q = .store then prog w.1 else 0, w.1.cap))
  let isMark (i : Instr) : Bool := match i with | .vmark _ => true | _ => false
  let done := match en with
    | .v => ∃ r, k.vrun = some r ∧ r.entry = e ∧ r.bytes = bytes ∧ r.ended = true ∧ r.flight = [] ∧ r.vlq = [] ∧ r.vsq = [] ∧ r.esu = []
        ∧ r.flt = none
    | .m => ∃ r, k.mrun = some r ∧ r.entry = e ∧ r.bytes = bytes ∧ r.ended = true ∧ r.steps = [] ∧ r.flt = none
    | .x => ∃ r, k.xrun = some r ∧ r.entry = e ∧ r.bytes = bytes ∧ r.ended = true ∧ r.moves = [] ∧ r.flt = none
  let retired (k : Core) : Core := match en with
    | .v => { withStrand k e.strand { x with tok := Vector.replicate 8 0, cntV := x.cntV - 1 } with vq := rest, vrun := none }
    | .m => { withStrand k e.strand { x with cntM := x.cntM - 1 } with mq := rest, mrun := none }
    | .x => { withStrand k e.strand { x with cntX := x.cntX - 1 } with xq := rest, xrun := none }
  let amount := if e.sync.getLsbD 48 then bytes else (e.sync.extractLsb' 32 16).toNat
  let g := (e.sync.extractLsb' 24 8).toNat
  let sum := (k.semCount g).toNat + amount
  queue = e :: rest → x.stop = none →
    (free → waits → e.hw = false →
      (given → passes { k with waits := others })
      ∧ (¬ given → now → ∃ k', Woken { k.setSem m (BitVec.ofNat 32 (count - n)) with waits := others } k' ∧ passes k')
      ∧ (¬ given → ¬ now → gives (.entryHeadWait c en) { k with waits := stands })
      ∧ exec (.entryStart c en) s = .next s)
    ∧ (held → exec (.entryStart c en) s = .next s)
    ∧ (ready → e.resume = none → match en with
      | .v => starts { withStrand k e.strand { x with tok := Vector.replicate 8 0 } with
          vq := go :: rest, vrun := some { entry := go, b := regs 8, draw := s.freeIx } }
      | .m => starts { k with mq := go :: rest, mrun := some { entry := go, e := regs 16, uses := s.usedTiles c e } }
      | .x => starts { k with xq := go :: rest, xrun := some { entry := go, e := regs 16 } })
    ∧ (ready → e.resume = some v → v.run = true → match en with
      | .v => (∀ q ∈ v.recs, q.cap ≠ none) → ∃ r tok,
          starts { withStrand k e.strand { x with tok := tok } with vq := go :: rest, vrun := some r } ∧ r.entry = go
            ∧ r.idx = v.idx ∧ r.bytes = v.bytes ∧ (∀ i : Fin 8, r.b[i] = v.regs.getD i.val 0)
            ∧ refilled .load r.vlq ∧ refilled .store r.vsq ∧ refilled .esu r.esu
            ∧ r.flight.map (fun w => (w.op, w.due, some w.cap))
                = ((words none).filter (fun w => !isMark w.2)).map (fun w => (w.2, prog w.1, w.1.cap))
            ∧ r.marks.map (·.shape) = ((words none).filter (fun w => isMark w.2)).map (fun w => w.1.opa.setWidth 32)
            ∧ ∀ j : Fin 8, tok[j] = (r.vlq ++ r.vsq ++ r.esu).countP (fun o => o.tok.toNat = j.val)
      | .m => ∃ r, starts { k with mq := go :: rest, mrun := some r } ∧ r.entry = go
          ∧ r.idx = v.idx ∧ r.pass = v.pass ∧ r.bytes = v.bytes ∧ r.byp = v.byp ∧ ∀ i : Fin 16, r.e[i] = v.regs.getD i.val 0
      | .x => ∃ r, starts { k with xq := go :: rest, xrun := some r } ∧ r.entry = go
          ∧ r.idx = v.idx ∧ r.pass = v.pass ∧ r.bytes = v.bytes ∧ ∀ i : Fin 16, r.e[i] = v.regs.getD i.val 0)
    ∧ (done → e.sync.getLsbD 50 = false → gives (.entryCompletion c en) (retired k))
    ∧ (done → e.sync.getLsbD 50 = true → sum < 2 ^ 32 →
        ∃ k', Woken (k.setSem g (BitVec.ofNat 32 sum)) k' ∧ gives (.entryCompletion c en) (retired k'))
    ∧ (done → e.sync.getLsbD 50 = true → 2 ^ 32 ≤ sum →
        ∃ t, exec (.entryCompletion c en) s = .next t ∧ EntryStops s t c k en e ⟨.semovf, 0, 0⟩)

/-- R45, R133, R256, R262, R263, R268: the running entry e of an engine. A word its engine does not decode stops it with ILLEGAL, a V entry once the
writes due by that slot have landed. A consuming check of a range that lies in one slot of its launch raises PEND where reads are left,
and waits at 16,383 and while the pool of its launch is away from the core it reaches (R268); an OPEN slot, a slot with no read left or FREE, and a range in no slot stop the entry with POOL. Once all bytes are
read, the count takes one from READS and PEND, and the slot becomes FREE at 0. -/
def Obligations.RunningEntryChecks : Prop := ∀ (s : State) (c : Nat) (en : Eng) (e : Entry) (a : BitVec 48) (n d p i : Nat),
  let k := s.core c
  let live := match en with
    | .v => ∃ r, k.vrun = some r ∧ r.entry = e ∧ r.flt = none
    | .m => ∃ r, k.mrun = some r ∧ r.entry = e ∧ r.flt = none
    | .x => ∃ r, k.xrun = some r ∧ r.entry = e ∧ r.flt = none
  let stops (k : Core) (j : Instr) (w : Trouble) : Prop := ∃ t, exec j s = .next t ∧ EntryStops s t c k en e w
  let part := (s.core d).poolPart p
  let x := part.slot i
  let check := Instr.consumingCheck c en a n
  let becomes (j : Instr) (y : Slot) : Prop := ∃ t k', exec j s = .next t ∧ OnlyCore s t d k' ∧ SlotSet s d p i y k'
  let pool (sub : BitVec 8) : Trouble := ⟨.pool, sub, a.setWidth 64⟩
  let within := slotHolding s c e.launch a.toNat n = some (d, p, i)
  live →
    ((k.strand e.strand).stop = none → stops (if en = .v then k.landV else k) (.illegalEngineWord c en) ⟨.illegal, 0, 0⟩)
    ∧ (within → x.st = .sealed → x.pend < x.reads → x.pend < 16383 → becomes check { x with pend := x.pend + 1 })
    ∧ (within → x.st = .sealed → x.pend < x.reads → 16383 ≤ x.pend → exec check s = .next s)
    ∧ (within → x.st = .sealed → x.reads ≤ x.pend → stops k check (pool 1)) ∧ (within → x.st = .free → stops k check (pool 1))
    ∧ (within → x.st = .open_ → stops k check (pool 0))
    ∧ (slotHolding s c e.launch a.toNat n = none → slotAway s c e.launch a.toNat = false → stops k check (pool 2))
    ∧ (slotHolding s c e.launch a.toNat n = none → slotAway s c e.launch a.toNat = true → exec check s = .next s)
    ∧ (within → x.st = .sealed → 0 < x.pend → 1 < x.reads →
        becomes (.consumingCount c en a n) { x with reads := x.reads - 1, pend := x.pend - 1 })
    ∧ (within → x.st = .sealed → 0 < x.pend → x.reads = 1 → part.queue = [] →
        becomes (.consumingCount c en a n) { st := .free, gen := x.gen + 1, reads := 0, pend := 0, owner := 0, tag := 0 })

-- Stops

/-- R297 to R304, R328 to R331: WATCHDOG, which may come at any time (log entry 77), and, for a strand that the request has not stopped
before, the cut 10 ms after it, stop a running strand with no record. DBGCTL halts and releases the core, or asks for a cut, which is over
at once where no strand is left to stop. STOP_DELIVERY of a strand with no entry of its own and no stop within its queues: what was due
lands, the strand's queues empty into as many records, a cut's trace record is written, and its area holds the descriptor; the stop goes
to the handler or to Skyo, and SEVENT is posted, after the stores of the cluster have reached their homes (log entry 13). That no such
stop comes or is delivered on a quiet core is log entry 69, and that a resuming strand keeps its stop is log entry 71. -/
def Obligations.StopsDelivered : Prop := ∀ (s : State) (c : Nat) (t h : BitVec 2) (b : Bool) (st : Stop) (m : Team) (e : Event) (pa : Nat) (q : QItem),
  let k := s.core c
  let x := k.strand t
  let gives (i : Instr) (k : Core) : Prop := ∃ u, exec i s = .next u ∧ OnlyCore s u c k
  let rests (q : BitVec 2) : Prop := (k.strand q).life ∉ [.running, .resuming] ∧ (k.strand q).stop = none
  let asked : Core := if b && !k.cut then { k with cutAt := s.tick, strands := k.strands.map (fun y => { y with cutDone := false }) } else k
  let finished := ∀ q, rests q ∨ (asked.strand q).cutDone = true
  let left := x.flight.filter (fun l => x.slots < l.due)
  let held := x.fences.filter (fun f => (match f.op with | .semw .. => false | _ => true) && stays x f)
  let records := left.length + x.loads.length + x.stores.length + held.length
  let ev := s.recField (s.partOf c) m.launch.toNat 6 2
  let addr : Word := if st.why.cause ∈ [Cause.xlate, .align, .window, .pool] then st.why.addr else 0
  let own (e : Entry) : Bool := e.strand = t
  let apart := (k.vq ++ k.mq ++ k.xq).all (fun e => !own e) ∧ (∀ r, k.vrun = some r → own r.entry = false)
    ∧ (∀ r, k.mrun = some r → own r.entry = false) ∧ (∀ r, k.xrun = some r → own r.entry = false)
  let plain := x.stop = some st ∧ x.life = .stopped ∧ st.why.cause ≠ .ecc ∧ (st.at_ = .outside ∨ st.at_ = .issue none) ∧ x.request = none
    ∧ (∀ w ∈ k.waits, w.who = .strand t → w.granted = false) ∧ x.relend = 0
    ∧ (x.loads ++ x.stores).all (fun q => q.flt = none) ∧ x.fifo = [] ∧ k.team = some m ∧ ¬ Quiet s c
    ∧ ∀ n < 3, ¬ onTheWay s (c / 8) (s.recAddr (s.partOf c) m.launch.toNat + 6 + n)
  let delivered (u : State) : Prop :=
    let y := u.strand c t
    let f (off n : Nat) : Nat := leValue (Memory.bytes y.area off n)
    exec (.stopDelivery c t) s = .next u ∧ y.life = .stopped ∧ y.stop = none
      ∧ y.flight = [] ∧ y.loads = [] ∧ y.stores = [] ∧ y.fences = [] ∧ y.s = x.landDue.s ∧ y.v = x.v ∧ y.pc = x.pc
      ∧ y.cutDone = (x.cutDone || decide (st.why.cause = .debug))
      ∧ f 0 1 = 1 ∧ f 1 1 = st.why.cause.code ∧ f 2 1 = st.why.sub.toNat ∧ f 4 2 = records % 2 ^ 16 ∧ f 6 2 = 0xFFFF
      ∧ f 8 8 = x.pc.toNat ∧ f 16 8 = x.slots % 2 ^ 64 ∧ f 24 1 = x.owed % 2 ^ 8 ∧ f 26 2 = st.tnum.toNat ∧ f 32 8 = addr.toNat
      ∧ f 40 8 = st.tick % 2 ^ 64 ∧ f 48 4 = x.lease % 2 ^ 32
      ∧ (x.flight = [] → x.fences = [] → (x.loads = [q] ∧ x.stores = [] ∨ x.loads = [] ∧ x.stores = [q]) →
        f 64 1 = 0 ∧ f 68 2 = 0 ∧ f 70 2 = 0xFFFF ∧ f 72 4 = (encode q.op).toNat ∧ f 76 4 = 0 ∧ f 80 8 = q.opa.toNat ∧ f 88 8 = q.opb.toNat)
      ∧ (u.core c).waits = k.waits.filter (fun w => w.who ≠ .strand t)
      ∧ ((∀ q, q ≠ t → rests q ∨ (k.strand q).cutDone = true) → (u.core c).cut = false)
      ∧ ((∃ q, q ≠ t ∧ ¬ rests q ∧ (k.strand q).cutDone = false) → (u.core c).cut = k.cut)
      ∧ (u.cluster (c / 8)).pending = []
      ∧ (k.tren = false → (∀ a, u.seen (c / 8) a = s.seen (c / 8) a) ∧ (u.core c).trhead = k.trhead
        ∧ (s.event (s.partOf c) ev = some e → u.event (s.partOf c) ev = some (if e.poison then e else
          { e with count := e.count - (if e.count = 0 then 0 else 1), set := e.set || e.count.toNat ≤ 1 })))
      ∧ (k.tren = true → k.trerr = false → (u.core c).trhead = k.trhead + 1
        ∧ leValue ((List.range 8).map (fun i => u.seen (c / 8) (pa + i))) = s.tick % 2 ^ 64
        ∧ leValue ((List.range 8).map (fun i => u.seen (c / 8) (pa + 8 + i))) / 2 ^ 36 = c * 16 % 2 ^ 28 + t.toNat * 4 + 2
        ∧ ∀ a, (a < pa ∨ pa + 16 ≤ a) → u.seen (c / 8) a = s.seen (c / 8) a)
      ∧ ∀ d, d ≠ c → u.core d = s.core d
  let traced := k.tren = true → 8 ≤ k.trlog.toNat ∧ k.trlog.toNat ≤ 20 ∧ isHbm pa = true
    ∧ resolve (s.settleFences c t) c (k.trbase.toNat + 16 * (k.trhead.toNat % 2 ^ k.trlog.toNat)) .store true = .ok pa
  let goes (r : Option (BitVec 2)) (u : State) : Prop :=
    delivered u ∧ (u.strand c t).recv = r ∧ leValue (Memory.bytes (u.strand c t).area 3 1) = (if r.isSome then 1 else 0)
  (¬ Quiet s c → gives (.watchdog c t) (withStrand k t (stopped x (stopAt s c ⟨.watchdog, 0, 0⟩ .outside))))
  ∧ (¬ Quiet s c → k.cut = true → x.cutDone = false → k.cutAt + 8_500_000 ≤ s.tick →
      gives (.cutHaltTimeout c t) (withStrand k t (stopped x (stopAt s c ⟨.debug, 0, 0⟩ .outside))))
  ∧ (k.cut = false ∨ x.cutDone = true ∨ s.tick < k.cutAt + 8_500_000 → exec (.cutHaltTimeout c t) s = .next s)
  ∧ (Quiet s c → exec (.watchdog c t) s = .next s ∧ exec (.cutHaltTimeout c t) s = .next s ∧ exec (.stopDelivery c t) s = .next s)
  ∧ gives (.dbgctlLull c b) { k with lull := b }
  ∧ (finished → gives (.dbgctlCut c b) { asked with cut := false }) ∧ (¬ finished → gives (.dbgctlCut c b) { asked with cut := b })
  ∧ (apart → plain → traced → s.handlerFor c t st.why = none →
      ∃ u, goes none u ∧ u.skyo = { s.skyo with stops := s.skyo.stops ++ [(c, t)] } ∧ ∀ q, q ≠ t → u.strand c q = s.strand c q)
  ∧ (apart → plain → traced → s.handlerFor c t st.why = some h →
      ∃ u, goes (some h) u ∧ u.skyo = s.skyo
        ∧ (u.strand c h).fifo = (s.strand c h).fifo ++ [t] ∧ ∀ q, q ≠ t → q ≠ h → u.strand c q = s.strand c q)

/-- R309, R310, R325, R346: RESUME_STRAND on a stopped strand that Skyo holds checks its records one by one, and the strand goes on from its
descriptor, its records to be reissued; RSTAT names the first that fails, in list order. DISCARD ends it instead. The call waits for its
caller's own stores to the area and for its fences (R2). That a strand which stopped with SYSC for a call no strand may make reads DENIED
and 0 is log entry 65, and that a descriptor whose DSTATE is not 1 fails as SEQ 0 is log entry 106. -/
def Obligations.StopsResumed : Prop := ∀ (s : State) (c p n : Nat) (t : BitVec 2) (desc : BitVec 64) (l : List Rec),
  let k := s.core c
  let x := k.strand t
  let word (off n : Nat) : Nat := leValue (Memory.bytes x.area off n)
  let block (en : Eng) (b : Nat) : Bool := (blockOf s p x.lridx en b).isSome
  let list := x.checkList block
  let count := word 4 2
  let waits := ∃ i ∈ (s.hart s.skyo.caller).items, i.op.isFence = true
    ∨ (i.op.writes = true ∧ overlap i.op.range (desc.toNat % 2 ^ 48, 65536) = true)
  let named := ¬ waits ∧ (s.part p).orphans = [] ∧ descStrand s p desc.toNat = some (c, t) ∧ s.partOf c = p
  let held := x.life = .stopped ∧ x.stop = none ∧ x.recv = none
  let call := Instr.resumeStrand p desc 0
  let resumed (y : Strand) : Strand := { y with
    life := .resuming, reissue := l.map (fun r => { r with flt := false, cause := 0, sub := 0 }), area := Memory.store x.area 0 [2],
    pc := BitVec.ofNat 64 (word 8 8), slots := word 16 8, owed := word 24 1 }
  let goesOn (y : Strand) : Prop := ∃ u, exec call s = .next u ∧ Answered u 0 0
    ∧ u.skyo.stops = s.skyo.stops.filter (fun e => !(e.1 = c && e.2 = t))
    ∧ OnlyCore s { u with skyo := s.skyo } c (withStrand k t (resumed y))
  let kinds (n : Nat) : Nat := l.countP (fun r => r.kind.toNat = n)
  (word 0 1 = 1 → recPlace x count ≤ 65536 → (∀ j < count, RecordOk x block j) → ∃ l, list = .ok l ∧ l.length = count)
  ∧ (word 0 1 = 1 → n < count → (∀ j < n, RecordOk x block j ∧ recPlace x (j + 1) ≤ 65536) →
      (¬ RecordOk x block n ∨ 65536 < recPlace x (n + 1)) → list = .error n)
  ∧ (word 0 1 ≠ 1 → list = .error 0)
  ∧ (waits → exec call s = .next s)
  ∧ (named → held → list = .ok l → word 1 1 ≠ 18 → goesOn x)
  ∧ (named → held → list = .ok l → word 1 1 = 18 → word 26 2 ∉ [5, 9, 13] → goesOn { x with s := (x.s.set 1 7).set 2 0 })
  ∧ (named → held → list = .error n → OnlyAnswers s call 0 ((2 + n * 256) % 2 ^ 24))
  ∧ (named → ¬ held → OnlyAnswers s call 0 1)
  ∧ (named → held → list = .ok l → ∃ u, exec (.resumeStrand p desc 1) s = .next u ∧ Answered u 0 0
      ∧ (u.strand c t).life = .ended ∧ (u.strand c t).done = true ∧ (u.strand c t).reissue = [] ∧ (u.strand c t).s = x.s
      ∧ (u.strand c t).cntV = x.cntV - kinds 3 ∧ (u.strand c t).cntM = x.cntM - kinds 4 ∧ (u.strand c t).cntX = x.cntX - kinds 5
      ∧ ((s.die (dieOf c)).queue = [] → (u.strand c t).lease = 0) ∧ ∀ m, (s.core c).semCount m = (u.core c).semCount m)

/-- R177, R258, R304 to R306, R310, R311, R314, R318, R330: RECORD_REISSUE. A resuming strand first reads the operands of its V-op records;
then each record that must perform does, in order, a translated one in the third core slot after its issue at the earliest, its result
going to the records linked to it, and one that fails stops the strand again with its list, or ends its launch where it meets ECC; a JR whose target is misaligned is dropped;
then its fixed-latency results are due again, its entries stand in their queues, and it runs. An allocation that has waited LIMIT ticks
leaves its queue and stops its strand or entry with POOLSTALL, the n and the target it read in its record. That a TALC which stalls takes
its own slot is log entry 63, that a lull halt holds a reissue and a quiet core keeps its allocations is log entry 69, that a stop which
meets a resuming strand waits is log entry 71, which operand LOP 3 names is log entry 95, and that SEVENT takes the stores of the whole
cluster home is log entry 13. -/
def Obligations.RecordsReissued : Prop := ∀ (s mid : State) (c n : Nat) (t : BitVec 2) (l : List Rec) (r : Rec) (q : Request)
    (ctl : BitVec 2) (rd ra rb : BitVec 5) (g : BitVec 3) (v : Option Word) (w : Trouble) (xr : XRun) (en : Eng)
    (la : Launch) (ix : BitVec 10),
  let k := s.core c
  let x := k.strand t
  let step := Instr.recordReissue c t
  let gives (y : Strand) : Prop := ∃ u, exec step s = .next u ∧ OnlyCore s u c (withStrand k t y)
  let linked (q : Rec) : Prop := q.kind = 0 ∧ q.link = r.seq
  let fed (w : Word) (q : Rec) : Rec := if linked q then
    (if q.lop = 1 ∨ (q.lop = 3 ∧ Config.freeBit s.freeIx = true) then { q with opa := w, link := 0xFFFF, lop := 0 }
     else { q with opb := w, link := 0xFFFF, lop := 0 }) else q
  let draws := v.isSome = true ∧ ∃ q ∈ l, linked q ∧ q.lop = 3
  let again := x.life = .resuming ∧ x.relend = 0 ∧ k.lull = false
  let read := ∀ e ∈ x.reissue, e.kind = 1 → e.cap ≠ none
  let on : Life := if x.stop.isSome then .stopped else if x.done then .ended else .running
  let mine (q : List Entry) : Nat := q.countP (fun e => e.strand = t)
  let stored (en : Eng) : Nat := (((s.part (s.partOf c)).orphans.filter (fun o => o.core = c && o.en = en)).map (fun o => o.owners.count t)).sum
  let queue (k : Core) : List Entry := match en with | .v => k.vq | .m => k.mq | .x => k.xq
  let free := match en with | .v => k.vrun = none | .m => k.mrun = none | .x => k.xrun = none
  let code := match en with | .v => 3 | .m => 4 | .x => 5
  let performs (o : Perf) : Prop := perform s c t r.sWord r.opa r.opb (BitVec.ofNat 64 (leValue (r.ext.take 8))) false false = o
  let far := (match r.sWord with | .ld .. | .ldn .. | .st .. | .atm .. | .acas .. => true | _ => false) = true
    ∧ isWindow (r.opa.toNat % 2 ^ 48) = false
  let first := again ∧ read ∧ x.reissue = r :: l ∧ r.kind = 0
  let due := first ∧ isQueued r.sWord = true ∧ (far → ∃ m, x.issuedAt = some m ∧ m + 3 ≤ k.slotNo)
  let stalled := q.talc = true ∧ q.granted = none ∧ q.limit ≠ 0 ∧ q.tick + q.limit ≤ s.tick
  let out (u : State) (w : BitVec 3) : Prop := ((u.core q.target).poolPart q.part).queue
    = ((s.core q.target).poolPart q.part).queue.filter (fun a => !(a.core = c && a.unit = w))
  (again → ¬ read → ∃ f : Rec → Option Capture, gives { x with reissue := x.reissue.map (fun e => { e with cap := f e }) }
      ∧ ∀ e ∈ x.reissue, (e.kind ≠ 1 ∨ e.cap ≠ none → f e = e.cap)
        ∧ (e.kind = 1 → e.cap = none → ∃ p, f e = some p ∧ (e.prog.toNat < 2 ^ 16 → p.vals = p.regs.map x.vreg)))
  ∧ (first → far → x.issuedAt = none → gives { x with issuedAt := some k.slotNo })
  ∧ (first → far → x.issuedAt = some n → k.slotNo < n + 3 → exec step s = .next s)
  ∧ (due → performs (.done mid v) →
      ∃ u, exec step s = .next u ∧ OnlyCore { mid with freeIx := mid.freeIx + (if draws then 1 else 0) } u c (withStrand (mid.core c) t
        { (mid.strand c t).takeLoad r.sWord v with reissue := (match v with | some w => l.map (fed w) | none => l), issuedAt := none }))
  ∧ (due → performs .busy → exec step s = .next s)
  ∧ (due → performs (.fault w) → w.cause ≠ .ecc → k.tren = false →
      ∃ u, exec step s = .next u ∧ (∀ a, u.seen (c / 8) a = s.seen (c / 8) a) ∧ (k.team ≠ none → (u.cluster (c / 8)).pending = [])
        ∧ (u.strand c t).life = .stopped ∧ (u.strand c t).reissue = []
        ∧ (let f (off n : Nat) : Nat := leValue (Memory.bytes (u.strand c t).area off n)
           f 0 1 = 1 ∧ f 1 1 = w.cause.code ∧ f 2 1 = w.sub.toNat ∧ f 4 2 = (l.length + 1) % 2 ^ 16 ∧ f 6 2 = 0 ∧ f 8 8 = x.pc.toNat
            ∧ f 16 8 = x.slots % 2 ^ 64 ∧ f 64 1 / 16 % 2 = 1 ∧ f 65 1 = w.cause.code ∧ f 68 2 = 0))
  ∧ (due → performs (.fault w) → w.cause = .ecc → k.team.map (·.launch) = some ix → s.launch? (s.partOf c) ix = some la → la.kill = none →
      KillIsQuick s (s.partOf c) → ∃ u, exec step s = .next u ∧ Killed s u (s.partOf c) ix 5 13 w.sub.toNat)
  ∧ (first → r.prog = 0 → r.sWord = .jr ctl ra g →
      gives { x with pc := if r.opa.toNat % 4 = 0 then r.opa else x.pc, reissue := l, issuedAt := none })
  ∧ (again → read → (∀ e ∈ x.reissue, e.kind ≠ 2 ∧ (e.kind = 0 → e.prog ≠ 0 ∧ isQueued e.sWord = false)) → Memory.byte x.area 0 = 2 →
      ∃ u, exec step s = .next u ∧ (u.strand c t).life = on ∧ (u.strand c t).reissue = [] ∧ (u.strand c t).noBrk = true
        ∧ (u.strand c t).recv = none ∧ Memory.byte (u.strand c t).area 0 = 0 ∧ (u.strand c t).pc = x.pc ∧ (u.strand c t).s = x.s
        ∧ (u.strand c t).flight.map (fun w => (w.due, w.dest, w.val)) = x.reissue.filterMap (fun e => if e.kind = 0 then
            (fixedResult e.sWord e.opa e.opb).map (fun w => (x.slots + e.prog.toNat, w.1, w.2)) else none)
        ∧ (u.strand c t).cntV = mine (u.core c).vq + stored .v ∧ (u.strand c t).cntM = mine (u.core c).mq + stored .m
        ∧ (u.strand c t).cntX = mine (u.core c).xq + stored .x
        ∧ (free → (∀ e ∈ queue k, e.resume = none) → ∃ es, queue (u.core c) = es ++ queue k
          ∧ es.map (fun e => (e.blk, e.p0, e.p1, e.sync, e.strand, e.launch, e.hw))
            = (x.reissue.filter (fun e => e.kind.toNat = code)).map (fun e => (BitVec.ofNat 8 e.word.toNat, e.opa, e.opb,
                BitVec.ofNat 64 (leValue (e.ext.take 8)), t, x.lridx, e.hw)))
        ∧ (∀ d, d ≠ c → u.core d = s.core d) ∧ { u with cores := s.cores } = s)
  ∧ (again → x.reissue = [] → Memory.byte x.area 0 ≠ 2 → gives { x with life := on, lastTick := s.tick })
  ∧ (k.lull = true ∨ x.life ≠ .resuming → exec step s = .next s)
  ∧ (x.request = some q → stalled → ¬ Quiet s c → x.life = .running → x.stop = none → s.wordAt c x.pc = some (.talc ctl rd ra rb) →
      ∃ u g, exec (.poolstall c (t.setWidth 3)) s = .next u ∧ out u (t.setWidth 3) ∧ (u.strand c t).life = .stopped
        ∧ (u.strand c t).stop = some (stopAt s c ⟨.poolstall, 0, 0⟩ (.issue (some g))) ∧ g.op = .talc ctl rd ra rb
        ∧ g.opa = q.opa ∧ g.opb = q.opb
        ∧ (u.strand c t).request = none ∧ (u.strand c t).pc = x.pc + 4 ∧ (u.strand c t).slots = x.slots + 1 ∧ SameBytes s u)
  ∧ (x.request = some q → ¬ stalled ∨ Quiet s c → exec (.poolstall c (t.setWidth 3)) s = .next s)
  ∧ (k.xrun = some xr → xr.request = some q → stalled → ¬ Quiet s c → xr.flt = none →
      ∃ u g, exec (.poolstall c 4) s = .next u ∧ out u 4 ∧ (u.core c).xrun = some g ∧ g.request = none ∧ g.flt = some ⟨.poolstall, 0, 0⟩
        ∧ g.e = xr.e ∧ g.idx = xr.idx ∧ SameBytes s u)

-- Launches and teams

/-- R274, R291, R314, R315, R353: LAUNCH_KILL ends a launch with CODE 4; an uncorrectable error fences its unit and ends the launch whose
access met it with CODE 5, cause ECC and the unit's subcause; a read of the host region that ends in error, or that has waited 50 ms,
leaves its queue without a write and ends its launch with subcause 4, a strand's fetch likewise. A kill that has begun ends with the STATUS
it began with. Stated where no core of the partition has work outstanding, so that the kill waits for nothing. That a record without a launch
answers OK and that a begun kill keeps its STATUS is log entry 50, that a fetch's 50 ms count from the strand's last word log entries 54
and 87, and that the end of a launch takes every store of the partition home log entry 13. -/
def Obligations.LaunchesKilled : Prop := ∀ (s : State) (c p pa : Nat) (t : BitVec 2) (i : BitVec 64) (l : Launch) (u : EccUnit) (q : QItem)
    (ctl : BitVec 2) (rd ra : BitVec 5) (imm : BitVec 9) (sz : BitVec 2),
  let x := s.strand c t
  let k := s.core c
  let here := s.partOf c
  let r : BitVec 10 := BitVec.ofNat 10 i.toNat
  let usable := i.toNat < 1024 ∧ recBytes s p i.toNat 0 1 = [1]
  let sub : Nat := match u with | .core _ array => if array then 1 else 0 | .cluster _ => 3 | .channel .. => 2
  let f := s.setStrand c t { x with loads := [] }
  let reads := x.loads = [q] ∧ q.flt = none ∧ q.op ∈ [Instr.ld ctl rd ra imm sz, .ldn ctl rd ra imm sz]
    ∧ resolveIn s here q.opa.toNat .load false = .ok pa ∧ isHost pa = true
  let as (d : Nat × Nat × Nat) : Nat × Nat × Nat := l.kill.getD d
  let ends (g w : State) (p : Nat) (r : BitVec 10) (d : Nat × Nat × Nat) : Prop := Killed g w p r (as d).1 (as d).2.1 (as d).2.2
  let killed (f : State) (i : Instr) : Prop := ∃ w, exec i s = .next w ∧ ends f w here x.lridx (5, 13, 4)
  let fetches := x.loads = [] ∧ x.stores = [] ∧ noEntries k ∧ x.life = .running
    ∧ resolveIn s here x.pc.toNat .fetch false = .ok pa ∧ isHost pa = true
  (∀ u, l.kill = some u → u.1 < 256 ∧ u.2.1 < 256 ∧ u.2.2 < 256) →
  (usable → s.launch? p r = some l → KillIsQuick s p →
    ∃ w, exec (.launchKill p i) s = .next w ∧ ends s w p r (4, 0, 0) ∧ Answered w 0 0)
  ∧ (usable → s.launch? p r = none → OnlyAnswers s (.launchKill p i) 0 0)
  ∧ (¬ usable → OnlyAnswers s (.launchKill p i) 9 0)
  ∧ (s.launchOf c = some x.lridx → s.launch? here x.lridx = some l → KillIsQuick s here →
      ∃ g w, exec (.eccUncorrectable u c t) s = .next w ∧ Fences s g u ∧ ends g w here x.lridx (5, 13, sub))
  ∧ (s.launchOf c ≠ some x.lridx → ∃ w, exec (.eccUncorrectable u c t) s = .next w ∧ Fences s w u)
  ∧ (reads → s.launch? here x.lridx = some l → KillIsQuick f here → killed f (.hostReadErrorCompletion c t))
  ∧ (reads → s.launch? here x.lridx = some l → KillIsQuick f here → q.tick + 42_500_000 ≤ s.tick → killed f (.hostReadTimeout c t))
  ∧ (fetches → s.launch? here x.lridx = some l → KillIsQuick s here → killed s (.hostReadErrorCompletion c t)
    ∧ (x.lastTick + 42_500_000 ≤ s.tick → killed s (.hostReadTimeout c t)))
  ∧ (reads → noEntries k → x.stores = [] → s.tick < q.tick + 42_500_000 → x.life ≠ .running ∨ s.tick < x.lastTick + 42_500_000 → exec (.hostReadTimeout c t) s = .next s)

/-- R280, R281: TEAM_ENTRY_GENERATE puts the next team of an armed launch into a bank with room, before the first team that it precedes by
class, arm sequence and index. TEAM_TAKE gives a core without a team the first team of its cluster's bank; a fenced core or cluster takes
none (R314), nor does one under a lull halt (log entry 69). A swapped team comes back with its registers, entries, semaphores and accumulators, a strand that returned a lease resuming
to take it again (R292, R325); where the core it left is fenced another core may take it (log entry 26), and one of another cluster drops
its cluster's cached lines (R103). -/
def Obligations.TeamsDispensed : Prop := ∀ (s : State) (c p b i n : Nat) (r : BitVec 10) (q : BitVec 3) (l : Launch) (m : Team)
    (rest : List BankEntry) (x : TeamCtx),
  let sh := s.recShape p r.toNat
  let cl := s.cluster b
  let prio : BitVec 3 := BitVec.ofNat 3 (leValue (recBytes s p r.toNat 3 1))
  let emits := l.kill = none ∧ l.next < teamCount sh ∧ cl.part = p ∧ cl.fenced = false ∧ (∃ n < 8, (s.core (8 * b + n)).fenced = false) ∧ cl.bank.length < 512
    ∧ (∀ y ∈ (s.part p).swapped, y.core / 8 ≠ b) ∧ s.placeOk p r (l.standing s p sh) sh l.next b = true
  let ahead (y : BankEntry) : Prop := match y with
    | .team _ q a j ctx => prio < q ∨ (prio = q ∧ (ctx.isSome = true ∨ a < l.armseq ∨ (a = l.armseq ∧ j < l.next)))
    | .task .. => True
  let k := s.core c
  let own := s.cluster (c / 8)
  let takes := k.fenced = false ∧ own.fenced = false ∧ ¬ Quiet s c ∧ k.team = none ∧ k.pool = none ∧ own.part = p ∧ own.ring = []
    ∧ ∀ y ∈ own.pending, ∀ u : BitVec 2, y.by_ ≠ some (c, u)
  (s.launch? p r = some l → emits → ∃ t pre post l', exec (.teamEntryGenerate p r b) s = .next t
    ∧ cl.bank = pre ++ post ∧ (∀ y ∈ pre, ahead y) ∧ (∀ y, post.head? = some y → ¬ ahead y)
    ∧ OnlyCluster s { t with parts := s.parts } b { cl with bank := pre ++ .team r prio l.armseq l.next none :: post }
    ∧ t.launch? p r = some l' ∧ l'.next = l.next + 1 ∧ l'.armseq = l.armseq
    ∧ ∀ q j, q ≠ p ∨ j ≠ r → t.launch? q j = s.launch? q j)
  ∧ (s.launch? p r = some l → ¬ emits → exec (.teamEntryGenerate p r b) s = .next s)
  ∧ (takes → own.bank = .team r q n i none :: rest → (∀ e ∈ sh, e.2 ≠ 3) →
      ∃ t, exec (.teamTake c) s = .next t
        ∧ OnlyCore s { t with clusters := s.clusters, parts := s.parts } c { k with
            team := some { launch := r, index := i, strands := teamStrands sh } }
        ∧ t.cluster (c / 8) = { own with bank := rest } ∧ (∀ j, j ≠ c / 8 → t.cluster j = s.cluster j)
        ∧ ∀ q j, (t.launch? q j).map (fun l => (l.armseq, l.next, l.kill)) = (s.launch? q j).map (fun l => (l.armseq, l.next, l.kill)))
  ∧ (takes → k.away = [] → noEntries k → own.bank = .team r q n i (some x) :: rest → x.core = c →
      ∃ t, exec (.teamTake c) s = .next t ∧ t.cluster (c / 8) = { own with bank := rest } ∧ t.mem = s.mem
        ∧ (let y := t.core c
           y.team = some x.team ∧ y.vq = x.saved.vq ∧ y.mq = x.saved.mq ∧ y.xq = x.saved.xq ∧ y.vrun = x.saved.vrun ∧ y.mrun = x.saved.mrun
            ∧ y.xrun = x.saved.xrun ∧ y.tiles = x.saved.tiles ∧ y.sem = x.saved.sem ∧ y.spad = k.spad
            ∧ ∀ n, y.strand n = { x.saved.strand n with life :=
                if (x.saved.strand n).relend ≠ 0 ∧ (x.saved.strand n).life = .running then .resuming else (x.saved.strand n).life })
        ∧ ∀ d, d ≠ c → t.core d = s.core d)
  ∧ (takes → k.away = [] → noEntries k → own.bank = .team r q n i (some x) :: rest → (s.core x.core).fenced = true → x.core / 8 ≠ c / 8 →
      (∀ e ∈ sh, e.2 ≠ 3) → ∃ t, exec (.teamTake c) s = .next t ∧ (t.core c).team = some x.team ∧ (t.cluster (c / 8)).bank = rest
        ∧ (t.cluster (c / 8)).cache = [] ∧ ∀ n, (t.strand c n).s = (x.saved.strand n).s ∧ (t.strand c n).pc = (x.saved.strand n).pc
          ∧ (t.strand c n).since = own.epoch + 1)
  ∧ (k.fenced = true ∨ own.fenced = true ∨ Quiet s c → exec (.teamTake c) s = .next s)
  ∧ (k.team = some m → m.started = false → exec (.teamTake c) s = .next s)

/-- R67, R77, R108, R122, R233, R246, R252, R255, R338: KERNEL_START of a team on a core with no pool and no entries. Every strand of the
team runs from ENTRY with its registers, guards and tile status at 0 and its vector state as it was; its index, extents, parameters,
tiles and sync slots are those of the record and the kernel descriptor; the other strands are idle. The named semaphores take their values,
the others keep theirs; the record is RUNNING; the core's pool is the launch's. -/
def Obligations.KernelStarts : Prop := ∀ (s : State) (c : Nat) (m : Team) (n : BitVec 2),
  let k := s.core c
  let p := s.partOf c
  let i := m.launch.toNat
  let u := if leValue (recBytes s p i 1 1) = 1 then { s with
    mem := Memory.store s.mem (s.recAddr p i + 1) [2], resvs := s.resvs.filter (fun e => !overlap (e.pa, e.n) (s.recAddr p i + 1, 1)) } else s
  let field (off n : Nat) : Nat := leValue (recBytes u p i off n)
  let kd (off n : Nat) : Nat := kdescField u p m.launch off n
  let sh := u.recShape p i
  let index := unitIndex sh m.index n.toNat
  let x := k.strand n
  k.team = some m → m.started = false → ¬ Quiet s c → k.vq = [] → k.mq = [] → k.xq = [] → k.waits = [] → (s.part p).orphans = [] → k.pool = none →
  k.away = [] →
  field 160 8 + 2816 ≤ 0x1000_0000_0000 →
    ∃ w t, exec (.kernelStart c) s = .next t ∧ LinesDropped u w c ∧ { t with cores := w.cores } = w ∧ (∀ d, d ≠ c → t.core d = s.core d)
      ∧ (let k' := t.core c
        let y := k'.strand n
        k'.team = some { m with started := true, masks := Vector.replicate 4 0 } ∧ k'.pool = some (u.newPool p i) ∧ k'.cur = 0
        ∧ k'.spad = k.spad ∧ k'.tiles = k.tiles
        ∧ (∀ j < 256, k'.semCount j = if (kd 1728 32).testBit j then BitVec.ofNat 32 (kd (1760 + 4 * j) 4) else k.semCount j)
        ∧ (m.strands ≤ n.toNat → y = { x with life := .idle, ts := Vector.replicate 16 0 })
        ∧ (n.toNat < m.strands → y.life = .running ∧ y.pc = BitVec.ofNat 64 (field 136 8) ∧ y.s = Vector.replicate 32 0 ∧ y.g = 0
          ∧ y.v = x.v ∧ y.tag = x.tag ∧ y.k = x.k ∧ y.vshape = x.vshape ∧ y.slots = 0 ∧ y.owed = 0 ∧ y.flight = [] ∧ y.loads = []
          ∧ y.stores = [] ∧ y.ts = Vector.replicate 16 0 ∧ y.fflags = 0 ∧ y.limit = 0x0100_0000 ∧ y.lridx = m.launch ∧ y.depth = 0
          ∧ y.accmap = BitVec.ofNat 12 (field 120 8 / 2 ^ (12 * n.toNat))
          ∧ (∀ j : Fin 8, y.lparam[j] = BitVec.ofNat 64 (field (16 + 8 * j.val) 8) ∧ y.wid[j] = BitVec.ofNat 16 (index.getD j.val 0)
              ∧ y.wext[j] = BitVec.ofNat 17 ((sh.map (·.1)).getD j.val 1))
          ∧ ∀ j : Fin 16, y.sync[j] = BitVec.ofNat 64 (kd (1600 + 8 * j.val) 8) &&& 0x0007_FFFF_FFFF_FFFF))

/-- R25, R267, R268, R273 to R275, R282, R292, R325: LAUNCH_COMPLETION writes STATUS, with ABANDONED and a strict launch's error where
reads were left, makes the record DONE and posts CEVENT, once every team has ended and every entry retired. TEAM_SWAP moves a blocked
team whole to memory, its stores home, and returns its leases; when a team is ready to go is log entry 45, that the stores of the whole
cluster or partition go home log entry 13, and that no team goes from a quiet core log entry 69; SWAPPED_TEAM_REENTER puts it at the tail of its class in its cluster's bank. -/
def Obligations.TeamsEnd : Prop := ∀ (s : State) (c p j : Nat) (r : BitVec 10) (l : Launch) (e : Event) (m : Team) (x : TeamCtx),
  let i := r.toNat
  let lost := s.abandoned p r ≠ 0
  let strict := leValue (recBytes s p i 9 1) % 2 = 1
  let status := if lost then (if strict then 8 * 2 ^ 24 + 3 * 2 ^ 16 + 2 ^ 8 + 5 else 2 ^ 8) else 0
  let k := s.core c
  let home := s.partOf c
  let b := x.core / 8
  let prio : BitVec 3 := BitVec.ofNat 3 (leValue (recBytes s p x.team.launch.toNat 3 1))
  let ahead (y : BankEntry) : Prop := match y with | .team _ q _ _ _ => prio ≤ q | .task .. => True
  let back := BankEntry.team x.team.launch prio (leValue (recBytes s p x.team.launch.toNat 168 8)) x.team.index (some x)
  (s.launch? p r = some l → s.launchDone p r l = true → ∃ t, exec (.launchCompletion p r) s = .next t ∧ t.launch? p r = none
    ∧ leValue (recBytes t p i 12 4) = status ∧ leValue (recBytes t p i 1 1) = 3
    ∧ PartHome s t p
    ∧ (let cev := leValue (recBytes t p i 4 2)
       s.event p cev = some e → ∃ f, t.event p cev = some f ∧ f.poison = e.poison
        ∧ (e.poison = false → f.count = e.count - (if e.count = 0 then 0 else 1) ∧ f.set = (e.set || decide (e.count.toNat ≤ 1))))
    ∧ (∀ a, a ≠ s.recAddr p i + 1 → (a < s.recAddr p i + 12 ∨ s.recAddr p i + 16 ≤ a) → partStill s p a →
        Memory.byte t.mem a = Memory.byte s.mem a)
    ∧ ∀ d, (t.core d).strands = (s.core d).strands ∧ (t.core d).spad = (s.core d).spad)
  ∧ (s.launch? p r = some l → s.launchDone p r l = false → exec (.launchCompletion p r) s = .next s)
  ∧ (k.team = some m → m.started = true → ¬ Quiet s c → s.teamBlocked c m = true → k.swapReady m = true → k.xrun = none →
      (∀ t, (s.strand c t).request = none) → (∀ w ∈ k.waits, w.granted = false) → (s.die (dieOf c)).queue = [] →
      ∃ t y, exec (.teamSwap c) s = .next t ∧ (t.core c).team = none ∧ noEntries (t.core c) ∧ (t.core c).spad = k.spad
        ∧ (∀ q, (t.strand c q).life = .idle ∧ (t.strand c q).lease = 0)
        ∧ (t.part home).swapped = (s.part home).swapped ++ [y] ∧ y.core = c ∧ y.team = m ∧ y.saved.tiles = k.tiles ∧ y.saved.sem = k.sem
        ∧ y.saved.vq = k.vq ∧ y.saved.mq = k.mq ∧ y.saved.xq = k.xq
        ∧ (∀ q, (y.saved.strand q).s = (s.strand c q).s ∧ (y.saved.strand q).v = (s.strand c q).v ∧ (y.saved.strand q).pc = (s.strand c q).pc
            ∧ (y.saved.strand q).relend = if (s.strand c q).lease = 0 then (s.strand c q).relend else (s.strand c q).lease)
        ∧ (t.cluster (c / 8)).pending = [] ∧ (∀ a, t.byteAt a = s.seen (c / 8) a) ∧ ∀ d, d ≠ c → t.core d = s.core d)
  ∧ (k.team = some m → m.started = false ∨ Quiet s c ∨ s.teamBlocked c m = false ∨ k.swapReady m = false → exec (.teamSwap c) s = .next s)
  ∧ ((s.part p).swapped[j]? = some x → (s.cluster b).bank.length < 512 → ∃ t pre post, exec (.swappedTeamReenter p j) s = .next t
      ∧ (s.cluster b).bank = pre ++ post ∧ (∀ y ∈ pre, ahead y) ∧ (∀ y, post.head? = some y → ¬ ahead y)
      ∧ OnlyCluster s { t with parts := s.parts } b { s.cluster b with bank := pre ++ back :: post }
      ∧ OnlyPart s { t with clusters := s.clusters } p { s.part p with swapped := (s.part p).swapped.eraseIdx j })
  ∧ ((s.part p).swapped[j]? = some x → 512 ≤ (s.cluster b).bank.length → (∀ y ∈ (s.cluster b).bank, y.isTask = false) →
      exec (.swappedTeamReenter p j) s = .next s)

/-- R312, R313, R325: PREEMPT of a partition with one core in use, none of whose strands has work outstanding: each running strand has
stopped with PREEMPT in the saved context, its lease returned, and the core is left without a team. PARTITION_RESTORE gives the
context back, save the core's debug and trace controls, counters and bucket (which of them stay, and that a returned lease is acquired
again, is log entry 66), all of it later than every acquire of the cluster; PARTITION_CLEAR leaves a halted core as after reset, save
its halts, fence and counters and the scratchpad, which is the saved image or 0; neither touches a core that is not halted. -/
def Obligations.PartitionsMove : Prop := ∀ (s : State) (c p : Nat) (v : Core),
  let k := s.core c
  let seen := (s.cluster (c / 8)).epoch + 1
  let late (e : Entry) : Entry := { e with since := some seen }
  (s.partCores p = [c] → (s.part p).saved = [] → noEntries k → k.tren = false → (∀ w ∈ k.waits, w.granted = false) →
    (∀ t, (s.strand c t).loads = [] ∧ (s.strand c t).stores = [] ∧ (s.strand c t).fences = [] ∧ (s.strand c t).request = none
      ∧ (s.strand c t).stop = none ∧ (s.strand c t).life ≠ .resuming ∧ (s.strand c t).fifo = []) → (s.die (dieOf c)).queue = [] →
    ∃ u w, exec (.preempt p) s = .next u ∧ (u.part p).saved = [(c, w)] ∧ (u.core c).team = none ∧ noEntries (u.core c)
      ∧ (∀ t, (u.strand c t).life = .idle) ∧ w.team = k.team ∧ w.spad = k.spad ∧ w.tiles = k.tiles ∧ w.sem = k.sem
      ∧ (∀ t, (w.strand t).lease = 0 ∧ ((s.strand c t).lease ≠ 0 → (w.strand t).relend = (s.strand c t).lease)
          ∧ ((s.strand c t).life = .running → (w.strand t).life = .stopped ∧ (w.strand t).stop = none
              ∧ (w.strand t).s = (s.strand c t).landDue.s ∧ Memory.byte (w.strand t).area 1 = 24))
      ∧ PartHome s u p ∧ (∀ a, partStill s p a → Memory.byte u.mem a = Memory.byte s.mem a) ∧ ∀ d, d ≠ c → u.core d = s.core d)
  ∧ ((s.part p).saved ≠ [] → exec (.preempt p) s = .next s)
  ∧ ((s.part p).saved = [(c, v)] → k.halted = true → ∃ w u, exec (.partitionRestore p) s = .next u ∧ LinesDropped s w c
      ∧ OnlyCore w { u with parts := s.parts } c { v with
          brkb := k.brkb, trbase := k.trbase, tren := k.tren, trerr := k.trerr, trhead := k.trhead, trlog := k.trlog
          lull := k.lull, cut := k.cut, counters := k.counters, fenced := k.fenced, balance := k.balance
          strands := v.strands.map (fun x => { x with since := seen }), vq := v.vq.map late, mq := v.mq.map late, xq := v.xq.map late
          vrun := v.vrun.map (fun r => { r with entry := late r.entry }), mrun := v.mrun.map (fun r => { r with entry := late r.entry })
          xrun := v.xrun.map (fun r => { r with entry := late r.entry }) }
      ∧ OnlyPart w { u with cores := w.cores } p { s.part p with saved := [] })
  ∧ ((s.part p).saved = [(c, v)] → k.halted = false → exec (.partitionRestore p) s = .next s)
  ∧ (k.halted = true → ∃ u, exec (.partitionClear c) s = .next u ∧ OnlyCore s u c { ({} : Core) with
      spad := (match (s.part (s.partOf c)).saved.find? (fun e => e.1 = c) with | some e => e.2.spad | none => [])
      lull := k.lull, cut := k.cut, cutAt := k.cutAt, fenced := k.fenced, slotNo := k.slotNo, counters := k.counters })
  ∧ (k.halted = false → exec (.partitionClear c) s = .next s)

-- Windows and calls

/-- R22, R83 to R85, R108, R187, R222, R223, R246, R328 to R333: what a window write leaves, where the core's cluster is not halted: a
scalar register (s0 keeps 0), a sync slot and a tile status word without their read-only bits, a system register's RW fields, and no
read-only register; one granule of a vector register with its new tag; a tag; a semaphore's count; an accumulator cell, canonical. A
tile that a running M entry uses waits. A write to TRCTL starts HEAD at 0 and sets ERR where LOG2N is out of range; that EN and LOG2N
take the values written there too is log entry 32. -/
def Obligations.WindowWrites : Prop := ∀ (s : State) (c : Nat) (t : BitVec 2) (r a : BitVec 5) (j tag : BitVec 4) (g : BitVec 3) (v : BitVec 64)
    (w : BitVec 512) (b m : BitVec 8) (x32 : BitVec 32) (cell : BitVec 15) (num : BitVec 14) (on : Bool),
  let k := s.core c
  let x := k.strand t
  let gives (i : Instr) (k : Core) : Prop := ∃ u, exec i s = .next u ∧ OnlyCore s u c k
  let writes (off : Nat) (y : Strand) : Prop := gives (.windowRegisterWrite c (BitVec.ofNat 22 off) v) (withStrand k t y)
  let sys (n : Nat) : Nat := 0x38_0000 + 0x2_0000 * t.toNat + 8 * n
  let sysw (n : Nat) (k : Core) : Prop := gives (.windowRegisterWrite c (BitVec.ofNat 22 (sys n)) v) k
  let bad := on = true ∧ (a.toNat < 8 ∨ 20 < a.toNat)
  let tile := k.tiles[(cell.extractLsb' 12 3).toNat]'(cell.extractLsb' 12 3).isLt
  let n := (cell.extractLsb' 0 12).toNat
  let used := ∃ q, k.mrun = some q ∧ (cell.extractLsb' 12 3).toNat ∈ q.uses
  let canon := v.toNat % 8192 % 8191 + v.toNat / 2 ^ 13 % 2 ^ 21 * 2 ^ 13 + v.toNat / 2 ^ 34 % 2 ^ 14 % 8193 * 2 ^ 34
  let cellOf (t : Tile) (n : Nat) : BitVec 48 := Sparse.get 0 t.cells n
  (s.clusterHalted c = false →
    writes (0x30_0000 + 0x100 * t.toNat + 8 * r.toNat) (withReg x r v)
    ∧ writes (0x30_2000 + 0x80 * t.toNat + 8 * j.toNat) { x with sync := x.sync.set j.toNat (v &&& 0x0007_FFFF_FFFF_FFFF) j.isLt }
    ∧ writes (0x30_3000 + 0x20 * t.toNat + 2 * j.toNat) { x with ts := x.ts.set j.toNat (v.extractLsb' 0 16 &&& 0xFF0F) j.isLt }
    ∧ ((∀ q, k.vrun = some q → q.entry.strand ≠ t) → (∀ e ∈ k.vq, e.resume = none) → x.reissue = [] →
        ∃ y : VReg, gives (.windowVregWrite c (BitVec.ofNat 10 (256 * t.toNat + 8 * r.toNat + g.toNat)) w tag)
            (withStrand k t { x with v := x.v.set r.toNat y r.isLt, tag := x.tag.set r.toNat tag r.isLt })
          ∧ ∀ i < 8, y.extractLsb' (512 * i) 512 = if i = g.toNat then w else (x.vreg r).extractLsb' (512 * i) 512)
    ∧ gives (.windowTagWrite c (BitVec.ofNat 7 (32 * t.toNat + r.toNat)) b)
        (withStrand k t { x with tag := x.tag.set r.toNat (b.extractLsb' 0 4) r.isLt })
    ∧ (∃ u, exec (.semaphoreWindowStore c m x32) s = .next u ∧ SemSet s u c m.toNat x32.toNat)
    ∧ (c < 3072 → ¬ used → ∃ u k' T, exec (.accumulatorWindowAccess c cell (some v)) s = .next u ∧ OnlyCore s u c k'
        ∧ { k' with tiles := k.tiles } = k
        ∧ k'.tiles = k.tiles.set (cell.extractLsb' 12 3).toNat T (cell.extractLsb' 12 3).isLt
        ∧ T.rows = tile.rows ∧ T.cols = tile.cols ∧ (cellOf T n).toNat = canon ∧ ∀ q, q ≠ n → cellOf T q = cellOf tile q))
  ∧ sysw 0x040 (withStrand k t { x with fflags := v.extractLsb' 0 6 }) ∧ sysw 0x101 (withStrand k t { x with rstrand := v.extractLsb' 0 4 })
  ∧ sysw 0x300 (withStrand k t { x with limit := v.extractLsb' 0 32 })
  ∧ (∀ i : Fin 4, sysw (0x208 + i.val) { k with brkb := k.brkb.set i.val (v &&& 0x8000_0000_0000_F3FF) })
  ∧ (v.getLsbD 1 = false → sysw 0x210 { k with lull := v.getLsbD 0, cut := false })
  ∧ sysw 0x212 { k with trbase := v &&& 0x0000_FFFF_FFFF_FFC0 }
  ∧ (num.toNat ∉ [0x040, 0x101, 0x300, 0x208, 0x209, 0x20A, 0x20B, 0x210, 0x212, 0x213] → sysw num.toNat k)
  ∧ (c < 3072 → ¬ used → exec (.accumulatorWindowAccess c cell none) s = .next { s with lastRead := (cellOf tile n).setWidth 64 })
  ∧ (c < 3072 → used → ∀ wr, exec (.accumulatorWindowAccess c cell wr) s = .next s)
  ∧ (∃ u k', exec (.trctlEnable c on a) s = .next u ∧ OnlyCore s u c k' ∧ k'.tren = on ∧ k'.trlog = a ∧ (k'.trerr = true ↔ k.trerr = true ∨ bad)
      ∧ k'.trhead = (if on = true ∧ k.tren = false then 0 else k.trhead)
      ∧ { k' with tren := k.tren, trlog := k.trlog, trerr := k.trerr, trhead := k.trhead } = k)
  ∧ gives (.trctlErrClear c) { k with trerr := false }

/-- R251, R278, R279, R288, R346: the calls on launch records and events. LREC_GET gives the record of a template; LREC_ARM judges and
arms an IDLE record and gives its STATUS, 6 for a record in use; LREC_WAIT blocks until the record is IDLE or DONE, makes a DONE one
IDLE and gives its STATUS; LREC_ARM waits for the caller's accesses to perform (R363); POOL_CONFIG and STOP_HANDLER_SET write their field of an IDLE record, BUSY otherwise; EVENT_RESERVE
gives the first of n new names, each with COUNT, SET and POISON at 0. Arguments out of range answer ARG, before BUSY (log entry 103). That
the names rise, and that a call for more than are left answers NOSPACE, is log entry 56; what arming makes of an NLEV or a binding code
that R271 does not define is log entries 91 and 92. -/
def Obligations.RecordCalls : Prop := ∀ (s : State) (p : Nat) (i h q : BitVec 64) (o : Object) (r : BitVec 10) (ev : Event),
  let n := i.toNat
  let usable := n < 1024 ∧ recBytes s p n 0 1 = [1]
  let state := leValue (recBytes s p n 1 1)
  let status := leValue (recBytes s p n 12 4)
  let f := h.toNat
  let sets (j : Instr) (off n' v : Nat) : Prop := ∃ u, exec j s = .next u ∧ Answered u 0 0 ∧ RecordSet s { u with skyo := s.skyo } p n off n' v
  let half (j : Nat) : Nat := if j = q.toNat then f else leValue (recBytes s p n (144 + 2 * j) 2)
  let total := ((List.range 8).map (fun j => half j / 16 % 512 * (256 * 2 ^ (half j % 16)))).sum
  let layout := q.toNat < 8 ∧ f < 2 ^ 14 ∧ f % 16 ≤ 8 ∧ f / 16 % 512 ≤ 256
  let next := (s.part p).armseq + 1
  let a := (s.part p).nextEvent
  let quiet := (s.hart s.skyo.caller).items = []
  let cev := leValue (recBytes s p n 4 2)
  (s.object p f = some o → o.records[n]? = some r → OnlyAnswers s (.lrecGet p h i) 0 r.toNat)
  ∧ (s.object p f = none → OnlyAnswers s (.lrecGet p h i) 9 0)
  ∧ (s.object p f = some o → o.records[n]? = none → OnlyAnswers s (.lrecGet p h i) 9 0)
  ∧ (¬ quiet → exec (.lrecArm p i) s = .next s) ∧ (¬ usable → quiet → OnlyAnswers s (.lrecArm p i) 9 0)
  ∧ (¬ usable → OnlyAnswers s (.lrecWait p i) 9 0 ∧ OnlyAnswers s (.poolConfig p i q h) 9 0
      ∧ OnlyAnswers s (.stopHandlerSet p i h) 9 0)
  ∧ (usable → quiet → state ≠ 0 → OnlyAnswers s (.lrecArm p i) 0 6)
  ∧ (usable → quiet → state = 0 → judge (s.recShape p n) = .arm → ∃ u, exec (.lrecArm p i) s = .next u ∧ Answered u 0 0
      ∧ recBytes u p n 1 1 = [1] ∧ leValue (recBytes u p n 12 4) = 0 ∧ leValue (recBytes u p n 168 8) = next % 2 ^ 64
      ∧ u.launch? p (BitVec.ofNat 10 n) = some { armseq := next } ∧ (u.part p).armseq = next
      ∧ { u with mem := s.mem, resvs := s.resvs, parts := s.parts, skyo := s.skyo } = s)
  ∧ (usable → quiet → state = 0 → judge (s.recShape p n) = .empty → ∃ u, exec (.lrecArm p i) s = .next u ∧ Answered u 0 1
      ∧ recBytes u p n 1 1 = [3] ∧ leValue (recBytes u p n 12 4) = 1 ∧ u.launch? p (BitVec.ofNat 10 n) = s.launch? p (BitVec.ofNat 10 n)
      ∧ (s.event p cev = some ev → u.event p cev = some (if ev.poison then ev else
          { ev with count := ev.count - (if ev.count = 0 then 0 else 1), set := ev.set || ev.count.toNat ≤ 1 }))
      ∧ { u with mem := s.mem, resvs := s.resvs, parts := s.parts, skyo := s.skyo } = s)
  ∧ (usable → quiet → state = 0 → judge (s.recShape p n) = .extent → ∃ u, exec (.lrecArm p i) s = .next u ∧ Answered u 0 2
      ∧ RecordSet s { u with skyo := s.skyo } p n 12 4 2)
  ∧ (usable → quiet → state = 0 → judge (s.recShape p n) = .levels → ∃ u, exec (.lrecArm p i) s = .next u ∧ Answered u 0 3
      ∧ RecordSet s { u with skyo := s.skyo } p n 12 4 3)
  ∧ (usable → state = 0 → OnlyAnswers s (.lrecWait p i) 0 status)
  ∧ (usable → state = 3 → ∃ u, exec (.lrecWait p i) s = .next u ∧ Answered u 0 status ∧ RecordSet s { u with skyo := s.skyo } p n 1 1 0)
  ∧ (usable → state ≠ 0 → state ≠ 3 → exec (.lrecWait p i) s = .next s)
  ∧ (usable → ¬ layout → OnlyAnswers s (.poolConfig p i q h) 9 0)
  ∧ (usable → layout → state ≠ 0 → OnlyAnswers s (.poolConfig p i q h) 8 0)
  ∧ (usable → layout → state = 0 → 524288 < total → OnlyAnswers s (.poolConfig p i q h) 6 0)
  ∧ (usable → layout → state = 0 → total ≤ 524288 → sets (.poolConfig p i q h) (144 + 2 * q.toNat) 2 f)
  ∧ (usable → 4 < f → OnlyAnswers s (.stopHandlerSet p i h) 9 0)
  ∧ (usable → f ≤ 4 → state ≠ 0 → OnlyAnswers s (.stopHandlerSet p i h) 8 0)
  ∧ (usable → f ≤ 4 → state = 0 → sets (.stopHandlerSet p i h) 8 1 (if f = 4 then 0 else 4 + f))
  ∧ (n = 0 ∨ 4096 < n → OnlyAnswers s (.eventReserve p i) 9 0)
  ∧ (0 < n → n ≤ 4096 → 0xFFFF < a + n → OnlyAnswers s (.eventReserve p i) 5 0)
  ∧ (0 < n → n ≤ 4096 → a + n ≤ 0xFFFF → ∃ u, exec (.eventReserve p i) s = .next u ∧ Answered u 0 a ∧ (u.part p).nextEvent = a + n
      ∧ (∀ m, a ≤ m → m < a + n → u.event p m = some {}) ∧ (∀ m, m < a ∨ a + n ≤ m → u.event p m = s.event p m)
      ∧ { u with parts := s.parts, dies := s.dies, skyo := s.skyo } = s)

/-- R90, R332, R341, R342, R344 to R346: the loader's calls. OBJ_LOAD takes a container, or for a foreign binary its cached translation,
and answers BADOBJ, SIG or SVN_REVOKED for a container that fails its form, its
signature or its version, which purges its translations, NOSPACE, POOL_SIZE or REL_OVERFLOW where its later steps fail, and else a new handle, its records usable.
OBJ_UNLOAD frees the records of an object that has none in use, BUSY otherwise. MEM_MAP makes a page of a partition with empty
tables readable at its address; MEM_UNMAP of addresses that are not mapped changes nothing; CODE_PATCH makes no launch armed later fetch a
copy of code taken before it, and posts its event. A call waits for its caller's fences, and OBJ_LOAD for its stores to the container
(R2). Skyo's translation of a foreign binary is a step of its own. That the container lies at a physical address is log entry 41, what a
code cache holds log entry 52, MEM_MAP's bits log entry 53, and what a foreign binary is log entry 89. -/
def Obligations.LoaderCalls : Prop := ∀ (s : State) (p base k : Nat) (a size h va pa bits w ev : BitVec 64) (o : Object) (im : Mem) (e : Event)
    (c : Container) (dg : BitVec 384) (adk : List Byte),
  let bytes := physRead s (a.toNat % 2 ^ 48) size.toNat
  let own := Container.parse bytes
  let comes := if own.formOk = true then c = own ∧ dg = own.digest else s.pkg.translation (sha384 bytes) = some c ∧ dg = sha384 bytes
  let part := s.part p
  let known := s.pkg.digests.any (fun e => e.1 = c.digest)
  let signed := c.signed s.pkg.keys (if c.translated then some 3 else none) known
  let free := s.freeRecords p
  let load := Instr.objLoad p a size
  let mine := (s.hart s.skyo.caller).items
  let fenced := ∃ i ∈ mine, i.op.isFence = true
  let waits := fenced ∨ ∃ i ∈ mine, i.op.writes = true ∧ overlap i.op.range (a.toNat % 2 ^ 48, size.toNat) = true
  let tr := Container.parse adk
  let good := ¬ waits ∧ comes ∧ signed = true ∧ s.pkg.svn ≤ c.svn
  let answers (v x : Nat) : Prop := ∃ u, exec load s = .next u ∧ Answered u v x ∧ { u with pkg := s.pkg, skyo := s.skyo } = s
  let placed := good ∧ s.placeImage p c = some base ∧ c.poolTooBig = false
  let inUse := ∃ r ∈ o.records, leValue (recBytes s p r.toNat 1 1) = 1 ∨ leValue (recBytes s p r.toNat 1 1) = 2
  let range (n : Nat) : Prop := n ≤ 0x1000_0000_0000 ∨ (0x2000_0000_0000 ≤ va.toNat ∧ n ≤ 2 ^ 48)
  let pages := va.toNat % 65536 = 0 ∧ size.toNat % 65536 = 0 ∧ size.toNat ≠ 0 ∧ range (va.toNat + size.toNat)
  let frames := pa.toNat % 65536 = 0 ∧ pa.toNat + size.toNat ≤ 2 ^ 48 ∧ bits.toNat < 256 ∧ bits.toNat % 4 = 0
  let fresh := part.tables = [] ∧ part.root % 4096 = 0 ∧ part.tnext % 4096 = 0 ∧ part.root + 4096 ≤ part.tnext ∧ part.tnext + 0x3000 ≤ 2 ^ 47
  let patched (u : State) : Prop := u.icache = s.icache.map (fun e =>
    if e.pa < 2 ^ 48 then { e with before := some (e.before.getD (s.part (s.partOf e.core)).armseq) } else e)
  (waits → exec load s = .next s)
  ∧ (¬ waits → own.formOk = false → s.pkg.translation (sha384 bytes) = none → OnlyAnswers s load 1 0)
  ∧ (¬ waits → comes → signed = false → OnlyAnswers s load 2 0)
  ∧ (¬ waits → comes → signed = true → c.svn < s.pkg.svn → ∃ u, exec load s = .next u ∧ Answered u 3 0 ∧ { u with pkg := s.pkg, skyo := s.skyo } = s
      ∧ u.pkg.translations = s.pkg.translations.filter (fun e => e.1 ≠ dg) ∧ ∃ e ∈ u.pkg.digests, e.1 = c.digest)
  ∧ (good → s.placeImage p c = none → answers 5 0)
  ∧ (good → s.placeImage p c = some base → c.poolTooBig = true → answers 6 0)
  ∧ (placed → c.patchAll base c.relocs c.relocs c.image = .badobj → answers 1 0)
  ∧ (placed → c.patchAll base c.relocs c.relocs c.image = .overflow → answers 4 0)
  ∧ (placed → c.patchAll base c.relocs c.relocs c.image = .ok im → free.length < c.nlaunch → answers 5 0)
  ∧ (placed → c.patchAll base c.relocs c.relocs c.image = .ok im → c.nlaunch ≤ free.length → ∃ u, exec load s = .next u
      ∧ Answered u 0 part.nextHandle ∧ (u.part p).nextHandle = part.nextHandle + 1
      ∧ (u.part p).objects = part.objects ++ [{ handle := part.nextHandle, base := base, size := 65536 * (c.imagePages + c.descPages)
                                                records := (free.take c.nlaunch).map (BitVec.ofNat 10) }]
      ∧ (c.translated = true → ∃ e ∈ u.pkg.translations, e.1 = c.srchash)
      ∧ (∀ i < c.nlaunch, recBytes u p (free.getD i 0) 0 1 = [1]) ∧ ∀ d, u.core d = s.core d)
  ∧ (s.object p h.toNat = none → OnlyAnswers s (.objUnload p h) 9 0)
  ∧ (s.object p h.toNat = some o → inUse → OnlyAnswers s (.objUnload p h) 8 0)
  ∧ (s.object p h.toNat = some o → ¬ inUse → ∃ u, exec (.objUnload p h) s = .next u ∧ Answered u 0 0 ∧ u.object p h.toNat = none
      ∧ (∀ r ∈ o.records, recBytes u p r.toNat 0 1 = [0]) ∧ ∀ d, u.core d = s.core d)
  ∧ (¬ (pages ∧ frames) → OnlyAnswers s (.memMap p va pa size bits) 9 0)
  ∧ (pages → frames → ∃ u, exec (.memMap p va pa size bits) s = .next u ∧ Answered u 0 0 ∧ { u with parts := s.parts, skyo := s.skyo } = s)
  ∧ (pages → frames → fresh → size = 65536 → va.toNat < 0x1000_0000_0000 → pa.toNat + 65536 ≤ s.memsplit * 2 ^ 36 → pa.toNat < 2 ^ 40 →
      bits.toNat < 64 → bits.toNat % 8 = 4 → k < 65536 →
      ∃ u, exec (.memMap p va pa size bits) s = .next u ∧ translate u p (va.toNat + k) .load false = .ok (pa.toNat + k))
  ∧ (¬ pages → OnlyAnswers s (.memUnmap p va size) 9 0)
  ∧ (pages → ∃ u, exec (.memUnmap p va size) s = .next u ∧ Answered u 0 0 ∧ { u with parts := s.parts, skyo := s.skyo } = s)
  ∧ (pages → part.tables = [] → OnlyAnswers s (.memUnmap p va size) 0 0)
  ∧ (¬ fenced → a.toNat % 4 = 0 → w.toNat < 2 ^ 32 → ev = 0xFFFF → ∃ u, exec (.codePatch p a w ev) s = .next u
      ∧ Answered u 0 0 ∧ patched u ∧ { u with icache := s.icache, skyo := s.skyo } = s)
  ∧ (¬ fenced → a.toNat % 4 = 0 → w.toNat < 2 ^ 32 → ev.toNat < 2 ^ 16 → s.event p ev.toNat = some e → ∃ u, exec (.codePatch p a w ev) s = .next u
      ∧ Answered u 0 0 ∧ patched u ∧ EventSet s { u with icache := s.icache, skyo := s.skyo } p ev.toNat (if e.poison then e else
          { e with count := e.count - (if e.count = 0 then 0 else 1), set := e.set || e.count.toNat ≤ 1 }))
  ∧ (fenced → exec (.codePatch p a w ev) s = .next s)
  ∧ (s.agenda = [.skyo (.translate adk)] → s.pkg.stage = 4 → tr.formOk = true → tr.translated = true → s.pkg.translation tr.srchash = none →
      ∃ u, step s = .next u ∧ { u with pkg := s.pkg } = s ∧ u.pkg.translation tr.srchash = some tr)
  ∧ (¬ fenced → a.toNat % 4 ≠ 0 ∨ 2 ^ 32 ≤ w.toNat ∨ 2 ^ 16 ≤ ev.toNat ∨ (ev ≠ 0xFFFF ∧ s.event p ev.toNat = none) → OnlyAnswers s (.codePatch p a w ev) 9 0)

-- Bring-up, power and the package's own engines

/-- R81, R321, R342, R350, R351: bring-up. The chassis host reads PKGID, BOOTSTAT and BOOTDB by aligned reads of eight bytes, and writes BOOTDB;
any other access of BAR0 is an Unsupported Request. A byte written to BAR2 lands until SIZE is written; a nonzero SIZE at stage 0 starts bring-up, which stops at
stage 15 with ERR 5 on a size over 256 MiB, 1 on an image that fails its form or signature, 2 on its version, and else reaches stage 2;
training then ends bring-up at stage 4, with the launch records of partition 0 mapped where log entry 5 has them, or stops it with ERR 3
or 4. A raise of
the fuse counter purges the digests below it. PACKAGE_RESET puts tick, cores and bring-up back to reset and keeps the fuses; that it
keeps memory is log entry 4. Skyo
sets MEMSPLIT while no partition runs, and a die's budget. -/
def Obligations.BringUp : Prop := ∀ (s : State) (off : BitVec 28) (v : BitVec 8) (size : BitVec 64) (res : Training) (svn : BitVec 32) (k b : Nat) (d : BitVec 2),
  let g := s.pkg
  let n := size.toNat % 2 ^ 32
  let image := Memory.bytes g.bar2 0 n
  let c := Container.parse image
  let passes := c.formOk = true ∧ c.signed g.keys (some 0) false = true
  let onlyPkg (i : Instr) (f : Package → Prop) : Prop := ∃ u, exec i s = .next u ∧ { u with pkg := g } = s ∧ f u.pkg
  let ends (stage err : Nat) (q : Package) : Prop := q.stage.toNat = stage ∧ q.err.toNat = err
  let reg (o : Nat) : Word := if o = 0 then 0x4160_0000 else if o = 8 then BitVec.ofNat 64 (g.err.toNat * 256 + g.stage.toNat) else g.size.setWidth 64
  let named := k = 8 ∧ b ∈ [0, 8, 16]
  (s.agenda = [.host (.read b k)] → named → step s = .next { s with lastRead := reg b, hostUr := false })
  ∧ (s.agenda = [.host (.read b k)] → ¬ named → step s = .next { s with hostUr := true })
  ∧ (s.agenda = [.host (.write 16 8 size)] → ∃ u, exec (.bootdbWrite size) s = .next u ∧ step s = .next { u with hostUr := false })
  ∧ (s.agenda = [.host (.write b k size)] → named → b ≠ 16 → step s = .next { s with hostUr := false })
  ∧ (s.agenda = [.host (.write b k size)] → ¬ named → step s = .next { s with hostUr := true })
  ∧ (s.agenda = [.skyo (.memsplit k)] → g.stage = 4 → k ≤ 16 → s.noneRuns = true → step s = .next { s with memsplit := k })
  ∧ (s.agenda = [.skyo (.memsplit k)] → (∃ c, (s.core c).halted = false) → step s = .next s)
  ∧ (s.agenda = [.skyo (.budget d k)] → g.stage = 4 → (s.die d.toNat).queue = [] →
      ∃ u, step s = .next u ∧ OnlyDie s u d.toNat { s.die d.toNat with budget := k })
  ∧ (g.size = 0 → g.stage = 0 → onlyPkg (.bar2ImageWrite off v) (fun q => Memory.byte q.bar2 off.toNat = v
    ∧ (∀ a, a ≠ off.toNat → Memory.byte q.bar2 a = Memory.byte g.bar2 a) ∧ { q with bar2 := g.bar2 } = g))
  ∧ (g.size ≠ 0 ∨ g.stage ≠ 0 → exec (.bar2ImageWrite off v) s = .next s)
  ∧ (g.stage ≠ 0 ∨ n = 0 → exec (.bootdbWrite size) s = .next s)
  ∧ (g.stage = 0 → 0x1000_0000 < n → onlyPkg (.bootdbWrite size) (fun q => ends 15 5 q ∧ q.size.toNat = n))
  ∧ (g.stage = 0 → 0 < n → n ≤ 0x1000_0000 → onlyPkg (.bootdbWrite size) (fun q => q.size.toNat = n ∧ Memory.bytes q.rom 0 n = image
      ∧ q.svn = g.svn ∧ q.keys = g.keys ∧ (¬ passes → ends 15 1 q) ∧ (passes → c.svn < g.svn → ends 15 2 q)
      ∧ (passes → g.svn ≤ c.svn → ends 2 0 q)))
  ∧ (g.stage ≠ 2 → exec (.trainingComplete res) s = .next s)
  ∧ (g.stage = 2 → onlyPkg (.trainingComplete .hbmFails) (ends 15 3) ∧ onlyPkg (.trainingComplete .ucieFails) (ends 15 4)
      ∧ ∃ u, exec (.trainingComplete .ok) s = .next u ∧ u.pkg = { g with stage := 4 } ∧ u.memsplit = 8 ∧ (∀ d : Fin 4, (u.die d.val).budget = 37500)
        ∧ { u with pkg := g, memsplit := s.memsplit, dies := s.dies, parts := s.parts } = s
        ∧ (s.part 0 = {} → k < 0x4_0000 → translate u 0 (0xFF_F000_0000 + k) .load false = .ok (0xF0_0000_0000 + k)))
  ∧ (g.svn < svn → onlyPkg (.fuseCounterRaise svn) (fun q => q.svn = svn ∧ { q with svn := g.svn, digests := g.digests } = g
      ∧ ∀ e, e ∈ q.digests ↔ e ∈ g.digests ∧ svn ≤ e.2))
  ∧ (svn ≤ g.svn → exec (.fuseCounterRaise svn) s = .next s)
  ∧ ∃ u, exec .packageReset s = .next u ∧ u.tick = 0 ∧ (∀ d, u.core d = Core.reset) ∧ u.pkg.stage = 0 ∧ u.pkg.err = 0 ∧ u.pkg.size = 0
      ∧ u.pkg.svn = g.svn ∧ u.pkg.keys = g.keys ∧ u.mem = s.mem ∧ u.locked = false ∧ ∀ d, u.cluster d = {}

/-- R314, R321, R322, R326, R334, R335, R357 to R359: every tick each core's bucket gains 16 · L, up to 64 · L, the tick counts in its busy
counters as log entry 33 says, and for the collective under way unless the debugger holds every peer. In locked-clock mode every die runs at
850 MHz, each partition has its share of each die's own budget, an equal part (log entry 34), and a request that fits it is granted at the first tick after its arrival that is
a multiple of 64; in either mode the clock stays from 400 to 1,000 MHz, and falls to 400 on an overcurrent outside locked mode. A
corrected error counts on its die; a link that fails its replay is fenced; a refresh changes nothing. That no other step moves the tick
counter is log entry 62.
R334: COUNTERS_START sets the ring's place, its whole records and its period, or answers ARG; COUNTER_LATCH, at a tick that is a
multiple of 2^k, has each die write a record with tick, sequence number, die, k, its own counters and those of its cores to the next
place of the ring; where no place is left each die counts a dropped record. The order of the records and that the ring never wraps are log
entry 51. -/
def Obligations.PowerClocksAndCounters : Prop :=
  (∀ (s : State) (d : BitVec 2) (mhz : Nat) (r : LeaseReq) (a b : BitVec 3) (v : BitVec 64) (stack : BitVec 4),
  let x := s.die d.toNat
  let p := s.partOf r.core
  let due := s.locked = true ∧ s.tick % 64 = 0
  let fits := s.leasedPart d.toNat p + r.n ≤ x.budget / (s.part p).share
  let link := (Nat.min a.toNat b.toNat, Nat.max a.toNat b.toNat)
  let cuts := a ≠ b ∧ a.toNat ≤ 4 ∧ b.toNat ≤ 4 ∧ link ∉ s.pkg.links
  let gives (i : Instr) (x : Die) : Prop := ∃ u, exec i s = .next u ∧ OnlyDie s u d.toNat x
  let one (b : Bool) : BitVec 32 := if b then 1 else 0
  let drains (m : MStep) : Bool := match m.op with | .mdrn .. => true | .mlda .. => true | .msta .. => true | _ => false
  let steps (k : Core) : List MStep := match k.mrun with | some r => r.steps | none => []
  let held (c : Collective) : Prop := s.partHeld c.part = true ∧ ∀ j < c.m, j = c.me ∨ j ∈ c.held
  (∃ u, exec .chargeBucketRefill s = .next u ∧ u.tick = s.tick + 1
    ∧ { u with tick := s.tick, cores := s.cores, dies := s.dies, colls := s.colls } = s
    ∧ (∀ c, let k := s.core c
        let w := u.core c
        { w with counters := k.counters } = { k with balance := Nat.min (64 * k.level) (k.balance + 16 * k.level) }
        ∧ w.counters[0] = k.counters[0] ∧ w.counters[1] = k.counters[1] ∧ w.counters[2] = k.counters[2] + one k.blocked
        ∧ w.counters[3] = k.counters[3] + one k.vrun.isSome ∧ w.counters[4] = k.counters[4] + one ((steps k).any (fun m => !drains m))
        ∧ w.counters[5] = k.counters[5] + one ((steps k).any drains) ∧ w.counters[6] = k.counters[6] + one k.xrun.isSome
        ∧ w.counters[7] = k.counters[7] + one ([Eng.v, .m, .x].any (s.powerWait c)))
    ∧ (∀ e : Fin 4, ∃ n ≤ 192, u.die e.val = { s.die e.val with walker := (s.die e.val).walker + BitVec.ofNat 64 n })
    ∧ u.colls.tail = s.colls.tail
    ∧ ∀ c, s.colls.head? = some c → ∃ w, u.colls.head? = some { c with waited := w } ∧ (held c → w = c.waited) ∧ (¬ held c → w = c.waited + 1))
  ∧ (due → x.queue = [r] → r.tick < s.tick → fits → ∃ u, exec (.lockedClockGrant d) s = .next u ∧ (u.die d.toNat).queue = []
      ∧ (u.strand r.core r.strand).lease = r.n ∧ (∀ c, c ≠ r.core → u.core c = s.core c)
      ∧ (∀ q, (s.strand r.core r.strand).request = some q → (u.strand r.core r.strand).request = some { q with granted := some (BitVec.ofNat 64 r.n) })
      ∧ { u with cores := s.cores, dies := s.dies } = s)
  ∧ (due → x.queue = [r] → s.tick ≤ r.tick ∨ ¬ fits → exec (.lockedClockGrant d) s = .next s)
  ∧ (¬ due → exec (.lockedClockGrant d) s = .next s)
  ∧ (s.locked = false → 400 ≤ mhz → mhz ≤ 1000 → gives (.dieFrequencyChange d mhz) { x with mhz := mhz })
  ∧ (s.locked = true ∨ mhz < 400 ∨ 1000 < mhz → exec (.dieFrequencyChange d mhz) s = .next s)
  ∧ (s.locked = false → gives (.railOvercurrent d) { x with mhz := 400 }) ∧ (s.locked = true → exec (.railOvercurrent d) s = .next s)
  ∧ gives (.correctedSoftError d) { x with softErr := x.softErr + 1 } ∧ exec (.hbmRefresh stack) s = .next s
  ∧ (cuts → exec (.linkReplayFail a b) s = .next { s with pkg := { s.pkg with links := s.pkg.links ++ [link] } })
  ∧ (¬ cuts → exec (.linkReplayFail a b) s = .next s)
  ∧ (∃ u, exec (.clockLock 1) s = .next u ∧ Answered u 0 0 ∧ u.locked = true ∧ (∀ e : Fin 4, u.die e.val = { s.die e.val with mhz := 850 })
      ∧ (∀ k < 384, (u.part (s.cluster k).part).share = s.livePartitions.length)
      ∧ { u with locked := s.locked, dies := s.dies, parts := s.parts, skyo := s.skyo } = s)
  ∧ ((∀ e : Fin 4, (s.die e.val).queue = []) → ∃ u, exec (.clockLock 0) s = .next u ∧ Answered u 0 0 ∧ u.locked = false
      ∧ { u with locked := s.locked, skyo := s.skyo } = s)
  ∧ (2 ≤ v.toNat → OnlyAnswers s (.clockLock v) 9 0))
  ∧ (∀ (s : State) (p pa : Nat) (a size k : BitVec 64),
  let q := s.ring
  let ok := 10 ≤ k.toNat ∧ k.toNat ≤ 24 ∧ 24768 ≤ size.toNat
  let due := q.on = true ∧ s.tick % 2 ^ q.k = 0 ∧ q.last ≠ some s.tick
  let at_ := q.addr.toNat + 24768 * (q.next + 3)
  let word (u : State) (off n : Nat) : Nat := leValue (Memory.bytes u.mem (pa + off) n)
  (ok → ∃ u, exec (.countersStart p a size k) s = .next u ∧ Answered u 0 0 ∧ u.ring.on = true ∧ u.ring.part = p
    ∧ u.ring.addr.toNat = a.toNat % 2 ^ 48 ∧ u.ring.slots = size.toNat / 24768 ∧ u.ring.k = k.toNat ∧ u.ring.next = 0
    ∧ (∀ d : Fin 4, u.ring.seqs[d] = 0 ∧ u.die d.val = { s.die d.val with dropped := 0 })
    ∧ { u with ring := s.ring, dies := s.dies, skyo := s.skyo } = s)
  ∧ (¬ ok → OnlyAnswers s (.countersStart p a size k) 9 0)
  ∧ (due → q.next + 4 ≤ q.slots → ∃ u, exec .counterLatch s = .next u ∧ u.ring.next = q.next + 4 ∧ u.ring.last = some s.tick
      ∧ (∀ d : Fin 4, u.ring.seqs[d] = q.seqs[d] + 1 ∧ u.die d.val = { s.die d.val with dropped := 0 })
      ∧ (at_ % 65536 + 24768 ≤ 65536 → resolveIn s q.part at_ .store false = .ok pa → pa < 2 ^ 40 →
          word u 0 8 = s.tick % 2 ^ 64 ∧ word u 8 4 = q.seqs[3].toNat ∧ word u 12 1 = 3 ∧ word u 13 1 = q.k % 256
          ∧ word u 14 2 = (s.die 3).dropped.toNat ∧ word u 64 8 = (s.die 3).lreq.toNat ∧ word u 72 8 = (s.die 3).rreq.toNat
          ∧ word u 80 8 = (s.die 3).spills.toNat ∧ word u 88 8 = (s.die 3).softErr.toNat ∧ word u 96 8 = (s.die 3).walker.toNat
          ∧ ∀ i < 768, ∀ j : Fin 8, word u (192 + 32 * i + 4 * j.val) 4 = (s.core (2304 + i)).counters[j].toNat))
  ∧ (due → q.slots ≤ q.next → ∃ u, exec .counterLatch s = .next u ∧ u.ring = { q with last := some s.tick }
      ∧ (∀ d : Fin 4, u.die d.val = { s.die d.val with dropped := (s.die d.val).dropped + 1 }) ∧ { u with ring := q, dies := s.dies } = s)
  ∧ (¬ due → exec .counterLatch s = .next s))

/-- R335, R355, R356: the collectives that this package's engine performs in the order in which they are called, as place me of a ring of m
packages. One is on record from its call, the others' arrivals with their ticks and buffers; it ends once all have arrived and none is
halted: a barrier changes no byte; all-gather leaves every buffer in the destination, all-reduce the sums, mod 2^32 or rounded to nearest
even, reduce-scatter this package's half of the sums; other bytes stay. While a participant is halted it waits;
after COLLTO, which Skyo sets, it ends with TIMEOUT; an error of its queue pair ends it with LINK; the arrival ticks stay on record however
it ends. Balancing lowers the clocks of a package that came early.
The order of a sum's terms, and what an instance and its earliness are, are the model's choices (log entries 43 and 61). -/
def Obligations.Collectives : Prop := ∀ (s : State) (kind : CollKind) (p m j me : Nat) (a d : BitVec 48) (x : Collective) (rest : List Collective)
    (buf : List Byte) (q r : Bool) (tick : Nat) (y : Arrivals),
  let n := 4 * m
  let act (i : CollAct) (j : Nat) : Instr := .collective i p j m ⟨a, d, n⟩
  let fresh : Collective := { kind := kind, part := p, me := me, m := m, src := a, dst := d, n := n, start := s.tick }
  let here := s.colls = x :: rest
  let may := j < x.m ∧ j ≠ x.me ∧ buf.length = x.n ∧ ∀ e ∈ x.peers, e.1 ≠ j
  let allThere := ∀ i < x.m, i = x.me ∨ ∃ e ∈ x.peers, e.1 = i
  let halted := s.partHalted x.part = true ∨ x.halted ≠ []
  let two (kind : CollKind) (n : Nat) : Prop := here ∧ ¬ halted ∧ x.kind = kind ∧ x.n = n ∧ x.m = 2 ∧ (x.me = 0 ∨ x.me = 1)
    ∧ x.peers = [(1 - x.me, tick, buf)] ∧ buf.length = n ∧ x.src.toNat < 2 ^ 40 ∧ x.dst.toNat < 2 ^ 40
  let own := Memory.bytes s.mem x.src.toNat x.n
  let first := if x.me = 0 then own else buf
  let second := if x.me = 0 then buf else own
  let word (l : List Byte) (j : Nat) : Nat := leValue ((l.drop (4 * j)).take 4)
  let got (u : State) (j : Nat) : Nat := leValue (Memory.bytes u.mem (x.dst.toNat + 4 * j) 4)
  let kept (u : State) : Prop := ∃ w ∈ u.arrivals, w.kind = x.kind ∧ w.part = x.part ∧ w.me = x.me ∧ w.done = s.tick ∧ w.ticks.length = x.m
    ∧ ∀ i < x.m, w.ticks.getD i none = if i = x.me then some x.start else (x.peers.find? (fun e => e.1 = i)).map (·.2.1)
  let gives (l : Nat) (f : State → Prop) : Prop := ∃ u, exec (act .finish j) s = .next u ∧ u.colls = rest ∧ u.collStat = 0
    ∧ { u with mem := s.mem, resvs := s.resvs, colls := s.colls, collStat := s.collStat, arrivals := s.arrivals } = s ∧ f u ∧ kept u
    ∧ ∀ a, (a < x.dst.toNat ∨ x.dst.toNat + l ≤ a) → Memory.byte u.mem a = Memory.byte s.mem a
  let i32 (j : Nat) : Nat := (word first j + word second j) % 2 ^ 32
  let f32 (j : Nat) : Nat := (fAdd fmtF32 .rne false (word first j) (word second j)).1 % 2 ^ 32
  let waits (i : CollAct) : Prop := exec (act i j) s = .next s
  let mine := (y.ticks.getD y.me none).getD 0
  let last := (y.ticks.filterMap id).foldl Nat.max 0
  let early := mine < last ∧ y.base < last
  let slower (z : Nat) : Nat := Nat.min z (Nat.max 400 (z * (mine - y.base) / (last - y.base)))
  exec (act (.call kind) me) s = .next { s with colls := s.colls ++ [fresh] }
  ∧ (s.colls = [] → waits (.arrive buf) ∧ waits (.peer q r) ∧ waits .finish)
  ∧ (here → may → exec (act (.arrive buf) j) s = .next { s with colls := { x with peers := x.peers ++ [(j, s.tick, buf)] } :: rest })
  ∧ (here → ¬ may → waits (.arrive buf))
  ∧ (here → ∃ z, exec (act (.peer q r) j) s = .next { s with colls := z :: rest } ∧ { z with halted := x.halted, held := x.held } = x
      ∧ (∀ i, i ∈ z.halted ↔ if i = j then q = true else i ∈ x.halted) ∧ ∀ i, i ∈ z.held ↔ if i = j then r = true else i ∈ x.held)
  ∧ (here → ¬ allThere ∨ halted → waits .finish)
  ∧ (two .barrier n → gives 0 (fun u => u.mem = s.mem))
  ∧ (two .allGather n → gives (2 * n) (fun u => Memory.bytes u.mem x.dst.toNat (2 * n) = first ++ second))
  ∧ (two .allReduceI32 n → gives n (fun u => ∀ j < m, got u j = i32 j)) ∧ (two .allReduceF32 n → gives n (fun u => ∀ j < m, got u j = f32 j))
  ∧ (two .reduceScatterI32 (2 * n) → gives n (fun u => ∀ j < m, got u j = i32 (x.me * m + j)))
  ∧ (two .reduceScatterF32 (2 * n) → gives n (fun u => ∀ j < m, got u j = f32 (x.me * m + j)))
  ∧ (s.colls = [] → exec .collectiveTimeout s = .next s ∧ exec .queuePairError s = .next s)
  ∧ (here → halted → s.collto ≤ x.waited → ∃ u, exec .collectiveTimeout s = .next u ∧ kept u
      ∧ { u with arrivals := s.arrivals } = { s with colls := rest, collStat := 1 })
  ∧ (here → ¬ halted ∨ x.waited < s.collto → exec .collectiveTimeout s = .next s)
  ∧ (here → x.dst.toNat < 2 ^ 40 → ∃ u, exec .queuePairError s = .next u ∧ u.colls = rest ∧ u.collStat = 2 ∧ kept u
      ∧ { u with mem := s.mem, resvs := s.resvs, arrivals := s.arrivals, colls := s.colls, collStat := s.collStat, freeIx := s.freeIx } = s
      ∧ ∀ a, (a < x.dst.toNat ∨ x.dst.toNat + x.m * x.n ≤ a) → Memory.byte u.mem a = Memory.byte s.mem a)
  ∧ (s.arrivals[j]? = some y → y.asked = false → s.locked = false → (∀ e : Fin 4, (s.die e.val).queue = []) →
      ∃ u, exec (act .balance j) s = .next u ∧ u.arrivals = s.arrivals.set j { y with asked := true }
        ∧ (∀ e : Fin 4, ∃ b, u.die e.val = { s.die e.val with mhz := if early then slower (s.die e.val).mhz else (s.die e.val).mhz, budget := b }
            ∧ (s.die e.val).budget ≤ b ∧ ((u.die e.val).mhz = (s.die e.val).mhz → b = (s.die e.val).budget))
        ∧ { u with arrivals := s.arrivals, dies := s.dies } = s)
  ∧ (s.locked = true ∨ s.arrivals[j]? = none → waits .balance)
  ∧ (s.agenda = [.skyo (.collto j)] → s.pkg.stage = 4 → step s = .next { s with collto := j })

/-- R101, R105, R346, R352: the harts. An access stands behind the hart's earlier ones from its issue; the oldest performs at once, at its home:
a load returns the bytes there, a store changes them and nothing else, an atomic does both, a load-reserved takes the reservation, which
a store by another to its bytes ends; a store-conditional without it fails and stores nothing. A later access performs before an earlier one
unless their bytes meet, it depends on the earlier one, an acquire or release annotation or a load-reserved and store-conditional orders
the two, a fence stands between whose sets hold them, or one between them gets its address from the earlier one and the later one stores, or stores a value
that depends on the earlier one and that the later one takes. A load inside the bytes of its hart's own earlier store takes them from it.
That this is RISC-V's order, and that a store-conditional which holds its reservation may fail, is log entry 88. -/
def Obligations.HartAccesses : Prop := ∀ (s : State) (h : BitVec 5) (i j f : HartItem) (op : HartOp) (deps : HartDeps) (pa n a m code : Nat) (v w : Word) (aq rl : Bool),
  let x := s.hart h
  let runs (a : HartAct) : Prop := s.agenda = [.hart h a] ∧ s.pkg.stage = 4
  let put (y : Hart) : State := { s with harts := Sparse.put s.harts h.toNat y }
  let only (y : Hart) : Prop := step s = .next (put y)
  let isFence (o : HartOp) : Bool := match o with | .fence .. => true | _ => false
  let reads (o : HartOp) : Bool := match o with | .load .. => true | .amo .. => true | .lr .. => true | _ => false
  let writes (o : HartOp) : Bool := match o with | .store .. => true | .amo .. => true | .sc .. => true | _ => false
  let acq (o : HartOp) : Bool := match o with | .amo _ _ _ _ b _ => b | .lr _ _ b _ => b | .sc _ _ _ b _ => b | _ => false
  let rel (o : HartOp) : Bool := match o with | .amo _ _ _ _ _ b => b | .lr _ _ _ b => b | .sc _ _ _ _ b => b | _ => false
  let span (o : HartOp) : Nat × Nat :=
    match o with | .load a n => (a, n) | .store a n _ => (a, n) | .amo a n .. => (a, n) | .lr a n .. => (a, n) | .sc a n .. => (a, n) | .fence .. => (0, 0)
  let meet := (span i.op).1 < (span j.op).1 + (span j.op).2 ∧ (span j.op).1 < (span i.op).1 + (span i.op).2
  let on (d : HartDeps) (k : Nat) : Prop := k ∈ d.addr ∨ k ∈ d.data
  let bound := on i.deps j.id ∨ (writes i.op = true ∧ j.id ∈ i.deps.ctrl) ∨ acq j.op = true ∨ rel i.op = true ∨ (rel j.op = true ∧ acq i.op = true)
    ∨ ((∃ a n b c, j.op = .lr a n b c) ∧ ∃ a n v b c, i.op = .sc a n v b c)
  let orders := ∃ pr pw sr sw, f.op = .fence pr pw sr sw ∧ ((pr = true ∧ reads j.op = true) ∨ (pw = true ∧ writes j.op = true))
    ∧ ((sr = true ∧ reads i.op = true) ∨ (sw = true ∧ writes i.op = true))
  let takes := i.op = .load pa n ∧ f.op = .store a m w ∧ a ≤ pa ∧ pa + n ≤ a + m ∧ 0 < n
  let hbm := 0 < n ∧ pa + n ≤ 2 ^ 40 ∧ s.eccAt 4 pa = none ∧ ¬ (0x0F00_0000 ≤ pa ∧ pa < 0x0F01_0000)
  let old := Memory.bytes s.mem pa n
  let val (l : List Byte) : Word := BitVec.ofNat 64 (leValue l)
  let done (r : Option Word) : Hart := { x with items := [], got := x.got ++ [(i.id, r)] }
  let lays (y : Hart) (held : Bool) (w : Nat) : Prop := ∃ u, step s = .next u ∧ u.hart h = y ∧ leValue (Memory.bytes u.mem pa n) = w % 256 ^ n
    ∧ (∀ a, a < pa ∨ pa + n ≤ a → Memory.byte u.mem a = Memory.byte s.mem a)
    ∧ (∀ r, r ∈ u.resvs ↔ r ∈ s.resvs ∧ (r.hart = h → held = true) ∧ (r.hart ≠ h → r.pa + r.n ≤ pa ∨ pa + n ≤ r.pa))
    ∧ { u with mem := s.mem, harts := s.harts, clusters := s.clusters, resvs := s.resvs, freeIx := s.freeIx } = s
  let fails := ∃ u, step s = .next u ∧ u.hart h = done (some 1) ∧ (∀ r, r ∈ u.resvs ↔ r ∈ s.resvs ∧ r.hart ≠ h)
    ∧ { u with harts := s.harts, resvs := s.resvs, freeIx := s.freeIx } = s
  let head (o : HartOp) : Prop := runs (.perform 0) ∧ x.items = [i] ∧ i.op = o ∧ hbm
  (runs (.issue op deps) → isFence op = false → (∀ e ∈ x.items, isFence e.op = false) →
    only { x with items := x.items ++ [{ id := x.next, op := op, deps := deps }], next := x.next + 1 })
  ∧ (head (.load pa n) → only (done (some (val old))))
  ∧ (head (.lr pa n aq rl) → step s = .next { put (done (some (val old))) with resvs := s.resvs.filter (fun r => r.hart ≠ h) ++ [⟨h, pa, n⟩] })
  ∧ (head (.store pa n v) → lays (done none) true v.toNat)
  ∧ (head (.amo pa n code v aq rl) → lays (done (some (val old))) true (atomicOp code n (leValue old) (v.toNat % 2 ^ (8 * n))))
  ∧ (head (.sc pa n v aq rl) → ⟨h, pa, n⟩ ∉ s.resvs → fails)
  ∧ (head (.sc pa n v aq rl) → ⟨h, pa, n⟩ ∈ s.resvs → (Config.freeBit s.freeIx = false → fails)
      ∧ (Config.freeBit s.freeIx = true → lays (done (some 0)) false v.toNat))
  ∧ (runs (.perform 1) → x.items = [j, i] → isFence j.op = false → bound → step s = .next s)
  ∧ (runs (.perform 1) → x.items = [j, i] → isFence j.op = false → meet → writes i.op = true → step s = .next s)
  ∧ (runs (.perform 1) → x.items = [j, i] → isFence j.op = false → isFence i.op = false → ¬ bound → ¬ meet → i.op = .load pa n → hbm →
      only { x with items := [j], got := x.got ++ [(i.id, some (val old))] })
  ∧ (runs (.perform 2) → x.items = [j, f, i] → isFence j.op = false → orders → step s = .next s)
  ∧ (runs (.perform 2) → x.items = [j, f, i] → isFence j.op = false → j.id ∈ f.deps.addr → writes i.op = true → step s = .next s)
  ∧ (runs (.perform 2) → x.items = [j, f, i] → isFence j.op = false → takes → on f.deps j.id → step s = .next s)
  ∧ (runs (.perform 1) → x.items = [f, i] → takes → ¬ on f.deps f.id → ¬ on i.deps f.id → hbm →
      only { x with items := [f], got := x.got ++ [(i.id, some (val (((leBytes m w.toNat).drop (pa - a)).take n)))] })
  ∧ (runs .call → step s = .next { s with skyo := { s.skyo with caller := h } })

-- The machine as a whole

/-- R5, R9, R123, R126, R233, R248, R321, R322, R325, R351: after package reset the tick counter is 0, the management controller waits at stage 0,
memory lists nothing and stands in its canonical form (log entry 3); on every core no team is resident, every strand is idle and holds no lease, its
vector, mask and shape registers are 0, the accumulators are 0 with scales +1.0, the overflow queue is empty, no pool exists and the
bucket is full at the default level. That the scalar registers and the semaphores are 0, and that no engine runs, is log entry 2. -/
def Obligations.ResetState : Prop := ∀ (c n : Nat) (t : BitVec 2) (r : BitVec 5),
  let s := State.reset
  let k := s.core c
  let x := s.strand c t
  s.tick = 0 ∧ s.pkg.stage = 0 ∧ s.pkg.err = 0 ∧ s.pkg.size = 0 ∧ s.mem = [] ∧ Memory.wf s.mem = true ∧ s.memsplit = 8 ∧ s.locked = false
  ∧ k.team = none ∧ k.pool = none ∧ k.ovq = [] ∧ noEntries k ∧ k.balance = 768 ∧ k.level = 12 ∧ k.lull = false ∧ k.cut = false
  ∧ k.semCount n = 0 ∧ (∀ j : Fin 8, Sparse.get 0 k.tiles[j].cells n = 0 ∧ Sparse.get 0x3F80_0000 k.tiles[j].rows n = 0x3F80_0000
      ∧ Sparse.get 0x3F80_0000 k.tiles[j].cols n = 0x3F80_0000)
  ∧ x.life = .idle ∧ x.lease = 0 ∧ x.vreg r = 0 ∧ x.vtag r = 0 ∧ (∀ j : Fin 8, x.k[j] = 0) ∧ x.vshape = 0 ∧ x.sreg r = 0

/-- R42 to R57: the words that the manual works out from its layouts, in each of the four streams, decode to their instructions, and the
values it gives as illegal decode to none. -/
def Obligations.DecodeWords : Prop :=
  decode .s 0x24800861 = .ok (.disp 0 2 0 4 6 1) ∧ decode .s 0x1259801A = .ok (.st 0 11 6 0 3 2)
  ∧ decode .s 0x17FFFF10 = .ok (.waitc 0 15 15 15 15 1) ∧ decode .s 0x43124000 = .ok (.cmpi 1 2 9 0 0)
  ∧ decode .s 0x1C000000 = .ok (.brk 0) ∧ decode .s 0x01000004 = .ok (.sel 0 0 0 0 4) ∧ decode .s 0 = .ok (.add 0 0 0 0)
  ∧ decode .v 0x04304430 = .ok (.vfma false 6 1 2 3) ∧ decode .v 0xD0280042 = .ok (.vld true 5 0 8 2)
  ∧ decode .v 0x49000000 = .ok (.vrsq false 0 0) ∧ decode .v 0x74000000 = .ok (.gsx false 0 0) ∧ decode .v 0 = .ok (.vadd false 0 0 0)
  ∧ decode .m 0x09231400 = .ok (.mma false 1 2 3 false false false true 2) ∧ decode .m 0 = .ok (.mnop false)
  ∧ decode .x 0x34801140 = .ok (.xeli false 2 4416) ∧ decode .x 0x84408000 = .ok (.xcpy true 1 0 2 false false) ∧ decode .x 0 = .ok (.xnop false)
  ∧ (∀ w ∈ [(0x07000000 : Code), 0x000001F8, 0x18004000], ∀ i, decode .s w ≠ .ok i)
  ∧ (∀ w ∈ [(0x74007200 : Code), 0x74004A00], ∀ i, decode .v w ≠ .ok i)
  ∧ (∀ i, decode .m 0x0C000080 ≠ .ok i) ∧ ∀ i, decode .x 0x40000000 ≠ .ok i

/-- R43: decoding the word of a well-formed instruction of a stream gives the instruction back, with every operand; and a value that
decodes is the word of the instruction it gives, so that no legal instruction has a second encoding. -/
def Obligations.DecodeEncode : Prop :=
  (∀ (i : Instr) (st : Stream), stream? i = some st → i.wf = true → decode st (encode i) = .ok i)
  ∧ ∀ (st : Stream) (w : Code) (i : Instr), decode st w = .ok i → stream? i = some st ∧ i.wf = true ∧ encode i = w

/-- R44, R58, R62 to R64, R75, R111, R235: a step runs the word it fetches. With nothing on the agenda, no empty slot owed on the core in focus and
the current strand running within its 64 slots, a step lands what is due and runs the word at the strand's PC, an undecodable one as
an illegal word, where that word issues or stops the strand; an instruction cache that holds the word gives its copy (R332). With an engine on the agenda it runs the next word of the running entry;
with a device step on the agenda, that step. Until Skyo runs, no C-die does anything (R351). The agenda is the model's own (log
entry 7). -/
def Obligations.StepRuns : Prop := ∀ (s u : State) (c pa : Nat) (rest : List Agent) (i : Instr) (r : VRun) (m : MRun) (x : XRun) (w : Code),
  let k := s.core s.focus
  let y := k.strand k.cur
  let s1 := (s.onCore s.focus (fun k => { k with slotNo := k.slotNo + 1 })).select s.focus k.cur
  let a := y.pc.toNat % 2 ^ 48
  let copies (e : CodeCopy) : Prop := e.core = s.focus ∧ e.pa = pa ∧ e.hit = true
  let finds := ((∀ e ∈ s.icache, ¬ copies e) ∧ w = BitVec.ofNat 32 (leValue (physRead s1 pa 4)))
    ∨ ∃ e rest, s.icache = e :: rest ∧ copies e ∧ e.before = none ∧ w = e.word
  let up := s.pkg.stage = 4
  let ready := (∀ t : BitVec 2, (k.strand t).life = .running → (k.strand t).owed = 0) ∧ k.switch = false ∧ k.held < 64
    ∧ y.life = .running ∧ k.lull = false
  let runs (j : Instr) : Prop := exec j s1 = .next u → (u.strand s.focus k.cur).slots ≠ y.slots ∨ (u.strand s.focus k.cur).life ≠ .running →
    step s = .next u
  let at_ : State := { s with focus := c }
  let e := at_.onCore c Core.meSlot
  let calm (k : Core) (e : Entry) : Prop := (k.strand e.strand).stop = none
  (s.agenda = [] → up → ready → finds → (a < 0x1000_0000_0000 ∨ 0x2000_0000_0000 ≤ a) → resolve s1 s.focus a .fetch false = .ok pa →
    (decode .s w = .ok i → runs i) ∧ (∀ e, decode .s w = .error e → runs (.illegalSWord w)))
  ∧ (s.agenda = [] → ¬ up → step s = .next s)
  ∧ (s.agenda = [.ve c] → up → (s.core c).vrun = some r → r.ended = false → r.flt = none → calm (s.core c) r.entry →
      entryWord at_ c .v r.entry r.idx = .ok i → step s = exec i at_)
  ∧ (s.agenda = [.me c] → up → (e.core c).mrun = some m → m.ended = false → m.flt = none → calm (e.core c) m.entry →
      entryWord e c .m m.entry m.idx = .ok i → step s = exec i e)
  ∧ (s.agenda = [.xe c] → up → (s.core c).xrun = some x → x.ended = false → x.flt = none → calm (s.core c) x.entry →
      entryWord at_ c .x x.entry x.idx = .ok i → step s = exec i at_)
  ∧ (s.agenda = .ev i :: rest → up → rest ≠ [] → step s = exec i { s with agenda := rest })
  ∧ (s.agenda = [.ev i] → up → step s = exec i s)

/-- R3, R80, R93 to R98: whatever a step does, memory keeps its canonical form: addresses strictly rising, and no byte listed that reads
as an unlisted one does. That an unlisted byte reads 0 is the model's choice (log entry 3). -/
def Obligations.MemoryCanonicalKept : Prop := ∀ (s t : State), Memory.wf s.mem = true → step s = .next t → Memory.wf t.mem = true
end

