-- ==== Sys2Proof/Laws/Sparse.lean ====
section
/-! SUPPORT. Laws of sparse tables: read after write, every other place left alone, and the canonical form kept. -/
namespace Sys2Proof.Machine

variable {α : Type}

theorem Sparse.get_append (d : α) (m n : Sparse α) (a : Nat) (h : ∀ e ∈ n, e.1 ≠ a) :
    Sparse.get d (m ++ n) a = Sparse.get d m a := by
  induction m with
  | nil => induction n with
    | nil => rfl
    | cons e n ih =>
      have h1 := h e (by simp)
      simp only [List.nil_append, Sparse.get, h1, ↓reduceIte] at *
      exact ih (fun e he => h e (by simp [he]))
  | cons e m ih => simp only [List.cons_append, Sparse.get, ih]

theorem Sparse.get_of_not_mem (d : α) (m : Sparse α) (a : Nat) (h : ∀ e ∈ m, e.1 ≠ a) : Sparse.get d m a = d := by
  have := Sparse.get_append d [] m a h
  simpa [Sparse.get] using this

theorem Sparse.get_append_right (d : α) (m n : Sparse α) (a : Nat) (h : ∀ e ∈ m, e.1 ≠ a) :
    Sparse.get d (m ++ n) a = Sparse.get d n a := by
  induction m with
  | nil => rfl
  | cons e m ih =>
    have h1 := h e (by simp)
    simp only [List.cons_append, Sparse.get, h1, ↓reduceIte]
    exact ih (fun e he => h e (by simp [he]))

theorem Sparse.get_filter (d : α) (m : Sparse α) (p : Nat × α → Bool) (a : Nat)
    (h : ∀ e ∈ m, e.1 = a → p e = true) : Sparse.get d (m.filter p) a = Sparse.get d m a := by
  induction m with
  | nil => rfl
  | cons e m ih =>
    have ih := ih (fun e he => h e (by simp [he]))
    by_cases hp : p e = true
    · simp only [List.filter_cons, hp, ↓reduceIte, Sparse.get, ih]
    · have h1 : e.1 ≠ a := fun h2 => hp (h e (by simp) h2)
      simp only [List.filter_cons, hp, Bool.false_eq_true, ↓reduceIte, Sparse.get, h1, ih]

/-- Read after a listed write (R9's tables of cores, clusters and partitions). -/
theorem Sparse.get_put (d : α) (m : Sparse α) (a b : Nat) (v : α) :
    Sparse.get d (Sparse.put m a v) b = if b = a then v else Sparse.get d m b := by
  unfold Sparse.put
  have lo : Sparse.get d (m.filter (fun e => e.1 < a)) b = if b < a then Sparse.get d m b else d := by
    split
    · rename_i h
      exact Sparse.get_filter d m _ b (fun e _ he => by simp [he, h])
    · rename_i h
      refine Sparse.get_of_not_mem d _ b (fun e he he' => h ?_)
      have := (List.mem_filter.mp he).2
      simp only [decide_eq_true_eq] at this; omega
  have hi : Sparse.get d (m.filter (fun e => a < e.1)) b = if a < b then Sparse.get d m b else d := by
    split
    · rename_i h
      exact Sparse.get_filter d m _ b (fun e _ he => by simp [he, h])
    · rename_i h
      refine Sparse.get_of_not_mem d _ b (fun e he he' => h ?_)
      have := (List.mem_filter.mp he).2
      simp only [decide_eq_true_eq] at this; omega
  rcases Nat.lt_trichotomy b a with h | h | h
  · rw [Sparse.get_append, lo, if_pos h, if_neg (by omega)]
    intro e he
    rcases List.mem_cons.mp he with rfl | he
    · simp only; omega
    · have := (List.mem_filter.mp he).2
      simp only [decide_eq_true_eq] at this; omega
  · subst h
    rw [Sparse.get_append_right, Sparse.get, if_pos rfl, if_pos rfl]
    intro e he
    have := (List.mem_filter.mp he).2
    simp only [decide_eq_true_eq] at this; omega
  · rw [Sparse.get_append_right, Sparse.get, if_neg (by omega : ¬ a = b), hi, if_pos h, if_neg (by omega)]
    intro e he
    have := (List.mem_filter.mp he).2
    simp only [decide_eq_true_eq] at this; omega

@[simp] theorem Sparse.get_put_same (d : α) (m : Sparse α) (a : Nat) (v : α) : Sparse.get d (Sparse.put m a v) a = v := by
  simp [Sparse.get_put]

theorem Sparse.get_put_ne (d : α) (m : Sparse α) {a b : Nat} (v : α) (h : b ≠ a) :
    Sparse.get d (Sparse.put m a v) b = Sparse.get d m b := by
  simp [Sparse.get_put, h]

variable [DecidableEq α]

theorem Sparse.run_key (d : α) (vs : List α) (a : Nat) : ∀ e ∈ Sparse.run d a vs, a ≤ e.1 ∧ e.1 < a + vs.length := by
  induction vs generalizing a with
  | nil => simp [Sparse.run]
  | cons v vs ih =>
    intro e he
    unfold Sparse.run at he
    split at he
    · have := ih (a + 1) e he; simp only [List.length_cons]; omega
    · rcases List.mem_cons.mp he with rfl | he
      · simp
      · have := ih (a + 1) e he; simp only [List.length_cons]; omega

theorem Sparse.get_run (d : α) (vs : List α) (a b : Nat) :
    Sparse.get d (Sparse.run d a vs) b = if a ≤ b then vs.getD (b - a) d else d := by
  induction vs generalizing a with
  | nil => simp [Sparse.run, Sparse.get]
  | cons v vs ih =>
    unfold Sparse.run
    by_cases hv : v = d
    · rw [if_pos hv, ih (a + 1)]
      rcases Nat.lt_trichotomy a b with h | h | h
      · obtain ⟨n, rfl⟩ : ∃ n, b = a + 1 + n := ⟨b - (a + 1), by omega⟩
        rw [if_pos (by omega), if_pos (by omega), show a + 1 + n - a = n + 1 by omega, show a + 1 + n - (a + 1) = n by omega]
        rfl
      · subst h
        rw [if_neg (by omega), if_pos (Nat.le_refl a), Nat.sub_self]
        exact hv.symm
      · rw [if_neg (by omega), if_neg (by omega)]
    · rw [if_neg hv, Sparse.get]
      rcases Nat.lt_trichotomy a b with h | h | h
      · rw [if_neg (by omega), ih (a + 1)]
        obtain ⟨n, rfl⟩ : ∃ n, b = a + 1 + n := ⟨b - (a + 1), by omega⟩
        rw [if_pos (by omega), if_pos (by omega), show a + 1 + n - a = n + 1 by omega, show a + 1 + n - (a + 1) = n by omega]
        rfl
      · subst h
        simp
      · rw [if_neg (by omega), ih (a + 1), if_neg (by omega), if_neg (by omega)]

/-- Read after a write of a run of values. -/
theorem Sparse.get_setRange (d : α) (m : Sparse α) (a b : Nat) (vs : List α) :
    Sparse.get d (Sparse.setRange d m a vs) b =
      if a ≤ b ∧ b < a + vs.length then vs.getD (b - a) d else Sparse.get d m b := by
  unfold Sparse.setRange
  have lo : Sparse.get d (m.filter (fun e => e.1 < a)) b = if b < a then Sparse.get d m b else d := by
    split
    · rename_i h
      exact Sparse.get_filter d m _ b (fun e _ he => by simp [he, h])
    · rename_i h
      refine Sparse.get_of_not_mem d _ b (fun e he he' => h ?_)
      have := (List.mem_filter.mp he).2
      simp only [decide_eq_true_eq] at this; omega
  have hi : Sparse.get d (m.filter (fun e => a + vs.length ≤ e.1)) b = if a + vs.length ≤ b then Sparse.get d m b else d := by
    split
    · rename_i h
      exact Sparse.get_filter d m _ b (fun e _ he => by simp [he, h])
    · rename_i h
      refine Sparse.get_of_not_mem d _ b (fun e he he' => h ?_)
      have := (List.mem_filter.mp he).2
      simp only [decide_eq_true_eq] at this; omega
  have kl : b ≥ a → ∀ e ∈ m.filter (fun e => e.1 < a), e.1 ≠ b := by
    intro h e he
    have := (List.mem_filter.mp he).2
    simp only [decide_eq_true_eq] at this; omega
  have kh : b < a + vs.length → ∀ e ∈ m.filter (fun e => a + vs.length ≤ e.1), e.1 ≠ b := by
    intro h e he
    have := (List.mem_filter.mp he).2
    simp only [decide_eq_true_eq] at this; omega
  rcases Nat.lt_or_ge b a with h | h
  · rw [if_neg (by omega), Sparse.get_append _ _ _ _ (kh (by omega)), Sparse.get_append, lo, if_pos h]
    intro e he
    have := Sparse.run_key d vs a e he; omega
  · rcases Nat.lt_or_ge b (a + vs.length) with h2 | h2
    · rw [if_pos ⟨h, h2⟩, Sparse.get_append _ _ _ _ (kh h2), Sparse.get_append_right _ _ _ _ (kl h), Sparse.get_run, if_pos h]
    · rw [if_neg (by omega), List.append_assoc, Sparse.get_append_right _ _ _ _ (kl h), Sparse.get_append_right, hi, if_pos h2]
      intro e he
      have := Sparse.run_key d vs a e he; omega

/-- Read after a write of one value. -/
theorem Sparse.get_set (d : α) (m : Sparse α) (a b : Nat) (v : α) :
    Sparse.get d (Sparse.set d m a v) b = if b = a then v else Sparse.get d m b := by
  unfold Sparse.set
  rw [Sparse.get_setRange]
  simp only [List.length_cons, List.length_nil]
  by_cases h : b = a
  · subst h; simp
  · rw [if_neg (by omega), if_neg h]

theorem Sparse.wfFrom_filter_hi (d : α) (m : Sparse α) (lo b : Nat) (h : Sparse.wfFrom d lo m = true) :
    Sparse.wfFrom d (max lo b) (m.filter (fun e => b ≤ e.1)) = true := by
  induction m generalizing lo with
  | nil => rfl
  | cons e m ih =>
    simp only [Sparse.wfFrom, Bool.and_eq_true, decide_eq_true_eq] at h
    by_cases hb : b ≤ e.1
    · simp only [List.filter_cons, hb, decide_true, ↓reduceIte, Sparse.wfFrom, Bool.and_eq_true, decide_eq_true_eq]
      refine ⟨⟨by omega, h.1.2⟩, ?_⟩
      have := ih (e.1 + 1) h.2
      rwa [show max (e.1 + 1) b = e.1 + 1 by omega] at this
    · simp only [List.filter_cons, hb, decide_false, Bool.false_eq_true, ↓reduceIte]
      have := ih (e.1 + 1) h.2
      rw [show max (e.1 + 1) b = b by omega] at this
      rwa [show max lo b = b by omega]

theorem Sparse.wfFrom_mono (d : α) (m : Sparse α) {lo lo' : Nat} (hl : lo' ≤ lo) (h : Sparse.wfFrom d lo m = true) :
    Sparse.wfFrom d lo' m = true := by
  cases m with
  | nil => rfl
  | cons e m =>
    simp only [Sparse.wfFrom, Bool.and_eq_true, decide_eq_true_eq] at *
    exact ⟨⟨by omega, h.1.2⟩, h.2⟩

theorem Sparse.wfFrom_append (d : α) (m n : Sparse α) (lo b : Nat) (hm : Sparse.wfFrom d lo m = true)
    (hk : ∀ e ∈ m, e.1 < b) (hb : lo ≤ b) (hn : Sparse.wfFrom d b n = true) : Sparse.wfFrom d lo (m ++ n) = true := by
  induction m generalizing lo with
  | nil => exact Sparse.wfFrom_mono d n hb hn
  | cons e m ih =>
    simp only [Sparse.wfFrom, List.cons_append, Bool.and_eq_true, decide_eq_true_eq] at *
    exact ⟨hm.1, ih (e.1 + 1) hm.2 (fun e' he => hk e' (by simp [he])) (by have := hk e (by simp); omega)⟩

theorem Sparse.wfFrom_filter (d : α) (m : Sparse α) (p : Nat × α → Bool) (lo : Nat) (h : Sparse.wfFrom d lo m = true) :
    Sparse.wfFrom d lo (m.filter p) = true := by
  induction m generalizing lo with
  | nil => rfl
  | cons e m ih =>
    simp only [Sparse.wfFrom, Bool.and_eq_true, decide_eq_true_eq] at h
    have := ih (e.1 + 1) h.2
    by_cases hp : p e = true
    · simp only [List.filter_cons, hp, ↓reduceIte, Sparse.wfFrom, Bool.and_eq_true, decide_eq_true_eq]
      exact ⟨h.1, this⟩
    · simp only [List.filter_cons, hp, Bool.false_eq_true, ↓reduceIte]
      exact Sparse.wfFrom_mono d _ (by omega) this

theorem Sparse.wfFrom_run (d : α) (vs : List α) (a : Nat) : Sparse.wfFrom d a (Sparse.run d a vs) = true := by
  induction vs generalizing a with
  | nil => rfl
  | cons v vs ih =>
    unfold Sparse.run
    split
    · exact Sparse.wfFrom_mono d _ (by omega) (ih (a + 1))
    · rename_i hv
      simp [Sparse.wfFrom, hv, ih (a + 1)]

/-- A write keeps the canonical form. -/
theorem Sparse.wf_setRange (d : α) (m : Sparse α) (a : Nat) (vs : List α) (h : Sparse.wf d m = true) :
    Sparse.wf d (Sparse.setRange d m a vs) = true := by
  unfold Sparse.wf Sparse.setRange at *
  refine Sparse.wfFrom_append d _ _ 0 (a + vs.length) ?_ ?_ (by omega) ?_
  · refine Sparse.wfFrom_append d _ _ 0 a (Sparse.wfFrom_filter d m _ 0 h) ?_ (by omega) (Sparse.wfFrom_run d vs a)
    intro e he
    have := (List.mem_filter.mp he).2
    simpa using this
  · intro e he
    rcases List.mem_append.mp he with he | he
    · have := (List.mem_filter.mp he).2
      simp only [decide_eq_true_eq] at this; omega
    · exact (Sparse.run_key d vs a e he).2
  · have := Sparse.wfFrom_filter_hi d m 0 (a + vs.length) h
    simpa using this

theorem Sparse.wf_set (d : α) (m : Sparse α) (a : Nat) (v : α) (h : Sparse.wf d m = true) :
    Sparse.wf d (Sparse.set d m a v) = true := Sparse.wf_setRange d m a [v] h

/-- A store keeps the canonical form of a memory. -/
theorem Memory.wf_store (m : Mem) (a : Nat) (bs : List Byte) (h : Memory.wf m = true) :
    Memory.wf (Memory.store m a bs) = true := Sparse.wf_setRange unwritten m a bs h

/-- The empty memory is canonical. -/
theorem Memory.wf_nil : Memory.wf [] = true := rfl

/-- A byte after a store (R3). -/
theorem Memory.byte_store (m : Mem) (a b : Nat) (bs : List Byte) :
    Memory.byte (Memory.store m a bs) b =
      if a ≤ b ∧ b < a + bs.length then bs.getD (b - a) unwritten else Memory.byte m b :=
  Sparse.get_setRange unwritten m a b bs

theorem Memory.byte_store_ne (m : Mem) (a b : Nat) (bs : List Byte) (h : b < a ∨ a + bs.length ≤ b) :
    Memory.byte (Memory.store m a bs) b = Memory.byte m b := by
  rw [Memory.byte_store, if_neg (by omega)]

omit [DecidableEq α] in
theorem Sparse.getRange_eq (d : α) (m : Sparse α) (a n : Nat) :
    Sparse.getRange d m a n = (List.range n).map (fun i => Sparse.get d m (a + i)) := by
  unfold Sparse.getRange
  refine List.map_congr_left (fun i hi => ?_)
  have hi := List.mem_range.mp hi
  exact Sparse.get_filter d m _ (a + i) (fun e _ he => by simp [he, hi])

/-- The bytes of a range, one by one. -/
theorem Memory.bytes_eq (m : Mem) (a n : Nat) : Memory.bytes m a n = (List.range n).map (fun i => Memory.byte m (a + i)) :=
  Sparse.getRange_eq unwritten m a n

@[simp] theorem leBytes_length (n v : Nat) : (leBytes n v).length = n := by
  induction n generalizing v with
  | zero => rfl
  | succ n ih => simp [leBytes, ih]

/-- A value stored and read back, low bytes first (R3). -/
theorem leValue_leBytes (n v : Nat) : leValue (leBytes n v) = v % 256 ^ n := by
  induction n generalizing v with
  | zero => simp [leBytes, leValue, Nat.mod_one]
  | succ n ih =>
    simp only [leBytes, leValue, ih, BitVec.toNat_ofNat]
    rw [show (2 : Nat) ^ 8 = 256 from rfl, Nat.pow_succ, Nat.mul_comm (256 ^ n) 256, Nat.mod_mul]

/-- Bytes just stored are read back. -/
theorem Memory.bytes_store_same (m : Mem) (a : Nat) (bs : List Byte) :
    Memory.bytes (Memory.store m a bs) a bs.length = bs := by
  rw [Memory.bytes_eq]
  refine List.ext_getElem (by simp) (fun i h1 h2 => ?_)
  simp only [List.getElem_map, List.getElem_range, Memory.byte_store]
  rw [if_pos (by omega), show a + i - a = i by omega]
  simp [h2]

end Sys2Proof.Machine
end

