-- ==== Sys2Proof/Laws/State.lean ====
section
/-! SUPPORT. What each update of the state leaves of every other field, so that no later proof unfolds a record update; and
reads after writes of cores, strands, clusters, dies and partitions. -/
namespace Sys2Proof.Machine

variable (s : State) (c p d n m : Nat) (t : BitVec 2)

@[simp] theorem State.setCore_agenda (k : Core) : (s.setCore c k).agenda = s.agenda := rfl
@[simp] theorem State.setCore_focus (k : Core) : (s.setCore c k).focus = s.focus := rfl
@[simp] theorem State.setCore_freeIx (k : Core) : (s.setCore c k).freeIx = s.freeIx := rfl
@[simp] theorem State.setCore_tick (k : Core) : (s.setCore c k).tick = s.tick := rfl
@[simp] theorem State.setCore_mem (k : Core) : (s.setCore c k).mem = s.mem := rfl
@[simp] theorem State.setCore_clusters (k : Core) : (s.setCore c k).clusters = s.clusters := rfl
@[simp] theorem State.setCore_dies (k : Core) : (s.setCore c k).dies = s.dies := rfl
@[simp] theorem State.setCore_parts (k : Core) : (s.setCore c k).parts = s.parts := rfl
@[simp] theorem State.setCore_memsplit (k : Core) : (s.setCore c k).memsplit = s.memsplit := rfl
@[simp] theorem State.setCore_locked (k : Core) : (s.setCore c k).locked = s.locked := rfl
@[simp] theorem State.setCore_ring (k : Core) : (s.setCore c k).ring = s.ring := rfl
@[simp] theorem State.setCore_collto (k : Core) : (s.setCore c k).collto = s.collto := rfl
@[simp] theorem State.setCore_colls (k : Core) : (s.setCore c k).colls = s.colls := rfl
@[simp] theorem State.setCore_collStat (k : Core) : (s.setCore c k).collStat = s.collStat := rfl
@[simp] theorem State.setCore_pkg (k : Core) : (s.setCore c k).pkg = s.pkg := rfl
@[simp] theorem State.setCore_skyo (k : Core) : (s.setCore c k).skyo = s.skyo := rfl
@[simp] theorem State.setCore_lastRead (k : Core) : (s.setCore c k).lastRead = s.lastRead := rfl
@[simp] theorem State.setCore_arrivals (k : Core) : (s.setCore c k).arrivals = s.arrivals := rfl
@[simp] theorem State.setCore_hostUr (k : Core) : (s.setCore c k).hostUr = s.hostUr := rfl
@[simp] theorem State.setCore_harts (k : Core) : (s.setCore c k).harts = s.harts := rfl
@[simp] theorem State.setCore_icache (k : Core) : (s.setCore c k).icache = s.icache := rfl
@[simp] theorem State.setCore_resvs (k : Core) : (s.setCore c k).resvs = s.resvs := rfl

@[simp] theorem State.onCore_agenda (f : Core → Core) : (s.onCore c f).agenda = s.agenda := rfl
@[simp] theorem State.onCore_focus (f : Core → Core) : (s.onCore c f).focus = s.focus := rfl
@[simp] theorem State.onCore_freeIx (f : Core → Core) : (s.onCore c f).freeIx = s.freeIx := rfl
@[simp] theorem State.onCore_tick (f : Core → Core) : (s.onCore c f).tick = s.tick := rfl
@[simp] theorem State.onCore_mem (f : Core → Core) : (s.onCore c f).mem = s.mem := rfl
@[simp] theorem State.onCore_clusters (f : Core → Core) : (s.onCore c f).clusters = s.clusters := rfl
@[simp] theorem State.onCore_dies (f : Core → Core) : (s.onCore c f).dies = s.dies := rfl
@[simp] theorem State.onCore_parts (f : Core → Core) : (s.onCore c f).parts = s.parts := rfl
@[simp] theorem State.onCore_memsplit (f : Core → Core) : (s.onCore c f).memsplit = s.memsplit := rfl
@[simp] theorem State.onCore_locked (f : Core → Core) : (s.onCore c f).locked = s.locked := rfl
@[simp] theorem State.onCore_ring (f : Core → Core) : (s.onCore c f).ring = s.ring := rfl
@[simp] theorem State.onCore_collto (f : Core → Core) : (s.onCore c f).collto = s.collto := rfl
@[simp] theorem State.onCore_colls (f : Core → Core) : (s.onCore c f).colls = s.colls := rfl
@[simp] theorem State.onCore_collStat (f : Core → Core) : (s.onCore c f).collStat = s.collStat := rfl
@[simp] theorem State.onCore_pkg (f : Core → Core) : (s.onCore c f).pkg = s.pkg := rfl
@[simp] theorem State.onCore_skyo (f : Core → Core) : (s.onCore c f).skyo = s.skyo := rfl
@[simp] theorem State.onCore_lastRead (f : Core → Core) : (s.onCore c f).lastRead = s.lastRead := rfl
@[simp] theorem State.onCore_arrivals (f : Core → Core) : (s.onCore c f).arrivals = s.arrivals := rfl
@[simp] theorem State.onCore_hostUr (f : Core → Core) : (s.onCore c f).hostUr = s.hostUr := rfl
@[simp] theorem State.onCore_harts (f : Core → Core) : (s.onCore c f).harts = s.harts := rfl
@[simp] theorem State.onCore_icache (f : Core → Core) : (s.onCore c f).icache = s.icache := rfl
@[simp] theorem State.onCore_resvs (f : Core → Core) : (s.onCore c f).resvs = s.resvs := rfl

@[simp] theorem State.setStrand_agenda (x : Strand) : (s.setStrand c t x).agenda = s.agenda := rfl
@[simp] theorem State.setStrand_focus (x : Strand) : (s.setStrand c t x).focus = s.focus := rfl
@[simp] theorem State.setStrand_freeIx (x : Strand) : (s.setStrand c t x).freeIx = s.freeIx := rfl
@[simp] theorem State.setStrand_tick (x : Strand) : (s.setStrand c t x).tick = s.tick := rfl
@[simp] theorem State.setStrand_mem (x : Strand) : (s.setStrand c t x).mem = s.mem := rfl
@[simp] theorem State.setStrand_clusters (x : Strand) : (s.setStrand c t x).clusters = s.clusters := rfl
@[simp] theorem State.setStrand_dies (x : Strand) : (s.setStrand c t x).dies = s.dies := rfl
@[simp] theorem State.setStrand_parts (x : Strand) : (s.setStrand c t x).parts = s.parts := rfl
@[simp] theorem State.setStrand_memsplit (x : Strand) : (s.setStrand c t x).memsplit = s.memsplit := rfl
@[simp] theorem State.setStrand_locked (x : Strand) : (s.setStrand c t x).locked = s.locked := rfl
@[simp] theorem State.setStrand_ring (x : Strand) : (s.setStrand c t x).ring = s.ring := rfl
@[simp] theorem State.setStrand_collto (x : Strand) : (s.setStrand c t x).collto = s.collto := rfl
@[simp] theorem State.setStrand_colls (x : Strand) : (s.setStrand c t x).colls = s.colls := rfl
@[simp] theorem State.setStrand_collStat (x : Strand) : (s.setStrand c t x).collStat = s.collStat := rfl
@[simp] theorem State.setStrand_pkg (x : Strand) : (s.setStrand c t x).pkg = s.pkg := rfl
@[simp] theorem State.setStrand_skyo (x : Strand) : (s.setStrand c t x).skyo = s.skyo := rfl
@[simp] theorem State.setStrand_lastRead (x : Strand) : (s.setStrand c t x).lastRead = s.lastRead := rfl
@[simp] theorem State.setStrand_arrivals (x : Strand) : (s.setStrand c t x).arrivals = s.arrivals := rfl
@[simp] theorem State.setStrand_hostUr (x : Strand) : (s.setStrand c t x).hostUr = s.hostUr := rfl
@[simp] theorem State.setStrand_harts (x : Strand) : (s.setStrand c t x).harts = s.harts := rfl
@[simp] theorem State.setStrand_icache (x : Strand) : (s.setStrand c t x).icache = s.icache := rfl
@[simp] theorem State.setStrand_resvs (x : Strand) : (s.setStrand c t x).resvs = s.resvs := rfl

@[simp] theorem State.onStrand_agenda (f : Strand → Strand) : (s.onStrand c t f).agenda = s.agenda := rfl
@[simp] theorem State.onStrand_focus (f : Strand → Strand) : (s.onStrand c t f).focus = s.focus := rfl
@[simp] theorem State.onStrand_freeIx (f : Strand → Strand) : (s.onStrand c t f).freeIx = s.freeIx := rfl
@[simp] theorem State.onStrand_tick (f : Strand → Strand) : (s.onStrand c t f).tick = s.tick := rfl
@[simp] theorem State.onStrand_mem (f : Strand → Strand) : (s.onStrand c t f).mem = s.mem := rfl
@[simp] theorem State.onStrand_clusters (f : Strand → Strand) : (s.onStrand c t f).clusters = s.clusters := rfl
@[simp] theorem State.onStrand_dies (f : Strand → Strand) : (s.onStrand c t f).dies = s.dies := rfl
@[simp] theorem State.onStrand_parts (f : Strand → Strand) : (s.onStrand c t f).parts = s.parts := rfl
@[simp] theorem State.onStrand_memsplit (f : Strand → Strand) : (s.onStrand c t f).memsplit = s.memsplit := rfl
@[simp] theorem State.onStrand_locked (f : Strand → Strand) : (s.onStrand c t f).locked = s.locked := rfl
@[simp] theorem State.onStrand_ring (f : Strand → Strand) : (s.onStrand c t f).ring = s.ring := rfl
@[simp] theorem State.onStrand_collto (f : Strand → Strand) : (s.onStrand c t f).collto = s.collto := rfl
@[simp] theorem State.onStrand_colls (f : Strand → Strand) : (s.onStrand c t f).colls = s.colls := rfl
@[simp] theorem State.onStrand_collStat (f : Strand → Strand) : (s.onStrand c t f).collStat = s.collStat := rfl
@[simp] theorem State.onStrand_pkg (f : Strand → Strand) : (s.onStrand c t f).pkg = s.pkg := rfl
@[simp] theorem State.onStrand_skyo (f : Strand → Strand) : (s.onStrand c t f).skyo = s.skyo := rfl
@[simp] theorem State.onStrand_lastRead (f : Strand → Strand) : (s.onStrand c t f).lastRead = s.lastRead := rfl
@[simp] theorem State.onStrand_arrivals (f : Strand → Strand) : (s.onStrand c t f).arrivals = s.arrivals := rfl
@[simp] theorem State.onStrand_hostUr (f : Strand → Strand) : (s.onStrand c t f).hostUr = s.hostUr := rfl
@[simp] theorem State.onStrand_harts (f : Strand → Strand) : (s.onStrand c t f).harts = s.harts := rfl
@[simp] theorem State.onStrand_icache (f : Strand → Strand) : (s.onStrand c t f).icache = s.icache := rfl
@[simp] theorem State.onStrand_resvs (f : Strand → Strand) : (s.onStrand c t f).resvs = s.resvs := rfl

@[simp] theorem State.onCluster_agenda (f : Cluster → Cluster) : (s.onCluster c f).agenda = s.agenda := rfl
@[simp] theorem State.onCluster_focus (f : Cluster → Cluster) : (s.onCluster c f).focus = s.focus := rfl
@[simp] theorem State.onCluster_freeIx (f : Cluster → Cluster) : (s.onCluster c f).freeIx = s.freeIx := rfl
@[simp] theorem State.onCluster_tick (f : Cluster → Cluster) : (s.onCluster c f).tick = s.tick := rfl
@[simp] theorem State.onCluster_mem (f : Cluster → Cluster) : (s.onCluster c f).mem = s.mem := rfl
@[simp] theorem State.onCluster_cores (f : Cluster → Cluster) : (s.onCluster c f).cores = s.cores := rfl
@[simp] theorem State.onCluster_dies (f : Cluster → Cluster) : (s.onCluster c f).dies = s.dies := rfl
@[simp] theorem State.onCluster_parts (f : Cluster → Cluster) : (s.onCluster c f).parts = s.parts := rfl
@[simp] theorem State.onCluster_memsplit (f : Cluster → Cluster) : (s.onCluster c f).memsplit = s.memsplit := rfl
@[simp] theorem State.onCluster_locked (f : Cluster → Cluster) : (s.onCluster c f).locked = s.locked := rfl
@[simp] theorem State.onCluster_ring (f : Cluster → Cluster) : (s.onCluster c f).ring = s.ring := rfl
@[simp] theorem State.onCluster_collto (f : Cluster → Cluster) : (s.onCluster c f).collto = s.collto := rfl
@[simp] theorem State.onCluster_colls (f : Cluster → Cluster) : (s.onCluster c f).colls = s.colls := rfl
@[simp] theorem State.onCluster_collStat (f : Cluster → Cluster) : (s.onCluster c f).collStat = s.collStat := rfl
@[simp] theorem State.onCluster_pkg (f : Cluster → Cluster) : (s.onCluster c f).pkg = s.pkg := rfl
@[simp] theorem State.onCluster_skyo (f : Cluster → Cluster) : (s.onCluster c f).skyo = s.skyo := rfl
@[simp] theorem State.onCluster_lastRead (f : Cluster → Cluster) : (s.onCluster c f).lastRead = s.lastRead := rfl
@[simp] theorem State.onCluster_arrivals (f : Cluster → Cluster) : (s.onCluster c f).arrivals = s.arrivals := rfl
@[simp] theorem State.onCluster_hostUr (f : Cluster → Cluster) : (s.onCluster c f).hostUr = s.hostUr := rfl
@[simp] theorem State.onCluster_harts (f : Cluster → Cluster) : (s.onCluster c f).harts = s.harts := rfl
@[simp] theorem State.onCluster_icache (f : Cluster → Cluster) : (s.onCluster c f).icache = s.icache := rfl
@[simp] theorem State.onCluster_resvs (f : Cluster → Cluster) : (s.onCluster c f).resvs = s.resvs := rfl

@[simp] theorem State.onPart_agenda (f : Partition → Partition) : (s.onPart p f).agenda = s.agenda := rfl
@[simp] theorem State.onPart_focus (f : Partition → Partition) : (s.onPart p f).focus = s.focus := rfl
@[simp] theorem State.onPart_freeIx (f : Partition → Partition) : (s.onPart p f).freeIx = s.freeIx := rfl
@[simp] theorem State.onPart_tick (f : Partition → Partition) : (s.onPart p f).tick = s.tick := rfl
@[simp] theorem State.onPart_mem (f : Partition → Partition) : (s.onPart p f).mem = s.mem := rfl
@[simp] theorem State.onPart_cores (f : Partition → Partition) : (s.onPart p f).cores = s.cores := rfl
@[simp] theorem State.onPart_clusters (f : Partition → Partition) : (s.onPart p f).clusters = s.clusters := rfl
@[simp] theorem State.onPart_dies (f : Partition → Partition) : (s.onPart p f).dies = s.dies := rfl
@[simp] theorem State.onPart_memsplit (f : Partition → Partition) : (s.onPart p f).memsplit = s.memsplit := rfl
@[simp] theorem State.onPart_locked (f : Partition → Partition) : (s.onPart p f).locked = s.locked := rfl
@[simp] theorem State.onPart_ring (f : Partition → Partition) : (s.onPart p f).ring = s.ring := rfl
@[simp] theorem State.onPart_collto (f : Partition → Partition) : (s.onPart p f).collto = s.collto := rfl
@[simp] theorem State.onPart_colls (f : Partition → Partition) : (s.onPart p f).colls = s.colls := rfl
@[simp] theorem State.onPart_collStat (f : Partition → Partition) : (s.onPart p f).collStat = s.collStat := rfl
@[simp] theorem State.onPart_pkg (f : Partition → Partition) : (s.onPart p f).pkg = s.pkg := rfl
@[simp] theorem State.onPart_skyo (f : Partition → Partition) : (s.onPart p f).skyo = s.skyo := rfl
@[simp] theorem State.onPart_lastRead (f : Partition → Partition) : (s.onPart p f).lastRead = s.lastRead := rfl
@[simp] theorem State.onPart_arrivals (f : Partition → Partition) : (s.onPart p f).arrivals = s.arrivals := rfl
@[simp] theorem State.onPart_hostUr (f : Partition → Partition) : (s.onPart p f).hostUr = s.hostUr := rfl
@[simp] theorem State.onPart_harts (f : Partition → Partition) : (s.onPart p f).harts = s.harts := rfl
@[simp] theorem State.onPart_icache (f : Partition → Partition) : (s.onPart p f).icache = s.icache := rfl
@[simp] theorem State.onPart_resvs (f : Partition → Partition) : (s.onPart p f).resvs = s.resvs := rfl

@[simp] theorem State.onDie_agenda (f : Die → Die) : (s.onDie d f).agenda = s.agenda := rfl
@[simp] theorem State.onDie_focus (f : Die → Die) : (s.onDie d f).focus = s.focus := rfl
@[simp] theorem State.onDie_freeIx (f : Die → Die) : (s.onDie d f).freeIx = s.freeIx := rfl
@[simp] theorem State.onDie_tick (f : Die → Die) : (s.onDie d f).tick = s.tick := rfl
@[simp] theorem State.onDie_mem (f : Die → Die) : (s.onDie d f).mem = s.mem := rfl
@[simp] theorem State.onDie_cores (f : Die → Die) : (s.onDie d f).cores = s.cores := rfl
@[simp] theorem State.onDie_clusters (f : Die → Die) : (s.onDie d f).clusters = s.clusters := rfl
@[simp] theorem State.onDie_parts (f : Die → Die) : (s.onDie d f).parts = s.parts := rfl
@[simp] theorem State.onDie_memsplit (f : Die → Die) : (s.onDie d f).memsplit = s.memsplit := rfl
@[simp] theorem State.onDie_locked (f : Die → Die) : (s.onDie d f).locked = s.locked := rfl
@[simp] theorem State.onDie_ring (f : Die → Die) : (s.onDie d f).ring = s.ring := rfl
@[simp] theorem State.onDie_collto (f : Die → Die) : (s.onDie d f).collto = s.collto := rfl
@[simp] theorem State.onDie_colls (f : Die → Die) : (s.onDie d f).colls = s.colls := rfl
@[simp] theorem State.onDie_collStat (f : Die → Die) : (s.onDie d f).collStat = s.collStat := rfl
@[simp] theorem State.onDie_pkg (f : Die → Die) : (s.onDie d f).pkg = s.pkg := rfl
@[simp] theorem State.onDie_skyo (f : Die → Die) : (s.onDie d f).skyo = s.skyo := rfl
@[simp] theorem State.onDie_lastRead (f : Die → Die) : (s.onDie d f).lastRead = s.lastRead := rfl
@[simp] theorem State.onDie_arrivals (f : Die → Die) : (s.onDie d f).arrivals = s.arrivals := rfl
@[simp] theorem State.onDie_hostUr (f : Die → Die) : (s.onDie d f).hostUr = s.hostUr := rfl
@[simp] theorem State.onDie_harts (f : Die → Die) : (s.onDie d f).harts = s.harts := rfl
@[simp] theorem State.onDie_icache (f : Die → Die) : (s.onDie d f).icache = s.icache := rfl
@[simp] theorem State.onDie_resvs (f : Die → Die) : (s.onDie d f).resvs = s.resvs := rfl

@[simp] theorem State.setEvent_agenda (e : Event) : (s.setEvent p n e).agenda = s.agenda := rfl
@[simp] theorem State.setEvent_focus (e : Event) : (s.setEvent p n e).focus = s.focus := rfl
@[simp] theorem State.setEvent_freeIx (e : Event) : (s.setEvent p n e).freeIx = s.freeIx := rfl
@[simp] theorem State.setEvent_tick (e : Event) : (s.setEvent p n e).tick = s.tick := rfl
@[simp] theorem State.setEvent_mem (e : Event) : (s.setEvent p n e).mem = s.mem := rfl
@[simp] theorem State.setEvent_cores (e : Event) : (s.setEvent p n e).cores = s.cores := rfl
@[simp] theorem State.setEvent_clusters (e : Event) : (s.setEvent p n e).clusters = s.clusters := rfl
@[simp] theorem State.setEvent_dies (e : Event) : (s.setEvent p n e).dies = s.dies := rfl
@[simp] theorem State.setEvent_memsplit (e : Event) : (s.setEvent p n e).memsplit = s.memsplit := rfl
@[simp] theorem State.setEvent_locked (e : Event) : (s.setEvent p n e).locked = s.locked := rfl
@[simp] theorem State.setEvent_ring (e : Event) : (s.setEvent p n e).ring = s.ring := rfl
@[simp] theorem State.setEvent_collto (e : Event) : (s.setEvent p n e).collto = s.collto := rfl
@[simp] theorem State.setEvent_colls (e : Event) : (s.setEvent p n e).colls = s.colls := rfl
@[simp] theorem State.setEvent_collStat (e : Event) : (s.setEvent p n e).collStat = s.collStat := rfl
@[simp] theorem State.setEvent_pkg (e : Event) : (s.setEvent p n e).pkg = s.pkg := rfl
@[simp] theorem State.setEvent_skyo (e : Event) : (s.setEvent p n e).skyo = s.skyo := rfl
@[simp] theorem State.setEvent_lastRead (e : Event) : (s.setEvent p n e).lastRead = s.lastRead := rfl
@[simp] theorem State.setEvent_arrivals (e : Event) : (s.setEvent p n e).arrivals = s.arrivals := rfl
@[simp] theorem State.setEvent_hostUr (e : Event) : (s.setEvent p n e).hostUr = s.hostUr := rfl
@[simp] theorem State.setEvent_harts (e : Event) : (s.setEvent p n e).harts = s.harts := rfl
@[simp] theorem State.setEvent_icache (e : Event) : (s.setEvent p n e).icache = s.icache := rfl
@[simp] theorem State.setEvent_resvs (e : Event) : (s.setEvent p n e).resvs = s.resvs := rfl

@[simp] theorem State.setRecField_agenda (i off v : Nat) : (s.setRecField p i off n v).agenda = s.agenda := rfl
@[simp] theorem State.setRecField_focus (i off v : Nat) : (s.setRecField p i off n v).focus = s.focus := rfl
@[simp] theorem State.setRecField_freeIx (i off v : Nat) : (s.setRecField p i off n v).freeIx = s.freeIx := rfl
@[simp] theorem State.setRecField_tick (i off v : Nat) : (s.setRecField p i off n v).tick = s.tick := rfl
@[simp] theorem State.setRecField_cores (i off v : Nat) : (s.setRecField p i off n v).cores = s.cores := rfl
@[simp] theorem State.setRecField_clusters (i off v : Nat) : (s.setRecField p i off n v).clusters = s.clusters := rfl
@[simp] theorem State.setRecField_dies (i off v : Nat) : (s.setRecField p i off n v).dies = s.dies := rfl
@[simp] theorem State.setRecField_parts (i off v : Nat) : (s.setRecField p i off n v).parts = s.parts := rfl
@[simp] theorem State.setRecField_memsplit (i off v : Nat) : (s.setRecField p i off n v).memsplit = s.memsplit := rfl
@[simp] theorem State.setRecField_locked (i off v : Nat) : (s.setRecField p i off n v).locked = s.locked := rfl
@[simp] theorem State.setRecField_ring (i off v : Nat) : (s.setRecField p i off n v).ring = s.ring := rfl
@[simp] theorem State.setRecField_collto (i off v : Nat) : (s.setRecField p i off n v).collto = s.collto := rfl
@[simp] theorem State.setRecField_colls (i off v : Nat) : (s.setRecField p i off n v).colls = s.colls := rfl
@[simp] theorem State.setRecField_collStat (i off v : Nat) : (s.setRecField p i off n v).collStat = s.collStat := rfl
@[simp] theorem State.setRecField_pkg (i off v : Nat) : (s.setRecField p i off n v).pkg = s.pkg := rfl
@[simp] theorem State.setRecField_skyo (i off v : Nat) : (s.setRecField p i off n v).skyo = s.skyo := rfl
@[simp] theorem State.setRecField_lastRead (i off v : Nat) : (s.setRecField p i off n v).lastRead = s.lastRead := rfl
@[simp] theorem State.setRecField_arrivals (i off v : Nat) : (s.setRecField p i off n v).arrivals = s.arrivals := rfl
@[simp] theorem State.setRecField_hostUr (i off v : Nat) : (s.setRecField p i off n v).hostUr = s.hostUr := rfl
@[simp] theorem State.setRecField_harts (i off v : Nat) : (s.setRecField p i off n v).harts = s.harts := rfl
@[simp] theorem State.setRecField_icache (i off v : Nat) : (s.setRecField p i off n v).icache = s.icache := rfl

@[simp] theorem State.unreserve_cores : (s.unreserve p n).cores = s.cores := rfl
@[simp] theorem State.unreserve_agenda : (s.unreserve p n).agenda = s.agenda := rfl
@[simp] theorem State.unreserve_focus : (s.unreserve p n).focus = s.focus := rfl
@[simp] theorem State.unreserve_freeIx : (s.unreserve p n).freeIx = s.freeIx := rfl
@[simp] theorem State.unreserve_tick : (s.unreserve p n).tick = s.tick := rfl
@[simp] theorem State.unreserve_mem : (s.unreserve p n).mem = s.mem := rfl
@[simp] theorem State.unreserve_clusters : (s.unreserve p n).clusters = s.clusters := rfl
@[simp] theorem State.unreserve_dies : (s.unreserve p n).dies = s.dies := rfl
@[simp] theorem State.unreserve_parts : (s.unreserve p n).parts = s.parts := rfl
@[simp] theorem State.unreserve_memsplit : (s.unreserve p n).memsplit = s.memsplit := rfl
@[simp] theorem State.unreserve_locked : (s.unreserve p n).locked = s.locked := rfl
@[simp] theorem State.unreserve_ring : (s.unreserve p n).ring = s.ring := rfl
@[simp] theorem State.unreserve_collto : (s.unreserve p n).collto = s.collto := rfl
@[simp] theorem State.unreserve_colls : (s.unreserve p n).colls = s.colls := rfl
@[simp] theorem State.unreserve_collStat : (s.unreserve p n).collStat = s.collStat := rfl
@[simp] theorem State.unreserve_pkg : (s.unreserve p n).pkg = s.pkg := rfl
@[simp] theorem State.unreserve_skyo : (s.unreserve p n).skyo = s.skyo := rfl
@[simp] theorem State.unreserve_lastRead : (s.unreserve p n).lastRead = s.lastRead := rfl
@[simp] theorem State.unreserve_arrivals : (s.unreserve p n).arrivals = s.arrivals := rfl
@[simp] theorem State.unreserve_hostUr : (s.unreserve p n).hostUr = s.hostUr := rfl
@[simp] theorem State.unreserve_harts : (s.unreserve p n).harts = s.harts := rfl
@[simp] theorem State.unreserve_icache : (s.unreserve p n).icache = s.icache := rfl

@[simp] theorem State.putMem_mem (bs : List Byte) : (s.putMem p bs).mem = Memory.store s.mem p bs := rfl
@[simp] theorem State.putMem_cores (bs : List Byte) : (s.putMem p bs).cores = s.cores := rfl
@[simp] theorem State.putMem_agenda (bs : List Byte) : (s.putMem p bs).agenda = s.agenda := rfl
@[simp] theorem State.putMem_focus (bs : List Byte) : (s.putMem p bs).focus = s.focus := rfl
@[simp] theorem State.putMem_freeIx (bs : List Byte) : (s.putMem p bs).freeIx = s.freeIx := rfl
@[simp] theorem State.putMem_tick (bs : List Byte) : (s.putMem p bs).tick = s.tick := rfl
@[simp] theorem State.putMem_clusters (bs : List Byte) : (s.putMem p bs).clusters = s.clusters := rfl
@[simp] theorem State.putMem_dies (bs : List Byte) : (s.putMem p bs).dies = s.dies := rfl
@[simp] theorem State.putMem_parts (bs : List Byte) : (s.putMem p bs).parts = s.parts := rfl
@[simp] theorem State.putMem_memsplit (bs : List Byte) : (s.putMem p bs).memsplit = s.memsplit := rfl
@[simp] theorem State.putMem_locked (bs : List Byte) : (s.putMem p bs).locked = s.locked := rfl
@[simp] theorem State.putMem_ring (bs : List Byte) : (s.putMem p bs).ring = s.ring := rfl
@[simp] theorem State.putMem_collto (bs : List Byte) : (s.putMem p bs).collto = s.collto := rfl
@[simp] theorem State.putMem_colls (bs : List Byte) : (s.putMem p bs).colls = s.colls := rfl
@[simp] theorem State.putMem_collStat (bs : List Byte) : (s.putMem p bs).collStat = s.collStat := rfl
@[simp] theorem State.putMem_pkg (bs : List Byte) : (s.putMem p bs).pkg = s.pkg := rfl
@[simp] theorem State.putMem_skyo (bs : List Byte) : (s.putMem p bs).skyo = s.skyo := rfl
@[simp] theorem State.putMem_lastRead (bs : List Byte) : (s.putMem p bs).lastRead = s.lastRead := rfl
@[simp] theorem State.putMem_arrivals (bs : List Byte) : (s.putMem p bs).arrivals = s.arrivals := rfl
@[simp] theorem State.putMem_hostUr (bs : List Byte) : (s.putMem p bs).hostUr = s.hostUr := rfl
@[simp] theorem State.putMem_harts (bs : List Byte) : (s.putMem p bs).harts = s.harts := rfl
@[simp] theorem State.putMem_icache (bs : List Byte) : (s.putMem p bs).icache = s.icache := rfl

@[simp] theorem State.setPage_agenda (a e : Nat) : (s.setPage p a e).agenda = s.agenda := rfl
@[simp] theorem State.setPage_focus (a e : Nat) : (s.setPage p a e).focus = s.focus := rfl
@[simp] theorem State.setPage_freeIx (a e : Nat) : (s.setPage p a e).freeIx = s.freeIx := rfl
@[simp] theorem State.setPage_tick (a e : Nat) : (s.setPage p a e).tick = s.tick := rfl
@[simp] theorem State.setPage_mem (a e : Nat) : (s.setPage p a e).mem = s.mem := rfl
@[simp] theorem State.setPage_cores (a e : Nat) : (s.setPage p a e).cores = s.cores := rfl
@[simp] theorem State.setPage_clusters (a e : Nat) : (s.setPage p a e).clusters = s.clusters := rfl
@[simp] theorem State.setPage_dies (a e : Nat) : (s.setPage p a e).dies = s.dies := rfl
@[simp] theorem State.setPage_memsplit (a e : Nat) : (s.setPage p a e).memsplit = s.memsplit := rfl
@[simp] theorem State.setPage_locked (a e : Nat) : (s.setPage p a e).locked = s.locked := rfl
@[simp] theorem State.setPage_ring (a e : Nat) : (s.setPage p a e).ring = s.ring := rfl
@[simp] theorem State.setPage_collto (a e : Nat) : (s.setPage p a e).collto = s.collto := rfl
@[simp] theorem State.setPage_colls (a e : Nat) : (s.setPage p a e).colls = s.colls := rfl
@[simp] theorem State.setPage_collStat (a e : Nat) : (s.setPage p a e).collStat = s.collStat := rfl
@[simp] theorem State.setPage_pkg (a e : Nat) : (s.setPage p a e).pkg = s.pkg := rfl
@[simp] theorem State.setPage_skyo (a e : Nat) : (s.setPage p a e).skyo = s.skyo := rfl
@[simp] theorem State.setPage_lastRead (a e : Nat) : (s.setPage p a e).lastRead = s.lastRead := rfl
@[simp] theorem State.setPage_arrivals (a e : Nat) : (s.setPage p a e).arrivals = s.arrivals := rfl
@[simp] theorem State.setPage_hostUr (a e : Nat) : (s.setPage p a e).hostUr = s.hostUr := rfl
@[simp] theorem State.setPage_harts (a e : Nat) : (s.setPage p a e).harts = s.harts := rfl
@[simp] theorem State.setPage_icache (a e : Nat) : (s.setPage p a e).icache = s.icache := rfl
@[simp] theorem State.setPage_resvs (a e : Nat) : (s.setPage p a e).resvs = s.resvs := rfl

@[simp] theorem State.issue_agenda (ctl : BitVec 2) (x : Nat) (pc : Word) (f : Strand → Strand) : (s.issue ctl x pc f).agenda = s.agenda := rfl
@[simp] theorem State.issue_focus (ctl : BitVec 2) (x : Nat) (pc : Word) (f : Strand → Strand) : (s.issue ctl x pc f).focus = s.focus := rfl
@[simp] theorem State.issue_freeIx (ctl : BitVec 2) (x : Nat) (pc : Word) (f : Strand → Strand) : (s.issue ctl x pc f).freeIx = s.freeIx := rfl
@[simp] theorem State.issue_tick (ctl : BitVec 2) (x : Nat) (pc : Word) (f : Strand → Strand) : (s.issue ctl x pc f).tick = s.tick := rfl
@[simp] theorem State.issue_mem (ctl : BitVec 2) (x : Nat) (pc : Word) (f : Strand → Strand) : (s.issue ctl x pc f).mem = s.mem := rfl
@[simp] theorem State.issue_clusters (ctl : BitVec 2) (x : Nat) (pc : Word) (f : Strand → Strand) : (s.issue ctl x pc f).clusters = s.clusters := rfl
@[simp] theorem State.issue_dies (ctl : BitVec 2) (x : Nat) (pc : Word) (f : Strand → Strand) : (s.issue ctl x pc f).dies = s.dies := rfl
@[simp] theorem State.issue_parts (ctl : BitVec 2) (x : Nat) (pc : Word) (f : Strand → Strand) : (s.issue ctl x pc f).parts = s.parts := rfl
@[simp] theorem State.issue_memsplit (ctl : BitVec 2) (x : Nat) (pc : Word) (f : Strand → Strand) : (s.issue ctl x pc f).memsplit = s.memsplit := rfl
@[simp] theorem State.issue_locked (ctl : BitVec 2) (x : Nat) (pc : Word) (f : Strand → Strand) : (s.issue ctl x pc f).locked = s.locked := rfl
@[simp] theorem State.issue_ring (ctl : BitVec 2) (x : Nat) (pc : Word) (f : Strand → Strand) : (s.issue ctl x pc f).ring = s.ring := rfl
@[simp] theorem State.issue_collto (ctl : BitVec 2) (x : Nat) (pc : Word) (f : Strand → Strand) : (s.issue ctl x pc f).collto = s.collto := rfl
@[simp] theorem State.issue_colls (ctl : BitVec 2) (x : Nat) (pc : Word) (f : Strand → Strand) : (s.issue ctl x pc f).colls = s.colls := rfl
@[simp] theorem State.issue_collStat (ctl : BitVec 2) (x : Nat) (pc : Word) (f : Strand → Strand) : (s.issue ctl x pc f).collStat = s.collStat := rfl
@[simp] theorem State.issue_pkg (ctl : BitVec 2) (x : Nat) (pc : Word) (f : Strand → Strand) : (s.issue ctl x pc f).pkg = s.pkg := rfl
@[simp] theorem State.issue_skyo (ctl : BitVec 2) (x : Nat) (pc : Word) (f : Strand → Strand) : (s.issue ctl x pc f).skyo = s.skyo := rfl
@[simp] theorem State.issue_lastRead (ctl : BitVec 2) (x : Nat) (pc : Word) (f : Strand → Strand) : (s.issue ctl x pc f).lastRead = s.lastRead := rfl
@[simp] theorem State.issue_arrivals (ctl : BitVec 2) (x : Nat) (pc : Word) (f : Strand → Strand) : (s.issue ctl x pc f).arrivals = s.arrivals := rfl
@[simp] theorem State.issue_hostUr (ctl : BitVec 2) (x : Nat) (pc : Word) (f : Strand → Strand) : (s.issue ctl x pc f).hostUr = s.hostUr := rfl
@[simp] theorem State.issue_harts (ctl : BitVec 2) (x : Nat) (pc : Word) (f : Strand → Strand) : (s.issue ctl x pc f).harts = s.harts := rfl
@[simp] theorem State.issue_icache (ctl : BitVec 2) (x : Nat) (pc : Word) (f : Strand → Strand) : (s.issue ctl x pc f).icache = s.icache := rfl
@[simp] theorem State.issue_resvs (ctl : BitVec 2) (x : Nat) (pc : Word) (f : Strand → Strand) : (s.issue ctl x pc f).resvs = s.resvs := rfl

@[simp] theorem State.stopStrand_agenda (st : Stop) : (s.stopStrand c t st).agenda = s.agenda := rfl
@[simp] theorem State.stopStrand_focus (st : Stop) : (s.stopStrand c t st).focus = s.focus := rfl
@[simp] theorem State.stopStrand_freeIx (st : Stop) : (s.stopStrand c t st).freeIx = s.freeIx := rfl
@[simp] theorem State.stopStrand_tick (st : Stop) : (s.stopStrand c t st).tick = s.tick := rfl
@[simp] theorem State.stopStrand_mem (st : Stop) : (s.stopStrand c t st).mem = s.mem := rfl
@[simp] theorem State.stopStrand_clusters (st : Stop) : (s.stopStrand c t st).clusters = s.clusters := rfl
@[simp] theorem State.stopStrand_dies (st : Stop) : (s.stopStrand c t st).dies = s.dies := rfl
@[simp] theorem State.stopStrand_parts (st : Stop) : (s.stopStrand c t st).parts = s.parts := rfl
@[simp] theorem State.stopStrand_memsplit (st : Stop) : (s.stopStrand c t st).memsplit = s.memsplit := rfl
@[simp] theorem State.stopStrand_locked (st : Stop) : (s.stopStrand c t st).locked = s.locked := rfl
@[simp] theorem State.stopStrand_ring (st : Stop) : (s.stopStrand c t st).ring = s.ring := rfl
@[simp] theorem State.stopStrand_collto (st : Stop) : (s.stopStrand c t st).collto = s.collto := rfl
@[simp] theorem State.stopStrand_colls (st : Stop) : (s.stopStrand c t st).colls = s.colls := rfl
@[simp] theorem State.stopStrand_collStat (st : Stop) : (s.stopStrand c t st).collStat = s.collStat := rfl
@[simp] theorem State.stopStrand_pkg (st : Stop) : (s.stopStrand c t st).pkg = s.pkg := rfl
@[simp] theorem State.stopStrand_skyo (st : Stop) : (s.stopStrand c t st).skyo = s.skyo := rfl
@[simp] theorem State.stopStrand_lastRead (st : Stop) : (s.stopStrand c t st).lastRead = s.lastRead := rfl
@[simp] theorem State.stopStrand_arrivals (st : Stop) : (s.stopStrand c t st).arrivals = s.arrivals := rfl
@[simp] theorem State.stopStrand_hostUr (st : Stop) : (s.stopStrand c t st).hostUr = s.hostUr := rfl
@[simp] theorem State.stopStrand_harts (st : Stop) : (s.stopStrand c t st).harts = s.harts := rfl
@[simp] theorem State.stopStrand_icache (st : Stop) : (s.stopStrand c t st).icache = s.icache := rfl
@[simp] theorem State.stopStrand_resvs (st : Stop) : (s.stopStrand c t st).resvs = s.resvs := rfl

@[simp] theorem State.fixedWord_agenda (i : Instr) (ctl : BitVec 2) (a b : Word) (ra rb : BitVec 5) : (s.fixedWord i ctl a b ra rb).agenda = s.agenda := rfl
@[simp] theorem State.fixedWord_focus (i : Instr) (ctl : BitVec 2) (a b : Word) (ra rb : BitVec 5) : (s.fixedWord i ctl a b ra rb).focus = s.focus := rfl
@[simp] theorem State.fixedWord_freeIx (i : Instr) (ctl : BitVec 2) (a b : Word) (ra rb : BitVec 5) : (s.fixedWord i ctl a b ra rb).freeIx = s.freeIx := rfl
@[simp] theorem State.fixedWord_tick (i : Instr) (ctl : BitVec 2) (a b : Word) (ra rb : BitVec 5) : (s.fixedWord i ctl a b ra rb).tick = s.tick := rfl
@[simp] theorem State.fixedWord_mem (i : Instr) (ctl : BitVec 2) (a b : Word) (ra rb : BitVec 5) : (s.fixedWord i ctl a b ra rb).mem = s.mem := rfl
@[simp] theorem State.fixedWord_clusters (i : Instr) (ctl : BitVec 2) (a b : Word) (ra rb : BitVec 5) : (s.fixedWord i ctl a b ra rb).clusters = s.clusters := rfl
@[simp] theorem State.fixedWord_dies (i : Instr) (ctl : BitVec 2) (a b : Word) (ra rb : BitVec 5) : (s.fixedWord i ctl a b ra rb).dies = s.dies := rfl
@[simp] theorem State.fixedWord_parts (i : Instr) (ctl : BitVec 2) (a b : Word) (ra rb : BitVec 5) : (s.fixedWord i ctl a b ra rb).parts = s.parts := rfl
@[simp] theorem State.fixedWord_memsplit (i : Instr) (ctl : BitVec 2) (a b : Word) (ra rb : BitVec 5) : (s.fixedWord i ctl a b ra rb).memsplit = s.memsplit := rfl
@[simp] theorem State.fixedWord_locked (i : Instr) (ctl : BitVec 2) (a b : Word) (ra rb : BitVec 5) : (s.fixedWord i ctl a b ra rb).locked = s.locked := rfl
@[simp] theorem State.fixedWord_ring (i : Instr) (ctl : BitVec 2) (a b : Word) (ra rb : BitVec 5) : (s.fixedWord i ctl a b ra rb).ring = s.ring := rfl
@[simp] theorem State.fixedWord_collto (i : Instr) (ctl : BitVec 2) (a b : Word) (ra rb : BitVec 5) : (s.fixedWord i ctl a b ra rb).collto = s.collto := rfl
@[simp] theorem State.fixedWord_colls (i : Instr) (ctl : BitVec 2) (a b : Word) (ra rb : BitVec 5) : (s.fixedWord i ctl a b ra rb).colls = s.colls := rfl
@[simp] theorem State.fixedWord_collStat (i : Instr) (ctl : BitVec 2) (a b : Word) (ra rb : BitVec 5) : (s.fixedWord i ctl a b ra rb).collStat = s.collStat := rfl
@[simp] theorem State.fixedWord_pkg (i : Instr) (ctl : BitVec 2) (a b : Word) (ra rb : BitVec 5) : (s.fixedWord i ctl a b ra rb).pkg = s.pkg := rfl
@[simp] theorem State.fixedWord_skyo (i : Instr) (ctl : BitVec 2) (a b : Word) (ra rb : BitVec 5) : (s.fixedWord i ctl a b ra rb).skyo = s.skyo := rfl
@[simp] theorem State.fixedWord_lastRead (i : Instr) (ctl : BitVec 2) (a b : Word) (ra rb : BitVec 5) : (s.fixedWord i ctl a b ra rb).lastRead = s.lastRead := rfl
@[simp] theorem State.fixedWord_arrivals (i : Instr) (ctl : BitVec 2) (a b : Word) (ra rb : BitVec 5) : (s.fixedWord i ctl a b ra rb).arrivals = s.arrivals := rfl
@[simp] theorem State.fixedWord_hostUr (i : Instr) (ctl : BitVec 2) (a b : Word) (ra rb : BitVec 5) : (s.fixedWord i ctl a b ra rb).hostUr = s.hostUr := rfl
@[simp] theorem State.fixedWord_harts (i : Instr) (ctl : BitVec 2) (a b : Word) (ra rb : BitVec 5) : (s.fixedWord i ctl a b ra rb).harts = s.harts := rfl
@[simp] theorem State.fixedWord_icache (i : Instr) (ctl : BitVec 2) (a b : Word) (ra rb : BitVec 5) : (s.fixedWord i ctl a b ra rb).icache = s.icache := rfl
@[simp] theorem State.fixedWord_resvs (i : Instr) (ctl : BitVec 2) (a b : Word) (ra rb : BitVec 5) : (s.fixedWord i ctl a b ra rb).resvs = s.resvs := rfl

@[simp] theorem State.faultWord_agenda (i : Instr) (ctl : BitVec 2) (pc : Word) (w : Trouble) (a b : Word) (lk : Links) : (s.faultWord i ctl pc w a b lk).agenda = s.agenda := rfl
@[simp] theorem State.faultWord_focus (i : Instr) (ctl : BitVec 2) (pc : Word) (w : Trouble) (a b : Word) (lk : Links) : (s.faultWord i ctl pc w a b lk).focus = s.focus := rfl
@[simp] theorem State.faultWord_freeIx (i : Instr) (ctl : BitVec 2) (pc : Word) (w : Trouble) (a b : Word) (lk : Links) : (s.faultWord i ctl pc w a b lk).freeIx = s.freeIx := rfl
@[simp] theorem State.faultWord_tick (i : Instr) (ctl : BitVec 2) (pc : Word) (w : Trouble) (a b : Word) (lk : Links) : (s.faultWord i ctl pc w a b lk).tick = s.tick := rfl
@[simp] theorem State.faultWord_mem (i : Instr) (ctl : BitVec 2) (pc : Word) (w : Trouble) (a b : Word) (lk : Links) : (s.faultWord i ctl pc w a b lk).mem = s.mem := rfl
@[simp] theorem State.faultWord_clusters (i : Instr) (ctl : BitVec 2) (pc : Word) (w : Trouble) (a b : Word) (lk : Links) : (s.faultWord i ctl pc w a b lk).clusters = s.clusters := rfl
@[simp] theorem State.faultWord_dies (i : Instr) (ctl : BitVec 2) (pc : Word) (w : Trouble) (a b : Word) (lk : Links) : (s.faultWord i ctl pc w a b lk).dies = s.dies := rfl
@[simp] theorem State.faultWord_parts (i : Instr) (ctl : BitVec 2) (pc : Word) (w : Trouble) (a b : Word) (lk : Links) : (s.faultWord i ctl pc w a b lk).parts = s.parts := rfl
@[simp] theorem State.faultWord_memsplit (i : Instr) (ctl : BitVec 2) (pc : Word) (w : Trouble) (a b : Word) (lk : Links) : (s.faultWord i ctl pc w a b lk).memsplit = s.memsplit := rfl
@[simp] theorem State.faultWord_locked (i : Instr) (ctl : BitVec 2) (pc : Word) (w : Trouble) (a b : Word) (lk : Links) : (s.faultWord i ctl pc w a b lk).locked = s.locked := rfl
@[simp] theorem State.faultWord_ring (i : Instr) (ctl : BitVec 2) (pc : Word) (w : Trouble) (a b : Word) (lk : Links) : (s.faultWord i ctl pc w a b lk).ring = s.ring := rfl
@[simp] theorem State.faultWord_collto (i : Instr) (ctl : BitVec 2) (pc : Word) (w : Trouble) (a b : Word) (lk : Links) : (s.faultWord i ctl pc w a b lk).collto = s.collto := rfl
@[simp] theorem State.faultWord_colls (i : Instr) (ctl : BitVec 2) (pc : Word) (w : Trouble) (a b : Word) (lk : Links) : (s.faultWord i ctl pc w a b lk).colls = s.colls := rfl
@[simp] theorem State.faultWord_collStat (i : Instr) (ctl : BitVec 2) (pc : Word) (w : Trouble) (a b : Word) (lk : Links) : (s.faultWord i ctl pc w a b lk).collStat = s.collStat := rfl
@[simp] theorem State.faultWord_pkg (i : Instr) (ctl : BitVec 2) (pc : Word) (w : Trouble) (a b : Word) (lk : Links) : (s.faultWord i ctl pc w a b lk).pkg = s.pkg := rfl
@[simp] theorem State.faultWord_skyo (i : Instr) (ctl : BitVec 2) (pc : Word) (w : Trouble) (a b : Word) (lk : Links) : (s.faultWord i ctl pc w a b lk).skyo = s.skyo := rfl
@[simp] theorem State.faultWord_lastRead (i : Instr) (ctl : BitVec 2) (pc : Word) (w : Trouble) (a b : Word) (lk : Links) : (s.faultWord i ctl pc w a b lk).lastRead = s.lastRead := rfl
@[simp] theorem State.faultWord_arrivals (i : Instr) (ctl : BitVec 2) (pc : Word) (w : Trouble) (a b : Word) (lk : Links) : (s.faultWord i ctl pc w a b lk).arrivals = s.arrivals := rfl
@[simp] theorem State.faultWord_hostUr (i : Instr) (ctl : BitVec 2) (pc : Word) (w : Trouble) (a b : Word) (lk : Links) : (s.faultWord i ctl pc w a b lk).hostUr = s.hostUr := rfl
@[simp] theorem State.faultWord_harts (i : Instr) (ctl : BitVec 2) (pc : Word) (w : Trouble) (a b : Word) (lk : Links) : (s.faultWord i ctl pc w a b lk).harts = s.harts := rfl
@[simp] theorem State.faultWord_icache (i : Instr) (ctl : BitVec 2) (pc : Word) (w : Trouble) (a b : Word) (lk : Links) : (s.faultWord i ctl pc w a b lk).icache = s.icache := rfl
@[simp] theorem State.faultWord_resvs (i : Instr) (ctl : BitVec 2) (pc : Word) (w : Trouble) (a b : Word) (lk : Links) : (s.faultWord i ctl pc w a b lk).resvs = s.resvs := rfl

@[simp] theorem State.stopWord_agenda (ctl : BitVec 2) (pc : Word) (w : Cause) (tn : BitVec 14) : (s.stopWord ctl pc w tn).agenda = s.agenda := rfl
@[simp] theorem State.stopWord_focus (ctl : BitVec 2) (pc : Word) (w : Cause) (tn : BitVec 14) : (s.stopWord ctl pc w tn).focus = s.focus := rfl
@[simp] theorem State.stopWord_freeIx (ctl : BitVec 2) (pc : Word) (w : Cause) (tn : BitVec 14) : (s.stopWord ctl pc w tn).freeIx = s.freeIx := rfl
@[simp] theorem State.stopWord_tick (ctl : BitVec 2) (pc : Word) (w : Cause) (tn : BitVec 14) : (s.stopWord ctl pc w tn).tick = s.tick := rfl
@[simp] theorem State.stopWord_mem (ctl : BitVec 2) (pc : Word) (w : Cause) (tn : BitVec 14) : (s.stopWord ctl pc w tn).mem = s.mem := rfl
@[simp] theorem State.stopWord_clusters (ctl : BitVec 2) (pc : Word) (w : Cause) (tn : BitVec 14) : (s.stopWord ctl pc w tn).clusters = s.clusters := rfl
@[simp] theorem State.stopWord_dies (ctl : BitVec 2) (pc : Word) (w : Cause) (tn : BitVec 14) : (s.stopWord ctl pc w tn).dies = s.dies := rfl
@[simp] theorem State.stopWord_parts (ctl : BitVec 2) (pc : Word) (w : Cause) (tn : BitVec 14) : (s.stopWord ctl pc w tn).parts = s.parts := rfl
@[simp] theorem State.stopWord_memsplit (ctl : BitVec 2) (pc : Word) (w : Cause) (tn : BitVec 14) : (s.stopWord ctl pc w tn).memsplit = s.memsplit := rfl
@[simp] theorem State.stopWord_locked (ctl : BitVec 2) (pc : Word) (w : Cause) (tn : BitVec 14) : (s.stopWord ctl pc w tn).locked = s.locked := rfl
@[simp] theorem State.stopWord_ring (ctl : BitVec 2) (pc : Word) (w : Cause) (tn : BitVec 14) : (s.stopWord ctl pc w tn).ring = s.ring := rfl
@[simp] theorem State.stopWord_collto (ctl : BitVec 2) (pc : Word) (w : Cause) (tn : BitVec 14) : (s.stopWord ctl pc w tn).collto = s.collto := rfl
@[simp] theorem State.stopWord_colls (ctl : BitVec 2) (pc : Word) (w : Cause) (tn : BitVec 14) : (s.stopWord ctl pc w tn).colls = s.colls := rfl
@[simp] theorem State.stopWord_collStat (ctl : BitVec 2) (pc : Word) (w : Cause) (tn : BitVec 14) : (s.stopWord ctl pc w tn).collStat = s.collStat := rfl
@[simp] theorem State.stopWord_pkg (ctl : BitVec 2) (pc : Word) (w : Cause) (tn : BitVec 14) : (s.stopWord ctl pc w tn).pkg = s.pkg := rfl
@[simp] theorem State.stopWord_skyo (ctl : BitVec 2) (pc : Word) (w : Cause) (tn : BitVec 14) : (s.stopWord ctl pc w tn).skyo = s.skyo := rfl
@[simp] theorem State.stopWord_lastRead (ctl : BitVec 2) (pc : Word) (w : Cause) (tn : BitVec 14) : (s.stopWord ctl pc w tn).lastRead = s.lastRead := rfl
@[simp] theorem State.stopWord_arrivals (ctl : BitVec 2) (pc : Word) (w : Cause) (tn : BitVec 14) : (s.stopWord ctl pc w tn).arrivals = s.arrivals := rfl
@[simp] theorem State.stopWord_hostUr (ctl : BitVec 2) (pc : Word) (w : Cause) (tn : BitVec 14) : (s.stopWord ctl pc w tn).hostUr = s.hostUr := rfl
@[simp] theorem State.stopWord_harts (ctl : BitVec 2) (pc : Word) (w : Cause) (tn : BitVec 14) : (s.stopWord ctl pc w tn).harts = s.harts := rfl
@[simp] theorem State.stopWord_icache (ctl : BitVec 2) (pc : Word) (w : Cause) (tn : BitVec 14) : (s.stopWord ctl pc w tn).icache = s.icache := rfl
@[simp] theorem State.stopWord_resvs (ctl : BitVec 2) (pc : Word) (w : Cause) (tn : BitVec 14) : (s.stopWord ctl pc w tn).resvs = s.resvs := rfl

@[simp] theorem State.acquire_agenda : (s.acquire c n).agenda = s.agenda := by unfold State.acquire; split <;> rfl
@[simp] theorem State.acquire_focus : (s.acquire c n).focus = s.focus := by unfold State.acquire; split <;> rfl
@[simp] theorem State.acquire_freeIx : (s.acquire c n).freeIx = s.freeIx := by unfold State.acquire; split <;> rfl
@[simp] theorem State.acquire_tick : (s.acquire c n).tick = s.tick := by unfold State.acquire; split <;> rfl
@[simp] theorem State.acquire_mem : (s.acquire c n).mem = s.mem := by unfold State.acquire; split <;> rfl
@[simp] theorem State.acquire_cores : (s.acquire c n).cores = s.cores := by unfold State.acquire; split <;> rfl
@[simp] theorem State.acquire_dies : (s.acquire c n).dies = s.dies := by unfold State.acquire; split <;> rfl
@[simp] theorem State.acquire_parts : (s.acquire c n).parts = s.parts := by unfold State.acquire; split <;> rfl
@[simp] theorem State.acquire_memsplit : (s.acquire c n).memsplit = s.memsplit := by unfold State.acquire; split <;> rfl
@[simp] theorem State.acquire_locked : (s.acquire c n).locked = s.locked := by unfold State.acquire; split <;> rfl
@[simp] theorem State.acquire_ring : (s.acquire c n).ring = s.ring := by unfold State.acquire; split <;> rfl
@[simp] theorem State.acquire_collto : (s.acquire c n).collto = s.collto := by unfold State.acquire; split <;> rfl
@[simp] theorem State.acquire_colls : (s.acquire c n).colls = s.colls := by unfold State.acquire; split <;> rfl
@[simp] theorem State.acquire_collStat : (s.acquire c n).collStat = s.collStat := by unfold State.acquire; split <;> rfl
@[simp] theorem State.acquire_pkg : (s.acquire c n).pkg = s.pkg := by unfold State.acquire; split <;> rfl
@[simp] theorem State.acquire_skyo : (s.acquire c n).skyo = s.skyo := by unfold State.acquire; split <;> rfl
@[simp] theorem State.acquire_lastRead : (s.acquire c n).lastRead = s.lastRead := by unfold State.acquire; split <;> rfl
@[simp] theorem State.acquire_arrivals : (s.acquire c n).arrivals = s.arrivals := by unfold State.acquire; split <;> rfl
@[simp] theorem State.acquire_hostUr : (s.acquire c n).hostUr = s.hostUr := by unfold State.acquire; split <;> rfl
@[simp] theorem State.acquire_harts : (s.acquire c n).harts = s.harts := by unfold State.acquire; split <;> rfl
@[simp] theorem State.acquire_icache : (s.acquire c n).icache = s.icache := by unfold State.acquire; split <;> rfl
@[simp] theorem State.acquire_resvs : (s.acquire c n).resvs = s.resvs := by unfold State.acquire; split <;> rfl

-- Cores

@[simp] theorem State.core_setCore_same (k : Core) : (s.setCore c k).core c = k := Sparse.get_put_same _ _ _ _
theorem State.core_setCore_ne {c d : Nat} (k : Core) (h : d ≠ c) : (s.setCore c k).core d = s.core d :=
  Sparse.get_put_ne _ _ _ h
@[simp] theorem State.core_onCore_same (f : Core → Core) : (s.onCore c f).core c = f (s.core c) :=
  Sparse.get_put_same _ _ _ _
theorem State.core_onCore_ne {c d : Nat} (f : Core → Core) (h : d ≠ c) : (s.onCore c f).core d = s.core d :=
  Sparse.get_put_ne _ _ _ h
@[simp] theorem State.core_onCluster (f : Cluster → Cluster) : (s.onCluster c f).core d = s.core d := rfl
@[simp] theorem State.core_onPart (f : Partition → Partition) : (s.onPart p f).core d = s.core d := rfl
@[simp] theorem State.core_onDie (f : Die → Die) : (s.onDie d f).core c = s.core c := rfl
@[simp] theorem State.core_setEvent (e : Event) : (s.setEvent p n e).core c = s.core c := rfl
@[simp] theorem State.core_setRecField (i off v : Nat) : (s.setRecField p i off n v).core c = s.core c := rfl
@[simp] theorem State.core_unreserve : (s.unreserve p n).core c = s.core c := rfl
@[simp] theorem State.core_putMem (bs : List Byte) : (s.putMem p bs).core c = s.core c := rfl
@[simp] theorem State.core_acquire : (s.acquire c n).core d = s.core d := by unfold State.acquire; split <;> rfl

-- Strands

theorem vget_eq {α : Type} {n : Nat} (v : Vector α n) (d : α) (i : Nat) (h : i < n) : vget v d i = v[i] := by
  simp [vget, Vector.getD, h]

@[simp] theorem vget_vset_same {α : Type} {n : Nat} (v : Vector α n) (d x : α) (i : Nat) (h : i < n) :
    vget (vset v i x) d i = x := by
  simp [vget, vset, Vector.getD, h]

theorem vget_vset_ne {α : Type} {n : Nat} (v : Vector α n) (d x : α) {i j : Nat} (h : j ≠ i) :
    vget (vset v i x) d j = vget v d j := by
  by_cases hj : j < n
  · rw [vget_eq _ _ _ hj, vget_eq _ _ _ hj]
    exact Vector.getElem_setIfInBounds_ne hj (Ne.symm h)
  · simp [vget, Vector.getD, Array.getD, hj]

@[simp] theorem Core.strand_setStrand_same (k : Core) (x : Strand) : (k.setStrand t x).strand t = x :=
  vget_vset_same _ _ _ _ t.isLt
theorem Core.strand_setStrand_ne (k : Core) {t u : BitVec 2} (x : Strand) (h : u ≠ t) :
    (k.setStrand t x).strand u = k.strand u :=
  vget_vset_ne _ _ _ (fun e => h (BitVec.eq_of_toNat_eq e))

@[simp] theorem State.strand_setStrand_same (x : Strand) : (s.setStrand c t x).strand c t = x := by
  simp [State.setStrand, State.strand]
@[simp] theorem State.strand_onStrand_same (f : Strand → Strand) : (s.onStrand c t f).strand c t = f (s.strand c t) := by
  simp [State.onStrand]
theorem State.strand_setStrand_ne {c d : Nat} {t u : BitVec 2} (x : Strand) (h : d ≠ c ∨ u ≠ t) :
    (s.setStrand c t x).strand d u = s.strand d u := by
  by_cases hc : d = c
  · subst hc
    simp [State.setStrand, State.strand, Core.strand_setStrand_ne _ _ (h.resolve_left (fun e => e rfl))]
  · simp [State.setStrand, State.strand, State.core_onCore_ne _ _ hc]
theorem State.strand_onStrand_ne {c d : Nat} {t u : BitVec 2} (f : Strand → Strand) (h : d ≠ c ∨ u ≠ t) :
    (s.onStrand c t f).strand d u = s.strand d u := State.strand_setStrand_ne s _ h

-- Clusters, dies and partitions

@[simp] theorem State.cluster_onCluster_same (f : Cluster → Cluster) : (s.onCluster c f).cluster c = f (s.cluster c) :=
  Sparse.get_put_same _ _ _ _
theorem State.cluster_onCluster_ne {c d : Nat} (f : Cluster → Cluster) (h : d ≠ c) :
    (s.onCluster c f).cluster d = s.cluster d := Sparse.get_put_ne _ _ _ h
@[simp] theorem State.cluster_onCore (f : Core → Core) : (s.onCore c f).cluster d = s.cluster d := rfl
@[simp] theorem State.cluster_setCore (k : Core) : (s.setCore c k).cluster d = s.cluster d := rfl
@[simp] theorem State.part_onPart_same (f : Partition → Partition) : (s.onPart p f).part p = f (s.part p) :=
  Sparse.get_put_same _ _ _ _
theorem State.part_onPart_ne {p q : Nat} (f : Partition → Partition) (h : q ≠ p) : (s.onPart p f).part q = s.part q :=
  Sparse.get_put_ne _ _ _ h
@[simp] theorem State.part_onCore (f : Core → Core) : (s.onCore c f).part p = s.part p := rfl
@[simp] theorem State.part_setCore (k : Core) : (s.setCore c k).part p = s.part p := rfl
@[simp] theorem State.partOf_onCore (f : Core → Core) : (s.onCore c f).partOf d = s.partOf d := rfl
@[simp] theorem State.partOf_setCore (k : Core) : (s.setCore c k).partOf d = s.partOf d := rfl
theorem State.die_onDie_same (f : Die → Die) (h : d < 4) : (s.onDie d f).die d = f (s.die d) := by
  simp [State.onDie, State.die, h]
theorem State.die_onDie_ne {d e : Nat} (f : Die → Die) (h : e ≠ d) : (s.onDie d f).die e = s.die e := by
  simp [State.onDie, State.die, vget_vset_ne _ _ _ h]

-- Events

/-- An event just written (R288); 0xFFFF names none. -/
theorem State.event_setEvent_same (e : Event) (h : n ≠ 0xFFFF) : (s.setEvent p n e).event p n = some e := by
  simp [State.event, State.setEvent, h]
theorem State.event_setEvent_ne {p q n m : Nat} (e : Event) (h : q ≠ p ∨ m ≠ n) :
    (s.setEvent p n e).event q m = s.event q m := by
  unfold State.event State.setEvent
  by_cases hm : m = 0xFFFF
  · simp [hm]
  · simp only [hm, ↓reduceIte]
    by_cases hp : q = p
    · subst hp
      simp [Sparse.get_put_ne _ _ _ (h.resolve_left (fun e => e rfl))]
    · simp [State.part_onPart_ne _ _ hp]

-- Registers

theorem Strand.sreg_zero (x : Strand) : x.sreg 0 = 0 := rfl
/-- A register just written; s0 discards the write (R32). -/
theorem Strand.sreg_setSreg (x : Strand) (r q : BitVec 5) (v : Word) :
    (x.setSreg r v).sreg q = if q = r ∧ r ≠ 0 then v else x.sreg q := by
  by_cases hz : q = 0
  · subst hz
    rw [if_neg (fun h => h.2 h.1.symm)]
    rfl
  · by_cases hr : r = 0
    · rw [if_neg (fun h => h.2 hr)]
      simp only [Strand.setSreg, hr, ↓reduceIte]
    · simp only [Strand.setSreg, Strand.sreg, hz, hr, ↓reduceIte, ne_eq, not_false_eq_true, and_true]
      split
      · rename_i h
        subst h
        exact vget_vset_same _ _ _ _ (BitVec.isLt _)
      · rename_i h
        exact vget_vset_ne _ _ _ (fun e => h (BitVec.eq_of_toNat_eq e))

-- The issue of a word

/-- What an issued word leaves on its own core (R62 to R64). -/
theorem State.core_issue_same (ctl : BitVec 2) (x : Nat) (pc : Word) (f : Strand → Strand) :
    (s.issue ctl x pc f).core s.focus =
      ((s.core s.focus).setStrand s.curStrand ((f s.cur).advance ctl x pc s.tick)).held1 ctl := by
  simp [State.issue, State.cur, State.strand]
theorem State.core_issue_ne {d : Nat} (ctl : BitVec 2) (x : Nat) (pc : Word) (f : Strand → Strand) (h : d ≠ s.focus) :
    (s.issue ctl x pc f).core d = s.core d := by
  simp [State.issue, State.core_onCore_ne _ _ h]
/-- What an issued word leaves of its own strand (R62, R63). -/
@[simp] theorem State.cur_issue (ctl : BitVec 2) (x : Nat) (pc : Word) (f : Strand → Strand) :
    (s.issue ctl x pc f).cur = (f s.cur).advance ctl x pc s.tick := by
  have h := State.core_issue_same s ctl x pc f
  unfold State.cur State.strand State.curStrand at *
  rw [State.issue_focus, h]
  simp [Core.held1, Core.tally, Core.strand, Core.setStrand]
  exact vget_vset_same _ _ _ _ (BitVec.isLt _)

end Sys2Proof.Machine
end

