-- ==== Sys2Proof/Laws/Issue.lean ====
section
/-! SUPPORT. The issue of a word in the terms of Safety.lean: what it changes, and that it changes nothing else. -/
namespace Sys2Proof.Machine

theorem vset_eq {α : Type} {n : Nat} (v : Vector α n) (i : Nat) (x : α) (h : i < n) : vset v i x = v.set i x h := by
  refine Vector.ext (fun j hj => ?_)
  simp [vset, Vector.getElem_setIfInBounds, Vector.getElem_set]

theorem Core.setStrand_eq (k : Core) (t : BitVec 2) (x : Strand) :
    k.setStrand t x = { k with strands := k.strands.set t.toNat x t.isLt } := by
  rw [Core.setStrand, vset_eq _ _ _ t.isLt]

/-- Changing one core changes that core alone. -/
theorem onlyCore_onCore (s : State) (c : Nat) (f : Core → Core) : OnlyCore s (s.onCore c f) c (f (s.core c)) :=
  ⟨State.core_onCore_same s c f, fun _ h => State.core_onCore_ne s f h, rfl⟩

theorem onlyCore_setCore (s : State) (c : Nat) (k : Core) : OnlyCore s (s.setCore c k) c k :=
  ⟨State.core_setCore_same s c k, fun _ h => State.core_setCore_ne s k h, rfl⟩

theorem onlyCore_refl (s : State) (c : Nat) : OnlyCore s s c (s.core c) := ⟨rfl, fun _ _ => rfl, rfl⟩

/-- A second change of the same core. -/
theorem OnlyCore.trans {s t u : State} {c : Nat} {k l : Core} (h : OnlyCore s t c k) (g : OnlyCore t u c l) :
    OnlyCore s u c l := by
  refine ⟨g.1, fun d hd => (g.2.1 d hd).trans (h.2.1 d hd), ?_⟩
  have h3 := h.2.2
  have g3 := g.2.2
  calc { u with cores := s.cores } = { ({ u with cores := t.cores } : State) with cores := s.cores } := rfl
    _ = { t with cores := s.cores } := by rw [g3]
    _ = s := h3

/-- Changing one strand changes it alone. -/
theorem onlyCore_onStrand (s : State) (c : Nat) (t : BitVec 2) (f : Strand → Strand) :
    OnlyCore s (s.onStrand c t f) c
      { s.core c with strands := (s.core c).strands.set t.toNat (f (s.strand c t)) t.isLt } := by
  have h := onlyCore_onCore s c (fun k => k.setStrand t (f (s.strand c t)))
  rwa [Core.setStrand_eq] at h

/-- A change of a core that keeps its scratchpad keeps every byte of storage. -/
theorem sameBytes_of_onlyCore {s t : State} {c : Nat} {k : Core} (h : OnlyCore s t c k) (hk : k.spad = (s.core c).spad) :
    SameBytes s t := by
  intro a
  have hm := congrArg State.mem h.2.2
  change t.mem = s.mem at hm
  unfold State.byteAt
  split
  · rename_i d off _
    split
    · by_cases hd : d = c
      · subst hd
        rw [h.1, hk]
      · rw [h.2.1 d hd]
    · rfl
  · rw [hm]

/-- The core an issued word leaves. -/
theorem issuedCore_eq (s : State) (ctl : BitVec 2) (owe : Nat) (pc : Word) (x : Strand) :
    ((s.core s.focus).setStrand s.curStrand (x.advance ctl owe pc s.tick)).held1 ctl = issuedCore s ctl owe pc x := by
  rw [Core.setStrand_eq]
  simp only [Core.held1, Core.tally, issuedCore, State.curStrand, Strand.advance, gapOf,
    vset_eq _ 0 _ (show 0 < 8 by omega), vget_eq _ _ 0 (show 0 < 8 by omega)]
  rfl

/-- Everything the issue of a word does (R62 to R64). -/
theorem issued_issue (s : State) (ctl : BitVec 2) (owe : Nat) (pc : Word) (f : Strand → Strand) :
    Issued s (s.issue ctl owe pc f) ctl owe pc (f s.cur) := by
  have h : OnlyCore s (s.issue ctl owe pc f) s.focus (issuedCore s ctl owe pc (f s.cur)) := by
    rw [← issuedCore_eq]
    exact onlyCore_onCore s s.focus
      (fun k => (k.setStrand s.curStrand ((f (k.strand s.curStrand)).advance ctl owe pc s.tick)).held1 ctl)
  exact ⟨h, sameBytes_of_onlyCore h rfl⟩

/-- A result put in flight (R17, R66). -/
theorem Strand.fly_eq (x : Strand) (i : Instr) (a b : Word) (lk : Links) (d : Dest) (v : Word)
    (h : fixedResult i a b = some (d, v)) : x.fly i a b lk = inFlight x i d v (fixedLatency i) a b lk := by
  simp only [Strand.fly, h, inFlight]

/-- A fixed-latency word has its result in flight and changes nothing else (R17, R66). -/
theorem issued_fixedWord (s : State) (i : Instr) (ctl : BitVec 2) (a b : Word) (ra rb : BitVec 5) (d : Dest) (v : Word)
    (h : fixedResult i a b = some (d, v)) :
    Issued s (s.fixedWord i ctl a b ra rb) ctl 0 (s.cur.pc + 4)
      (inFlight s.cur i d v (fixedLatency i) a b (s.cur.linkOf ra rb)) := by
  have := issued_issue s ctl 0 s.nextPc (fun x => x.fly i a b (x.linkOf ra rb))
  rwa [Strand.fly_eq _ _ _ _ _ _ _ h] at this

end Sys2Proof.Machine
end

