-- ==== Sys2Proof/Laws/Home.lean ====
section
/-! SUPPORT. Stores of a cluster that reach their homes, in the terms of Safety.lean: everything a release can do. -/
namespace Sys2Proof.Machine

/-- One byte under one store that stands over it. -/
theorem patch_one (a b : Nat) (v : Byte) (bs : List Byte) :
    patch a [v] b bs = [if b ≤ a ∧ a < b + bs.length then bs.getD (a - b) 0 else v] := by
  simp [patch]

/-- The stores under way over one byte leave one byte. -/
theorem overlay_one (l : List Pending) (a : Nat) (v : Byte) : overlay l a [v] = [(overlay l a [v]).headD 0] := by
  induction l generalizing v with
  | nil => rfl
  | cons p l ih =>
    simp only [overlay, List.foldl_cons, patch_one]
    exact ih _

theorem overlay_cons (p : Pending) (l : List Pending) (a : Nat) (v : Byte) :
    overlay (p :: l) a [v] = overlay l a [if p.pa ≤ a ∧ a < p.pa + p.bytes.length then p.bytes.getD (a - p.pa) 0 else v] := by
  rw [← patch_one]
  rfl

/-- A byte that no store under way touches. -/
theorem overlay_untouched (l : List Pending) (a : Nat) (v : Byte) (h : ∀ p ∈ l, ¬ (p.pa ≤ a ∧ a < p.pa + p.bytes.length)) :
    overlay l a [v] = [v] := by
  induction l generalizing v with
  | nil => rfl
  | cons p l ih =>
    rw [overlay_cons, if_neg (h p List.mem_cons_self)]
    exact ih v (fun q hq => h q (List.mem_cons_of_mem _ hq))

/-- Everything a store that reaches its home does: it changes memory, copies of lines in its own cluster's cache, and reservations. -/
theorem reachHome_eq (s : State) (k : Nat) (p : Pending) :
    (s.reachHome k p).mem = Memory.store s.mem p.pa p.bytes
    ∧ { (s.reachHome k p).cluster k with cache := [], past := [] } = { s.cluster k with cache := [], past := [] }
    ∧ (∀ j, j ≠ k → (s.reachHome k p).cluster j = s.cluster j)
    ∧ { s.reachHome k p with mem := s.mem, clusters := s.clusters, resvs := s.resvs } = s := by
  unfold State.reachHome updateLines
  split
  · exact ⟨rfl, rfl, fun _ _ => rfl, rfl⟩
  · refine ⟨rfl, ?_, fun j hj => ?_, rfl⟩
    · rw [State.cluster_onCluster_same]
      rfl
    · rw [State.cluster_onCluster_ne _ _ hj]
      rfl

/-- The same of several, in order. -/
theorem reachAll_eq (l : List Pending) (k : Nat) (s : State) :
    let r := l.foldl (fun s p => s.reachHome k p) s
    (∀ a, Memory.byte r.mem a = (overlay l a [Memory.byte s.mem a]).headD 0)
    ∧ { r.cluster k with cache := [], past := [] } = { s.cluster k with cache := [], past := [] }
    ∧ (∀ j, j ≠ k → r.cluster j = s.cluster j)
    ∧ { r with mem := s.mem, clusters := s.clusters, resvs := s.resvs } = s := by
  induction l generalizing s with
  | nil => exact ⟨fun _ => rfl, rfl, fun _ _ => rfl, rfl⟩
  | cons p l ih =>
    obtain ⟨h1, h2, h3, h4⟩ := reachHome_eq s k p
    obtain ⟨g1, g2, g3, g4⟩ := ih (s.reachHome k p)
    refine ⟨fun a => ?_, g2.trans h2, fun j hj => (g3 j hj).trans (h3 j hj), ?_⟩
    · rw [List.foldl_cons, g1, h1, Memory.byte_store, overlay_cons]
      rfl
    · exact (congrArg (fun u : State => ({ u with mem := s.mem, clusters := s.clusters, resvs := s.resvs } : State)) g4).trans h4

theorem foldl_erase_self (l : List Pending) : l.foldl List.erase l = [] := by
  induction l with
  | nil => rfl
  | cons p l ih => simpa using ih

/-- A byte of storage after a change of memory and clusters alone. -/
theorem byteAt_mem (s r : State) (a : Nat) (h : r.cores = s.cores) :
    r.byteAt a = if (winSplit a).isSome then s.byteAt a else Memory.byte r.mem a := by
  unfold State.byteAt
  split
  · rename_i hw
    simp [State.core, h, hw]
  · rename_i hw
    simp [hw]

/-- Everything the drain of a cluster does: each of its stores has reached its home (R101). -/
theorem released_drainHome (s : State) (c : Nat) : Released s (s.drainHome (c / 8)) c := by
  unfold State.drainHome State.bringHome
  by_cases hp : (s.cluster (c / 8)).pending = []
  · rw [if_pos hp]
    refine ⟨hp, fun a => ?_, rfl, fun _ _ => rfl, rfl⟩
    unfold State.seen
    rw [hp]
    split <;> rfl
  · rw [if_neg hp]
    obtain ⟨h1, h2, h3, h4⟩ := reachAll_eq (s.cluster (c / 8)).pending (c / 8)
      (s.onCluster (c / 8) (fun x => { x with pending := (s.cluster (c / 8)).pending.foldl List.erase x.pending }))
    rw [State.cluster_onCluster_same, foldl_erase_self] at h2
    generalize (s.cluster (c / 8)).pending.foldl _ _ = r at *
    have h5 : r.cores = s.cores := by simpa using congrArg State.cores h4
    refine ⟨?_, fun a => ?_, ?_, fun j hj => ?_, ?_⟩
    · simpa using congrArg Cluster.pending h2
    · rw [byteAt_mem s r a h5, h1]
      unfold State.seen
      split
      · rfl
      · rename_i hw
        simp [byteAt_mem s s a rfl, hw]
    · simpa using congrArg (fun k => ({ k with cache := [], past := [], pending := [] } : Cluster)) h2
    · rw [h3 j hj, State.cluster_onCluster_ne _ _ hj]
    · exact congrArg (fun u : State => ({ u with clusters := s.clusters } : State)) h4

/-- No party of the cluster sees a byte change when its stores reach their homes (R101). -/
theorem Released.homing {s r : State} {c : Nat} (h : Released s r c) : Homing s r (c / 8) := by
  obtain ⟨h1, h2, -, h4, -⟩ := h
  refine ⟨fun a => ?_, fun a ha => ?_, h4⟩
  · unfold State.seen
    rw [h1]
    split
    · rename_i hw
      rw [h2, State.seen, if_pos hw]
    · rename_i hw
      rw [h2, State.seen, if_neg hw]
      rfl
  · rw [h2, State.seen]
    split
    · rfl
    · rw [overlay_untouched]
      · rfl
      · exact fun p hp hr => ha ⟨p, hp, hr⟩

theorem homing_refl (s : State) (k : Nat) : Homing s s k := ⟨fun _ => rfl, fun _ _ => rfl, fun _ _ => rfl⟩

end Sys2Proof.Machine
end

