-- ==== Sys2Proof/Laws/Fences.lean ====
section
/-! SUPPORT. The fences of a strand in the terms of Safety.lean: everything settling them can do. -/
namespace Sys2Proof.Machine

/-- A fence item is a FENCE of one of the four kinds, or no FENCE at all (R99). -/
theorem fence_cases (f : FenceItem) :
    (∃ a sc, f.op = .fence a 0 sc ∨ f.op = .fence a 1 sc ∨ f.op = .fence a 2 sc ∨ f.op = .fence a 3 sc)
    ∨ ∀ a k sc, f.op ≠ .fence a k sc := by
  by_cases h : ∃ a k sc, f.op = .fence a k sc
  · obtain ⟨a, k, sc, h⟩ := h
    have hk : ∀ k : BitVec 2, k = 0 ∨ k = 1 ∨ k = 2 ∨ k = 3 := by decide
    obtain rfl | rfl | rfl | rfl := hk k <;> exact .inl ⟨a, sc, by simp [h]⟩
  · exact .inr (fun a k sc e => h ⟨a, k, sc, e⟩)

theorem all_not (l : List Bool) : l.all (fun e => !e) = !decide (true ∈ l) := by
  induction l with
  | nil => rfl
  | cons b l ih => cases b <;> simp [ih]

theorem isEmpty_eq (l : List Bool) : l.isEmpty = decide (l = []) := by cases l <;> rfl

theorem acquireScope_eq (f : FenceItem) : acquireScope f = fenceAcquire f.op := by
  unfold acquireScope fenceAcquire
  obtain ⟨a, sc, h | h | h | h⟩ | h := fence_cases f
  · rw [h]; rfl
  · rw [h]; rfl
  · rw [h]; rfl
  · rw [h]; rfl
  · split <;> simp_all

theorem releaseScope_eq (f : FenceItem) : releaseScope f = fenceRelease f.op := by
  unfold releaseScope fenceRelease
  obtain ⟨a, sc, h | h | h | h⟩ | h := fence_cases f
  · rw [h]; rfl
  · rw [h]; rfl
  · rw [h]; rfl
  · rw [h]; rfl
  · split <;> simp_all

theorem stays_eq (x : Strand) (f : FenceItem) : stays x f = !x.fenceRetires f := by
  unfold stays Strand.fenceRetires fenceKind
  rw [all_not, isEmpty_eq]
  obtain ⟨a, sc, h | h | h | h⟩ | h := fence_cases f
  · rw [h]; simp
  · rw [h]; simp
  · rw [h]; simp
  · rw [h]; simp
  · split <;> simp_all

theorem fires_iff (x : Strand) (f : FenceItem) : fires x f ↔ x.fenceFires f = true := by
  unfold fires Strand.fenceFires fenceKind
  rw [all_not, isEmpty_eq]
  obtain ⟨a, sc, h | h | h | h⟩ | h := fence_cases f
  · rw [h]; simp
  · rw [h]; simp
  · rw [h]; simp
  · rw [h]; simp
  · split <;> simp_all

theorem fires_of_retires (x : Strand) (f : FenceItem) (h : x.fenceRetires f = true) : x.fenceFires f = true := by
  unfold Strand.fenceRetires at h
  unfold Strand.fenceFires
  split at h
  · rename_i h0
    simpa [h0] using h
  · split <;> simp_all

/-- The widest scope of some fences is at least k exactly when that of one of them is. -/
theorem foldl_max (k : Nat) (l : List FenceItem) (g : FenceItem → Nat) (m : Nat) :
    k ≤ l.foldl (fun m f => max m (g f)) m ↔ k ≤ m ∨ ∃ f ∈ l, k ≤ g f := by
  induction l generalizing m with
  | nil => simp
  | cons f l ih =>
    rw [List.foldl_cons, ih]
    simp only [List.mem_cons, exists_eq_or_imp, ← or_assoc]
    refine or_congr ?_ Iff.rfl
    omega

/-- Homing looks at the bytes of storage and at the clusters alone. -/
theorem Homing.congr {s s' u u' : State} {k : Nat} (h : Homing s u k) (hs : SameBytes s s') (hu : SameBytes u u')
    (hps : (s'.cluster k).pending = (s.cluster k).pending) (hpu : (u'.cluster k).pending = (u.cluster k).pending)
    (hcs : ∀ j, j ≠ k → s'.cluster j = s.cluster j) (hcu : ∀ j, j ≠ k → u'.cluster j = u.cluster j) : Homing s' u' k := by
  have seen_eq : ∀ {a b : State}, SameBytes a b → (b.cluster k).pending = (a.cluster k).pending → ∀ n, b.seen k n = a.seen k n := by
    intro a b hb hp n
    unfold State.seen
    rw [hb, hp]
  refine ⟨fun a => ?_, fun a ha => ?_, fun j hj => ?_⟩
  · rw [seen_eq hu hpu, seen_eq hs hps, h.1]
  · rw [hu, hs]
    refine h.2.1 a (fun hn => ha ?_)
    unfold onTheWay at hn ⊢
    rwa [hps]
  · rw [hcu j hj, hcs j hj, h.2.2 j hj]

theorem SameBytes.trans {s t u : State} (h : SameBytes s t) (g : SameBytes t u) : SameBytes s u :=
  fun a => (g a).trans (h a)

theorem sameBytes_onStrand (s : State) (c : Nat) (t : BitVec 2) (f : Strand → Strand) : SameBytes s (s.onStrand c t f) :=
  sameBytes_of_onlyCore (onlyCore_onStrand s c t f) rfl

theorem sameBytes_acquire (s : State) (c n : Nat) : SameBytes s (s.acquire c n) := by
  intro a
  rw [byteAt_mem s _ a (by simp), State.acquire_mem, ← byteAt_mem s s a rfl]

/-- Everything a release does (R101): at die scope or wider the cluster's stores have reached their homes. -/
theorem release_eq (s : State) (c n : Nat) :
    (3 ≤ n → Released s (s.release c n) c) ∧ (¬ 3 ≤ n → s.release c n = s) := by
  unfold State.release
  exact ⟨fun h => by rw [if_pos h]; exact released_drainHome s c, fun h => if_neg h⟩

/-- What settling the fences of a strand does to a machine whose strand has just become f of itself (R92, R99, R101): a fence stays
while it has something to wait for, and an acquire or a release at die scope has its effect on the cluster. -/
theorem performed_settle (mid : State) (c : Nat) (t : BitVec 2) (f : Strand → Strand) :
    Performed mid ((mid.onStrand c t f).settleFences c t) c t (f (mid.strand c t)) := by
  unfold State.settleFences
  rw [State.strand_onStrand_same]
  generalize hy : f (mid.strand c t) = y
  simp only []
  generalize hn : (List.filter (fun g => !g.fired && y.fenceFires g) y.fences).foldl _ _ = n
  generalize hm : (List.filter _ _).foldl _ _ = m
  have hacq : 3 ≤ n ↔ ∃ g ∈ y.fences, g.fired = false ∧ fires y g ∧ 3 ≤ acquireScope g := by
    rw [← hn, foldl_max]
    simp [List.mem_filter, fires_iff, acquireScope_eq, and_assoc]
  have hout : ∀ j, 1 ≤ j → (j ≤ m ↔ ∃ g ∈ y.fences, stays y g = false ∧ j ≤ releaseScope g) := by
    intro j hj
    rw [← hm, foldl_max]
    simp only [List.mem_filter, stays_eq, releaseScope_eq, and_assoc, false_or, Bool.not_eq_false',
      Bool.and_eq_true, Bool.or_eq_true, show ¬ (j ≤ 0) by omega]
    refine exists_congr (fun g => and_congr_right (fun _ => ⟨fun h => h.2, fun h => ⟨.inr (fires_of_retires y g h.1), h⟩⟩))
  have hrel := hout 3 (by omega)
  clear hn hm
  obtain ⟨hr1, hr2⟩ := release_eq (mid.onStrand c t f) c m
  have hcores : ((mid.onStrand c t f).release c m).cores = (mid.onStrand c t f).cores := by
    by_cases h3 : 3 ≤ m
    · simpa using congrArg State.cores (hr1 h3).2.2.2.2
    · rw [hr2 h3]
  have hx : ∀ d r, (((mid.onStrand c t f).release c m).acquire c n).strand d r = (mid.onStrand c t f).strand d r := by
    intro d r
    rw [State.strand, State.core_acquire, State.core, hcores]
    rfl
  have hk : ∀ d, (((mid.onStrand c t f).release c m).acquire c n).core d = (mid.onStrand c t f).core d := by
    intro d
    rw [State.core_acquire, State.core, hcores]
    rfl
  refine ⟨⟨(y.fences.map (fun g => { g with fired := g.fired || y.fenceFires g })).filter
      (fun g => !(g.fired && y.fenceRetires g)),
      if 1 ≤ m then ((((mid.onStrand c t f).release c m).acquire c n).cluster (clusterOf c)).epoch else y.since, ?_, ?_, ?_, ?_⟩, ?_, ?_, ?_, ?_, ?_, ?_, ?_⟩
  · rw [State.strand_onStrand_same, hx, State.strand_onStrand_same, hy]
  · rw [List.filter_map, List.map_map]
    congr 1
    refine List.filter_congr (fun g _ => ?_)
    simp only [Function.comp, stays_eq]
    have h1 := fires_of_retires y g
    have h2 : y.fenceRetires { g with fired := g.fired || y.fenceFires g } = y.fenceRetires g := rfl
    rw [h2]
    cases hr : y.fenceRetires g
    · simp
    · simp [h1 hr]
  · intro h
    rw [if_pos ((hout 1 (by omega)).mpr h)]
    rfl
  · intro h
    refine if_neg (fun h1 => ?_)
    obtain ⟨g, hg, hs, hr⟩ := (hout 1 (by omega)).mp h1
    have := h g hg hs
    omega
  · intro h
    have h3 := hacq.mpr h
    rw [show ∀ (s : State) (g : Strand → Strand), (s.onStrand c t g).cluster (c / 8) = s.cluster (c / 8) from fun _ _ => rfl]
    unfold State.acquire
    rw [if_pos h3, show clusterOf c = c / 8 from rfl, State.cluster_onCluster_same]
    rfl
  · intro h
    have h3 := hrel.mpr h
    rw [show ∀ (s : State) (g : Strand → Strand), (s.onStrand c t g).cluster (c / 8) = s.cluster (c / 8) from fun _ _ => rfl]
    unfold State.acquire
    split
    · rw [show clusterOf c = c / 8 from rfl, State.cluster_onCluster_same]
      exact (hr1 h3).1
    · exact (hr1 h3).1
  · intro h
    have h1 : ¬ 3 ≤ n := fun h3 => by
      obtain ⟨g, hg, -, -, h4⟩ := hacq.mp h3
      have := (h g hg).1
      omega
    have h2 : ¬ 3 ≤ m := fun h3 => by
      obtain ⟨g, hg, -, h4⟩ := hrel.mp h3
      have := (h g hg).2
      omega
    rw [hr2 h2, State.acquire, if_neg h1]
    exact ⟨rfl, rfl, rfl⟩
  · intro d r h
    rw [State.strand_onStrand_ne _ _ h, hx, State.strand_onStrand_ne _ _ h]
  · intro d
    by_cases hd : d = c
    · subst hd
      rw [State.onStrand, State.setStrand, State.core_onCore_same, hk]
      rw [State.onStrand, State.setStrand, State.core_onCore_same, Core.setStrand_eq, Core.setStrand_eq]
    · rw [State.onStrand, State.setStrand, State.core_onCore_ne _ _ hd, hk]
      rw [State.onStrand, State.setStrand, State.core_onCore_ne _ _ hd]
  · have h4 : { (mid.onStrand c t f).release c m with mem := mid.mem, clusters := mid.clusters, resvs := mid.resvs }
        = mid.onStrand c t f := by
      by_cases h3 : 3 ≤ m
      · exact (hr1 h3).2.2.2.2
      · rw [hr2 h3]; rfl
    have h5 := congrArg (fun u : State => ({ u with cores := mid.cores } : State)) h4
    refine Eq.trans ?_ h5
    unfold State.acquire
    split <;> rfl
  · have h0 : Homing (mid.onStrand c t f) ((mid.onStrand c t f).release c m) (c / 8) := by
      by_cases h3 : 3 ≤ m
      · exact (hr1 h3).homing
      · rw [hr2 h3]
        exact homing_refl _ _
    have hc : ∀ j, (((mid.onStrand c t f).release c m).acquire c n).cluster j
        = if j = c / 8 ∧ 3 ≤ n then (((mid.onStrand c t f).release c m).cluster j).dropLines
          else ((mid.onStrand c t f).release c m).cluster j := by
      intro j
      unfold State.acquire
      by_cases h3 : 3 ≤ n
      · rw [if_pos h3]
        by_cases hj : j = c / 8
        · subst hj
          rw [show clusterOf c = c / 8 from rfl, State.cluster_onCluster_same]
          simp [h3]
        · rw [show clusterOf c = c / 8 from rfl, State.cluster_onCluster_ne _ _ hj]
          simp [hj]
      · rw [if_neg h3]
        simp [h3]
    refine h0.congr (fun a => ((sameBytes_onStrand mid c t f) a).symm) ?_ rfl ?_ (fun _ _ => rfl) ?_
    · exact SameBytes.trans (sameBytes_acquire _ c n) (sameBytes_onStrand _ c t _)
    · rw [show ∀ (s : State) (g : Strand → Strand), (s.onStrand c t g).cluster (c / 8) = s.cluster (c / 8) from fun _ _ => rfl, hc]
      split <;> rfl
    · intro j hj
      rw [show ∀ (s : State) (g : Strand → Strand), (s.onStrand c t g).cluster j = s.cluster j from fun _ _ => rfl, hc,
        if_neg (fun h => hj h.1)]

end Sys2Proof.Machine
end

