-- ==== Sys2Proof/Laws/PerInstr.lean ====
section
/-! SUPPORT. What holds of each instruction as syntax, one lemma per constructor: only the words of the four streams have an
encoding, and no constructor can hold an unallocated opcode or a nonzero reserved field, which the decoder refuses (R43). -/
namespace Sys2Proof.Laws.Shape

set_option Elab.async false

/-- An instruction of no stream has no word of its own, and what makes an instruction ill formed is a value of one of its fields. -/
def Statement (i : Instr) : Prop :=
  (stream? i = none → encode i = 0 ∨ ∃ w, i = .illegalSWord w)
  ∧ i.fault? ≠ some .unallocated ∧ i.fault? ≠ some .reservedField

theorem field_only (i : Instr) : i.fault? ≠ some .unallocated ∧ i.fault? ≠ some .reservedField := by
  unfold Instr.fault?
  split <;> (repeat' split) <;> simp

theorem add (ctl : BitVec 2) (rd ra rb : BitVec 5) :
    Statement (.add ctl rd ra rb) := ⟨nofun, field_only _⟩
theorem sub (ctl : BitVec 2) (rd ra rb : BitVec 5) :
    Statement (.sub ctl rd ra rb) := ⟨nofun, field_only _⟩
theorem and (ctl : BitVec 2) (rd ra rb : BitVec 5) :
    Statement (.and ctl rd ra rb) := ⟨nofun, field_only _⟩
theorem or (ctl : BitVec 2) (rd ra rb : BitVec 5) :
    Statement (.or ctl rd ra rb) := ⟨nofun, field_only _⟩
theorem xor (ctl : BitVec 2) (rd ra rb : BitVec 5) :
    Statement (.xor ctl rd ra rb) := ⟨nofun, field_only _⟩
theorem andn (ctl : BitVec 2) (rd ra rb : BitVec 5) :
    Statement (.andn ctl rd ra rb) := ⟨nofun, field_only _⟩
theorem shl (ctl : BitVec 2) (rd ra rb : BitVec 5) :
    Statement (.shl ctl rd ra rb) := ⟨nofun, field_only _⟩
theorem shr (ctl : BitVec 2) (rd ra rb : BitVec 5) :
    Statement (.shr ctl rd ra rb) := ⟨nofun, field_only _⟩
theorem sra (ctl : BitVec 2) (rd ra rb : BitVec 5) :
    Statement (.sra ctl rd ra rb) := ⟨nofun, field_only _⟩
theorem mul (ctl : BitVec 2) (rd ra rb : BitVec 5) :
    Statement (.mul ctl rd ra rb) := ⟨nofun, field_only _⟩
theorem mulh (ctl : BitVec 2) (rd ra rb : BitVec 5) :
    Statement (.mulh ctl rd ra rb) := ⟨nofun, field_only _⟩
theorem mulhn (ctl : BitVec 2) (rd ra rb : BitVec 5) :
    Statement (.mulhn ctl rd ra rb) := ⟨nofun, field_only _⟩
theorem div (ctl : BitVec 2) (rd ra rb : BitVec 5) :
    Statement (.div ctl rd ra rb) := ⟨nofun, field_only _⟩
theorem divn (ctl : BitVec 2) (rd ra rb : BitVec 5) :
    Statement (.divn ctl rd ra rb) := ⟨nofun, field_only _⟩
theorem rem (ctl : BitVec 2) (rd ra rb : BitVec 5) :
    Statement (.rem ctl rd ra rb) := ⟨nofun, field_only _⟩
theorem remn (ctl : BitVec 2) (rd ra rb : BitVec 5) :
    Statement (.remn ctl rd ra rb) := ⟨nofun, field_only _⟩
theorem min (ctl : BitVec 2) (rd ra rb : BitVec 5) :
    Statement (.min ctl rd ra rb) := ⟨nofun, field_only _⟩
theorem max (ctl : BitVec 2) (rd ra rb : BitVec 5) :
    Statement (.max ctl rd ra rb) := ⟨nofun, field_only _⟩
theorem minn (ctl : BitVec 2) (rd ra rb : BitVec 5) :
    Statement (.minn ctl rd ra rb) := ⟨nofun, field_only _⟩
theorem maxn (ctl : BitVec 2) (rd ra rb : BitVec 5) :
    Statement (.maxn ctl rd ra rb) := ⟨nofun, field_only _⟩
theorem clz (ctl : BitVec 2) (rd ra : BitVec 5) :
    Statement (.clz ctl rd ra) := ⟨nofun, field_only _⟩
theorem ctz (ctl : BitVec 2) (rd ra : BitVec 5) :
    Statement (.ctz ctl rd ra) := ⟨nofun, field_only _⟩
theorem popc (ctl : BitVec 2) (rd ra : BitVec 5) :
    Statement (.popc ctl rd ra) := ⟨nofun, field_only _⟩
theorem addw (ctl : BitVec 2) (rd ra rb : BitVec 5) :
    Statement (.addw ctl rd ra rb) := ⟨nofun, field_only _⟩
theorem subw (ctl : BitVec 2) (rd ra rb : BitVec 5) :
    Statement (.subw ctl rd ra rb) := ⟨nofun, field_only _⟩
theorem sel (ctl : BitVec 2) (rd ra rb : BitVec 5) (g : BitVec 3) :
    Statement (.sel ctl rd ra rb g) := ⟨nofun, field_only _⟩
theorem cmp (ctl gd : BitVec 2) (ra rb : BitVec 5) (cond : BitVec 6) :
    Statement (.cmp ctl gd ra rb cond) := ⟨nofun, field_only _⟩
theorem cmpi (ctl gd : BitVec 2) (ra : BitVec 5) (imm : BitVec 12) (cond : BitVec 2) :
    Statement (.cmpi ctl gd ra imm cond) := ⟨nofun, field_only _⟩
theorem gand (ctl gd ga gb : BitVec 2) :
    Statement (.gand ctl gd ga gb) := ⟨nofun, field_only _⟩
theorem gor (ctl gd ga gb : BitVec 2) :
    Statement (.gor ctl gd ga gb) := ⟨nofun, field_only _⟩
theorem gxor (ctl gd ga gb : BitVec 2) :
    Statement (.gxor ctl gd ga gb) := ⟨nofun, field_only _⟩
theorem gandn (ctl gd ga gb : BitVec 2) :
    Statement (.gandn ctl gd ga gb) := ⟨nofun, field_only _⟩
theorem enter (ctl : BitVec 2) (num : BitVec 14) :
    Statement (.enter ctl num) := ⟨nofun, field_only _⟩
theorem leave (ctl : BitVec 2) :
    Statement (.leave ctl) := ⟨nofun, field_only _⟩
theorem addi (ctl : BitVec 2) (rd ra : BitVec 5) (imm : BitVec 12) :
    Statement (.addi ctl rd ra imm) := ⟨nofun, field_only _⟩
theorem andi (ctl : BitVec 2) (rd ra : BitVec 5) (imm : BitVec 12) :
    Statement (.andi ctl rd ra imm) := ⟨nofun, field_only _⟩
theorem ori (ctl : BitVec 2) (rd ra : BitVec 5) (imm : BitVec 12) :
    Statement (.ori ctl rd ra imm) := ⟨nofun, field_only _⟩
theorem xori (ctl : BitVec 2) (rd ra : BitVec 5) (imm : BitVec 12) :
    Statement (.xori ctl rd ra imm) := ⟨nofun, field_only _⟩
theorem shli (ctl : BitVec 2) (rd ra : BitVec 5) (sh : BitVec 6) :
    Statement (.shli ctl rd ra sh) := ⟨nofun, field_only _⟩
theorem shri (ctl : BitVec 2) (rd ra : BitVec 5) (sh : BitVec 6) :
    Statement (.shri ctl rd ra sh) := ⟨nofun, field_only _⟩
theorem srai (ctl : BitVec 2) (rd ra : BitVec 5) (sh : BitVec 6) :
    Statement (.srai ctl rd ra sh) := ⟨nofun, field_only _⟩
theorem addwi (ctl : BitVec 2) (rd ra : BitVec 5) (imm : BitVec 12) :
    Statement (.addwi ctl rd ra imm) := ⟨nofun, field_only _⟩
theorem ld (ctl : BitVec 2) (rd ra : BitVec 5) (imm : BitVec 9) (sz : BitVec 2) :
    Statement (.ld ctl rd ra imm sz) := ⟨nofun, field_only _⟩
theorem ldn (ctl : BitVec 2) (rd ra : BitVec 5) (imm : BitVec 9) (sz : BitVec 2) :
    Statement (.ldn ctl rd ra imm sz) := ⟨nofun, field_only _⟩
theorem st (ctl : BitVec 2) (rs ra : BitVec 5) (imm : BitVec 9) (sz : BitVec 2) (g : BitVec 3) :
    Statement (.st ctl rs ra imm sz g) := ⟨nofun, field_only _⟩
theorem mark (ctl : BitVec 2) :
    Statement (.mark ctl) := ⟨nofun, field_only _⟩
theorem atm (ctl : BitVec 2) (rd ra rb : BitVec 5) (op : BitVec 4) (sz : BitVec 2) (g : BitVec 3) :
    Statement (.atm ctl rd ra rb op sz g) := ⟨nofun, field_only _⟩
theorem acas (ctl : BitVec 2) (rd ra rb : BitVec 5) (sz : BitVec 2) (g : BitVec 3) :
    Statement (.acas ctl rd ra rb sz g) := ⟨nofun, field_only _⟩
theorem fence (ctl kind : BitVec 2) (scope : BitVec 3) :
    Statement (.fence ctl kind scope) := ⟨nofun, field_only _⟩
theorem waitc (ctl : BitVec 2) (limL limS limV limM limX : BitVec 4) :
    Statement (.waitc ctl limL limS limV limM limX) := ⟨nofun, field_only _⟩
theorem mfs (ctl : BitVec 2) (rd : BitVec 5) (num : BitVec 14) :
    Statement (.mfs ctl rd num) := ⟨nofun, field_only _⟩
theorem mts (ctl : BitVec 2) (ra : BitVec 5) (num : BitVec 14) :
    Statement (.mts ctl ra num) := ⟨nofun, field_only _⟩
theorem sysc (ctl : BitVec 2) (num : BitVec 14) :
    Statement (.sysc ctl num) := ⟨nofun, field_only _⟩
theorem trap (ctl : BitVec 2) (num : BitVec 14) :
    Statement (.trap ctl num) := ⟨nofun, field_only _⟩
theorem brk (ctl : BitVec 2) :
    Statement (.brk ctl) := ⟨nofun, field_only _⟩
theorem resume (ctl : BitVec 2) :
    Statement (.resume ctl) := ⟨nofun, field_only _⟩
theorem halt (ctl : BitVec 2) :
    Statement (.halt ctl) := ⟨nofun, field_only _⟩
theorem endK (ctl : BitVec 2) (mask : BitVec 3) :
    Statement (.endK ctl mask) := ⟨nofun, field_only _⟩
theorem br (ctl : BitVec 2) (g : BitVec 3) (off : BitVec 21) :
    Statement (.br ctl g off) := ⟨nofun, field_only _⟩
theorem call (ctl : BitVec 2) (g : BitVec 3) (off : BitVec 21) :
    Statement (.call ctl g off) := ⟨nofun, field_only _⟩
theorem jr (ctl : BitVec 2) (ra : BitVec 5) (g : BitVec 3) :
    Statement (.jr ctl ra g) := ⟨nofun, field_only _⟩
theorem callr (ctl : BitVec 2) (ra : BitVec 5) (g : BitVec 3) :
    Statement (.callr ctl ra g) := ⟨nofun, field_only _⟩
theorem disp (ctl en : BitVec 2) (blk : BitVec 8) (ra rb : BitVec 5) (ss : BitVec 4) :
    Statement (.disp ctl en blk ra rb ss) := ⟨nofun, field_only _⟩
theorem semw (ctl : BitVec 2) (ra : BitVec 5) (num : BitVec 8) :
    Statement (.semw ctl ra num) := ⟨nofun, field_only _⟩
theorem sems (ctl : BitVec 2) (ra : BitVec 5) (num : BitVec 8) :
    Statement (.sems ctl ra num) := ⟨nofun, field_only _⟩
theorem semsAddress (ctl : BitVec 2) (rd ra : BitVec 5) :
    Statement (.semsAddress ctl rd ra) := ⟨nofun, field_only _⟩
theorem semr (ctl : BitVec 2) (rd : BitVec 5) (num : BitVec 8) :
    Statement (.semr ctl rd num) := ⟨nofun, field_only _⟩
theorem semi (ctl : BitVec 2) (ra : BitVec 5) (num : BitVec 8) :
    Statement (.semi ctl ra num) := ⟨nofun, field_only _⟩
theorem evw (ctl : BitVec 2) (ra : BitVec 5) :
    Statement (.evw ctl ra) := ⟨nofun, field_only _⟩
theorem evp (ctl : BitVec 2) (ra : BitVec 5) :
    Statement (.evp ctl ra) := ⟨nofun, field_only _⟩
theorem eva (ctl : BitVec 2) (ra rb : BitVec 5) :
    Statement (.eva ctl ra rb) := ⟨nofun, field_only _⟩
theorem evt (ctl : BitVec 2) (rd ra : BitVec 5) :
    Statement (.evt ctl rd ra) := ⟨nofun, field_only _⟩
theorem qpost (ctl : BitVec 2) (ra : BitVec 5) :
    Statement (.qpost ctl ra) := ⟨nofun, field_only _⟩
theorem qtake (ctl : BitVec 2) (rd : BitVec 5) :
    Statement (.qtake ctl rd) := ⟨nofun, field_only _⟩
theorem qdone (ctl : BitVec 2) (ra : BitVec 5) :
    Statement (.qdone ctl ra) := ⟨nofun, field_only _⟩
theorem lpat (ctl : BitVec 2) (ra rb : BitVec 5) (field : BitVec 6) :
    Statement (.lpat ctl ra rb field) := ⟨nofun, field_only _⟩
theorem larm (ctl : BitVec 2) (ra : BitVec 5) :
    Statement (.larm ctl ra) := ⟨nofun, field_only _⟩
theorem lwait (ctl : BitVec 2) (rd ra : BitVec 5) :
    Statement (.lwait ctl rd ra) := ⟨nofun, field_only _⟩
theorem talc (ctl : BitVec 2) (rd ra rb : BitVec 5) :
    Statement (.talc ctl rd ra rb) := ⟨nofun, field_only _⟩
theorem tseal (ctl : BitVec 2) (ra : BitVec 5) :
    Statement (.tseal ctl ra) := ⟨nofun, field_only _⟩
theorem tdrop (ctl : BitVec 2) (ra rb : BitVec 5) :
    Statement (.tdrop ctl ra rb) := ⟨nofun, field_only _⟩
theorem tadr (ctl : BitVec 2) (rd ra : BitVec 5) :
    Statement (.tadr ctl rd ra) := ⟨nofun, field_only _⟩
theorem tcnt (ctl : BitVec 2) (rd ra : BitVec 5) :
    Statement (.tcnt ctl rd ra) := ⟨nofun, field_only _⟩
theorem tstat (ctl : BitVec 2) (rd : BitVec 5) (ts : BitVec 4) :
    Statement (.tstat ctl rd ts) := ⟨nofun, field_only _⟩
theorem ovpop (ctl : BitVec 2) (rd : BitVec 5) :
    Statement (.ovpop ctl rd) := ⟨nofun, field_only _⟩
theorem pwq (ctl : BitVec 2) (ra : BitVec 5) :
    Statement (.pwq ctl ra) := ⟨nofun, field_only _⟩
theorem pwrel (ctl : BitVec 2) :
    Statement (.pwrel ctl) := ⟨nofun, field_only _⟩
theorem lih (ctl : BitVec 2) (rd : BitVec 5) (imm : BitVec 20) :
    Statement (.lih ctl rd imm) := ⟨nofun, field_only _⟩
theorem lihp (ctl : BitVec 2) (rd : BitVec 5) (imm : BitVec 20) :
    Statement (.lihp ctl rd imm) := ⟨nofun, field_only _⟩
theorem vadd (e : Bool) (vd va vb : BitVec 5) :
    Statement (.vadd e vd va vb) := ⟨nofun, field_only _⟩
theorem vsub (e : Bool) (vd va vb : BitVec 5) :
    Statement (.vsub e vd va vb) := ⟨nofun, field_only _⟩
theorem vmul (e : Bool) (vd va vb : BitVec 5) :
    Statement (.vmul e vd va vb) := ⟨nofun, field_only _⟩
theorem vmulh (e : Bool) (vd va vb : BitVec 5) :
    Statement (.vmulh e vd va vb) := ⟨nofun, field_only _⟩
theorem vfma (e : Bool) (vd va vb vc : BitVec 5) :
    Statement (.vfma e vd va vb vc) := ⟨nofun, field_only _⟩
theorem vfms (e : Bool) (vd va vb vc : BitVec 5) :
    Statement (.vfms e vd va vb vc) := ⟨nofun, field_only _⟩
theorem vfnma (e : Bool) (vd va vb vc : BitVec 5) :
    Statement (.vfnma e vd va vb vc) := ⟨nofun, field_only _⟩
theorem vmin (e : Bool) (vd va vb : BitVec 5) :
    Statement (.vmin e vd va vb) := ⟨nofun, field_only _⟩
theorem vmax (e : Bool) (vd va vb : BitVec 5) :
    Statement (.vmax e vd va vb) := ⟨nofun, field_only _⟩
theorem vabs (e : Bool) (vd va : BitVec 5) :
    Statement (.vabs e vd va) := ⟨nofun, field_only _⟩
theorem vneg (e : Bool) (vd va : BitVec 5) :
    Statement (.vneg e vd va) := ⟨nofun, field_only _⟩
theorem vadds (e : Bool) (vd va vb : BitVec 5) :
    Statement (.vadds e vd va vb) := ⟨nofun, field_only _⟩
theorem vsubs (e : Bool) (vd va vb : BitVec 5) :
    Statement (.vsubs e vd va vb) := ⟨nofun, field_only _⟩
theorem vavg (e : Bool) (vd va vb : BitVec 5) :
    Statement (.vavg e vd va vb) := ⟨nofun, field_only _⟩
theorem vand (e : Bool) (vd va vb : BitVec 5) :
    Statement (.vand e vd va vb) := ⟨nofun, field_only _⟩
theorem vor (e : Bool) (vd va vb : BitVec 5) :
    Statement (.vor e vd va vb) := ⟨nofun, field_only _⟩
theorem vxor (e : Bool) (vd va vb : BitVec 5) :
    Statement (.vxor e vd va vb) := ⟨nofun, field_only _⟩
theorem vandn (e : Bool) (vd va vb : BitVec 5) :
    Statement (.vandn e vd va vb) := ⟨nofun, field_only _⟩
theorem vnot (e : Bool) (vd va : BitVec 5) :
    Statement (.vnot e vd va) := ⟨nofun, field_only _⟩
theorem vshl (e : Bool) (vd va vb : BitVec 5) :
    Statement (.vshl e vd va vb) := ⟨nofun, field_only _⟩
theorem vshr (e : Bool) (vd va vb : BitVec 5) :
    Statement (.vshr e vd va vb) := ⟨nofun, field_only _⟩
theorem vsra (e : Bool) (vd va vb : BitVec 5) :
    Statement (.vsra e vd va vb) := ⟨nofun, field_only _⟩
theorem vmov (e : Bool) (vd va : BitVec 5) :
    Statement (.vmov e vd va) := ⟨nofun, field_only _⟩
theorem vsel (e : Bool) (vd va vb : BitVec 5) (kn : BitVec 3) :
    Statement (.vsel e vd va vb kn) := ⟨nofun, field_only _⟩
theorem vcmp (e : Bool) (kd : BitVec 3) (va vb : BitVec 5) (cond : BitVec 4) :
    Statement (.vcmp e kd va vb cond) := ⟨nofun, field_only _⟩
theorem vclz (e : Bool) (vd va : BitVec 5) :
    Statement (.vclz e vd va) := ⟨nofun, field_only _⟩
theorem vpopc (e : Bool) (vd va : BitVec 5) :
    Statement (.vpopc e vd va) := ⟨nofun, field_only _⟩
theorem vcpys (e : Bool) (vd va vb : BitVec 5) :
    Statement (.vcpys e vd va vb) := ⟨nofun, field_only _⟩
theorem vaddi (e : Bool) (vd va : BitVec 5) (imm : BitVec 14) :
    Statement (.vaddi e vd va imm) := ⟨nofun, field_only _⟩
theorem vmuli (e : Bool) (vd va : BitVec 5) (imm : BitVec 14) :
    Statement (.vmuli e vd va imm) := ⟨nofun, field_only _⟩
theorem vandi (e : Bool) (vd va : BitVec 5) (imm : BitVec 14) :
    Statement (.vandi e vd va imm) := ⟨nofun, field_only _⟩
theorem vori (e : Bool) (vd va : BitVec 5) (imm : BitVec 14) :
    Statement (.vori e vd va imm) := ⟨nofun, field_only _⟩
theorem vxori (e : Bool) (vd va : BitVec 5) (imm : BitVec 14) :
    Statement (.vxori e vd va imm) := ⟨nofun, field_only _⟩
theorem vshli (e : Bool) (vd va sh : BitVec 5) :
    Statement (.vshli e vd va sh) := ⟨nofun, field_only _⟩
theorem vshri (e : Bool) (vd va sh : BitVec 5) :
    Statement (.vshri e vd va sh) := ⟨nofun, field_only _⟩
theorem vsrai (e : Bool) (vd va sh : BitVec 5) :
    Statement (.vsrai e vd va sh) := ⟨nofun, field_only _⟩
theorem vspli (e : Bool) (vd : BitVec 5) (imm : BitVec 14) :
    Statement (.vspli e vd imm) := ⟨nofun, field_only _⟩
theorem viota (e : Bool) (vd : BitVec 5) (imm : BitVec 14) :
    Statement (.viota e vd imm) := ⟨nofun, field_only _⟩
theorem vsplb (e : Bool) (vd : BitVec 5) (bn : BitVec 3) :
    Statement (.vsplb e vd bn) := ⟨nofun, field_only _⟩
theorem vcvt (e : Bool) (vd va : BitVec 5) (src : BitVec 4) :
    Statement (.vcvt e vd va src) := ⟨nofun, field_only _⟩
theorem vwid (e : Bool) (vd va : BitVec 5) :
    Statement (.vwid e vd va) := ⟨nofun, field_only _⟩
theorem vnar (e : Bool) (vd va : BitVec 5) :
    Statement (.vnar e vd va) := ⟨nofun, field_only _⟩
theorem vqnt (e : Bool) (vd va vb : BitVec 5) :
    Statement (.vqnt e vd va vb) := ⟨nofun, field_only _⟩
theorem vdqn (e : Bool) (vd va vb : BitVec 5) :
    Statement (.vdqn e vd va vb) := ⟨nofun, field_only _⟩
theorem vrnd (e : Bool) (vd va : BitVec 5) :
    Statement (.vrnd e vd va) := ⟨nofun, field_only _⟩
theorem vperm (e : Bool) (vd va vb : BitVec 5) :
    Statement (.vperm e vd va vb) := ⟨nofun, field_only _⟩
theorem vbcst (e : Bool) (vd va : BitVec 5) (lane : BitVec 10) :
    Statement (.vbcst e vd va lane) := ⟨nofun, field_only _⟩
theorem vslup (e : Bool) (vd va : BitVec 5) (lane : BitVec 10) :
    Statement (.vslup e vd va lane) := ⟨nofun, field_only _⟩
theorem vsldn (e : Bool) (vd va : BitVec 5) (lane : BitVec 10) :
    Statement (.vsldn e vd va lane) := ⟨nofun, field_only _⟩
theorem vrev (e : Bool) (vd va : BitVec 5) :
    Statement (.vrev e vd va) := ⟨nofun, field_only _⟩
theorem vcmpr (e : Bool) (vd va : BitVec 5) :
    Statement (.vcmpr e vd va) := ⟨nofun, field_only _⟩
theorem vexpn (e : Bool) (vd va : BitVec 5) :
    Statement (.vexpn e vd va) := ⟨nofun, field_only _⟩
theorem vscan (e : Bool) (vd va : BitVec 5) :
    Statement (.vscan e vd va) := ⟨nofun, field_only _⟩
theorem vrsum (e : Bool) (vd va : BitVec 5) :
    Statement (.vrsum e vd va) := ⟨nofun, field_only _⟩
theorem vrmin (e : Bool) (vd va : BitVec 5) :
    Statement (.vrmin e vd va) := ⟨nofun, field_only _⟩
theorem vrmax (e : Bool) (vd va : BitVec 5) :
    Statement (.vrmax e vd va) := ⟨nofun, field_only _⟩
theorem vdot4 (e : Bool) (vd va vb : BitVec 5) :
    Statement (.vdot4 e vd va vb) := ⟨nofun, field_only _⟩
theorem vrcp (e : Bool) (vd va : BitVec 5) :
    Statement (.vrcp e vd va) := ⟨nofun, field_only _⟩
theorem vrsq (e : Bool) (vd va : BitVec 5) :
    Statement (.vrsq e vd va) := ⟨nofun, field_only _⟩
theorem vsqrt (e : Bool) (vd va : BitVec 5) :
    Statement (.vsqrt e vd va) := ⟨nofun, field_only _⟩
theorem vdivf (e : Bool) (vd va vb : BitVec 5) :
    Statement (.vdivf e vd va vb) := ⟨nofun, field_only _⟩
theorem vexp2 (e : Bool) (vd va : BitVec 5) :
    Statement (.vexp2 e vd va) := ⟨nofun, field_only _⟩
theorem vlog2 (e : Bool) (vd va : BitVec 5) :
    Statement (.vlog2 e vd va) := ⟨nofun, field_only _⟩
theorem vsin (e : Bool) (vd va : BitVec 5) :
    Statement (.vsin e vd va) := ⟨nofun, field_only _⟩
theorem vtanh (e : Bool) (vd va : BitVec 5) :
    Statement (.vtanh e vd va) := ⟨nofun, field_only _⟩
theorem vld (e : Bool) (vd : BitVec 5) (bn : BitVec 3) (off : BitVec 13) (tok : BitVec 3) :
    Statement (.vld e vd bn off tok) := ⟨nofun, field_only _⟩
theorem vldc (e : Bool) (vd : BitVec 5) (bn : BitVec 3) (off : BitVec 13) (tok : BitVec 3) :
    Statement (.vldc e vd bn off tok) := ⟨nofun, field_only _⟩
theorem vst (e : Bool) (vd : BitVec 5) (bn : BitVec 3) (off : BitVec 13) (tok : BitVec 3) :
    Statement (.vst e vd bn off tok) := ⟨nofun, field_only _⟩
theorem vldx (e : Bool) (vd : BitVec 5) (bn : BitVec 3) (vi : BitVec 5) (sc : BitVec 2) (z : BitVec 6) (tok : BitVec 3) :
    Statement (.vldx e vd bn vi sc z tok) := ⟨nofun, field_only _⟩
theorem vstx (e : Bool) (vd : BitVec 5) (bn : BitVec 3) (vi : BitVec 5) (sc : BitVec 2) (z : BitVec 6) (tok : BitVec 3) :
    Statement (.vstx e vd bn vi sc z tok) := ⟨nofun, field_only _⟩
theorem vlds (e : Bool) (vd : BitVec 5) (bn : BitVec 3) (off : BitVec 13) (tok : BitVec 3) :
    Statement (.vlds e vd bn off tok) := ⟨nofun, field_only _⟩
theorem vatm (e : Bool) (vd : BitVec 5) (bn : BitVec 3) (vi : BitVec 5) (sc : BitVec 2) (z : BitVec 6) (tok : BitVec 3) :
    Statement (.vatm e vd bn vi sc z tok) := ⟨nofun, field_only _⟩
theorem vmark (e : Bool) :
    Statement (.vmark e) := ⟨nofun, field_only _⟩
theorem tkw (e : Bool) (mask : BitVec 8) :
    Statement (.tkw e mask) := ⟨nofun, field_only _⟩
theorem kand (e : Bool) (kd ka kb : BitVec 3) :
    Statement (.kand e kd ka kb) := ⟨nofun, field_only _⟩
theorem kor (e : Bool) (kd ka kb : BitVec 3) :
    Statement (.kor e kd ka kb) := ⟨nofun, field_only _⟩
theorem kxor (e : Bool) (kd ka kb : BitVec 3) :
    Statement (.kxor e kd ka kb) := ⟨nofun, field_only _⟩
theorem kandn (e : Bool) (kd ka kb : BitVec 3) :
    Statement (.kandn e kd ka kb) := ⟨nofun, field_only _⟩
theorem knot (e : Bool) (kd ka : BitVec 3) :
    Statement (.knot e kd ka) := ⟨nofun, field_only _⟩
theorem kset (e : Bool) (kd : BitVec 3) :
    Statement (.kset e kd) := ⟨nofun, field_only _⟩
theorem kpop (e : Bool) (vd : BitVec 5) (ka : BitVec 3) :
    Statement (.kpop e vd ka) := ⟨nofun, field_only _⟩
theorem kmov (e : Bool) (kd ka : BitVec 3) :
    Statement (.kmov e kd ka) := ⟨nofun, field_only _⟩
theorem vbli (e : Bool) (bn : BitVec 3) (imm : BitVec 21) :
    Statement (.vbli e bn imm) := ⟨nofun, field_only _⟩
theorem vbadd (e : Bool) (bn : BitVec 3) (imm : BitVec 21) :
    Statement (.vbadd e bn imm) := ⟨nofun, field_only _⟩
theorem vbmov (e : Bool) (vd ba : BitVec 3) :
    Statement (.vbmov e vd ba) := ⟨nofun, field_only _⟩
theorem vshp (e : Bool) (bn : BitVec 3) :
    Statement (.vshp e bn) := ⟨nofun, field_only _⟩
theorem vshpb (e : Bool) (bn : BitVec 3) :
    Statement (.vshpb e bn) := ⟨nofun, field_only _⟩
theorem vflg (e : Bool) (bn : BitVec 3) :
    Statement (.vflg e bn) := ⟨nofun, field_only _⟩
theorem vnop (e : Bool) :
    Statement (.vnop e) := ⟨nofun, field_only _⟩
theorem go2d (e : Bool) (vd vq vA : BitVec 5) :
    Statement (.go2d e vd vq vA) := ⟨nofun, field_only _⟩
theorem go3d (e : Bool) (vd vq vA : BitVec 5) :
    Statement (.go3d e vd vq vA) := ⟨nofun, field_only _⟩
theorem gic (e : Bool) (vd vq vA : BitVec 5) :
    Statement (.gic e vd vq vA) := ⟨nofun, field_only _⟩
theorem gis (e : Bool) (vd vq vA : BitVec 5) :
    Statement (.gis e vd vq vA) := ⟨nofun, field_only _⟩
theorem gsx (e : Bool) (vd vA : BitVec 5) :
    Statement (.gsx e vd vA) := ⟨nofun, field_only _⟩
theorem mnop (e : Bool) :
    Statement (.mnop e) := ⟨nofun, field_only _⟩
theorem mzro (e : Bool) (acc : BitVec 2) :
    Statement (.mzro e acc) := ⟨nofun, field_only _⟩
theorem mma (e : Bool) (acc : BitVec 2) (ea eb : BitVec 4) (cna cnb byp ls : Bool) (mc : BitVec 3) :
    Statement (.mma e acc ea eb cna cnb byp ls mc) := ⟨nofun, field_only _⟩
theorem mdrn (e : Bool) (acc : BitVec 2) (ed dt ts : BitVec 4) (md : BitVec 2) (er : BitVec 4) :
    Statement (.mdrn e acc ed dt ts md er) := ⟨nofun, field_only _⟩
theorem mlda (e : Bool) (acc : BitVec 2) (ea : BitVec 4) :
    Statement (.mlda e acc ea) := ⟨nofun, field_only _⟩
theorem msta (e : Bool) (acc : BitVec 2) (ea : BitVec 4) :
    Statement (.msta e acc ea) := ⟨nofun, field_only _⟩
theorem meadd (e : Bool) (ed ea eb : BitVec 4) :
    Statement (.meadd e ed ea eb) := ⟨nofun, field_only _⟩
theorem meli (e : Bool) (ed : BitVec 4) (imm : BitVec 22) :
    Statement (.meli e ed imm) := ⟨nofun, field_only _⟩
theorem memov (e : Bool) (ed ea : BitVec 4) :
    Statement (.memov e ed ea) := ⟨nofun, field_only _⟩
theorem mrep (e : Bool) (n : BitVec 4) (k : BitVec 12) :
    Statement (.mrep e n k) := ⟨nofun, field_only _⟩
theorem xnop (e : Bool) :
    Statement (.xnop e) := ⟨nofun, field_only _⟩
theorem xcpy (e : Bool) (ed es en : BitVec 4) (cn cb : Bool) :
    Statement (.xcpy e ed es en cn cb) := ⟨nofun, field_only _⟩
theorem xten (e : Bool) (eh ed ec : BitVec 4) (xp : BitVec 2) (dir : Bool) :
    Statement (.xten e eh ed ec xp dir) := ⟨nofun, field_only _⟩
theorem xfil (e : Bool) (ed ev en : BitVec 4) :
    Statement (.xfil e ed ev en) := ⟨nofun, field_only _⟩
theorem xgat (e : Bool) (ed es ei : BitVec 4) :
    Statement (.xgat e ed es ei) := ⟨nofun, field_only _⟩
theorem xsct (e : Bool) (ed es ei : BitVec 4) :
    Statement (.xsct e ed es ei) := ⟨nofun, field_only _⟩
theorem xbrd (e : Bool) (ed es en : BitVec 4) (mc : BitVec 3) :
    Statement (.xbrd e ed es en mc) := ⟨nofun, field_only _⟩
theorem xred (e : Bool) (ed es en : BitVec 4) (ty : Bool) :
    Statement (.xred e ed es en ty) := ⟨nofun, field_only _⟩
theorem xsig (e : Bool) (ea en : BitVec 4) :
    Statement (.xsig e ea en) := ⟨nofun, field_only _⟩
theorem xrfl (e : Bool) (eh : BitVec 4) :
    Statement (.xrfl e eh) := ⟨nofun, field_only _⟩
theorem xalc (e : Bool) (ed ea eb : BitVec 4) :
    Statement (.xalc e ed ea eb) := ⟨nofun, field_only _⟩
theorem xmrk (e : Bool) :
    Statement (.xmrk e) := ⟨nofun, field_only _⟩
theorem xeadd (e : Bool) (ed ea eb : BitVec 4) :
    Statement (.xeadd e ed ea eb) := ⟨nofun, field_only _⟩
theorem xeli (e : Bool) (ed : BitVec 4) (imm : BitVec 22) :
    Statement (.xeli e ed imm) := ⟨nofun, field_only _⟩
theorem xemov (e : Bool) (ed ea : BitVec 4) :
    Statement (.xemov e ed ea) := ⟨nofun, field_only _⟩
theorem xrep (e : Bool) (n : BitVec 4) (k : BitVec 12) :
    Statement (.xrep e n k) := ⟨nofun, field_only _⟩
theorem illegalSWord (w : BitVec 32) :
    Statement (.illegalSWord w) := ⟨fun _ => .inr ⟨_, rfl⟩, field_only _⟩
theorem illegalEngineWord (c : Nat) (en : Eng) :
    Statement (.illegalEngineWord c en) := ⟨fun _ => .inl rfl, field_only _⟩
theorem emptySlot (c : Nat) (t : BitVec 2) :
    Statement (.emptySlot c t) := ⟨fun _ => .inl rfl, field_only _⟩
theorem fixedLatencyWriteLands (c : Nat) (u : BitVec 3) :
    Statement (.fixedLatencyWriteLands c u) := ⟨fun _ => .inl rfl, field_only _⟩
theorem sqForcedSwitch (c : Nat) :
    Statement (.sqForcedSwitch c) := ⟨fun _ => .inl rfl, field_only _⟩
theorem scalarLoadComplete (c : Nat) (t : BitVec 2) (stale : Bool) :
    Statement (.scalarLoadComplete c t stale) := ⟨fun _ => .inl rfl, field_only _⟩
theorem storeQueuePerform (c : Nat) (h : QueueHead) :
    Statement (.storeQueuePerform c h) := ⟨fun _ => .inl rfl, field_only _⟩
theorem entryHeadWait (c : Nat) (en : Eng) :
    Statement (.entryHeadWait c en) := ⟨fun _ => .inl rfl, field_only _⟩
theorem entryStart (c : Nat) (en : Eng) :
    Statement (.entryStart c en) := ⟨fun _ => .inl rfl, field_only _⟩
theorem entryCompletion (c : Nat) (en : Eng) :
    Statement (.entryCompletion c en) := ⟨fun _ => .inl rfl, field_only _⟩
theorem tokenComplete (c : Nat) (q : VQueue) (stale : Bool) (part : Option Early) :
    Statement (.tokenComplete c q stale part) := ⟨fun _ => .inl rfl, field_only _⟩
theorem mStepFinish (c : Nat) (k : Nat) (f : Finish) :
    Statement (.mStepFinish c k f) := ⟨fun _ => .inl rfl, field_only _⟩
theorem transferMovePhaseDone (c : Nat) (k : Nat) (stale : Bool) (part : Option (Bool × Nat × Nat)) :
    Statement (.transferMovePhaseDone c k stale part) := ⟨fun _ => .inl rfl, field_only _⟩
theorem consumingCheck (c : Nat) (en : Eng) (a : BitVec 48) (n : Nat) :
    Statement (.consumingCheck c en a n) := ⟨fun _ => .inl rfl, field_only _⟩
theorem consumingCount (c : Nat) (en : Eng) (a : BitVec 48) (n : Nat) :
    Statement (.consumingCount c en a n) := ⟨fun _ => .inl rfl, field_only _⟩
theorem poolstall (c : Nat) (u : BitVec 3) :
    Statement (.poolstall c u) := ⟨fun _ => .inl rfl, field_only _⟩
theorem kernelStart (c : Nat) :
    Statement (.kernelStart c) := ⟨fun _ => .inl rfl, field_only _⟩
theorem teamEntryGenerate (p : Nat) (r : BitVec 10) (cl : Nat) :
    Statement (.teamEntryGenerate p r cl) := ⟨fun _ => .inl rfl, field_only _⟩
theorem teamTake (c : Nat) :
    Statement (.teamTake c) := ⟨fun _ => .inl rfl, field_only _⟩
theorem launchCompletion (p : Nat) (r : BitVec 10) :
    Statement (.launchCompletion p r) := ⟨fun _ => .inl rfl, field_only _⟩
theorem teamSwap (c : Nat) :
    Statement (.teamSwap c) := ⟨fun _ => .inl rfl, field_only _⟩
theorem swappedTeamReenter (p : Nat) (k : Nat) :
    Statement (.swappedTeamReenter p k) := ⟨fun _ => .inl rfl, field_only _⟩
theorem stopDelivery (c : Nat) (t : BitVec 2) :
    Statement (.stopDelivery c t) := ⟨fun _ => .inl rfl, field_only _⟩
theorem watchdog (c : Nat) (t : BitVec 2) :
    Statement (.watchdog c t) := ⟨fun _ => .inl rfl, field_only _⟩
theorem stopnextRead (ctl : BitVec 2) (rd : BitVec 5) :
    Statement (.stopnextRead ctl rd) := ⟨fun _ => .inl rfl, field_only _⟩
theorem recordReissue (c : Nat) (t : BitVec 2) :
    Statement (.recordReissue c t) := ⟨fun _ => .inl rfl, field_only _⟩
theorem preempt (p : Nat) :
    Statement (.preempt p) := ⟨fun _ => .inl rfl, field_only _⟩
theorem partitionRestore (p : Nat) :
    Statement (.partitionRestore p) := ⟨fun _ => .inl rfl, field_only _⟩
theorem partitionClear (c : Nat) :
    Statement (.partitionClear c) := ⟨fun _ => .inl rfl, field_only _⟩
theorem eccUncorrectable (u : EccUnit) (c : Nat) (t : BitVec 2) :
    Statement (.eccUncorrectable u c t) := ⟨fun _ => .inl rfl, field_only _⟩
theorem correctedSoftError (d : BitVec 2) :
    Statement (.correctedSoftError d) := ⟨fun _ => .inl rfl, field_only _⟩
theorem hostReadErrorCompletion (c : Nat) (t : BitVec 2) :
    Statement (.hostReadErrorCompletion c t) := ⟨fun _ => .inl rfl, field_only _⟩
theorem hostReadTimeout (c : Nat) (t : BitVec 2) :
    Statement (.hostReadTimeout c t) := ⟨fun _ => .inl rfl, field_only _⟩
theorem linkReplayFail (a b : BitVec 3) :
    Statement (.linkReplayFail a b) := ⟨fun _ => .inl rfl, field_only _⟩
theorem railOvercurrent (d : BitVec 2) :
    Statement (.railOvercurrent d) := ⟨fun _ => .inl rfl, field_only _⟩
theorem windowRegisterWrite (c : Nat) (off : BitVec 22) (v : BitVec 64) :
    Statement (.windowRegisterWrite c off v) := ⟨fun _ => .inl rfl, field_only _⟩
theorem windowVregWrite (c : Nat) (gran : BitVec 10) (v : BitVec 512) (tag : BitVec 4) :
    Statement (.windowVregWrite c gran v tag) := ⟨fun _ => .inl rfl, field_only _⟩
theorem windowTagWrite (c : Nat) (tag : BitVec 7) (v : BitVec 8) :
    Statement (.windowTagWrite c tag v) := ⟨fun _ => .inl rfl, field_only _⟩
theorem semaphoreWindowStore (c : Nat) (m : BitVec 8) (v : BitVec 32) :
    Statement (.semaphoreWindowStore c m v) := ⟨fun _ => .inl rfl, field_only _⟩
theorem accumulatorWindowAccess (c : Nat) (cell : BitVec 15) (wr : Option (BitVec 64)) :
    Statement (.accumulatorWindowAccess c cell wr) := ⟨fun _ => .inl rfl, field_only _⟩
theorem dbgctlLull (c : Nat) (v : Bool) :
    Statement (.dbgctlLull c v) := ⟨fun _ => .inl rfl, field_only _⟩
theorem dbgctlCut (c : Nat) (v : Bool) :
    Statement (.dbgctlCut c v) := ⟨fun _ => .inl rfl, field_only _⟩
theorem cutHaltTimeout (c : Nat) (t : BitVec 2) :
    Statement (.cutHaltTimeout c t) := ⟨fun _ => .inl rfl, field_only _⟩
theorem trctlEnable (c : Nat) (en : Bool) (log2n : BitVec 5) :
    Statement (.trctlEnable c en log2n) := ⟨fun _ => .inl rfl, field_only _⟩
theorem trctlErrClear (c : Nat) :
    Statement (.trctlErrClear c) := ⟨fun _ => .inl rfl, field_only _⟩
theorem counterLatch :
    Statement (.counterLatch) := ⟨fun _ => .inl rfl, field_only _⟩
theorem collective (a : CollAct) (p j m : Nat) (b : CollBufs) :
    Statement (.collective a p j m b) := ⟨fun _ => .inl rfl, field_only _⟩
theorem collectiveTimeout :
    Statement (.collectiveTimeout) := ⟨fun _ => .inl rfl, field_only _⟩
theorem packageReset :
    Statement (.packageReset) := ⟨fun _ => .inl rfl, field_only _⟩
theorem bootdbWrite (v : BitVec 64) :
    Statement (.bootdbWrite v) := ⟨fun _ => .inl rfl, field_only _⟩
theorem trainingComplete (res : Training) :
    Statement (.trainingComplete res) := ⟨fun _ => .inl rfl, field_only _⟩
theorem objLoad (p : Nat) (a size : BitVec 64) :
    Statement (.objLoad p a size) := ⟨fun _ => .inl rfl, field_only _⟩
theorem objUnload (p : Nat) (h : BitVec 64) :
    Statement (.objUnload p h) := ⟨fun _ => .inl rfl, field_only _⟩
theorem lrecGet (p : Nat) (h idx : BitVec 64) :
    Statement (.lrecGet p h idx) := ⟨fun _ => .inl rfl, field_only _⟩
theorem lrecArm (p : Nat) (idx : BitVec 64) :
    Statement (.lrecArm p idx) := ⟨fun _ => .inl rfl, field_only _⟩
theorem lrecWait (p : Nat) (idx : BitVec 64) :
    Statement (.lrecWait p idx) := ⟨fun _ => .inl rfl, field_only _⟩
theorem launchKill (p : Nat) (idx : BitVec 64) :
    Statement (.launchKill p idx) := ⟨fun _ => .inl rfl, field_only _⟩
theorem memMap (p : Nat) (va pa size bits : BitVec 64) :
    Statement (.memMap p va pa size bits) := ⟨fun _ => .inl rfl, field_only _⟩
theorem memUnmap (p : Nat) (va size : BitVec 64) :
    Statement (.memUnmap p va size) := ⟨fun _ => .inl rfl, field_only _⟩
theorem eventReserve (p : Nat) (n : BitVec 64) :
    Statement (.eventReserve p n) := ⟨fun _ => .inl rfl, field_only _⟩
theorem poolConfig (p : Nat) (idx part half : BitVec 64) :
    Statement (.poolConfig p idx part half) := ⟨fun _ => .inl rfl, field_only _⟩
theorem codePatch (p : Nat) (a w ev : BitVec 64) :
    Statement (.codePatch p a w ev) := ⟨fun _ => .inl rfl, field_only _⟩
theorem clockLock (v : BitVec 64) :
    Statement (.clockLock v) := ⟨fun _ => .inl rfl, field_only _⟩
theorem countersStart (p : Nat) (a size k : BitVec 64) :
    Statement (.countersStart p a size k) := ⟨fun _ => .inl rfl, field_only _⟩
theorem stopHandlerSet (p : Nat) (idx h : BitVec 64) :
    Statement (.stopHandlerSet p idx h) := ⟨fun _ => .inl rfl, field_only _⟩
theorem resumeStrand (p : Nat) (desc discard : BitVec 64) :
    Statement (.resumeStrand p desc discard) := ⟨fun _ => .inl rfl, field_only _⟩
theorem chargeBucketRefill :
    Statement (.chargeBucketRefill) := ⟨fun _ => .inl rfl, field_only _⟩
theorem lockedClockGrant (d : BitVec 2) :
    Statement (.lockedClockGrant d) := ⟨fun _ => .inl rfl, field_only _⟩
theorem dieFrequencyChange (d : BitVec 2) (mhz : Nat) :
    Statement (.dieFrequencyChange d mhz) := ⟨fun _ => .inl rfl, field_only _⟩
theorem hbmRefresh (stack : BitVec 4) :
    Statement (.hbmRefresh stack) := ⟨fun _ => .inl rfl, field_only _⟩
theorem queuePairError :
    Statement (.queuePairError) := ⟨fun _ => .inl rfl, field_only _⟩
theorem bar2ImageWrite (off : BitVec 28) (v : BitVec 8) :
    Statement (.bar2ImageWrite off v) := ⟨fun _ => .inl rfl, field_only _⟩
theorem fuseCounterRaise (svn : BitVec 32) :
    Statement (.fuseCounterRaise svn) := ⟨fun _ => .inl rfl, field_only _⟩

end Sys2Proof.Laws.Shape
end

