-- ==== Sys2Proof/Laws/Queues.lean ====
section
/-! SUPPORT. The scalar queues in the terms of Safety.lean: entering, performing, stopping. -/
namespace Sys2Proof.Machine

theorem queueFull_eq (x : Strand) (load : Bool) : (if load then x.loadsFull else x.storesFull) = noRoom x load := by
  cases load <;>
    simp only [Strand.loadsFull, Strand.storesFull, noRoom, Strand.fencesHeld, Bool.false_eq_true, ↓reduceIte,
      List.countP_eq_length_filter] <;> rfl

/-- A word that finds room enters its queue (R92). -/
theorem issued_enqueue (s : State) (load : Bool) (i : Instr) (ctl : BitVec 2) (a b ext : Word) (lk : Links)
    (h : noRoom s.cur load = false) :
    Issued s (s.enqueue load i ctl a b ext lk) ctl 0 (s.cur.pc + 4)
      (if load then { s.cur with loads := s.cur.loads ++ [entering s i a b ext lk], nextId := s.cur.nextId + 1 }
       else { s.cur with stores := s.cur.stores ++ [entering s i a b ext lk], nextId := s.cur.nextId + 1 }) := by
  unfold State.enqueue
  simp only [queueFull_eq, h, Bool.false_eq_true, ↓reduceIte]
  exact issued_issue s ctl 0 s.nextPc _

/-- A word that finds its queue full waits (R62, R92). -/
theorem enqueue_full (s : State) (load : Bool) (i : Instr) (ctl : BitVec 2) (a b ext : Word) (lk : Links)
    (h : noRoom s.cur load = true) : s.enqueue load i ctl a b ext lk = s := by
  unfold State.enqueue
  simp only [queueFull_eq, h, ↓reduceIte]

theorem enters_of_exec (s : State) (i : Instr) (ctl : BitVec 2) (load : Bool) (a b ext : Word) (lk : Links)
    (h : exec i s = .next (s.enqueue load i ctl a b ext lk)) : Enters s i ctl load a b ext lk :=
  ⟨fun hr => ⟨_, h, issued_enqueue s load i ctl a b ext lk hr⟩, fun hr => by rw [h, enqueue_full _ _ _ _ _ _ _ _ hr]⟩

/-- The head of a queue is its first entry. -/
theorem cons_of_head {q : QItem} {l : List QItem} (h : l.head? = some q) : ∃ rest, l = q :: rest := by
  cases l with
  | nil => simp at h
  | cons a l => exact ⟨l, by rw [Option.some.inj h]⟩

/-- A strand without a stop is not stopping. -/
theorem halting_none {x : Strand} (n : Nat) (h : x.stop = none) : x.halting n = false := by
  simp [Strand.halting, h]

/-- The head of a load queue performs: once its access is done, it leaves its queue and writes its register (R93). -/
theorem loadStep_done (s s' : State) (c : Nat) (t : BitVec 2) (stale : Bool) (q : QItem) (res : Option Word)
    (h : loadReady s c t q) (hp : perform s c t q.op q.opa q.opb q.ext true stale = .done s' res) :
    ∃ u, exec (.scalarLoadComplete c t stale) s = .next u
      ∧ Performed s' u c t { (s'.strand c t).takeLoad q.op res with loads := (s.strand c t).loads.tail } := by
  obtain ⟨h1, h2, h3, h4, h5⟩ := h
  obtain ⟨rest, hl⟩ := cons_of_head h1
  refine ⟨_, ?_, performed_settle s' c t (fun y => { y.takeLoad q.op res with loads := (s.strand c t).loads.tail })⟩
  simp only [exec, execScalarLoadComplete, hl, h4, ↓reduceIte, State.loadStep, halting_none _ h3, h2, Option.isSome_none, h5,
    Bool.or_self, Bool.false_eq_true, hp, List.tail_cons]

theorem heldLate_eq (i : Instr) : heldLate i = fenceLate i := rfl

/-- The machine in which STORE_QUEUE_PERFORM comes to the head of the store queue. -/
theorem ahead_eq (s : State) (c : Nat) (t : BitVec 2) (q : QItem) (near : Bool) :
    s.ahead c t q near = if near && !fenceLate q.op then s else s.settleFences c t := by
  unfold State.ahead
  rw [heldLate_eq]
  cases near <;> cases fenceLate q.op <;> rfl

/-- The head of a store queue performs (R92, R94, R96, R118); what it leaves of the fences of its strand is in Leaves. -/
theorem storeStep_done (s o s' : State) (c : Nat) (t : BitVec 2) (near : Bool) (q : QItem) (res : Option Word) (rest : List QItem)
    (hl : (s.strand c t).stores = q :: rest) (hd : q.due (s.core c) = true) (ho : s.ahead c t q near = o) (h : storeReady o c t q)
    (hp : perform o c t q.op q.opa q.opb q.ext true near = .done s' res) :
    ∃ u, exec (.storeQueuePerform c ⟨t, near⟩) s = .next u
      ∧ Leaves s' u c t { (s'.strand c t).takeLoad q.op res with stores := (o.strand c t).stores.tail } near := by
  obtain ⟨h1, h2, h3, h4, h5⟩ := h
  obtain ⟨r', ho'⟩ := cons_of_head h1
  have e : exec (.storeQueuePerform c ⟨t, near⟩) s = .next
      (if near then s'.onStrand c t (fun y => { y.takeLoad q.op res with stores := r' })
       else (s'.onStrand c t (fun y => { y.takeLoad q.op res with stores := r' })).settleFences c t) := by
    simp only [exec, execStoreQueuePerform, hl, hd, ↓reduceIte, State.storeStep, ← ahead_eq, ho, ho', halting_none _ h3, h2,
      Option.isSome_none, h5, Bool.not_true, Bool.or_self, Bool.false_eq_true, hp]
  refine ⟨_, e, fun hn => ?_, fun hn => ?_⟩
  · rw [if_pos hn, ho']
    exact onlyCore_onStrand s' c t _
  · rw [if_neg (by simp [hn]), ho']
    exact performed_settle s' c t (fun y => { y.takeLoad q.op res with stores := r' })

/-- What a stop found in a queued access leaves of a strand that has none (R106, R124, R299, R308). -/
theorem stopLate_eq (x : Strand) (st : Stop) (h : x.stop = none) :
    x.stopLate st = { x with
      life := if x.life = .running ∨ x.life = .ended then .stopped else x.life
      stop := if x.life = .running ∨ x.life = .ended ∨ x.life = .resuming then some st else x.stop } := by
  unfold Strand.stopLate Strand.stopFor
  cases hl : x.life <;> simp [h] <;> rw [← hl, ← h]

/-- A queued access that is found to fault stops its strand (R299). -/
theorem queueStops_queueFault (s : State) (c : Nat) (t : BitVec 2) (load : Bool) (q : QItem) (w : Trouble)
    (h : (s.strand c t).stop = none) : QueueStops s (s.queueFault c t load q.id w) c t load q w := by
  have := onlyCore_onStrand s c t (fun x =>
    (if load then { x with loads := x.loads.map (fun (e : QItem) => if e.id = q.id then { e with flt := some w } else e) }
     else { x with stores := x.stores.map (fun (e : QItem) => if e.id = q.id then { e with flt := some w } else e) }).stopLate
      { why := w, at_ := .queue q.id, slot := (s.core c).slotNo, tick := s.tick })
  unfold QueueStops State.queueFault
  cases load
  · simp only [Bool.false_eq_true, ↓reduceIte] at this ⊢
    rw [stopLate_eq _ _ (by exact h)] at this
    exact this
  · simp only [↓reduceIte] at this ⊢
    rw [stopLate_eq _ _ (by exact h)] at this
    exact this

/-- The head of a load queue stops (R299). -/
theorem loadStep_fault (s : State) (c : Nat) (t : BitVec 2) (stale : Bool) (q : QItem) (w : Trouble)
    (h : loadReady s c t q) (hp : perform s c t q.op q.opa q.opb q.ext true stale = .fault w) :
    ∃ u, exec (.scalarLoadComplete c t stale) s = .next u ∧ QueueStops s u c t true q w := by
  obtain ⟨h1, h2, h3, h4, h5⟩ := h
  obtain ⟨rest, hl⟩ := cons_of_head h1
  refine ⟨_, ?_, queueStops_queueFault s c t true q w h3⟩
  simp only [exec, execScalarLoadComplete, hl, h4, ↓reduceIte, State.loadStep, halting_none _ h3, h2, Option.isSome_none, h5,
    Bool.or_self, Bool.false_eq_true, hp]

/-- The head of a store queue stops (R299). -/
theorem storeStep_fault (s o : State) (c : Nat) (t : BitVec 2) (near : Bool) (q : QItem) (w : Trouble) (rest : List QItem)
    (hl : (s.strand c t).stores = q :: rest) (hd : q.due (s.core c) = true) (ho : s.ahead c t q near = o) (h : storeReady o c t q)
    (hp : perform o c t q.op q.opa q.opb q.ext true near = .fault w) :
    ∃ u, exec (.storeQueuePerform c ⟨t, near⟩) s = .next u ∧ QueueStops o u c t false q w := by
  obtain ⟨h1, h2, h3, h4, h5⟩ := h
  obtain ⟨r', ho'⟩ := cons_of_head h1
  refine ⟨_, ?_, queueStops_queueFault o c t false q w h3⟩
  simp only [exec, execStoreQueuePerform, hl, hd, ↓reduceIte, State.storeStep, ← ahead_eq, ho, ho', halting_none _ h3, h2,
    Option.isSome_none, h5, Bool.not_true, Bool.or_self, Bool.false_eq_true, hp]

end Sys2Proof.Machine
end

