-- ==== Sys2Proof/Laws/Semaphores.lean ====
section
/-! SUPPORT. What a semaphore unit does on a change of a count, in the terms of Safety.lean. -/
namespace Sys2Proof.Machine

/-- The waits of a core that have not been granted. -/
def openWaits (k : Core) : Nat := k.waits.countP (fun w => !w.granted)

@[simp] theorem Core.setSem_waits (k : Core) (m : Nat) (v : BitVec 32) : (k.setSem m v).waits = k.waits := rfl
@[simp] theorem Core.setQueue_waits (k : Core) (en : Eng) (q : List Entry) : (k.setQueue en q).waits = k.waits := by
  cases en <;> rfl

/-- Removing some entries leaves no more that meet a condition. -/
theorem countP_filter_lt {α : Type} (p q : α → Bool) (l : List α) (w : α) (hw : w ∈ l) (hq : q w = true) (hp : p w = false) :
    (l.filter p).countP q < l.countP q := by
  induction l with
  | nil => simp at hw
  | cons a l ih =>
    have hle : ∀ m : List α, (m.filter p).countP q ≤ m.countP q := fun m => List.Sublist.countP_le List.filter_sublist
    rcases List.mem_cons.mp hw with rfl | hw
    · simpa [hp, hq] using Nat.lt_succ_of_le (hle l)
    · have := ih hw
      by_cases ha : p a = true
      · by_cases hb : q a = true <;> simp [ha, hb] <;> omega
      · by_cases hb : q a = true <;> simp [ha, hb] <;> omega

/-- Marking the waits of one party granted takes them out of the open ones. -/
theorem countP_mark (l : List SemWait) (h : Waiter) :
    (l.map (fun x => if x.who = h then { x with granted := true } else x)).countP (fun w => !w.granted)
      = (l.filter (fun x => x.who ≠ h)).countP (fun w => !w.granted) := by
  induction l with
  | nil => rfl
  | cons a l ih =>
    by_cases hh : a.who = h
    · simp [hh] at ih ⊢
      exact ih
    · by_cases hg : a.granted = true <;> simp [hh, hg] at ih ⊢ <;> exact ih

/-- A grant leaves fewer waits that have not been granted. -/
theorem openWaits_grant (k : Core) (w : SemWait) (hw : w ∈ k.waits) (hg : w.granted = false) :
    openWaits (k.grantWait w) < openWaits k := by
  have hlt : (k.waits.filter (fun x => x.who ≠ w.who)).countP (fun w => !w.granted) < openWaits k :=
    countP_filter_lt _ _ _ w hw (by simp [hg]) (by simp)
  unfold Core.grantWait
  split
  · refine Nat.lt_of_le_of_lt (Nat.le_of_eq ?_) hlt
    exact countP_mark k.waits w.who
  · unfold Core.dropWait openWaits
    split
    · rw [Core.setQueue_waits]
      exact hlt
    · exact hlt

/-- Granting from the first, with fuel for every wait, leaves none that its unit could grant (R121). -/
theorem woken_wakeWaits (fuel : Nat) (k : Core) (h : openWaits k ≤ fuel) : Woken k (wakeWaits fuel k) := by
  induction fuel generalizing k with
  | zero =>
    refine .rest (fun w hw hg => ?_)
    have := List.countP_eq_zero.mp (Nat.le_zero.mp h) w hw
    simp [hg] at this
  | succ n ih =>
    unfold wakeWaits
    split
    · rename_i hf
      refine .rest (fun w hw hg => ?_)
      have := List.find?_eq_none.mp hf w hw
      simp only [hg, Bool.not_false, Bool.true_and, decide_eq_true_eq] at this
      exact Nat.lt_of_not_le (fun hle => this (BitVec.le_def.mpr hle))
    · rename_i w hf
      obtain ⟨hp, before, after, hw, hb⟩ := List.find?_eq_some_iff_append.mp hf
      simp only [Bool.and_eq_true, Bool.not_eq_true', decide_eq_true_eq] at hp
      refine .grant before after w hw (fun u hu hg => ?_) hp.1 hp.2 (ih _ ?_)
      · have := hb u hu
        simp only [hg, Bool.not_false, Bool.true_and, Bool.not_eq_true', decide_eq_false_iff_not] at this
        exact Nat.lt_of_not_le (fun hle => this (BitVec.le_def.mpr hle))
      · have := openWaits_grant (k.setSem w.sem.toNat (k.semCount w.sem.toNat - k.waitCount w)) w (by simp [hw]) hp.1
        have h2 : openWaits (k.setSem w.sem.toNat (k.semCount w.sem.toNat - k.waitCount w)) = openWaits k := rfl
        omega

/-- What the semaphore unit does on a change of a count is Woken (R121). -/
theorem woken_wake (k : Core) : Woken k k.wake := woken_wakeWaits _ k List.countP_le_length

end Sys2Proof.Machine
end

