-- ==== Sys2Proof/Tests/Slice0.lean ====
section
/-! SUPPORT. Tests: words of the manual's tables decoded, ill-formed terms refused, single steps against the manual's own figures, and
for every statement with hypotheses states and operands that meet them, each clause at a boundary of its range. -/
namespace Sys2Proof.Tests

set_option Elab.async false
open Sys2Proof Sys2Proof.Machine

-- Small states

/-- The reset machine with core 0 as k, or with strand 0 of core 0 as x. -/
def atCore (k : Core) : State := State.reset.setCore 0 k
def atStrand (x : Strand) : State := State.reset.setStrand 0 0 x

/-- s with the page at 0x1_0000 of partition 0 mapped to the placed frame, for every access. -/
def mapped (s : State) : State := s.mapPlaced 0 0x1_0000

/-- s with fields (offset, bytes, value) of record 0 of partition 0 written. -/
def withRec (s : State) (l : List (Nat × Nat × Nat)) : State := l.foldl (fun s e => s.setRecField 0 0 e.1 e.2.1 e.2.2) s

/-- s with event 0 of partition 0 as e. -/
def withEvent (s : State) (e : Event) : State := s.setEvent 0 0 e

/-- A word that stands in a scalar queue with its operands. -/
def item (i : Instr) (a b : Word) : QItem := { id := 0, op := i, opa := a, opb := b }

/-- Strand 0 of core 0 with one word in its store queue, or its load queue. -/
def storing (i : Instr) (a b : Word) : State :=
  (atStrand { life := .running, stores := [item i a b] }).onCore 0 (fun k => { k with slotNo := 3 })
def loading (i : Instr) (a : Word) : State :=
  (atStrand { life := .running, loads := [item i a 0] }).onCore 0 (fun k => { k with slotNo := 3 })

/-- A strand with value v in register r. -/
def holding (r : BitVec 5) (v : Word) : Strand := ({ life := .running } : Strand).setSreg r v

/-- A core whose pool, of launch 0, has one partition of one slot of 256 bytes, standing as x. -/
def pooled (x : Slot) : Core :=
  { pool := some { launch := 0, parts := (Vector.replicate 8 ({} : PoolPart)).set 0 { count := 1, slots := [(0, x)] } }
    slotNo := 3, strands := (Vector.replicate 4 ({} : Strand)).set 0 { life := .running } }

/-- A team of two strands of launch 0 that has started, on core 0; strand 0 is as x and strand 1 as y. -/
def teamed (x y : Strand) : State :=
  atCore { team := some { launch := 0, index := 0, strands := 2, started := true }
           strands := ((Vector.replicate 4 ({} : Strand)).set 0 x).set 1 y }

/-- An answer of a check is this address. -/
def isOk (r : Except Trouble Nat) (a : Nat) : Bool := match r with | .ok b => a == b | .error _ => false

theorem ok_of_isOk {r : Except Trouble Nat} {a : Nat} (h : isOk r a = true) : r = .ok a := by
  cases r with
  | error e => cases h
  | ok b => simp [isOk] at h; rw [h]

/-- An answer of a check that is no address. -/
theorem error_of_not_ok {α : Type} {r : Except Trouble α} (h : (match r with | .ok _ => false | .error _ => true) = true) :
    ∃ w, r = .error w := by
  cases r with
  | error e => exact ⟨e, rfl⟩
  | ok b => cases h

/-- A kernel descriptor at physical 0x4000_0000, mapped at 0x1_0000, that record 0 names: one block in each engine's section. -/
def described (s : State) : State :=
  let s := s.setPage 0 0x1_0000 (0x4000_0000 + (s.placeBits 0x4000_0000) + 0x1F)
  let s := withRec s [(160, 8, 0x1_0000)]
  { s with mem := Memory.store s.mem 0x4000_0030 (leBytes 8 (1 + 2 ^ 16 + 2 ^ 32)) }

/-- A running V entry of strand 0 whose next word is word 0. -/
def vrun0 : VRun := { entry := placedEntry, b := Vector.replicate 8 0 }

/-- Core 0 with V entry r running, under a vshape, with the register tags that f gives, and n in its charge bucket. -/
def vecCore (shape : BitVec 32) (f : Nat → BitVec 4) (r : VRun) (n : Nat) : Core :=
  { strands := (Vector.replicate 4 ({} : Strand)).set 0 { life := .running, vshape := shape, tag := Vector.ofFn (fun i => f i.val) }
    vrun := some r, balance := n }

/-- May the running V entry of core 0 issue (R111)? -/
def mayV (k : Core) (r : VRun) : Bool :=
  k.landV == k && k.vrun == some r && !r.ended && r.flt == none && ((atCore k).strand (atCore k).focus r.entry.strand).stop == none

theorem may_of_mayV {k : Core} {r : VRun} (h : mayV k r = true) : MayIssueV (atCore k) k r := by
  simp only [mayV, Bool.and_eq_true, beq_iff_eq, Bool.not_eq_true'] at h
  exact ⟨h.1.1.1.1, h.1.1.1.2, h.1.1.2, h.1.2, h.2⟩

/-- What a word captured under a shape, with all lanes enabled. -/
def captured (shape : BitVec 32) (tagA tagB : BitVec 4) (vals : List VReg) : Capture :=
  { shape := shape, tagA := tagA, tagB := tagB, b := 0, regs := [], vals := vals, kval := BitVec.allOnes 1024 }

-- Decoding: a word of each row, its fields laid out as the opcode maps give them (R49 to R57).

theorem test_decode_s_alu : (∀ e ∈ ([
    (0x409AF400, .add 1 19 11 26),
    (0x409AF408, .sub 1 19 11 26),
    (0x409AF410, .and 1 19 11 26),
    (0x409AF418, .or 1 19 11 26),
    (0x409AF420, .xor 1 19 11 26),
    (0x409AF428, .andn 1 19 11 26),
    (0x409AF430, .shl 1 19 11 26),
    (0x409AF438, .shr 1 19 11 26),
    (0x409AF440, .sra 1 19 11 26),
    (0x409AF448, .mul 1 19 11 26),
    (0x409AF450, .mulh 1 19 11 26),
    (0x409AF458, .mulhn 1 19 11 26),
    (0x409AF460, .div 1 19 11 26),
    (0x409AF468, .divn 1 19 11 26),
    (0x409AF470, .rem 1 19 11 26),
    (0x409AF478, .remn 1 19 11 26),
    (0x409AF480, .min 1 19 11 26),
    (0x409AF488, .max 1 19 11 26),
    (0x409AF490, .minn 1 19 11 26),
    (0x409AF498, .maxn 1 19 11 26),
    (0x409AC0A0, .clz 1 19 11),
    (0x409AC0A8, .ctz 1 19 11),
    (0x409AC0B0, .popc 1 19 11),
    (0x409AF4B8, .addw 1 19 11 26),
    (0x409AF4C0, .subw 1 19 11 26),
    (0x419AF407, .sel 1 19 11 26 7)] : List (Code × Instr)),
    decode? .s e.1 = some e.2) := by
  decide +kernel

theorem test_decode_s_control_and_memory : (∀ e ∈ ([
    (0x421AF418, .cmp 1 3 11 26 3),
    (0x431AEDFF, .cmpi 1 3 11 2943 3),
    (0x4418C400, .gand 1 3 3 2),
    (0x4418C408, .gor 1 3 3 2),
    (0x4418C410, .gxor 1 3 3 2),
    (0x4418C418, .gandn 1 3 3 2),
    (0x45000104, .enter 1 260),
    (0x46000000, .leave 1),
    (0x489AEDFC, .addi 1 19 11 2943),
    (0x499AEDFC, .andi 1 19 11 2943),
    (0x4A9AEDFC, .ori 1 19 11 2943),
    (0x4B9AEDFC, .xori 1 19 11 2943),
    (0x4C9AC068, .shli 1 19 11 26),
    (0x4D9AC068, .shri 1 19 11 26),
    (0x4E9AC068, .srai 1 19 11 26),
    (0x4F9AEDFC, .addwi 1 19 11 2943),
    (0x509AEFF8, .ld 1 19 11 383 3),
    (0x519AEFF8, .ldn 1 19 11 383 3),
    (0x529AEFFD, .st 1 19 11 383 3 5),
    (0x53000000, .mark 1),
    (0x549AF4FE, .atm 1 19 11 26 7 3 6),
    (0x559AF415, .acas 1 19 11 26 2 5),
    (0x56E80000, .fence 1 3 5),
    (0x573BA7D0, .waitc 1 3 11 10 7 13),
    (0x58980102, .mfs 1 19 258),
    (0x5904C300, .mts 1 19 768),
    (0x5A000104, .sysc 1 260),
    (0x5B000104, .trap 1 260),
    (0x5C000000, .brk 1),
    (0x5D000000, .resume 1),
    (0x5E000000, .halt 1),
    (0x5F000003, .endK 1 3),
    (0x606C4753, .br 1 3 804691),
    (0x616C4753, .call 1 3 804691)] : List (Code × Instr)),
    decode? .s e.1 = some e.2) := by
  decide +kernel

theorem test_decode_s_units : (∀ e ∈ ([
    (0x6204C003, .jr 1 19 3),
    (0x6304C003, .callr 1 19 3),
    (0x6482F47D, .disp 1 2 11 26 7 13),
    (0x6504C00B, .semw 1 19 11),
    (0x6604C00B, .sems 1 19 11),
    (0x669AE000, .semsAddress 1 19 11),
    (0x6798000B, .semr 1 19 11),
    (0x6804C00B, .semi 1 19 11),
    (0x6904C000, .evw 1 19),
    (0x6A04C000, .evp 1 19),
    (0x6B04D600, .eva 1 19 11),
    (0x6C9AC000, .evt 1 19 11),
    (0x6D04C000, .qpost 1 19),
    (0x6E980000, .qtake 1 19),
    (0x6F04C000, .qdone 1 19),
    (0x7004D698, .lpat 1 19 11 19),
    (0x7104C000, .larm 1 19),
    (0x729AC000, .lwait 1 19 11),
    (0x739AF400, .talc 1 19 11 26),
    (0x7404C000, .tseal 1 19),
    (0x7504D600, .tdrop 1 19 11),
    (0x769AC000, .tadr 1 19 11),
    (0x779AC000, .tcnt 1 19 11),
    (0x789AC000, .tstat 1 19 11),
    (0x79980000, .ovpop 1 19),
    (0x7A04C000, .pwq 1 19),
    (0x7B000000, .pwrel 1),
    (0x7D3C4753, .lih 1 19 804691),
    (0x7F3C4753, .lihp 1 19 804691)] : List (Code × Instr)),
    decode? .s e.1 = some e.2) := by
  decide +kernel

theorem test_decode_v_lanewise : (∀ e ∈ ([
    (0x809AF400, .vadd true 19 11 26),
    (0x819AF400, .vsub true 19 11 26),
    (0x829AF400, .vmul true 19 11 26),
    (0x839AF400, .vmulh true 19 11 26),
    (0x849AF470, .vfma true 19 11 26 7),
    (0x859AF470, .vfms true 19 11 26 7),
    (0x869AF470, .vfnma true 19 11 26 7),
    (0x879AF400, .vmin true 19 11 26),
    (0x889AF400, .vmax true 19 11 26),
    (0x899AC000, .vabs true 19 11),
    (0x8A9AC000, .vneg true 19 11),
    (0x8B9AF400, .vadds true 19 11 26),
    (0x8C9AF400, .vsubs true 19 11 26),
    (0x8D9AF400, .vavg true 19 11 26),
    (0x8E9AF400, .vand true 19 11 26),
    (0x8F9AF400, .vor true 19 11 26),
    (0x909AF400, .vxor true 19 11 26),
    (0x919AF400, .vandn true 19 11 26),
    (0x929AC000, .vnot true 19 11),
    (0x939AF400, .vshl true 19 11 26),
    (0x949AF400, .vshr true 19 11 26),
    (0x959AF400, .vsra true 19 11 26),
    (0x969AC000, .vmov true 19 11),
    (0x979AF407, .vsel true 19 11 26 7),
    (0x981AF407, .vcmp true 3 11 26 7),
    (0x999AC000, .vclz true 19 11),
    (0x9A9AC000, .vpopc true 19 11),
    (0x9B9AF400, .vcpys true 19 11 26),
    (0xA09ACB7F, .vaddi true 19 11 2943),
    (0xA19ACB7F, .vmuli true 19 11 2943),
    (0xA29ACB7F, .vandi true 19 11 2943),
    (0xA39ACB7F, .vori true 19 11 2943),
    (0xA49ACB7F, .vxori true 19 11 2943),
    (0xA59AC01A, .vshli true 19 11 26),
    (0xA69AC01A, .vshri true 19 11 26),
    (0xA79AC01A, .vsrai true 19 11 26),
    (0xA8980753, .vspli true 19 1875),
    (0xA9980753, .viota true 19 1875),
    (0xAA980003, .vsplb true 19 3),
    (0xB09AC00B, .vcvt true 19 11 11),
    (0xB19AC000, .vwid true 19 11),
    (0xB29AC000, .vnar true 19 11),
    (0xB39AF400, .vqnt true 19 11 26)] : List (Code × Instr)),
    decode? .v e.1 = some e.2) := by
  decide +kernel

theorem test_decode_v_cross_lane : (∀ e ∈ ([
    (0xB49AF400, .vdqn true 19 11 26),
    (0xB59AC000, .vrnd true 19 11),
    (0xB89AF400, .vperm true 19 11 26),
    (0xB99AC37F, .vbcst true 19 11 895),
    (0xBA9AC37F, .vslup true 19 11 895),
    (0xBB9AC37F, .vsldn true 19 11 895),
    (0xBC9AC000, .vrev true 19 11),
    (0xBD9AC000, .vcmpr true 19 11),
    (0xBE9AC000, .vexpn true 19 11),
    (0xBF9AC000, .vscan true 19 11),
    (0xC09AC000, .vrsum true 19 11),
    (0xC19AC000, .vrmin true 19 11),
    (0xC29AC000, .vrmax true 19 11),
    (0xC39AF400, .vdot4 true 19 11 26),
    (0xC89AC000, .vrcp true 19 11),
    (0xC99AC000, .vrsq true 19 11),
    (0xCA9AC000, .vsqrt true 19 11),
    (0xCB9AF400, .vdivf true 19 11 26),
    (0xCC9AC000, .vexp2 true 19 11),
    (0xCD9AC000, .vlog2 true 19 11),
    (0xCE9AC000, .vsin true 19 11),
    (0xCF9AC000, .vtanh true 19 11),
    (0xD09B5BFF, .vld true 19 3 2943 7),
    (0xD19B5BFF, .vldc true 19 3 2943 7)] : List (Code × Instr)),
    decode? .v e.1 = some e.2) := by
  decide +kernel

theorem test_decode_v_memory_and_masks : (∀ e ∈ ([
    (0xD29B5BFF, .vst true 19 3 2943 7),
    (0xD39BD66E, .vldx true 19 3 26 3 13 6),
    (0xD49BD66E, .vstx true 19 3 26 3 13 6),
    (0xD59B5BFF, .vlds true 19 3 2943 7),
    (0xD69BD64E, .vatm true 19 3 26 3 9 6),
    (0xD7000000, .vmark true),
    (0xD8000013, .tkw true 19),
    (0xE06D0000, .kand true 3 3 2),
    (0xE16D0000, .kor true 3 3 2),
    (0xE26D0000, .kxor true 3 3 2),
    (0xE36D0000, .kandn true 3 3 2),
    (0xE46C0000, .knot true 3 3),
    (0xE5600000, .kset true 3),
    (0xE698C000, .kpop true 19 3),
    (0xE76C0000, .kmov true 3 3),
    (0xE86C4753, .vbli true 3 804691),
    (0xE96C4753, .vbadd true 3 804691),
    (0xEA600003, .vbmov true 3 3),
    (0xEB600000, .vshp true 3),
    (0xEC600000, .vshpb true 3),
    (0xED600000, .vflg true 3),
    (0xEE000000, .vnop true),
    (0xF0993800, .go2d true 19 4 28),
    (0xF19F6E00, .go3d true 19 29 23),
    (0xF29FB400, .gic true 19 30 26),
    (0xF39F6800, .gis true 19 29 20),
    (0xF4983000, .gsx true 19 24)] : List (Code × Instr)),
    decode? .v e.1 = some e.2) := by
  decide +kernel

theorem test_decode_m : (∀ e ∈ ([
    (0x80000000, .mnop true),
    (0x87000000, .mzro true 3),
    (0x8BBAF200, .mma true 3 11 10 true true true true 1),
    (0x8FB0D794, .mdrn true 3 11 13 7 2 5),
    (0x93B00000, .mlda true 3 11),
    (0x97B00000, .msta true 3 11),
    (0x98EE8000, .meadd true 3 11 10),
    (0x9CCC4753, .meli true 3 804691),
    (0xA0EC0000, .memov true 3 11),
    (0xA4DD4C00, .mrep true 3 1875)] : List (Code × Instr)),
    decode? .m e.1 = some e.2) := by
  decide +kernel

theorem test_decode_x : (∀ e ∈ ([
    (0x80000000, .xnop true),
    (0x84EEB000, .xcpy true 3 11 10 true true),
    (0x88EEA800, .xten true 3 11 10 2 true),
    (0x8CEE8000, .xfil true 3 11 10),
    (0x90EE8000, .xgat true 3 11 10),
    (0x94EE8000, .xsct true 3 11 10),
    (0x98EEB800, .xbrd true 3 11 10 7),
    (0x9CEEA000, .xred true 3 11 10 true),
    (0xA0EC0000, .xsig true 3 11),
    (0xA4C00000, .xrfl true 3),
    (0xA8EE8000, .xalc true 3 11 10),
    (0xAC000000, .xmrk true),
    (0xB0EE8000, .xeadd true 3 11 10),
    (0xB4CC4753, .xeli true 3 804691),
    (0xB8EC0000, .xemov true 3 11),
    (0xBCDD4C00, .xrep true 3 1875)] : List (Code × Instr)),
    decode? .x e.1 = some e.2) := by
  decide +kernel
/-- The words that the manual gives beside its tables: "Words worked out" (R46), R109, R117, R168, R198, R249, R257, R276, R284, R289. -/
theorem test_decode_worked_s : (∀ e ∈ ([
    (0x24800861, .disp 0 2 0 4 6 1), (0x24400CA3, .disp 0 1 0 6 10 3), (0x1259801A, .st 0 11 6 0 3 2), (0x17FFFF10, .waitc 0 15 15 15 15 1),
    (0x43124000, .cmpi 1 2 9 0 0), (0x1C000000, .brk 0), (0x01000004, .sel 0 0 0 0 4), (0x25004016, .semw 0 1 22),
    (0x2600400D, .sems 0 1 13), (0x26386000, .semsAddress 0 7 1), (0x27280003, .semr 0 5 3), (0x28000014, .semi 0 0 20),
    (0x16480000, .fence 0 1 1), (0x38488000, .tstat 0 9 2), (0x79500000, .ovpop 1 10), (0x1249C030, .st 0 9 7 1 2 0),
    (0x1251C038, .st 0 10 7 1 3 0), (0x333A0000, .talc 0 7 8 0), (0x3401C000, .tseal 0 7), (0x3501D200, .tdrop 0 7 9),
    (0x3651C000, .tadr 0 10 7), (0x3759C000, .tcnt 0 11 7), (0x30010A00, .lpat 0 4 5 0), (0x30010A40, .lpat 0 4 5 8),
    (0x31010000, .larm 0 4), (0x32310000, .lwait 0 6 4), (0x2D010000, .qpost 0 4), (0x2E280000, .qtake 0 5),
    (0x2F014000, .qdone 0 5), (0x29010000, .evw 0 4), (0x2A00C000, .evp 0 3), (0x2B021200, .eva 0 8 9), (0x2C520000, .evt 0 10 8)] :
    List (Code × Instr)), decode? .s e.1 = some e.2) := by
  decide +kernel

theorem test_decode_worked_engines :
    (∀ e ∈ ([(0x04304430, .vfma false 6 1 2 3), (0xD0280042, .vld true 5 0 8 2), (0x49000000, .vrsq false 0 0), (0x74000000, .gsx false 0 0),
      (0x70B10000, .go2d false 22 4 0), (0x71824000, .go3d false 16 9 0), (0x72A18000, .gic false 20 6 0), (0x73C30000, .gis false 24 12 0),
      (0x74400000, .gsx false 8 0)] : List (Code × Instr)), decode? .v e.1 = some e.2)
    ∧ (∀ e ∈ ([(0x09231400, .mma false 1 2 3 false false false true 2), (0x04000000, .mzro false 0),
      (0x88011000, .mma true 0 0 1 false false false true 0), (0x1CC06000, .meli false 3 24576), (0x1880C000, .meadd false 2 0 3),
      (0x8C20B240, .mdrn true 0 2 11 2 1 0)] : List (Code × Instr)), decode? .m e.1 = some e.2)
    ∧ (∀ e ∈ ([(0x34801140, .xeli false 2 4416), (0x84408000, .xcpy true 1 0 2 false false), (0, .xnop false), (0x30CD0000, .xeadd false 3 3 4),
      (0x34804000, .xeli false 2 16384), (0x39440000, .xemov false 5 1), (0x3C802000, .xrep false 2 8)] : List (Code × Instr)),
      decode? .x e.1 = some e.2) := by
  decide +kernel

/-- The values that "Words worked out" gives as illegal, by the item of R43 that they break. -/
theorem test_decode_illegal :
    (match decode .s 0x07000000 with | .error e => e == .unallocated | .ok _ => false) = true
    ∧ (match decode .s 0x000001F8 with | .error e => e == .badFunction | .ok _ => false) = true
    ∧ (match decode .s 0x18004000 with | .error e => e == .reservedField | .ok _ => false) = true
    ∧ decode? .v 0x74007200 = none ∧ decode? .v 0x74004A00 = none ∧ decode? .m 0x0C000080 = none
    ∧ (match decode .x 0x40000000 with | .error e => e == .unallocated | .ok _ => false) = true := by
  decide +kernel

-- Well-formedness: an ill-formed term for each check, and the boundary it fails beyond

/-- S words (R49 to R52): conditions, guard destinations, operations and sizes of atomics, scopes, engines, fields, system registers. -/
theorem test_wf_scalar :
    (∀ i ∈ [Instr.cmp 0 1 0 0 6, .cmp 0 0 0 0 5, .cmpi 0 0 0 0 3, .gand 0 0 1 1, .gor 0 0 1 1, .gxor 0 0 1 1, .gandn 0 0 1 1,
      .atm 0 1 1 1 10 3 0, .atm 0 1 1 1 9 3 0, .atm 0 1 1 1 8 1 0, .acas 0 1 1 1 1 0, .fence 0 3 6, .disp 0 3 0 0 0 0, .lpat 0 0 0 20,
      .mfs 0 0 0x004, .mfs 0 0 0x103, .mts 0 0 0x211, .mts 0 0 0x342], i.wf = false)
    ∧ ∀ i ∈ [Instr.cmp 0 1 0 0 5, .atm 0 1 1 1 9 2 0, .atm 0 1 1 1 8 2 0, .acas 0 1 1 1 2 0, .fence 0 3 5, .disp 0 2 0 0 0 0, .lpat 0 0 0 19,
      .mfs 0 0 0x003, .mfs 0 0 0x102, .mts 0 0 0x210, .mts 0 0 0x341], i.wf = true := by
  decide +kernel

/-- V words (R53 to R55): conditions and mask destinations, source types, b7 of VLDS, atomics, token masks, groups past v31. -/
theorem test_wf_vector :
    (∀ i ∈ [Instr.vcmp true 1 0 0 8, .vcmp true 0 0 0 7, .vcvt true 0 0 0, .vcvt true 0 0 15, .vlds true 0 7 0 0, .vatm true 0 0 0 0 10 0,
      .tkw true 0, .kand true 0 1 1, .kor true 0 1 1, .kxor true 0 1 1, .kandn true 0 1 1, .knot true 0 1, .kset true 0, .kmov true 0 1,
      .go2d true 0 31 0, .go2d true 0 0 29, .go3d true 0 30 0, .go3d true 0 0 24, .gic true 0 31 0, .gic true 0 0 27, .gis true 0 30 0,
      .gis true 0 0 21, .gsx true 0 25], i.wf = false)
    ∧ ∀ i ∈ [Instr.vcmp true 1 0 0 7, .vcvt true 0 0 14, .vlds true 0 6 0 0, .vatm true 0 0 0 0 9 0, .tkw true 1, .go2d true 0 30 28,
      .go3d true 0 29 23, .gic true 0 30 26, .gis true 0 29 20, .gsx true 0 24], i.wf = true := by
  decide +kernel

/-- M and X words (R56, R57): drain modes and types, repeats of nothing, layout modes, broadcasts to nobody. -/
theorem test_wf_matrix_transfer :
    (∀ i ∈ [Instr.mdrn true 0 0 11 0 3 0, .mdrn true 0 0 8 0 0 0, .mdrn true 0 0 11 0 2 0, .mdrn true 0 0 11 0 0 1, .mrep true 0 1, .mrep true 1 0,
      .xten true 0 0 0 3 true, .xbrd true 0 0 0 0, .xrep true 0 1, .xrep true 1 0], i.wf = false)
    ∧ ∀ i ∈ [Instr.mdrn true 0 0 13 0 2 1, .mdrn true 0 0 11 0 1 0, .mdrn true 0 0 7 0 0 1, .mrep true 1 1, .xten true 0 0 0 2 true,
      .xbrd true 0 0 0 1, .xrep true 1 1], i.wf = true := by
  decide +kernel

/-- Device steps (R9): a core past the last, a unit that no core has, a cluster past the last, a link from a die to itself, a clock out
of range. -/
theorem test_wf_device :
    (∀ i ∈ [Instr.sqForcedSwitch 3072, .fixedLatencyWriteLands 0 5, .poolstall 0 5, .teamEntryGenerate 0 0 384, .scalarLoadComplete 3072 0 false,
      .storeQueuePerform 3072 ⟨0, false⟩, .entryHeadWait 3072 .v, .entryStart 3072 .v, .entryCompletion 3072 .v, .tokenComplete 3072 .load false none,
      .mStepFinish 3072 0 ⟨false, none⟩, .transferMovePhaseDone 3072 0 false none, .consumingCheck 3072 .v 0 0, .consumingCount 3072 .v 0 0,
      .kernelStart 3072, .teamTake 3072, .teamSwap 3072, .stopDelivery 3072 0, .watchdog 3072 0, .recordReissue 3072 0, .partitionClear 3072],
      i.wf = false)
    ∧ (∀ i ∈ [Instr.eccUncorrectable (.cluster 0) 3072 0, .hostReadErrorCompletion 3072 0, .hostReadTimeout 3072 0, .linkReplayFail 1 1,
      .linkReplayFail 0 5, .windowRegisterWrite 3072 0 0, .windowVregWrite 3072 0 0 0, .windowTagWrite 3072 0 0, .semaphoreWindowStore 3072 0 0,
      .accumulatorWindowAccess 3072 0 none, .dbgctlLull 3072 true, .dbgctlCut 3072 true, .cutHaltTimeout 3072 0, .trctlEnable 3072 true 0,
      .trctlErrClear 3072, .illegalEngineWord 3072 .v, .emptySlot 3072 0, .dieFrequencyChange 0 399, .dieFrequencyChange 0 1001], i.wf = false)
    ∧ ∀ i ∈ [Instr.sqForcedSwitch 3071, .fixedLatencyWriteLands 0 4, .poolstall 0 4, .teamEntryGenerate 0 0 383, .linkReplayFail 0 4,
      .dieFrequencyChange 0 400, .dieFrequencyChange 0 1000, .packageReset], i.wf = true := by
  decide +kernel

-- Hypotheses of the statements on scalar words

/-- Branches: a guard that is false, one that is true; a target that is a multiple of 4 and one that is not, of a branch and of a jump. -/
theorem test_hyp_Branches :
    (atStrand {}).cur.guard 1 = false ∧ (atStrand {}).cur.guard 0 = true
    ∧ ((atStrand {}).cur.pc + ((0x1F_FFFF : BitVec 21) ++ 0#2).signExtend 64).extractLsb' 0 2 = 0
    ∧ ((atStrand { pc := 2 }).cur.pc + ((1 : BitVec 21) ++ 0#2).signExtend 64).extractLsb' 0 2 ≠ 0
    ∧ ((atStrand (holding 1 0xFFFC)).cur.sreg 1).extractLsb' 0 2 = 0 ∧ ((atStrand (holding 1 3)).cur.sreg 1).extractLsb' 0 2 ≠ 0 := by
  decide +kernel

/-- ResultsLand: a strand that owes one empty slot, one that owes none, and one that does not run. -/
theorem test_hyp_ResultsLand :
    (let x := (atStrand { life := .running, owed := 1 }).strand 0 0; x.life = .running ∧ 0 < x.owed)
    ∧ (let x := (atStrand { life := .running }).strand 0 0; x.life ≠ .running ∨ x.owed = 0)
    ∧ (let x := (atStrand { life := .stopped, owed := 1 }).strand 0 0; x.life ≠ .running ∨ x.owed = 0) := by
  decide +kernel

/-- QueueWordsEnter: both values of a guard, room in a queue of fifteen and none in one of sixteen, an address that names a semaphore,
the last of core 0, and one that names none. -/
theorem test_hyp_QueueWordsEnter :
    (atStrand {}).cur.guard 0 = true ∧ (atStrand {}).cur.guard 4 = false
    ∧ noRoom { stores := List.replicate 15 (item (.larm 0 0) 0 0) } false = false
    ∧ noRoom { stores := List.replicate 16 (item (.larm 0 0) 0 0) } false = true
    ∧ (match semTarget (atStrand (holding 1 0x1000_0030_13FC)) 0 ((atStrand (holding 1 0x1000_0030_13FC)).cur.sreg 1).toNat with
        | .ok d => d == (0, 255) | .error _ => false) = true
    ∧ (match semTarget (atStrand (holding 1 0x1000_0030_1400)) 0 ((atStrand (holding 1 0x1000_0030_1400)).cur.sreg 1).toNat with
        | .ok _ => false | .error w => w.cause == .window) = true := by
  decide +kernel

/-- A strand with a fence numbered 1 between an access in each queue that it follows or precedes. -/
def fenced (i : Instr) (loads stores : List (Nat × Instr)) : Strand :=
  let q (e : Nat × Instr) : QItem := { id := e.1, op := e.2, opa := 0, opb := 0 }
  { life := .running, fences := [{ id := 1, op := i }], loads := loads.map q, stores := stores.map q, nextId := 3 }

/-- FencesAndWaits: room in both queues and none in one, with the latest access older than the fence; a later load and a later store at the
head of their queues with an earlier atomic outstanding, for every kind of fence; a counter at its limit and one above it. -/
theorem test_hyp_FencesAndWaits :
    (let y : Strand := { loads := List.replicate 15 (item (.ld 0 1 0 0 0) 0 0), nextId := 1 };
      noRoom y true = false ∧ noRoom y false = false ∧ ∀ q ∈ y.loads ++ y.stores, q.id < y.nextId)
    ∧ (let y : Strand := { loads := List.replicate 16 (item (.ld 0 1 0 0 0) 0 0) }; ¬ (noRoom y true = false ∧ noRoom y false = false))
    ∧ (fires {} { id := 0, op := .fence 0 0 3 } ∧ 3 ≤ acquireScope { id := 0, op := .fence 0 0 3 })
    ∧ (∀ i ∈ [Instr.mark 0, .fence 0 0 3, .fence 0 2 1, .fence 0 3 5],
      let z := (atStrand (fenced i [(2, .ld 0 1 2 0 3)] [(0, .atm 0 1 2 3 0 3 0)])).strand 0 0;
      true ∈ z.earlier 1 ∧ z.loads.head?.map (·.id) = some 2)
    ∧ (∀ i ∈ [Instr.mark 0, .fence 0 0 3, .fence 0 1 3, .fence 0 2 1, .fence 0 3 5],
      let z := (atStrand (fenced i [(0, .ld 0 1 2 0 3)] [(2, .st 0 1 2 0 3 0)])).strand 0 0;
      true ∈ z.earlier 1 ∧ z.stores.head?.map (·.id) = some 2)
    ∧ (let x := (atStrand { cntX := 2 }).cur; ((2 : BitVec 4) = 15 ∨ x.cntX ≤ (2 : BitVec 4).toNat))
    ∧ (let x := (atStrand { cntX := 2 }).cur; ¬ ((1 : BitVec 4) = 15 ∨ x.cntX ≤ (1 : BitVec 4).toNat)) := by
  refine ⟨?_, ?_, ⟨?_, ?_⟩, ?_, ?_, ?_, ?_⟩
  case refine_3 => exact (by decide : true ∉ ([] : List Bool))
  all_goals decide +kernel

/-- LoadsAndStoresPerform: the last doubleword of a mapped page, loaded and stored, and a scalar register's place in a window. -/
theorem test_hyp_LoadsAndStoresPerform :
    (let s := mapped (loading (.ld 0 1 2 0 3) 0x1_FFF8);
      loadReady s 0 0 (item (.ld 0 1 2 0 3) 0x1_FFF8 0) ∧ s.scalarTarget 0 0x1_FFF8 8 .load true = .ok 0x2000_FFF8 ∧ s.tileBusy 0x2000_FFF8 = false)
    ∧ (let s := (mapped (storing (.st 0 1 2 0 3 0) 0x1_FFF8 5)).ahead 0 0 (item (.st 0 1 2 0 3 0) 0x1_FFF8 5) false;
      storeReady s 0 0 (item (.st 0 1 2 0 3 0) 0x1_FFF8 5) ∧ s.scalarTarget 0 0x1_FFF8 8 .store true = .ok 0x2000_FFF8
        ∧ s.tileBusy 0x2000_FFF8 = false ∧ s.portShut 0 0x2000_FFF8 = false)
    ∧ (let s := (storing (.st 0 1 2 0 3 0) 0x1000_0030_0008 5).ahead 0 0 (item (.st 0 1 2 0 3 0) 0x1000_0030_0008 5) false;
      storeReady s 0 0 (item (.st 0 1 2 0 3 0) 0x1000_0030_0008 5) ∧ s.scalarTarget 0 0x1000_0030_0008 8 .store true = .ok 0x1000_0030_0008
        ∧ s.tileBusy 0x1000_0030_0008 = false ∧ s.portShut 0 0x1000_0030_0008 = false) := by
  refine ⟨⟨⟨?_, ?_, ?_, ?_⟩, ok_of_isOk ?_, ?_⟩, ⟨⟨?_, ?_, ?_, ?_⟩, ok_of_isOk ?_, ?_, ?_⟩, ⟨?_, ?_, ?_, ?_⟩, ok_of_isOk ?_, ?_, ?_⟩ <;> decide +kernel

/-- AtomicsPerform: an atomic and a compare-and-swap on the last words of a mapped page; a halfword at an odd address, loaded and stored. -/
theorem test_hyp_AtomicsPerform :
    (let s := (mapped (storing (.atm 0 1 2 3 9 2 0) 0x1_FFFC 5)).ahead 0 0 (item (.atm 0 1 2 3 9 2 0) 0x1_FFFC 5) false;
      storeReady s 0 0 (item (.atm 0 1 2 3 9 2 0) 0x1_FFFC 5) ∧ s.scalarTarget 0 0x1_FFFC 4 .atomic true = .ok 0x2000_FFFC
        ∧ s.portShut 0 0x2000_FFFC = false)
    ∧ (let s := (mapped (storing (.acas 0 1 2 3 3 0) 0x1_FFF8 5)).ahead 0 0 (item (.acas 0 1 2 3 3 0) 0x1_FFF8 5) false;
      storeReady s 0 0 (item (.acas 0 1 2 3 3 0) 0x1_FFF8 5) ∧ s.scalarTarget 0 0x1_FFF8 8 .atomic true = .ok 0x2000_FFF8
        ∧ s.portShut 0 0x2000_FFF8 = false) := by
  refine ⟨⟨⟨?_, ?_, ?_, ?_⟩, ok_of_isOk ?_, ?_⟩, ⟨?_, ?_, ?_, ?_⟩, ok_of_isOk ?_, ?_⟩ <;> decide +kernel

theorem test_hyp_AtomicsPerform_misaligned :
    (let s := loading (.ldn 0 1 2 0 1) 0x1_0001;
      0x1_0001 % 2 ^ 48 % 2 ^ (1 : BitVec 2).toNat ≠ 0 ∧ loadReady s 0 0 (item (.ldn 0 1 2 0 1) 0x1_0001 0))
    ∧ (let s := (storing (.st 0 1 2 0 1 0) 0x1_0001 5).ahead 0 0 (item (.st 0 1 2 0 1 0) 0x1_0001 5) false;
      0x1_0001 % 2 ^ 48 % 2 ^ (1 : BitVec 2).toNat ≠ 0 ∧ storeReady s 0 0 (item (.st 0 1 2 0 1 0) 0x1_0001 5)) := by
  refine ⟨⟨?_, ?_, ?_, ?_, ?_⟩, ⟨?_, ?_, ?_, ?_, ?_⟩⟩ <;> decide +kernel

/-- SemaphoreWords: the largest sum that fits and the first that does not, a replacement, a semaphore by address whose
sum fits and one whose sum does not. -/
theorem test_hyp_SemaphoreWords :
    (let s := ((storing (.sems 0 1 3) 0xFFFF_FFFF 0)).ahead 0 0 (item (.sems 0 1 3) 0xFFFF_FFFF 0) false; storeReady s 0 0 (item (.sems 0 1 3) 0xFFFF_FFFF 0)
      ∧ ((s.core 0).semCount 3).toNat + 0xFFFF_FFFF < 2 ^ 32)
    ∧ (let s := ((storing (.sems 0 1 3) 0xFFFF_FFFF 0).onCore 0 (fun k => k.setSem 3 1)).ahead 0 0 (item (.sems 0 1 3) 0xFFFF_FFFF 0) false; storeReady s 0 0 (item (.sems 0 1 3) 0xFFFF_FFFF 0)
      ∧ 2 ^ 32 ≤ ((s.core 0).semCount 3).toNat + 0xFFFF_FFFF)
    ∧ (let s := (storing (.semi 0 1 3) 7 0).ahead 0 0 (item (.semi 0 1 3) 7 0) false; storeReady s 0 0 (item (.semi 0 1 3) 7 0))
    ∧ (let s := (storing (.semsAddress 0 7 1) 0x1000_0030_1000 1).ahead 0 0 (item (.semsAddress 0 7 1) 0x1000_0030_1000 1) false; storeReady s 0 0 (item (.semsAddress 0 7 1) 0x1000_0030_1000 1)
      ∧ (match semTarget s 0 0x1000_0030_1000 with | .ok d => d == (0, 0) | .error _ => false) = true ∧ s.portClosed 0 0 = false)
    ∧ (let s := ((storing (.semsAddress 0 7 1) 0x1000_0030_1000 0xFFFF_FFFF).onCore 0 (fun k => k.setSem 0 1)).ahead 0 0 (item (.semsAddress 0 7 1) 0x1000_0030_1000 0xFFFF_FFFF) false;
      storeReady s 0 0 (item (.semsAddress 0 7 1) 0x1000_0030_1000 0xFFFF_FFFF) ∧ 2 ^ 32 ≤ ((s.core 0).semCount 0).toNat + 0xFFFF_FFFF) := by
  refine ⟨⟨⟨?_, ?_, ?_, ?_⟩, ?_⟩, ⟨⟨?_, ?_, ?_, ?_⟩, ?_⟩, ⟨?_, ?_, ?_, ?_⟩, ⟨⟨?_, ?_, ?_, ?_⟩, ?_, ?_⟩, ⟨?_, ?_, ?_, ?_⟩, ?_⟩ <;> decide +kernel

/-- SemaphoreWords, SEMW: a grant of the whole count with a far release noted; a wait for one more; one behind an earlier wait that could be
granted; and one that the unit has granted. -/
theorem test_hyp_SemaphoreWords_wait :
    (let s := (atStrand (holding 1 5)).onCore 0 (fun k => { k.setSem 3 5 with semFar := [(3, true)] });
       let k := s.core 0;
       (s.cur.sreg 1).toNat % 2 ^ 32 ≤ (k.semCount 3).toNat ∧ k.waits = [] ∧ Sparse.get false k.semFar 3 = true)
    ∧ (let s := (atStrand (holding 1 6)).onCore 0 (fun k => k.setSem 3 5);
       ¬ ((s.cur.sreg 1).toNat % 2 ^ 32 ≤ ((s.core 0).semCount 3).toNat) ∧ (s.core 0).waits = [])
    ∧ (let s := (atStrand (holding 1 5)).onCore 0 (fun k => { k.setSem 3 5 with waits := [{ sem := 3, who := .head .v, n := 5 }] });
       ¬ ∀ w ∈ (s.core 0).waits.takeWhile (fun w => w.who ≠ .strand 0), w.sem = 3 → w.granted = false → 5 < ((s.core 0).waitCount w).toNat)
    ∧ (let s := (atStrand (holding 1 5)).onCore 0 (fun k => { k with waits := [{ sem := 3, who := .strand 0, n := 5, granted := true }] });
       ∃ w ∈ (s.core 0).waits, w.who = .strand 0 ∧ w.granted = true) := by
  decide +kernel

/-- EventAndTaskWords, events: posting and arming a reserved event and a name that is not reserved; an event that is set, poisoned, or neither. -/
theorem test_hyp_EventAndTaskWords_events :
    (let s := (withEvent (storing (.evp 0 1) 0 0) { count := 1 }).ahead 0 0 (item (.evp 0 1) 0 0) false; storeReady s 0 0 (item (.evp 0 1) 0 0) ∧ s.event (s.partOf 0) 0 = some { count := 1 })
    ∧ (let s := (storing (.evp 0 1) 0xFFFF 0).ahead 0 0 (item (.evp 0 1) 0xFFFF 0) false; storeReady s 0 0 (item (.evp 0 1) 0xFFFF 0) ∧ s.event (s.partOf 0) 0xFFFF = none)
    ∧ (let s := (withEvent (storing (.eva 0 1 2) 0 3) {}).ahead 0 0 (item (.eva 0 1 2) 0 3) false; storeReady s 0 0 (item (.eva 0 1 2) 0 3) ∧ s.event (s.partOf 0) 0 = some {})
    ∧ (let s := (storing (.eva 0 1 2) 0 3).ahead 0 0 (item (.eva 0 1 2) 0 3) false; storeReady s 0 0 (item (.eva 0 1 2) 0 3) ∧ s.event (s.partOf 0) 0 = none)
    ∧ (∀ e ∈ [({ set := true } : Event), { poison := true }, {}], (withEvent (atStrand {}) e).event 0 0 = some e)
    ∧ (atStrand {}).event 0 0 = none := by
  refine ⟨⟨⟨?_, ?_, ?_, ?_⟩, ?_⟩, ⟨⟨?_, ?_, ?_, ?_⟩, ?_⟩, ⟨⟨?_, ?_, ?_, ?_⟩, ?_⟩, ⟨⟨?_, ?_, ?_, ?_⟩, ?_⟩, ?_, ?_⟩ <;> decide +kernel

/-- A record of partition 0 that may be armed: VERSION 1, one level of extent 1. -/
def recIdle : List (Nat × Nat × Nat) := [(0, 1, 1), (2, 1, 1), (80, 4, 1)]

/-- RecordWords: the last field of an IDLE record and an ARMED one; an arming that its extents allow, the same with an extent one too large,
with bindings out of order, and with an extent of 0; a record that is not there; and LWAIT on a record that is IDLE, DONE, RUNNING and not
usable. -/
theorem test_hyp_RecordWords :
    (let s := (withRec (storing (.lpat 0 1 2 19) 0 7) recIdle).ahead 0 0 (item (.lpat 0 1 2 19) 0 7) false; storeReady s 0 0 (item (.lpat 0 1 2 19) 0 7)
      ∧ recBytes s 0 0 0 1 = [1] ∧ leValue (recBytes s 0 0 1 1) = 0)
    ∧ (let s := (withRec (storing (.lpat 0 1 2 19) 0 7) [(0, 1, 1), (1, 1, 1)]).ahead 0 0 (item (.lpat 0 1 2 19) 0 7) false; storeReady s 0 0 (item (.lpat 0 1 2 19) 0 7)
      ∧ leValue (recBytes s 0 0 1 1) ≠ 0)
    ∧ (∀ e ∈ [(recIdle, [(1, 0)]), (recIdle ++ [(80, 4, 65537)], [(65537, 0)]), (recIdle ++ [(80, 4, 0)], [(0, 0)]),
        ([(0, 1, 1), (2, 1, 2), (80, 4, 1), (84, 4, 1), (112, 1, 4), (113, 1, 3)], [(1, 4), (1, 3)])],
      let s := ((withRec (storing (.larm 0 1) 0 0) e.1)).ahead 0 0 (item (.larm 0 1) 0 0) false; let r := s.release 0 4;
      storeReady s 0 0 (item (.larm 0 1) 0 0) ∧ recBytes r 0 0 0 1 = [1] ∧ leValue (recBytes r 0 0 1 1) = 0 ∧ r.recShape 0 0 = e.2)
    ∧ bindOrder [4, 3] = false
    ∧ (let s := (storing (.larm 0 1) 1024 0).ahead 0 0 (item (.larm 0 1) 1024 0) false; storeReady s 0 0 (item (.larm 0 1) 1024 0) ∧ ¬ (1024 < 1024 ∧ recBytes s 0 1024 0 1 = [1]))
    ∧ (∀ n ∈ [0, 2, 3], let s := withRec (atStrand {}) [(0, 1, 1), (1, 1, n)]; recBytes s 0 0 0 1 = [1] ∧ leValue (recBytes s 0 0 1 1) = n)
    ∧ recBytes (atStrand {}) 0 0 0 1 ≠ [1] := by
  refine ⟨⟨⟨?_, ?_, ?_, ?_⟩, ?_, ?_⟩, ⟨⟨?_, ?_, ?_, ?_⟩, ?_⟩, ?_, ?_, ⟨⟨?_, ?_, ?_, ?_⟩, ?_⟩, ?_, ?_⟩
  case refine_12 =>
    intro e h
    simp only [List.mem_cons, List.not_mem_nil, or_false] at h
    rcases h with rfl | rfl | rfl | rfl <;> (refine ⟨⟨?_, ?_, ?_, ?_⟩, ?_, ?_, ?_⟩ <;> decide +kernel)
  all_goals decide +kernel

/-- A task record that names no event and its poster's own cluster (R283). -/
def taskRec : List Byte := leBytes 64 (0xFFFF_0000_FFFF_FFFF * 2 ^ 256)

/-- EventAndTaskWords, tasks: a post at the last 64 bytes of a mapped page beside 511 tasks, completions of no event and of event 0, and a task to take and
none. -/
theorem test_hyp_EventAndTaskWords_tasks :
    (let s := mapped (storing (.qpost 0 1) 0x1_FFC0 0);
     let s := ({ s with mem := Memory.store s.mem 0x2000_FFC0 taskRec }.onCluster 0 (fun k => { k with bank := List.replicate 511 (.task 0 0 0 []) })).ahead 0 0 (item (.qpost 0 1) 0x1_FFC0 0) false;
      storeReady s 0 0 (item (.qpost 0 1) 0x1_FFC0 0) ∧ resolve s 0 0x1_FFC0 .load true = .ok 0x2000_FFC0 ∧ isHbm 0x2000_FFC0 = true
        ∧ taskBad s 0 0 (Memory.bytes (s.release 0 4).mem 0x2000_FFC0 64) = false
        ∧ taskTarget 0 (taskField (Memory.bytes (s.release 0 4).mem 0x2000_FFC0 64) 38 2) = 0
        ∧ (s.cluster 0).bank.length < 512 ∧ s.linkDown 0 0 = false ∧ (s.cluster 0).fenced = false ∧ (s.part 0).events = [])
    ∧ (∀ n ∈ [0, 0xFFFF], let s := withEvent (mapped (storing (.qdone 0 1) 0x1_0000 0)) {}
      let s := ({ s with mem := Memory.store s.mem 0x2000_0022 (leBytes 2 n) }).ahead 0 0 (item (.qdone 0 1) 0x1_0000 0) false;
      storeReady s 0 0 (item (.qdone 0 1) 0x1_0000 0) ∧ isOk (s.scalarTarget 0 (0x1_0000 + 34) 2 .load true) 0x2000_0022 = true
        ∧ leValue (Memory.bytes (s.release 0 4).mem 0x2000_0022 2) = n ∧ isHbm 0x2000_0022 = true ∧ (n = 0 → s.event 0 n = some {}))
    ∧ (let s := (atStrand {}).onCluster 0 (fun k => { k with bank := [.task 0 0 0x1_0000 taskRec] });
      (match s.findTask 0 0 with | .ok r => r == some (0, .task 0 0 0x1_0000 taskRec) | .error _ => false) = true)
    ∧ (match (atStrand {}).findTask 0 0 with | .ok r => r == none | .error _ => false) = true := by
  refine ⟨⟨⟨?_, ?_, ?_, ?_⟩, ok_of_isOk ?_, ?_, ?_, ?_, ?_⟩, ?_, ?_, ?_⟩
  case refine_10 => intro n h; simp only [List.mem_cons, List.not_mem_nil, or_false] at h; rcases h with rfl | rfl <;> (refine ⟨⟨?_, ?_, ?_, ?_⟩, ?_, ?_, ?_⟩ <;> decide +kernel)
  all_goals decide +kernel

/-- The strand of a core with one word in its store queue. -/
def storingAt (k : Core) (i : Instr) (a b : Word) : State :=
  (atCore k).onStrand 0 0 (fun x => { x with life := .running, stores := [item i a b] })

/-- PoolWords: the slot of handle 0 OPEN with reads and with none, SEALED with reads to take, with as many as are taken, and with fewer;
another launch's slot; a stale handle; an allocation that waits for the slot that is freed; and TALC on a partition with a FREE slot, on
one with none, on one without slots, on a peer's partition that is SHARED and on one that is not, and with one read more than 65,535. -/
theorem test_hyp_PoolWords :
    (∀ i ∈ [Instr.tseal 0 1, .tdrop 0 1 2], ∀ x ∈ [({ st := .open_, reads := 1 } : Slot), { st := .open_ }, { st := .sealed, reads := 2 },
        { st := .open_, reads := 1, owner := 1 }, {}],
      let s := storingAt (pooled x) i 0 1;
      (s.strand 0 0).stores.head? = some (item i 0 1) ∧ (s.strand 0 0).stop = none ∧ (item i 0 1).due (s.core 0) = true
        ∧ s.storeReady 0 (s.strand 0 0) (item i 0 1) = true ∧ (s.strand 0 0).lridx = 0 ∧ ((s.core 0).poolPart 0).slot 0 = x
        ∧ ((s.core 0).poolPart 0).count = 1 ∧ ((s.core 0).poolPart 0).queue = [])
    ∧ ((0 : Nat) ≤ 2 - 0 ∧ (1 : Nat) ≤ 2 - 0 ∧ (1 : Nat) < 2 ∧ (2 : Nat) ≤ 2 - 0 ∧ (2 : Nat) - 0 < 3)
    ∧ (let al : Alloc := { core := 0, unit := 1, n := 7 };
       let p : PoolPart := { count := 1, slots := [(0, { st := .open_ })], queue := [al] };
       let s := storingAt { pooled {} with pool := some { launch := 0, parts := (Vector.replicate 8 ({} : PoolPart)).set 0 p } } (.tseal 0 1) 0 0;
       ((s.core 0).poolPart 0).slot 0 = { st := .open_ } ∧ ((s.core 0).poolPart 0).queue = al :: [] ∧ ((s.core 0).poolPart 0).freeSlots = []
        ∧ al.unit.toNat < 4) := by
  refine ⟨?_, ?_, ?_⟩ <;> decide +kernel

theorem test_hyp_PoolWords_talc :
    (∀ x ∈ [({} : Slot), { st := .sealed, reads := 1 }], let s := atCore (pooled x); let k := s.core s.focus;
      s.cur.request = none ∧ (match k.pool with | some po => po.live && po.launch == s.cur.lridx | none => false) = true
        ∧ (k.poolPart 0).count ≠ 0 ∧ (k.poolPart 0).queue = [] ∧ (k.poolPart 0).freeSlots = (if x.st = .free then [0] else [])
        ∧ (k.poolPart 1).count = 0)
    ∧ (65535 : Word).toNat ≤ 65535 ∧ 65535 < ((atStrand (holding 1 65536)).cur.sreg 1).toNat
    ∧ (∀ b : Bool, let p : PoolPart := { count := 1, slots := [(0, {})], shared := b };
       let s := (atStrand (holding 1 (8 + 16 * 7))).setCore 7 { pool := some { launch := 0, parts := (Vector.replicate 8 ({} : PoolPart)).set 0 p } };
       s.cur.request = none ∧ s.focus / 8 * 8 + 7 = 7 ∧ 7 ≠ s.focus ∧ (s.cur.sreg 1).toNat = 8 + 16 * 7 + (s.cur.sreg 1).toNat % 8
        ∧ (s.core 7).pool.isSome = true ∧ ((s.core 7).poolPart 0).shared = b ∧ ((s.core 7).poolPart 0).freeSlots = [0])
    ∧ (let s := atStrand (holding 1 0); (s.core s.focus).pool = none ∧ (s.core s.focus).away = [] ∧ (s.cur.sreg 1).toNat < 8) := by
  decide +kernel

/-- RegisterReads: a handle whose CLUSTER is the last, a current handle and a stale one, a core that exists, registers that MTS may and may
not write. -/
theorem test_hyp_RegisterReads :
    bitsOf (95 * 2 ^ 23) 29 23 < 96 ∧ (atCore (pooled {})).focus < 3072
    ∧ (∀ x ∈ [({ st := .open_ } : Slot), {}, { st := .sealed, gen := 1 }],
      let y := ((atCore (pooled x)).core 0).poolPart 0 |>.slot 0; (y.st ≠ .free ∧ y.gen.toNat = 0 % 512) ↔ x.st = .open_)
    ∧ (0x040 : BitVec 14) ∈ [(0x040 : BitVec 14), 0x101, 0x300] ∧ (0x341 : BitVec 14) ∉ [(0x040 : BitVec 14), 0x101, 0x300]
    ∧ (0x102 : BitVec 14) ≠ 0x100 := by
  decide +kernel

/-- StopWords: END of a strand with no lease, no waiting request on its die and an empty FIFO. -/
theorem test_hyp_StopWords :
    (let s := teamed { life := .running } {}; s.cur.lease = 0 ∧ s.cur.fifo = [] ∧ (s.locked = true ∨ (s.die (dieOf s.focus)).queue = [])) := by
  decide +kernel

/-- A stopped strand whose descriptor is held (STATE 1) with n MARK records claimed, the first of them there. -/
def held0 (n : Nat) : Strand :=
  { life := .stopped, recv := some 0
    area := Memory.store (Memory.store [] 0 ([1, 17] ++ [0, 0] ++ leBytes 2 n)) 0x40 [2, 0, 0, 1, 0, 0, 0xFF, 0xFF] }

/-- ResumeReturns: a strand that is no handler; a handler with no stop in RSTRAND; one with a stop whose records pass, to resume and to
discard; one whose list is longer than what stands in its area; and a descriptor that is not held. -/
theorem test_hyp_ResumeReturns :
    let check (s : State) (y : Strand) := y.checkList (fun en b => (blockOf s (s.partOf 0) y.lridx en b).isSome);
    (teamed {} {}).isHandler 0 0 = false
    ∧ (let s := withRec (teamed { life := .running } (held0 0)) [(8, 1, 4)]; s.isHandler 0 0 = true ∧ s.cur.rstrand.getLsbD 2 = false)
    ∧ (∀ r ∈ [(5 : BitVec 4), 13], ∀ n ∈ [0, 1],
      let s := withRec (teamed { life := .running, rstrand := r } (held0 n)) [(8, 1, 4)]; let y := s.strand 0 (s.cur.rstrand.extractLsb' 0 2);
      s.isHandler 0 0 = true ∧ s.cur.rstrand.getLsbD 2 = true ∧ y.recv = some 0 ∧ y.life = .stopped ∧ y.stop = none
        ∧ s.curStrand ≠ s.cur.rstrand.extractLsb' 0 2 ∧ s.cur.rstrand.getLsbD 3 = decide (r = 13) ∧ s.seenArea 0 0 1 = y.area
        ∧ (match check s y with | .ok l => l.length == n | .error _ => false) = true)
    ∧ (let s := withRec (teamed { life := .running, rstrand := 5 } (held0 2)) [(8, 1, 4)]; let y := s.strand 0 (s.cur.rstrand.extractLsb' 0 2);
      s.isHandler 0 0 = true ∧ s.cur.rstrand.getLsbD 2 = true ∧ y.recv = some 0 ∧ y.life = .stopped ∧ y.stop = none
        ∧ (match check s y with | .ok _ => false | .error n => n == 1) = true)
    ∧ leValue (Memory.bytes ({} : Strand).area 0 1) ≠ 1 := by
  decide +kernel

theorem described_kdesc : (described (atStrand {})).recField 0 (0 : BitVec 10).toNat 160 8 = 0x1_0000 := by decide +kernel

/-- DispatchPushes: a queue of the XE with thirty-one entries and one with thirty-two; a block that exists and one that does not; breakpoints
off, and one armed on strand 0, the XE and block 0. -/
theorem test_hyp_DispatchPushes :
    (2 : BitVec 2) ≠ 3 ∧ (List.replicate 31 placedEntry).length < 32 ∧ 32 ≤ (List.replicate 32 placedEntry).length
    ∧ (let s := described (atStrand {}); (blockOf s 0 0 .x 0).isSome = true ∧ blockOf s 0 0 .x 1 = none ∧ s.partOf s.focus = 0
        ∧ s.cur.lridx = 0 ∧ s.cur.noBrk = false ∧ (s.core s.focus).brkb.toList.all (fun w => !w.getLsbD 63) = true)
    ∧ (let w : Word := 0x8000_0000_0000_1200; w.getLsbD 63 = true ∧ w.getLsbD 12 = true ∧ w.extractLsb' 8 2 = (2 : BitVec 2)
        ∧ w.extractLsb' 0 8 = (0 : BitVec 8)) := by
  simp only [blockOf, kdescField, described_kdesc, engIndex, Nat.reduceMul, Nat.reduceAdd]
  decide +kernel

/-- LeasesAndRegions: leases of 0 and 49, a lease of 48 with a free budget, in locked-clock mode and with no room in the budget; a request that
waits and one that is granted; a strand without a lease and one with one. -/
theorem test_hyp_LeasesAndRegions :
    ((atStrand (holding 1 0)).cur.sreg 1).toNat = 0 ∧ 48 < ((atStrand (holding 1 49)).cur.sreg 1).toNat
    ∧ (∀ n ∈ [0, 37500], ∀ b : Bool, let s := { (atStrand (holding 1 48)).onDie 0 (fun d => { d with budget := n }) with locked := b };
      s.cur.request = none ∧ (s.cur.sreg 1).toNat = 48 ∧ s.cur.lease = 0
      ∧ ((s.core 0).strands.toList.map (·.lease)).sum - s.cur.lease + 48 ≤ 48 ∧ s.focus < 3072 ∧ s.locked = b
      ∧ (s.die (dieOf s.focus)).queue = [] ∧ (n = 0 → (s.die (dieOf s.focus)).budget < s.leased (dieOf s.focus) + 48)
      ∧ (n ≠ 0 → s.leased (dieOf s.focus) + 48 ≤ (s.die (dieOf s.focus)).budget))
    ∧ (let r : Request := { talc := false }; (atStrand { request := some r }).cur.request = some r ∧ r.granted = none)
    ∧ (let r : Request := { talc := false, granted := some 0 }; (atStrand { request := some r }).cur.request = some r ∧ r.granted = some 0)
    ∧ (let s := atStrand { lease := 1 }; s.cur.lease ≠ 0 ∧ (s.die (dieOf s.focus)).queue = []) := by
  decide +kernel

/-- LeasesAndRegions: tracing off; tracing on into the last record of a mapped page; tracing on where no page is mapped. -/
theorem test_hyp_LeasesAndRegions_trace :
    (State.reset.core State.reset.focus).tren = false
    ∧ (let s := mapped (atCore { tren := true, trlog := 12, trhead := 4095, trbase := 0x1_0000 }); let k := s.core s.focus;
      k.tren = true ∧ k.trerr = false ∧ 8 ≤ k.trlog.toNat ∧ k.trlog.toNat ≤ 20 ∧ k.cut = false
        ∧ resolve s 0 (k.trbase.toNat + 16 * (k.trhead.toNat % 2 ^ k.trlog.toNat)) .store true = .ok 0x2000_FFF0 ∧ isHbm 0x2000_FFF0 = true)
    ∧ (let s := atCore { tren := true, trlog := 8, trbase := 0x1_0000 };
      ∃ w, resolve s 0 ((s.core 0).trbase.toNat + 16 * ((s.core 0).trhead.toNat % 2 ^ (s.core 0).trlog.toNat)) .store true = .error w) := by
  refine ⟨?_, ⟨?_, ?_, ?_, ?_, ?_, ok_of_isOk ?_, ?_⟩, error_of_not_ok ?_⟩ <;> decide +kernel

-- Hypotheses of the statements on vector words

/-- LanewiseWords: the type f32, or i32, with every register tagged alike, room in the records and a bucket of exactly the charge; a bucket one
short; and the raw type, under which arithmetic is no legal word. -/
theorem test_hyp_LanewiseWords :
    (let k := vecCore 11 (fun _ => 11) vrun0 4; MayIssueV (atCore k) k vrun0 ∧ vrun0.recordsFull 3 = false ∧ 4 ≤ k.balance
      ∧ (k.strand 0).vshape.toNat % 16 = 11 ∧ ∀ v : BitVec 5, ((k.strand 0).vtag v).toNat = 11)
    ∧ (let k := vecCore 7 (fun _ => 7) vrun0 4; MayIssueV (atCore k) k vrun0 ∧ 4 ≤ k.balance
      ∧ (k.strand 0).vshape.toNat % 16 = 7 ∧ ∀ v : BitVec 5, ((k.strand 0).vtag v).toNat = 7)
    ∧ (let k := vecCore 11 (fun _ => 11) vrun0 3; MayIssueV (atCore k) k vrun0 ∧ k.balance < 4)
    ∧ (let k := vecCore 0 (fun _ => 0) vrun0 4; MayIssueV (atCore k) k vrun0 ∧ ¬ 1 ≤ (k.strand 0).vshape.toNat % 16) := by
  refine ⟨⟨may_of_mayV ?_, ?_⟩, ⟨may_of_mayV ?_, ?_⟩, ⟨may_of_mayV ?_, ?_⟩, may_of_mayV ?_, ?_⟩ <;> decide +kernel

/-- CrossLaneWords: the types and tags each row of R144 to R148 and R163 to R165 asks for: f16 from bf16; f32 from f16 and back; bq8 from f32 with
scales in f32 and back; a permute by an i32 index; dot products; and the special functions' charge of 8. -/
theorem test_hyp_CrossLaneWords :
    (∀ n ∈ [(9, 10, 10), (11, 9, 9), (9, 11, 11), (13, 11, 11), (11, 13, 11), (11, 11, 7), (7, 3, 4), (11, 11, 11)],
      let k := vecCore (BitVec.ofNat 32 n.1) (fun i => if i = 4 then BitVec.ofNat 4 n.2.1 else if i = 8 then BitVec.ofNat 4 n.2.2
        else if i = 0 then BitVec.ofNat 4 n.1 else BitVec.ofNat 4 n.2.1) vrun0 8;
      mayV k vrun0 = true ∧ 8 ≤ k.balance ∧ vrun0.recordsFull 4 = false ∧ (k.strand 0).vshape.toNat % 16 = n.1
        ∧ ((k.strand 0).vtag 4).toNat = n.2.1 ∧ ((k.strand 0).vtag 8).toNat = n.2.2 ∧ ((k.strand 0).vtag 0).toNat = n.1
        ∧ ∀ j, j < 4 → (k.strand 0).vtag (4 + BitVec.ofNat 5 j) = (k.strand 0).vtag 4)
    ∧ tWidth 9 = tWidth 10 ∧ tWidth 11 / tWidth 9 = 2 ∧ tWidth 11 / tWidth 13 = 4 ∧ tWidth 11 = tWidth 7 := by
  decide +kernel

/-- MaskAndControlWords: a shape of VL 1,024 and one of VL 1,025, a 16-bit integer type, a token that counts nothing and one that counts an
operation. -/
theorem test_hyp_MaskAndControlWords :
    (let b : Word := 0x4000; b.toNat / 2 ^ 28 = 0 ∧ b.toNat / 16 % 2048 ≤ 1024)
    ∧ (let b : Word := 0x4010; ¬ (b.toNat / 2 ^ 28 = 0 ∧ b.toNat / 16 % 2048 ≤ 1024))
    ∧ (let k := vecCore 5 (fun _ => 5) vrun0 4; MayIssueV (atCore k) k vrun0 ∧ vrun0.recordsFull 0 = false ∧ 4 ≤ k.balance
      ∧ 5 ≤ (k.strand 0).vshape.toNat % 16 ∧ ∀ n : Fin 8, ((atCore k).strand 0 0).tok[n] = 0)
    ∧ (let k := (vecCore 5 (fun _ => 5) vrun0 4).setStrand 0 { life := .running, tok := (Vector.replicate 8 0).set 7 1 };
      MayIssueV (atCore k) k vrun0 ∧ ¬ ∀ n : Fin 8, (0x80 : BitVec 8).getLsbD n.val = true → ((atCore k).strand 0 0).tok[n] = 0) := by
  refine ⟨?_, ?_, ⟨may_of_mayV ?_, ?_⟩, may_of_mayV ?_, ?_⟩ <;> decide +kernel

/-- VectorWritesLand: an ended entry in a trailing slot, with a write due and one still in flight. -/
theorem test_hyp_VectorWritesLand :
    let w (n : Nat) : VLanding := { due := n, seq := 0, op := .vnop false, writes := [.breg 0 5], flags := 0,
                                    cap := { shape := 0, tagA := 0, tagB := 0, b := 0, regs := [], vals := [], kval := 0 } };
    let r : VRun := { vrun0 with ended := true, slot := 3, flight := [w 3, w 4] };
    let s := atCore (vecCore 0 (fun _ => 0) r 0);
    (s.core 0).vrun = some r ∧ r.ended = true ∧ r.flt = none ∧ (s.strand 0 r.entry.strand).stop = none := by
  decide +kernel

/-- IntegerLanes, MaskAndPermuteLanes, ReductionLanes: the first and the last integer type and the float types; a mask that is not k0; a lane that is
active; byte sources of a dot product. -/
theorem test_hyp_IntegerLanes_MaskAndPermuteLanes_ReductionLanes :
    (∀ n ∈ [1, 8, 9, 11], (captured (BitVec.ofNat 32 n) 0 0 []).shape.toNat % 16 = n) ∧ (1 : BitVec 3) ≠ 0
    ∧ (let p := captured (7 + 16 * 128) 3 4 []; 0 < p.shape.toNat / 16 % 2048 ∧ 127 < p.shape.toNat / 16 % 2048 ∧ p.kval.getLsbD 127 = true
      ∧ p.shape.toNat % 16 = 7 ∧ p.tagA ∈ [(3 : BitVec 4), 4, 13] ∧ p.tagB ∈ [(3 : BitVec 4), 4, 13])
    ∧ (let p := captured 7 3 4 []; ∀ j, j < 128 → ¬ j < p.shape.toNat / 16 % 2048)
    ∧ (let p := captured 8 6 0 []; (p.tagA.toNat, p.shape.toNat % 16) ∈ [(4, 8), (6, 8)] ∧ (4 : BitVec 5).toNat % (tWidth 8 / tWidth 6) = 0)
    ∧ (let p := captured 6 8 0 []; (p.shape.toNat % 16, p.tagA.toNat) ∈ [(4, 8), (6, 8)]) := by
  decide +kernel

/-- FloatLanes, FunctionsAndConversions, on the last lane of f32: NaNs, infinities, zeros and a finite number. -/
theorem test_hyp_FloatLanes_FunctionsAndConversions :
    let inf := 0x7F80_0000;
    let lane (v : Nat) : Nat := laneAt (BitVec.ofNat 4096 (v * 2 ^ (32 * 127))) 32 127;
    (let p := captured (11 + 16 * 128) 11 11 []; p.shape.toNat % 16 = 11 ∧ 127 < p.shape.toNat / 16 % 2048 ∧ p.kval.getLsbD 127 = true)
    ∧ inf < lane 0x7F80_0001 % 2 ^ 31 ∧ inf < lane 0xFFFF_FFFF % 2 ^ 31 ∧ lane 0xFF80_0000 % 2 ^ 31 = inf ∧ lane 0x8000_0000 % 2 ^ 31 = 0
    ∧ ¬ inf < lane 0x3F80_0000 % 2 ^ 31 ∧ ¬ lane 0x3F80_0000 % 2 ^ 31 = 0 := by
  decide +kernel

/-- FloatLanes, FunctionsAndConversions, by the values of Safety.lean: the largest finite numbers, the smallest denormals, zeros, infinities
and NaNs of f16, bf16 and f32; 2^0 and 2^−1 as operands of VEXP2 and VLOG2. -/
theorem test_hyp_FloatLanes_FunctionsAndConversions_values :
    (∀ e ∈ [(9, 0x7BFF, 0x7C00), (10, 0x7F7F, 0x7F80), (11, 0x7F7F_FFFF, 0x7F80_0000)],
      finF e.1 e.2.1 ∧ ¬ finF e.1 e.2.2 ∧ ¬ nanF e.1 e.2.2 ∧ infOf e.1 = e.2.2 ∧ nanF e.1 (e.2.2 + 1) ∧ valF e.1 0 = 0 ∧ valF e.1 1 ≠ 0
      ∧ valF e.1 (signF e.1 true + 1) < 0)
    ∧ valF 9 0x3C00 = 1 * 2 ^ unitExp 9 ∧ valF 9 0x3C00 = 2 ^ 24 ∧ valF 9 0x3800 = 2 ^ 23 := by
  decide +kernel

/-- The V entry of vrun0 with b0 at the scratchpad of a core of cluster 0. -/
def vrunAt (c : Nat) : VRun := { vrun0 with b := (Vector.replicate 8 0).set 0 (BitVec.ofNat 64 (coreWindow c)) }

/-- Core 0 with that entry running under i32 and VL vl, its pool's one slot as x; and the same entry beside core 1's pool. -/
def vecPooled (vl : Nat) (x : Slot) (r : VRun) : Core :=
  { vecCore (BitVec.ofNat 32 (7 + 16 * vl)) (fun _ => 7) r 4 with pool := (pooled x).pool }

/-- What VLDC of b0 enters with. -/
def consuming (k : Core) (r : VRun) : VOp :=
  { seq := r.seq, op := .vldc false 1 0 0 0, tok := 0, cap := capturedV k r (.vldc false 1 0 0 0), stride := vget r.b 0 1, tick := 0 }

/-- TokenWordsEnter: loads, stores and an atomic under i32, an f32 atomic and a predicate under f32, each with one place left in its queue and
exactly its charge; a full queue; a 4-bit type; a predicate with its last lane active and one with none. -/
theorem test_hyp_TokenWordsEnter :
    (let q : VOp := { seq := 0, op := .vnop false, tok := 0, cap := captured 7 7 0 [] };
      (List.replicate 31 q).length < 32 ∧ 32 ≤ (List.replicate 32 q).length ∧ (List.replicate 3 q).length < 4 ∧ 4 ≤ (List.replicate 4 q).length)
    ∧ (∀ n ∈ [(7, 4), (11, 16)], let k := vecCore (BitVec.ofNat 32 n.1) (fun _ => BitVec.ofNat 4 n.1) vrun0 n.2;
        mayV k vrun0 = true ∧ n.2 ≤ k.balance ∧ vrun0.recordsFull 15 = false ∧ (k.strand 0).vshape.toNat % 16 = n.1 ∧ tWidth n.1 = 32
          ∧ (k.strand 0).vshape.getLsbD 22 = false ∧ ∀ v : BitVec 5, ((k.strand 0).vtag v).toNat = n.1)
    ∧ tWidth 2 = 4
    ∧ (∀ vl ∈ [0, 128], let p := capturedV (vecCore (BitVec.ofNat 32 (11 + 16 * vl)) (fun _ => 11) vrun0 16) vrun0 (.gsx false 1 0);
        (vl = 0 ↔ ∀ j, j < 128 → j < p.shape.toNat / 16 % 2048 → p.kval.getLsbD j = false) ∧ vrun0.recordsFull p.regs.length = false) := by
  decide +kernel

/-- TokenWordsEnter, VLDC: no active lane; a SEALED slot with its last read and its last PEND to spare, and with no more PEND; an OPEN slot,
a FREE one, and one with no read to spare; a range that lies in no slot, and one while the pool is away. -/
theorem test_hyp_TokenWordsEnter_vldc :
    (let k := vecPooled 0 {} (vrunAt 0); mayV k (vrunAt 0) = true ∧ 4 ≤ k.balance ∧ (vrunAt 0).slip = [] ∧ (vrunAt 0).vlq.length < 32
        ∧ (vrunAt 0).recordsFull 0 = false ∧ (consuming k (vrunAt 0)).span = none)
    ∧ (∀ x ∈ [({ st := .sealed, reads := 16384, pend := 16382 } : Slot), { st := .sealed, reads := 16384, pend := 16383 }, { st := .open_ }, {},
          { st := .sealed, reads := 1, pend := 1 }],
        let k := vecPooled 64 x (vrunAt 0); let s := atCore k;
        mayV k (vrunAt 0) = true ∧ (consuming k (vrunAt 0)).span = some (coreWindow 0, 256)
          ∧ slotHolding s s.focus placedEntry.launch (coreWindow 0) 256 = some (0, 0, 0) ∧ ((s.core 0).poolPart 0).slot 0 = x)
    ∧ (let k := vecPooled 128 {} (vrunAt 0); let s := atCore k; (consuming k (vrunAt 0)).span = some (coreWindow 0, 512)
        ∧ slotHolding s s.focus placedEntry.launch (coreWindow 0) 512 = none ∧ slotAway s s.focus placedEntry.launch (coreWindow 0) = false)
    ∧ (let k := { vecPooled 64 {} (vrunAt 0) with pool := none, away := [{ launch := 0, parts := (Vector.replicate 8 ({} : PoolPart)).set 0 { count := 1 } }] };
        let s := atCore k; slotHolding s s.focus placedEntry.launch (coreWindow 0) 256 = none
        ∧ slotAway s s.focus placedEntry.launch (coreWindow 0) = true)
    ∧ (let k := vecPooled 64 {} (vrunAt 1);
       let s := (atCore k).setCore 1 (pooled { st := .sealed, reads := 16384, pend := 16382 });
        (consuming k (vrunAt 1)).span = some (coreWindow 1, 256)
          ∧ slotHolding s s.focus placedEntry.launch (coreWindow 1) 256 = some (1, 0, 0)
          ∧ ∃ u, OnlyCore s u 1 ((s.core 1).setPoolPart 0 (((s.core 1).poolPart 0).setSlot 0 { st := .sealed, reads := 16384, pend := 16383 }))) := by
  refine ⟨?_, ?_, ?_, ?_, ?_, ?_, State.setCore _ 1 _, State.core_setCore_same .., fun d h => State.core_setCore_ne _ _ h, rfl⟩ <;>
    decide +kernel

/-- A load, a strided one, an indexed one and the two stores of one i32 lane, at the head of their queue. -/
def vop (i : Instr) (a : Nat) : VOp :=
  { seq := 0, op := i, tok := 0, cap := { captured (7 + 16) 7 7 [0, 0] with b := BitVec.ofNat 64 a } }

/-- The machine with the page at 0x1_0000 mapped and entry r running on core 0. -/
def vecMapped (r : VRun) : State := mapped (atCore (vecCore (7 + 16) (fun _ => 7) r 4))

/-- VectorMemoryCompletes: each load at the last word of a mapped page, VLDC with its range held, one load whose lane does not translate,
each store, and an atomic. -/
theorem test_hyp_VectorMemoryCompletes :
    ([(Instr.vld false 1 0 0 0, none), (.vlds false 1 0 0 0, none), (.vldx false 1 0 2 0 0 0, none), (.vldc false 1 0 0 0, some (0, 4))].all (fun i =>
      let q := { vop i.1 0x1_FFFC with held := i.2 }
      let r : VRun := { vrun0 with vlq := [q] }
      let s := vecMapped r
      (s.core 0).vrun == some r && r.flt == none && (s.strand 0 0).stop == none && q.flt == none && q.found == none && decide (q.early = {})
        && q.data == [] && decide (q.crossed = []) && r.ready q && q.lanes == [0]
        && isOk (s.vTarget 0 (q.laneAddr 0) 4 .load (!q.skipTH)) 0x2000_FFFC && !s.tileBusy 0x2000_FFFC)) = true
    ∧ (let q := vop (.vld false 1 0 0 0) 0x2_0000
       let s := vecMapped { vrun0 with vlq := [q] }
       q.lanes = [0] ∧ (match s.vTarget 0 (q.laneAddr 0) 4 .load (!q.skipTH) with | .ok _ => false | .error w => w.cause == .xlate) = true)
    ∧ ([(Instr.vst false 1 0 0 0, Acc.store), (.vstx false 1 0 2 0 0 0, .store), (.vatm false 1 0 2 0 0 0, .atomic)].all (fun i =>
      let q := vop i.1 0x1_FFFC
      let r : VRun := { vrun0 with vsq := [q] }
      let s := vecMapped r
      (s.core 0).vrun == some r && r.ready q && q.lanes == [0] && q.lane == 0 && q.olds == [] && r.vlq == []
        && isOk (s.vTarget 0 (q.laneAddr 0) 4 i.2 (!q.skipTH)) 0x2000_FFFC && winSplit 0x2000_FFFC == none)) = true := by
  refine ⟨?_, ?_, ?_⟩ <;> decide +kernel

/-- VectorMemoryCompletes: the slot of a VLDC as it completes, with its last read and with another. -/
theorem test_hyp_VectorMemoryCompletes_slot :
    ∀ n ∈ [1, 2], let s := atCore (vecPooled 1 { st := .sealed, reads := n, pend := 1 } (vrunAt 0));
      slotHolding s 0 placedEntry.launch (coreWindow 0) 4 = some (0, 0, 0) ∧ (((s.core 0).poolPart 0).slot 0).st = .sealed
        ∧ 0 < (((s.core 0).poolPart 0).slot 0).pend ∧ ((s.core 0).poolPart 0).queue = [] := by
  decide +kernel

/-- PredicatesComplete: a finite lane and one that is not, under EXACT, SOS and FILTERED, for a sign word and for GSX. -/
theorem test_hyp_PredicatesComplete :
    (∀ i ∈ [Instr.go2d false 1 4 0, .go3d false 1 29 0, .gic false 1 30 0, .gis false 1 29 0, .gsx false 1 0],
      let q : VOp := { seq := 0, op := i, tok := 0, cap := captured (11 + 16) 11 11 [0x7F80_0000] };
      let r : VRun := { vrun0 with esu := [q] }; let s := atCore (vecCore (11 + 16) (fun _ => 11) r 4);
      (s.core 0).vrun = some r ∧ r.flt = none ∧ (s.strand 0 0).stop = none ∧ q.flt = none ∧ q.tok = 0 ∧ q.early = {} ∧ q.crossed = [] ∧ q.cap.shape.toNat / 2 ^ 20 % 4 < 2
        ∧ (0 < q.cap.shape.toNat / 16 % 2048 ∧ q.cap.kval.getLsbD 0 = true) ∧ laneAt 0x7F80_0000 32 0 / 2 ^ 23 % 256 = 255)
    ∧ laneAt 0x7F7F_FFFF 32 0 / 2 ^ 23 % 256 ≠ 255 ∧ (0x20_000B : BitVec 32).toNat / 2 ^ 20 % 4 = 2 := by
  decide +kernel

/-- PredicateSignsExact: the largest finite coordinates. -/
theorem test_hyp_PredicateSignsExact : ∀ v ∈ List.replicate 8 0x7F7F_FFFF, finF 11 v ∧ v < 2 ^ 32 := by decide +kernel

-- Hypotheses of the statements on M and X words

/-- The entry of an engine whose section holds n words at 0x1_0000. -/
def sectionEntry (n : Nat) : Entry := { placedEntry with words := n }

/-- A running M entry, and a running X entry, with registers 0 to 3 at the given values. -/
def mrun0 (a b c d : Nat) : MRun :=
  { entry := sectionEntry 3, e := ((((Vector.replicate 16 (0 : Word)).set 0 (BitVec.ofNat 64 a)).set 1 (BitVec.ofNat 64 b)).set 2
      (BitVec.ofNat 64 c)).set 3 (BitVec.ofNat 64 d) }
def xrun0 (a b c d : Nat) : XRun := { entry := sectionEntry 3, e := (mrun0 a b c d).e }

/-- EntryRegisterWords: running entries, a repeat of the last two words of a section and one that runs past it, no move outstanding and
one. -/
theorem test_hyp_EntryRegisterWords :
    (let s := mapped (atCore { mrun := some (mrun0 0 0 0 0) }); MayIssueM s (mrun0 0 0 0 0)
      ∧ repeatable s 0 .m (sectionEntry 3) 2 1 = true ∧ repeatable s 0 .m (sectionEntry 3) 3 1 = false)
    ∧ (let s := mapped (atCore { xrun := some (xrun0 0 0 0 0) }); MayIssueX s (xrun0 0 0 0 0)
      ∧ repeatable s 0 .x (sectionEntry 3) 2 1 = true ∧ repeatable s 0 .x (sectionEntry 3) 3 1 = false ∧ (xrun0 0 0 0 0).moves = [])
    ∧ (let r : XRun := { xrun0 0 0 0 0 with moves := [{ op := .xnop false }] }
       MayIssueX (atCore { xrun := some r }) r ∧ r.moves ≠ []) := by
  refine ⟨⟨⟨?_, ?_, ?_, ?_⟩, ?_, ?_⟩, ⟨⟨?_, ?_, ?_, ?_⟩, ?_, ?_, ?_⟩, ⟨?_, ?_, ?_, ?_⟩, ?_⟩ <;> decide +kernel

/-- Two bq8 tile objects at the start of core 0's scratchpad, A with row scales and B with column scales. -/
def objects : Mem := Memory.store (Memory.store [] 0 (headerBytes 13 0)) 4416 (headerBytes 13 1)

/-- Core 0 with an M entry whose registers name the objects and free scratchpad, and n in the bucket. -/
def matCore (n : Nat) (steps : List MStep) : Core :=
  { spad := objects, balance := n, mrun := some { mrun0 (coreWindow 0) (coreWindow 0 + 4416) (coreWindow 0 + 0x1_0000) 0 with steps := steps } }

def isOkList {α : Type} (r : Except Trouble α) : Bool := match r with | .ok _ => true | .error _ => false

/-- MatrixStepsIssue: an entry without unfinished steps and one with an MMA on the tile; exactly an MMA's charge and a drain's; two objects;
a drain's destination, a requantisation record, and 32 KiB of words, in the scratchpad. -/
theorem test_hyp_MatrixStepsIssue :
    (let s := atCore (matCore 512 []); let r := { mrun0 (coreWindow 0) (coreWindow 0 + 4416) (coreWindow 0 + 0x1_0000) 0 with steps := [] }
      MayIssueM s r ∧ Affords (s.core 0) 1 512 ∧ Affords (s.core 0) 1 256 ∧ Affords (s.core 0) 1 0
        ∧ r.conflicts { op := .mzro false 0, tile := 0 } = false ∧ s.consumeAll 0 r.entry.launch [] = .ok s
        ∧ (coreWindow 0 % 64 = 0 ∧ inSpad s 0 (coreWindow 0) 4416 = true ∧ headerType (physRead s (coreWindow 0) 64) 0 = some 13
          ∧ s.eccAt 0 (coreWindow 0) = none ∧ r.pending [(coreWindow 0, 64)] = false)
        ∧ ((coreWindow 0 + 4416) % 64 = 0 ∧ inSpad s 0 (coreWindow 0 + 4416) 4416 = true
          ∧ headerType (physRead s (coreWindow 0 + 4416) 64) 1 = some 13 ∧ inSpad s 0 (coreWindow 0 + 4416) 64 = true)
        ∧ isOkList (drainRanges s [(coreWindow 0 + 0x1_0000, 16384, true, true), (coreWindow 0 + 0x1_4000, 512, true, false)]) = true
        ∧ drainRanges s [(coreWindow 0 + 0x1_0000, 32768, true, false)] = .ok [[(coreWindow 0 + 0x1_0000, 32768)]]
        ∧ drainRanges s [(coreWindow 0 + 0x1_0000, 32768, false, true)] = .ok [[(coreWindow 0 + 0x1_0000, 32768)]])
    ∧ (let m : MStep := { op := .mma false 0 0 1 false false false true 0, tile := 0, src := [(0, 64)], fin := 4 };
      let r := { mrun0 0 0 0 0 with steps := [m] };
      isMma m.op = true ∧ m.fin ≤ 0 + 4 ∧ r.slot + 1 < m.fin ∧ r.steps[0]? = some m
        ∧ r.conflicts { op := .mdrn false 1 2 7 0 0 0, tile := 1, dst := [(63, 1)] } = true)
    ∧ (let k := matCore 511 []; costOf k 512 ≤ 64 * k.level ∧ k.balance < costOf k 512 ∧ costOf k 512 ≠ 0)
    ∧ (let k := { matCore 768 [] with strands := (Vector.replicate 4 ({} : Strand)).set 0 { lease := 1 } }; 64 * k.level < costOf k 512) := by
  refine ⟨⟨⟨?_, ?_, ?_, ?_⟩, ⟨?_, ?_⟩, ⟨?_, ?_⟩, ⟨?_, ?_⟩, ?_, rfl, ?_, ?_, ?_, rfl, rfl⟩, ?_, ?_, ?_⟩ <;> decide +kernel

/-- ResidueArithmetic: the ends of a cell's range, every type, and every sign of k. -/
theorem test_hyp_ResidueArithmetic :
    (let M : Int := 8191 * 8192 * 8193; -(M / 2) ≤ -(M / 2) ∧ -(M / 2) < M / 2 ∧ -(M / 2) ≤ M / 2 - 1 ∧ M / 2 - 1 < M / 2)
    ∧ (∀ k ∈ [(-128 : Int), 0, 127], -128 ≤ k ∧ k < 128) ∧ ∀ dt ∈ [3, 5, 7, 12, 13, 14], dt ∈ [3, 5, 7, 12, 13, 14] := by
  decide +kernel

/-- What a step reads from ordinary memory is as long as its ranges say. -/
theorem viewRead_length {s : State} {k a n : Nat} (h : winSplit a = none) (hp : (s.cluster k).pending = []) : (viewRead s k a n).length = n := by
  simp [viewRead, hp, overlay, physRead, h, Memory.bytes, Sparse.getRange]

/-- The machine with one M step unfinished whose slot has come. -/
def finishing (m : MStep) : State := atCore { mrun := some { mrun0 0 0 0 0 with steps := [{ m with fin := 1 }] } }

/-- MatrixStepsFinish: each step, with its objects, words and place in ordinary memory; a drain whose last block is left to convert. -/
theorem test_hyp_MatrixStepsFinish :
    (∀ i ∈ [Instr.mzro false 0, .mma false 0 0 1 false false false true 0, .mlda false 0 0, .msta false 0 0, .mdrn false 0 1 7 0 0 0],
      let m : MStep := { op := i, tile := 7, tag := 13, src := [(0x2000_0000, 32768)], dst := [(0x2000_0000, 32768)], blocks := 63 };
      ((finishing m).core 0).mrun = some { mrun0 0 0 0 0 with steps := [{ m with fin := 1 }] } ∧ (1 : Nat) ≤ 0 + 1 ∧ m.held = []
        ∧ m.tag ∈ [12, 13, 14] ∧ (finishing m).stepEcc 0 { m with fin := 1 } = none ∧ m.blocks < 64)
    ∧ winSplit 0x2000_0000 = none ∧ (viewRead (finishing { op := .mlda false 0 0, tile := 0 }) 0 0x2000_0000 32768).length = 32768
    ∧ (viewRead (finishing { op := .mzro false 0, tile := 0 }) 0 0x2000_0000 4416).length = 320 + 512 * tWidth 13 := by
  refine ⟨?_, ?_, viewRead_length ?_ ?_, viewRead_length ?_ ?_⟩ <;> decide +kernel

/-- A layout record of one i32 element at 0x1_0100 (R179). -/
def layoutRec : List Byte :=
  leBytes 8 0x1_0100 ++ [7, 1, 0, 0] ++ List.replicate 4 0 ++ (List.replicate 5 (leBytes 8 1)).flatten ++ List.replicate 40 0
    ++ (List.replicate 5 (leBytes 2 1)).flatten ++ List.replicate 86 0

/-- An X entry on core 0 with m moves outstanding, n in the bucket, and the page at 0x1_0000 mapped with the layout record first. -/
def transferring (r : XRun) (n : Nat) : State :=
  let s := mapped (atCore { xrun := some r, balance := n });
  { s with mem := Memory.store s.mem 0x2000_0000 layoutRec }

/-- The same with the charge of a step paid. -/
def paid (r : XRun) : State := let s := transferring r 16; s.setCore 0 (charged (s.core 0) 2 16)

/-- TransferStepsStart: seven moves and exactly the charge, eight, and one unit short; lengths 0, 4 and 2^32; a source in memory, a
destination in the scratchpad, and a broadcast to its last byte. -/
theorem test_hyp_TransferStepsStart :
    (let r : XRun := { xrun0 0x1_0000 (coreWindow 0) 4 (2 ^ 32) with moves := List.replicate 7 { op := .xnop false } };
     let s := transferring r 16;
      MayIssueX s r ∧ r.moves.length < 8 ∧ Affords (s.core 0) 2 16 ∧ 8 ≤ (List.replicate 8 ({ op := .xnop false } : XMove)).length
        ∧ ((transferring r 15).core 0).balance < costOf ((transferring r 15).core 0) 16)
    ∧ (let r := xrun0 0x1_0000 (coreWindow 0) 4 (2 ^ 32); let s := paid r;
      (r.e[5]).toNat = 0 ∧ (r.e[2]).toNat = 4 ∧ 2 ^ 32 ≤ (r.e[3]).toNat
        ∧ boundsOf [(0x1_0000, 4), (coreWindow 0, 4)] = none ∧ boundTrouble (coreWindow 0) 4 = none ∧ boundTrouble 0x1_0000 4 = none
        ∧ isOkList (resolveRanges s 0 .load transferOk [(0x1_0000, 4)]) = true
        ∧ isOkList (resolveRanges s 0 .store transferOk [(coreWindow 0, 4)]) = true
        ∧ isOkList (resolveRanges s 0 .atomic spadOnly [(coreWindow 0, 4)]) = true ∧ 524284 + 4 ≤ 524288 ∧ 524288 < 524285 + 4
        ∧ s.eccRange 0 (coreWindow 7 + 524284) 4 = none
        ∧ (s.onCore 7 (fun k => { k with fenced := true })).eccRange 0 (coreWindow 7 + 524284) 4 ≠ none
        ∧ s.consumeAll 0 r.entry.launch ([] : List (Nat × Nat)) = .ok s) := by
  refine ⟨⟨⟨?_, ?_, ?_, ?_⟩, ?_, ⟨?_, ?_⟩, ?_, ?_⟩, ?_, ?_, ?_, ?_, ?_, ?_, ?_, ?_, ?_, ?_, ?_, ?_, ?_, rfl⟩ <;> decide +kernel

/-- TransferStepsStart: a list of one index, idle and in a tile that is in use; a layout record. -/
theorem test_hyp_TransferStepsStart_lists :
    (let r := xrun0 0x1_0000 (coreWindow 0) 0x1_0200 (1 + 4 * 2 ^ 32); let s := paid r;
      (2 : BitVec 4).toNat ≠ 15 ∧ (r.e[3]).toNat / 2 ^ 48 = 0 ∧ (r.e[3]).toNat % 2 ^ 32 ≠ 0 ∧ (r.e[3]).toNat / 2 ^ 32 % 2 ^ 16 = 4 ∧ 1 * 4 < 2 ^ 32
        ∧ (r.e[2]).toNat % 4 = 0 ∧ resolveRanges s 0 .load transferOk [(0x1_0200, 4)] = .ok [[(0x2000_0200, 4)]]
        ∧ s.piecesBusy [(0x2000_0200, 4)] = false ∧ s.piecesEcc 0 [(0x2000_0200, 4)] = none ∧ words32 (readPieces s 0 false none [(0x2000_0200, 4)]).1 = [0]
        ∧ boundsOf [(0x1_0200, 4), (coreWindow 0, 4)] = none ∧ boundsOf (sortBy (·.1) [(0x1_0000, 4)]) = none
        ∧ isOkList (resolveRanges (readPieces s 0 false none [(0x2000_0200, 4)]).2 0 .load transferOk [(0x1_0000, 4)]) = true
        ∧ isOkList (resolveRanges (readPieces s 0 false none [(0x2000_0200, 4)]).2 0 .store transferOk [(coreWindow 0, 4)]) = true)
    ∧ ((paid (xrun0 0 0 0 0)).onCore 0 (fun k => { k with mrun := some { mrun0 0 0 0 0 with uses := [7] } })).piecesBusy
        [(coreWindow 0 + 0x23_FFFC, 4)] = true
    ∧ (let r := xrun0 0x1_0000 (coreWindow 0) 0 (2 ^ 60);
      (match xtenPlan (.xten false 0 1 2 0 false) 0 1 2 0 false (paid r) r with | .move _ _ => true | _ => false) = true ∧ 2 ^ 60 ≤ (r.e[3]).toNat
        ∧ (r.e[2]).toNat < 2 ^ 60 ∧ 0x1_0001 % 64 ≠ 0) := by
  refine ⟨⟨?_, ?_, ?_, ?_, ?_, ?_, rfl, ?_, ?_, ?_, ?_, ?_, ?_, ?_⟩, ?_, ?_, ?_, ?_, ?_⟩ <;> decide +kernel

/-- TransferUnitWords: a semaphore's address with a sum that fits and one that does not; moves outstanding; a layout record's address and one
that is no multiple of 64; a partition with a FREE slot and one without; an allocation that has been granted. -/
theorem test_hyp_TransferUnitWords :
    (∀ n ∈ [0, 1], let r := xrun0 0x1000_0030_1000 0xFFFF_FFFF 0 0;
       let s := atCore ({ xrun := some r : Core }.setSem 0 (BitVec.ofNat 32 n));
       (s.core s.focus).xrun = some r ∧ r.ended = false ∧ r.flt = none ∧ (s.strand s.focus r.entry.strand).stop = none ∧ r.moves = []
        ∧ (match semTarget s 0 0x1000_0030_1000 with | .ok d => d == (0, 0) | .error _ => false) = true ∧ s.portClosed 0 0 = false
        ∧ (((s.core 0).semCount 0).toNat + 0xFFFF_FFFF < 2 ^ 32 ↔ n = 0))
    ∧ (∀ x ∈ [({} : Slot), { st := .sealed, reads := 1 }],
       let r := xrun0 65535 0 0 0; let k : Core := { pooled x with xrun := some r };
       k.xrun = some r ∧ (match k.pool with | some po => po.live && po.launch == r.entry.launch | none => false) = true
        ∧ (k.poolPart 0).count ≠ 0 ∧ (r.e[0]).toNat ≤ 65535 ∧ r.request = none ∧ (k.poolPart 0).queue = []
        ∧ (k.poolPart 0).freeSlots = if x.st = .free then [0] else [])
    ∧ (let r : XRun := { xrun0 0 0 0 0 with request := some { talc := true, granted := some 5 } }; r.request.bind (·.granted) = some 5)
    ∧ 0x1_0040 % 64 = 0 ∧ 0x1_0020 % 64 ≠ 0 ∧ ({ xrun0 0 0 0 0 with moves := [{ op := .xnop false }] } : XRun).moves ≠ [] := by
  refine ⟨?_, ?_, ?_, ?_⟩ <;> decide +kernel

/-- TransferMoves: each step as the only move, from memory to memory, its ranges apart and a copy's overlapping; a broadcast to the last
bytes of a scratchpad; a copy that signals early and one that consumes; a part of a copy; a vector register; a tile of one row of 16 bytes;
and a square of 64. -/
theorem test_hyp_TransferMoves :
    (∀ i ∈ [Instr.xgat false 0 1 2, .xsct false 0 1 2, .xcpy false 0 1 2 false true, .xfil false 0 1 2, .xred false 0 1 2 true, .xbrd false 0 1 2 0],
      let m : XMove := { op := i, dst := [(0x2000_0000, 4)], bytes := 4 }; let r := { xrun0 0 0 0 0 with moves := [m] };
      let s := atCore { xrun := some r };
      (s.core 0).xrun = some r ∧ r.moves[0]? = some m ∧ (m.dst.all (fun p => winSplit p.1 == none)) = true ∧ m.held = none ∧ m.scl = []
        ∧ m.rows = [] ∧ m.got = [] ∧ m.landed = [] ∧ s.piecesBusy (m.src ++ m.dst) = false ∧ s.piecesEcc 0 (m.src ++ m.dst) = none
        ∧ s.piecesShut 0 m.dst = false ∧ earlySignal r.entry m.op = false ∧ m.src = [] ∧ rangesMeet m.src m.dst = false)
    ∧ (let m : XMove := { op := .xcpy false 0 1 2 false true, src := [(0x2000_0000, 4)], dst := [(0x2000_0002, 4)], bytes := 4 };
       rangesMeet m.src m.dst = true ∧ (atCore { xrun := some { xrun0 0 0 0 0 with moves := [m] } }).piecesBusy m.src = false
        ∧ (byteAddrs m.src).length = (byteAddrs m.dst).length)
    ∧ rangesMeet [(0x2000_0000, 4)] [(0x2000_0004, 4)] = false
    ∧ (winSplit (coreWindow 7 + 524284) = some (7, 524284) ∧ 524284 + 4 ≤ 524288 ∧ 4 % 4 = 0)
    ∧ (List.replicate 16 (0 : Byte)).length = 1 * 16 ∧ 16 % (16 * 2 ^ 0) = 0 ∧ 128 % (16 * 2 ^ 3) = 0
    ∧ (List.replicate 64 (List.replicate 64 0)).length = 64 ∧ ((List.replicate 64 (List.replicate 64 0)).all (fun r => r.length == 64)) = true := by
  refine ⟨?_, ?_, ?_, ?_, ?_⟩ <;> decide +kernel

theorem test_hyp_TransferMoves_signals :
    (let e : Entry := { placedEntry with sync := 0x0005_0000_0000_0000 }; earlySignal e (.xcpy false 0 1 2 false true) = true
      ∧ (0 : Nat) + 4 < 2 ^ 32 ∧ 2 ^ 32 ≤ ((({} : Core).setSem 0 0xFFFF_FFFC).semCount (syncSsem e.sync)).toNat + 4)
    ∧ (∀ n ∈ [1, 2], let s := atCore (pooled { st := .sealed, reads := n, pend := 1 });
        slotHolding s 0 placedEntry.launch (coreWindow 0) 4 = some (0, 0, 0) ∧ (((s.core 0).poolPart 0).slot 0).st = .sealed
          ∧ 0 < (((s.core 0).poolPart 0).slot 0).pend)
    ∧ (let m : XMove := { op := .xcpy false 0 1 2 false true, src := [(0x2000_0000, 128)], dst := [(0x2001_0000, 128)], bytes := 128 };
        m.mayLand [(64, 64)] = true ∧ m.mayLand [(0, 64)] = true ∧ m.mayLand [(0, 32), (100, 28)] = true)
    ∧ (winSplit (coreWindow 0 + 0x10_3E00) = some (0, 0x10_3E00) ∧ winRange 0x10_3E00 = .vreg ∧ 0x10_3E00 % 512 = 0) := by
  decide +kernel

/-- The layout of a dense 64 × 64 tile of i8 elements, swizzled by 2, and one of a bq8 tile object. -/
def denseRec (scl : Nat) : List Byte :=
  leBytes 8 0x1_0100 ++ [if scl = 1 then 13 else 3, 2, 2, BitVec.ofNat 8 scl] ++ List.replicate 4 0 ++ (List.replicate 5 (leBytes 8 64)).flatten
    ++ List.replicate 40 0 ++ leBytes 2 64 ++ leBytes 2 64 ++ (List.replicate 3 (leBytes 2 1)).flatten ++ List.replicate 86 0

/-- TensorMoves: a 64 × 64 tile each way, exchanged, plain and as a tile object. -/
theorem test_hyp_TensorMoves :
    ∀ scl ∈ [0, 1], ∀ dir : Bool,
      let rows := (List.range 64).map (fun i => (64, [(0x2000_0000 + 64 * i, 64)]));
      let obj := [(0x2001_0000, if scl = 1 then 64 + 4096 + 256 else 4096)];
      let m : XMove := { op := .xten false 0 1 2 1 dir, src := if dir then obj else [], dst := if dir then [] else obj, desc := denseRec scl, rows := rows
                         bytes := 4096, scl := if scl = 1 then [(0x2002_0000, 256)] else [] };
      let r := { xrun0 0 0 0 0 with moves := [m] }; let s := atCore { xrun := some r }; let l := layoutOf m.desc;
      (s.core 0).xrun = some r ∧ r.moves[0]? = some m ∧ m.held = none ∧ s.piecesBusy obj = false ∧ s.piecesEcc 0 obj = none
        ∧ s.piecesShut 0 obj = false ∧ m.rows.length = l.rowCount ∧ l.tile.headD 1 = 64 ∧ 64 * tWidth l.ty % 8 = 0 ∧ (64 * tWidth l.ty + 7) / 8 = 64
        ∧ l.rowBytes % (16 * 2 ^ l.swz) = 0 ∧ 1 ≤ l.ty ∧ l.ty ≤ 14 ∧ l.scl = decide (scl = 1) ∧ 64 + l.rowCount * l.rowBytes + 256 = 4416
        ∧ rowsMeet (m.rows.map (·.2)) = false := by
  decide +kernel

/-- EntryLife: on each engine a head entry that waits for one and finds one, finds none, or has been granted its wait; one that waits for
nothing and starts; one that a resume continues, with a V-op record; one whose strand has an access before its FENCE outstanding; and a
finished one that signals the last count that fits and the first that does not, or not at all. -/
theorem test_hyp_EntryLife :
    (let e (sync : Word) (hw : Bool) (v : Option Resume) : Entry := { placedEntry with sync := sync, hw := hw, resume := v }
     let wen : Word := 0x0002_0000_0000_0103;
     let r : Rec := { kind := 1, flt := false, hw := false, lop := 0, cause := 0, sub := 0, seq := 0, link := 0xFFFF, word := 0, prog := 1, opa := 0
                      opb := 0, ext := [], cap := some (captured 7 7 7 []) };
     let v : Resume := { run := true, idx := 1, pass := 0, regs := [], bytes := 0, recs := [r] };
     let ks := [({ vq := [e wen false none], mq := [e wen false none], xq := [e wen false none] } : Core),
       { vq := [e 0 false none], mq := [e 0 false none], xq := [e 0 false none] },
       { vq := [e wen true (some v)], mq := [e wen true (some v)], xq := [e wen true (some v)] }];
     (ks.all (fun k => k.vrun == none && k.mrun == none && k.xrun == none && (k.strand 0).stop == none
        && (k.vq.map (·.sync) == k.mq.map (·.sync)) && k.waits == [] && (k.strand 0).loads == [] && (k.strand 0).stores == [])) = true
     ∧ (e wen false none).sync.getLsbD 49 = true ∧ ((wen.extractLsb' 0 8).toNat, (wen.extractLsb' 8 16).toNat) = (3, 1)
     ∧ (((atCore {}).onCore 0 (fun k => k.setSem 3 1)).core 0).semCount 3 = 1 ∧ ((atCore {}).core 0).semCount 3 = 0
     ∧ (e wen false none).hw = false ∧ (e 0 false none).sync.getLsbD 49 = false ∧ (e wen true (some v)).hw = true ∧ v.run = true
     ∧ (∀ q ∈ v.recs, q.cap ≠ none)
     ∧ ∃ w ∈ ({ waits := [{ sem := 3, who := .head .m, n := 1, granted := true }] } : Core).waits, w.who = .head .m ∧ w.granted = true)
    ∧ (let x := fenced (.fence 0 1 1) [] [(0, .st 0 1 2 0 3 0)]; let e := { placedEntry with after := 1 };
       x.lridx = e.launch ∧ ∃ q ∈ x.loads ++ x.stores, q.id < e.after)
    ∧ (let sen : Word := 0x0004_FFFF_0500_0000;
       let e : Entry := { placedEntry with sync := sen };
       let k : Core := { vq := [e], mq := [e], xq := [e], vrun := some { vrun0 with entry := e, ended := true }
                         mrun := some { mrun0 0 0 0 0 with entry := e, ended := true }, xrun := some { xrun0 0 0 0 0 with entry := e, ended := true } };
       sen.getLsbD 50 = true ∧ sen.getLsbD 48 = false ∧ ((sen.extractLsb' 24 8).toNat, (sen.extractLsb' 32 16).toNat) = (5, 65535)
        ∧ (k.vrun.map (fun r => r.entry == e && r.ended && r.flight == [] && r.vlq == [] && r.vsq == [] && r.esu == [] && r.flt == none)) = some true
        ∧ (k.mrun.map (fun r => r.entry == e && r.ended && r.steps == [] && r.flt == none)) = some true
        ∧ (k.xrun.map (fun r => r.entry == e && r.ended && r.moves == [] && r.flt == none)) = some true
        ∧ ((k.setSem 5 0xFFFF_0000).semCount 5).toNat + 65535 < 2 ^ 32 ∧ 2 ^ 32 ≤ ((k.setSem 5 0xFFFF_0001).semCount 5).toNat + 65535
        ∧ (0 : Word).getLsbD 50 = false) := by
  refine ⟨?_, ?_, ?_⟩ <;> decide +kernel

/-- RunningEntryChecks: on a running entry, the slot in every state, with a read to spare, with PEND at its limit, with none to spare and with its
last read; a range in no slot. -/
theorem test_hyp_RunningEntryChecks :
    (∀ x ∈ [({ st := .sealed, reads := 16383, pend := 16382 } : Slot), { st := .sealed, reads := 16384, pend := 16383 },
        { st := .sealed, reads := 1, pend := 1 }, { st := .open_ }, {}],
      let r := xrun0 0 0 0 0; let k : Core := { pooled x with xrun := some r, mrun := some (mrun0 0 0 0 0), vrun := some vrun0 }; let s := atCore k;
      (s.core 0).xrun = some r ∧ r.flt = none ∧ (mrun0 0 0 0 0).flt = none ∧ vrun0.flt = none ∧ (k.strand r.entry.strand).stop = none
        ∧ slotHolding s 0 r.entry.launch (coreWindow 0 + 252) 4 = some (0, 0, 0) ∧ ((s.core 0).poolPart 0).slot 0 = x
        ∧ ((s.core 0).poolPart 0).queue = [] ∧ slotHolding s 0 r.entry.launch (coreWindow 0 + 253) 4 = none
        ∧ slotAway s 0 r.entry.launch (coreWindow 0 + 253) = false) := by
  decide +kernel

-- Hypotheses of the statements on device steps

/-- StopsDelivered: a core that a lull halt has made quiet, one with a load and one with a store on its way to its home, and one that is not halted; a
request to cut 10 ms old and one a tick younger, with strands that the request has stopped, that rest and that run; a strand stopped by TRAP with
no entries, one queued store and a team, with strand 1 as handler and with none, with tracing off and on; and an event for SEVENT. -/
theorem test_hyp_StopsDelivered :
    (atCore { lull := true }).quiet 0 = true ∧ (atCore {}).quiet 0 = false ∧ ((loading (.ld 0 1 2 0 3) 0).onCore 0 (fun k => { k with lull := true })).quiet 0 = false
    ∧ ((atCore { lull := true }).onCluster 0 (fun k => { k with pending := [{ by_ := some (0, 1), pa := 0, bytes := [0], stack := 0 }] })).quiet 0 = false
    ∧ (∀ n ∈ [8_500_000, 8_499_999], let s := { atCore { cut := true } with tick := n };
        (s.core 0).cut = true ∧ s.quiet 0 = false ∧ (s.strand 0 0).cutDone = false ∧ ((s.core 0).cutAt + 8_500_000 ≤ s.tick ↔ n = 8_500_000))
    ∧ (∀ q : BitVec 2, ((atCore {}).strand 0 q).life ∉ [.running, .resuming] ∧ ((atCore {}).strand 0 q).stop = none)
    ∧ (∃ q : BitVec 2, ¬ (((atStrand { life := .running }).strand 0 q).life ∉ [.running, .resuming] ∧ ((atStrand {}).strand 0 q).stop = none))
    ∧ ((atStrand { life := .running, cutDone := true }).strand 0 0).cutDone = true ∧ ({ life := .running } : Strand).cutDone = false
    ∧ (∀ h ∈ [(0 : Nat), 5], ∀ b : Bool,
       let st : Stop := { why := ⟨.trap, 0, 0⟩, at_ := .issue none };
       let q := item (.st 0 1 2 0 3 0) 0x1_0000 7;
       let s := (withEvent (withRec (mapped (teamed { life := .stopped, stop := some st, stores := [q] } { life := .running })) [(8, 1, h)]) {}).onCore 0
         (fun k => { k with tren := b, trlog := 8, trbase := 0x1_0000 });
       let k := s.core 0; let x := k.strand 0;
       (k.vq ++ k.mq ++ k.xq).all (fun e => !decide (e.strand = 0)) = true ∧ k.vrun = none ∧ k.mrun = none ∧ k.xrun = none
        ∧ x.stop = some st ∧ st.why.cause ≠ .ecc ∧ st.at_ = .issue none ∧ x.request = none ∧ (x.loads ++ x.stores).all (fun q => q.flt = none) = true
        ∧ k.waits = [] ∧ x.relend = 0 ∧ s.quiet 0 = false ∧ (s.cluster 0).pending = [] ∧ x.flight = [] ∧ x.fences = [] ∧ x.loads = [] ∧ x.stores = [q]
        ∧ k.tren = b ∧ k.trerr = false ∧ 8 ≤ k.trlog.toNat ∧ isOk (resolve (s.settleFences 0 0) 0 (k.trbase.toNat + 16 * 0) .store true) 0x2000_0000 = true
        ∧ isHbm 0x2000_0000 = true ∧ s.event 0 (s.recField 0 0 6 2) = some {}
        ∧ x.fifo = [] ∧ k.team.isSome = true ∧ s.handlerFor 0 0 st.why = if h = 5 then some 1 else none) := by
  decide +kernel

/-- A strand that Skyo holds stopped, with its descriptor's cause and TRAP number, and n records claimed, the first of them a MARK. -/
def skyoHeld (cause num n : Nat) : Strand :=
  { life := .stopped
    area := Memory.store (Memory.store [] 0 ([1, BitVec.ofNat 8 cause, 0, 0] ++ leBytes 2 n ++ List.replicate 20 0 ++ leBytes 2 num)) 0x40
      [2, 0, 0, 1, 0, 0, 0xFF, 0xFF] }

/-- StopsResumed: a strand stopped with TRAP, and with SYSC for a call no strand may make; one whose list claims more records than are there; a
strand that runs. -/
theorem test_hyp_StopsResumed :
    ((atStrand {}).part 0).orphans = [] ∧ (atStrand {}).partOf 0 = 0
    ∧ descStrand (atStrand {}) 0 0x1000_0034_0000 = some (0, 0)
    ∧ (∀ n ∈ [(17, 0, 0), (18, 6, 1)], let x := (atStrand (skyoHeld n.1 n.2.1 n.2.2)).strand 0 0;
        x.life = .stopped ∧ x.stop = none ∧ x.recv = none ∧ (match x.checkList (fun _ _ => true) with | .ok l => l.length == n.2.2 | .error _ => false) = true
          ∧ leValue (Memory.bytes x.area 1 1) = n.1 ∧ leValue (Memory.bytes x.area 26 2) = n.2.1 ∧ n.2.1 ∉ [5, 9, 13])
    ∧ (let x := (atStrand (skyoHeld 17 0 2)).strand 0 0;
        x.life = .stopped ∧ (match x.checkList (fun _ _ => true) with | .ok _ => false | .error n => n == 1) = true)
    ∧ ((atStrand { life := .running }).strand 0 0).life ≠ .stopped := by
  refine ⟨?_, ?_, ?_, ?_, ?_, ?_⟩ <;> decide +kernel

/-- StopsResumed: a list whose first record passes every check and whose second does not; one that reaches past its area; no list. -/
theorem test_hyp_StopsResumed_records :
    let x := skyoHeld 17 0 2; let block (_ : Eng) (_ : Nat) : Bool := true;
    leValue (Memory.bytes x.area 0 1) = 1 ∧ leValue (Memory.bytes x.area 4 2) = 2 ∧ recPlace x 2 + 2 ≤ 65536
      ∧ RecordOk x block 0 ∧ ¬ RecordOk x block 1 ∧ leValue (Memory.bytes ({} : Strand).area 0 1) ≠ 1
      ∧ 65536 < recPlace { x with area := (List.range 9).foldl (fun m i => Memory.store m (0x43 + 8160 * i) [255]) x.area } 9 := by
  refine ⟨?_, ?_, ?_, ⟨?_, ?_, ?_, ?_, ?_, ?_, ?_, ?_, ?_, ?_⟩, fun h => absurd h.2.1 ?_, ?_, ?_⟩
  all_goals first | decide +kernel | (intro h; exact absurd h (by decide +kernel))

/-- RecordsReissued: a V-op record whose operands are not read; a first record that performs and one that fails; one with a fixed latency left;
none; a lull halt. -/
theorem test_hyp_RecordsReissued :
    (let r (i : Instr) (a : Word) (n : BitVec 32) : Rec :=
       { kind := 0, flt := false, hw := false, lop := 0, cause := 0, sub := 0, seq := 0, link := 0xFFFF, word := encode i, prog := n, opa := a, opb := 0, ext := [] };
     (∀ e ∈ [(Instr.semi 0 1 3, (7 : Word), true), (.ld 0 1 2 0 3, 1, false)], let x : Strand := { life := .resuming, reissue := [r e.1 e.2.1 0] };
       let s := atStrand x; let q := r e.1 e.2.1 0;
       x.life = .resuming ∧ x.relend = 0 ∧ (s.core 0).lull = false ∧ (s.core 0).tren = false ∧ q.kind = 0 ∧ q.prog = 0 ∧ isQueued q.sWord = true
        ∧ (match perform s 0 0 q.sWord q.opa q.opb 0 false false with | .done _ _ => e.2.2 | .fault _ => !e.2.2 | _ => false) = true)
     ∧ (∀ e ∈ [r (.add 0 1 2 3) 0 1], e.kind ≠ 2 ∧ (e.kind = 0 → e.prog ≠ 0))
     ∧ (let q := { r (.add 0 1 2 3) 0 1 with kind := 1 }; ¬ ∀ e ∈ [q], e.kind = 1 → e.cap ≠ none))
    ∧ Memory.byte (Memory.store [] 0 [2]) 0 = 2 ∧ Memory.byte ({} : Strand).area 0 ≠ 2 ∧ ({ lull := true } : Core).lull = true := by
  refine ⟨?_, ?_, ?_, ?_⟩ <;> decide +kernel

/-- RecordsReissued: requests that have waited as long as LIMIT, and one tick less, of a strand and of an X entry. -/
theorem test_hyp_RecordsReissued_stall :
    (∀ n ∈ [(99 : Nat), 100], let q : Request := { talc := true, limit := 100 };
       let s := { (mapped (atStrand { life := .running, pc := 0x1_0000, request := some q })) with
                  mem := Memory.store [] 0x2000_0000 (codeBytes (encode (.talc 0 7 8 0))), tick := n };
       (s.strand 0 0).request = some q ∧ q.talc = true ∧ q.granted = none ∧ q.limit ≠ 0 ∧ (q.tick + q.limit ≤ s.tick ↔ n = 100)
        ∧ s.wordAt 0 0x1_0000 = some (.talc 0 7 8 0))
    ∧ (let q : Request := { talc := true, limit := 100 }; let r : XRun := { xrun0 0 0 0 0 with request := some q };
       let s := { atCore { xrun := some r } with tick := 100 };
       (s.core 0).xrun = some r ∧ r.request = some q ∧ q.tick + q.limit ≤ s.tick ∧ r.flt = none) := by
  refine ⟨?_, ?_⟩ <;> decide +kernel

/-- s with launch 0 of partition 0 armed, its next team being n. -/
def armed (s : State) (n : Nat) : State := s.setLaunch 0 0 (some { armseq := 1, next := n })

/-- A core with nothing outstanding makes a kill quick. -/
theorem quick_of_one {s : State} (h : s.partCores 0 = [0]) (e : noEntries (s.core 0)) (q : ∀ t : BitVec 2, idleQueues (s.strand 0 t))
    (m : Team) (hm : (s.core 0).team = some m) (g : ∀ t : BitVec 2, t.toNat < m.strands → (s.strand 0 t).life ≠ .idle) : KillIsQuick s 0 := by
  intro c hc
  rw [h, List.mem_singleton] at hc
  subst hc
  exact ⟨e, q, fun n hn _ => by rw [hm] at hn; cases hn; exact g⟩

/-- A running team of launch 0 at tick n whose strand 0, at a word of the host region since tick 0, has these loads outstanding. -/
def hostAt (n : Nat) (l : List QItem) : State :=
  let s := teamed { life := .running, pc := 0x1_0000, loads := l } { life := .ended }
  { armed (s.setPage 0 0x1_0000 (0x2000_0000_0000 + s.placeBits 0x2000_0000_0000 + 0x1F)) 1 with tick := n }

/-- One load of the host region outstanding, from tick 0, at tick n. -/
def hostRead (n : Nat) : State := hostAt n [item (.ld 0 1 2 0 3) 0x1_0000 0]

/-- LaunchesKilled: a record with a launch whose cores have nothing outstanding, one without a launch, one that is not usable; an access of a
strand of that launch, and of none; a read of the host region 50 ms old and one a tick younger; a fetch there 50 ms old. A kill that has begun. -/
theorem test_hyp_LaunchesKilled :
    (let s := armed (withRec (teamed { life := .running } { life := .ended }) [(0, 1, 1)]) 1;
      recBytes s 0 0 0 1 = [1] ∧ ({ armseq := 1, next := 1 } : Launch).kill = none ∧ s.launch? 0 0 = some { armseq := 1, next := 1 } ∧ s.launchOf 0 = some (s.strand 0 0).lridx ∧ KillIsQuick s 0)
    ∧ (let s := withRec State.reset [(0, 1, 1)]; recBytes s 0 0 0 1 = [1] ∧ s.launch? 0 0 = none ∧ s.launchOf 0 ≠ some (s.strand 0 0).lridx)
    ∧ recBytes State.reset 0 0 0 1 ≠ [1]
    ∧ (let s := hostRead 42_500_000; let f := s.setStrand 0 0 { s.strand 0 0 with loads := [] };
      (s.strand 0 0).loads = [item (.ld 0 1 2 0 3) 0x1_0000 0] ∧ resolveIn s 0 0x1_0000 .load false = .ok 0x2000_0000_0000
        ∧ isHost 0x2000_0000_0000 = true ∧ s.launch? 0 0 = some { armseq := 1, next := 1 } ∧ KillIsQuick f 0 ∧ 0 + 42_500_000 ≤ s.tick)
    ∧ (let s := hostRead 42_499_999; noEntries (s.core 0) ∧ (s.strand 0 0).stores = [] ∧ s.tick < 0 + 42_500_000
        ∧ s.tick < (s.strand 0 0).lastTick + 42_500_000)
    ∧ (let s := hostAt 42_500_000 []; (s.strand 0 0).loads = [] ∧ (s.strand 0 0).stores = [] ∧ noEntries (s.core 0)
        ∧ (s.strand 0 0).life = .running ∧ resolveIn s 0 (s.strand 0 0).pc.toNat .fetch false = .ok 0x2000_0000_0000
        ∧ s.launch? 0 0 = some { armseq := 1, next := 1 } ∧ KillIsQuick s 0 ∧ (s.strand 0 0).lastTick + 42_500_000 ≤ s.tick)
    ∧ (let l : Launch := { armseq := 1, next := 1, kill := some (5, 13, 1) }; l.kill = some (5, 13, 1) ∧ 5 < 256 ∧ 13 < 256 ∧ 1 < 256
        ∧ ((armed State.reset 1).setLaunch 0 0 (some l)).launch? 0 0 = some l) := by
  refine ⟨⟨?_, ?_, ?_, ?_, quick_of_one ?_ ⟨?_, ?_, ?_, ?_, ?_, ?_⟩ (fun t => ⟨?_, ?_, ?_, ?_, ?_⟩) _ rfl ?_⟩, ⟨?_, ?_, ?_⟩, ?_,
    ⟨?_, ok_of_isOk ?_, ?_, ?_, quick_of_one ?_ ⟨?_, ?_, ?_, ?_, ?_, ?_⟩ (fun t => ⟨?_, ?_, ?_, ?_, ?_⟩) _ rfl ?_, ?_⟩,
    ⟨⟨?_, ?_, ?_, ?_, ?_, ?_⟩, ?_, ?_, ?_⟩,
    ⟨?_, ?_, ⟨?_, ?_, ?_, ?_, ?_, ?_⟩, ?_, ok_of_isOk ?_, ?_, quick_of_one ?_ ⟨?_, ?_, ?_, ?_, ?_, ?_⟩ (fun t => ⟨?_, ?_, ?_, ?_, ?_⟩) _ rfl ?_, ?_⟩,
    ?_⟩ <;> first | decide +kernel | (revert t; decide +kernel)

/-- TeamsDispensed: a launch of one team that has none yet emitted, beside a bank of 511, and one that has; a core without a team beside a bank
whose first entry is a team, and one whose team has not started; the core that a swapped team left, beside a bank whose first entry is that team. -/
theorem test_hyp_TeamsDispensed :
    (let s := (armed (withRec State.reset recIdle) 0).onCluster 0 (fun k => { k with bank := List.replicate 511 (.task 0 0 0 []) });
      s.launch? 0 0 = some { armseq := 1 } ∧ 0 < teamCount (s.recShape 0 0) ∧ (s.cluster 0).part = 0 ∧ (s.cluster 0).fenced = false
        ∧ (s.cluster 0).bank.length < 512 ∧ (s.part 0).swapped = [] ∧ s.placeOk 0 0 (({ armseq := 1 } : Launch).standing s 0 (s.recShape 0 0)) (s.recShape 0 0) 0 0 = true)
    ∧ (let s := armed (withRec State.reset recIdle) 1; s.launch? 0 0 = some { armseq := 1, next := 1 } ∧ ¬ 1 < teamCount (s.recShape 0 0))
    ∧ (let s := (armed (withRec State.reset recIdle) 1).onCluster 0 (fun k => { k with bank := [.team 0 0 1 0 none] });
      (s.core 7).fenced = false ∧ (s.cluster 0).fenced = false ∧ (s.core 7).team = none ∧ (s.core 7).pool = none
        ∧ (s.cluster (7 / 8)).bank = [.team 0 0 1 0 none] ∧ (s.cluster 0).ring = [] ∧ (s.recShape 0 0).all (fun e => e.2 ≠ 3) = true)
    ∧ (let m : Team := { launch := 0, index := 0, strands := 1 }; ((atCore { team := some m }).core 0).team = some m ∧ m.started = false)
    ∧ (let x : TeamCtx := { core := 0, team := { launch := 0, index := 0, strands := 1 }, saved := {} };
       let s := (armed (withRec State.reset recIdle) 1).onCluster 0 (fun k => { k with bank := [.team 0 0 1 0 (some x)] });
      (s.core 0).fenced = false ∧ (s.cluster 0).fenced = false ∧ (s.core 0).team = none ∧ (s.core 0).pool = none ∧ (s.core 0).away = []
        ∧ noEntries (s.core 0) ∧ (s.cluster 0).part = 0 ∧ (s.cluster 0).bank = [.team 0 0 1 0 (some x)] ∧ x.core = 0 ∧ (s.cluster 0).ring = []) := by
  refine ⟨?_, ?_, ?_, ?_, ?_, ?_, ?_, ?_, ?_, ⟨?_, ?_, ?_, ?_, ?_, ?_⟩, ?_⟩ <;> decide +kernel

/-- KernelStarts: a team of two strands, and a kernel descriptor at the last page below its bound; strands inside and outside the team. -/
theorem test_hyp_KernelStarts :
    (let m : Team := { launch := 0, index := 0, strands := 2 }; let s := withRec (atCore { team := some m }) [(160, 8, 0x0FFF_FFFF_0000)]; let k := s.core 0;
      k.team = some m ∧ m.started = false ∧ k.vq = [] ∧ k.mq = [] ∧ k.xq = [] ∧ k.waits = [] ∧ (s.part (s.partOf 0)).orphans = [] ∧ k.pool = none ∧ k.away = []
        ∧ leValue (recBytes s 0 0 160 8) + 2816 ≤ 0x1000_0000_0000 ∧ (1 : BitVec 2).toNat < m.strands ∧ m.strands ≤ (2 : BitVec 2).toNat) := by
  decide +kernel

/-- A team of launch 0 on core 0 at tick 850,000 whose one strand waits at a SEMW since tick 0. -/
def waiting : State :=
  let x : Strand := { life := .running, pc := 0x1_0000, s := (Vector.replicate 32 0).set 1 1 }
  let s := mapped (atCore { team := some { launch := 0, index := 0, strands := 1, started := true }, strands := (Vector.replicate 4 ({} : Strand)).set 0 x })
  { s with mem := Memory.store [] 0x2000_0000 (codeBytes (encode (.semw 0 1 22))), tick := Config.swapQuantum }

/-- TeamsEnd: a launch whose one team has gone, and one that has a team to emit; an event for its CEVENT; a blocked team at its quantum, and a tick
before it; a swapped team beside a bank of 511, and of 512 teams. -/
theorem test_hyp_TeamsEnd :
    (let s := withEvent (armed (withRec State.reset recIdle) 1) { count := 1 };
      s.launch? 0 0 = some { armseq := 1, next := 1 } ∧ s.launchDone 0 0 { armseq := 1, next := 1 } = true ∧ leValue (recBytes s 0 0 4 2) = 0
        ∧ s.event 0 0 = some { count := 1 })
    ∧ (let s := armed (withRec State.reset recIdle) 0; s.launch? 0 0 = some { armseq := 1 } ∧ s.launchDone 0 0 { armseq := 1 } = false)
    ∧ (let m : Team := { launch := 0, index := 0, strands := 1, started := true }; let k := waiting.core 0;
      k.team = some m ∧ m.started = true ∧ waiting.teamBlocked 0 m = true ∧ k.swapReady m = true ∧ k.xrun = none
        ∧ (∀ t : BitVec 2, (waiting.strand 0 t).request = none) ∧ k.waits = [] ∧ (waiting.die (dieOf 0)).queue = []
        ∧ ({ waiting with tick := Config.swapQuantum - 1 } : State).teamBlocked 0 m = false)
    ∧ (let x : TeamCtx := { core := 0, team := { launch := 0, index := 0, strands := 1 }, saved := {} };
       let b (n : Nat) := (State.reset.onPart 0 (fun q => { q with swapped := [x] })).onCluster 0 (fun k =>
         { k with bank := List.replicate n (.team 1 0 1 0 none) });
      ((b 511).part 0).swapped[0]? = some x ∧ ((b 511).cluster (x.core / 8)).bank.length < 512 ∧ ((b 512).part 0).swapped[0]? = some x
        ∧ 512 ≤ ((b 512).cluster 0).bank.length ∧ ((b 512).cluster 0).bank.all (fun y => !y.isTask) = true) := by
  refine ⟨?_, ?_, ?_, ?_⟩ <;> decide +kernel

/-- PartitionsMove: a partition with core 0 in use and nothing outstanding; one with a context saved beside a halted core; a halted core and one that
is not. -/
theorem test_hyp_PartitionsMove :
    (let s := teamed { life := .running } { life := .ended, lease := 1 };
      s.partCores 0 = [0] ∧ (s.part 0).saved = [] ∧ noEntries (s.core 0) ∧ (s.core 0).tren = false ∧ (s.core 0).waits = [] ∧ (s.die (dieOf 0)).queue = []
        ∧ (∀ t : BitVec 2, (s.strand 0 t).loads = [] ∧ (s.strand 0 t).stores = [] ∧ (s.strand 0 t).fences = [] ∧ (s.strand 0 t).request = none
          ∧ (s.strand 0 t).stop = none ∧ (s.strand 0 t).life ≠ .resuming ∧ (s.strand 0 t).fifo = []))
    ∧ (let s := State.reset.onPart 0 (fun q => { q with saved := [(0, {})] });
      (s.part 0).saved = [(0, {})] ∧ (s.core 0).halted = true ∧ (s.part 0).saved ≠ [])
    ∧ ((State.reset.core 0).halted = true ∧ (State.reset.part (State.reset.partOf 0)).saved = [])
    ∧ ((teamed { life := .running } {}).core 0).halted = false := by
  refine ⟨⟨?_, ?_, ⟨?_, ?_, ?_, ?_, ?_, ?_⟩, ?_, ?_, ?_, ?_⟩, ?_, ?_, ?_⟩ <;> decide +kernel

/-- WindowWrites: a cluster that is not halted, no V entry of the strand and no record to reissue, a CTL value without CUT, a tile that no M entry uses and one that is used, register numbers without an
RW field. -/
theorem test_hyp_WindowWrites :
    State.reset.clusterHalted 3071 = false ∧ (State.reset.core 3071).vrun = none ∧ (State.reset.core 3071).vq = []
    ∧ (State.reset.strand 3071 3).reissue = [] ∧ (1 : BitVec 64).getLsbD 1 = false ∧ (State.reset.core 3071).mrun = none ∧ 3071 < 3072
    ∧ (let q : MRun := { mrun0 0 0 0 0 with uses := [7] }; (({ mrun := some q } : Core)).mrun = some q ∧ ((0x7FFF : BitVec 15).extractLsb' 12 3).toNat ∈ q.uses
        ∧ ((0 : BitVec 15).extractLsb' 12 3).toNat ∉ q.uses)
    ∧ (∀ n ∈ [0x000, 0x102, 0x211, 0x3FFF], n ∉ [0x040, 0x101, 0x300, 0x208, 0x209, 0x20A, 0x20B, 0x210, 0x212, 0x213]) := by
  refine ⟨?_, ?_, ?_, ?_, ?_, ?_, ?_, ?_, ?_⟩ <;> decide +kernel

/-- RecordCalls: a handle with one record and an index past it; records that are IDLE, ARMED and DONE, and one that is not usable; shapes that arm, of
an extent over 65,536 and of five strands to a team; layouts in range and out of it, of 512 KiB and of more; handlers 4 and 5; names to
reserve; a caller with nothing outstanding and one with a load. -/
theorem test_hyp_RecordCalls :
    (let o : Object := { handle := 1, base := 0, size := 65536, records := [3] };
     let s := State.reset.onPart 0 (fun q => { q with objects := [o] });
      s.object 0 1 = some o ∧ o.records[0]? = some 3 ∧ o.records[1]? = none ∧ s.object 0 2 = none)
    ∧ recBytes State.reset 0 0 0 1 ≠ [1]
    ∧ (∀ n ∈ [0, 1, 3], let s := withRec State.reset [(0, 1, 1), (1, 1, n)]; recBytes s 0 0 0 1 = [1] ∧ leValue (recBytes s 0 0 1 1) = n)
    ∧ judge ((withRec State.reset recIdle).recShape 0 0) = .arm
    ∧ judge ((withRec State.reset [(0, 1, 1), (2, 1, 1), (80, 4, 65537)]).recShape 0 0) = .extent
    ∧ judge ((withRec State.reset [(0, 1, 1), (2, 1, 2), (80, 4, 1), (84, 4, 5), (112, 2, 0x403)]).recShape 0 0) = .levels
    ∧ (let f := 2 + 16 * 256; f < 2 ^ 14 ∧ f % 16 ≤ 8 ∧ f / 16 % 512 ≤ 256 ∧ f / 16 % 512 * (256 * 2 ^ (f % 16)) ≤ 524288)
    ∧ (let f := 4 + 16 * 256; f < 2 ^ 14 ∧ f % 16 ≤ 8 ∧ f / 16 % 512 ≤ 256 ∧ 524288 < f / 16 % 512 * (256 * 2 ^ (f % 16)))
    ∧ ¬ (9 % 16 ≤ 8) ∧ (4 : Nat) ≤ 4 ∧ (4 : Nat) < 5
    ∧ (0 : Nat) < 4096 ∧ (4096 : Nat) < 4097 ∧ (State.reset.part 0).nextEvent + 4096 ≤ 0xFFFF
    ∧ 0xFFFF < ((State.reset.onPart 0 (fun q => { q with nextEvent := 0xFFFF })).part 0).nextEvent + 1
    ∧ (State.reset.hart State.reset.skyo.caller).items = []
    ∧ (let s := State.reset.setHart State.reset.skyo.caller { items := [{ id := 0, op := .load 0 8 }] }; (s.hart s.skyo.caller).items ≠ []) := by
  refine ⟨?_, ?_, ?_, ?_, ?_, ?_, ?_, ?_, ?_, ?_, ?_, ?_⟩ <;> decide +kernel

/-- A container of one kernel with n templates and sections (kind, bytes), each on its own image page, and a signature of zeros (R337). -/
def pack (n : Nat) (l : List (Nat × List Byte)) : List Byte :=
  let o := 128 + 32 * (l.length + 1)
  let entry (kind kernel off size voff : Nat) : List Byte :=
    leBytes 4 kind ++ leBytes 4 kernel ++ leBytes 8 off ++ leBytes 8 size ++ leBytes 8 voff
  let rec go (off voff : Nat) : List (Nat × List Byte) → List Byte
    | [] => entry 11 0xFFFF off 200 0
    | (kind, bs) :: rest =>
      let loaded := kind == 1
      entry kind (if kind ≤ 5 || kind = 10 then 0 else 0xFFFF) off bs.length (if loaded then voff else 0) ++ go (off + bs.length) (voff + 65536) rest
  let data := (l.map (·.2)).flatten
  leBytes 4 0x314B4441 ++ leBytes 2 1 ++ leBytes 2 (l.length + 1) ++ leBytes 4 0 ++ leBytes 4 0 ++ leBytes 8 0 ++ leBytes 8 (65536 * l.length)
    ++ leBytes 8 128 ++ leBytes 8 (o + data.length) ++ leBytes 2 1 ++ leBytes 2 n ++ List.replicate 76 0
    ++ go o 0 l ++ data ++ List.replicate 200 0

/-- The container in core 0's scratchpad; its key hash in fuse slot 0 and its digest in the loader's cache. -/
def shelved (bs : List Byte) : State :=
  let c := Container.parse bs
  let s := atCore { spad := Memory.store [] 0 bs }
  { s with pkg := { s.pkg with keys := [some (sha384 (((c.bytes.drop c.sigoff).drop 8).take 96))], digests := [(c.digest, 0)] } }

theorem shelved_read (bs : List Byte) : physRead (shelved bs) (0x1000_0000_0000 % 2 ^ 48) bs.length = bs := by
  have h : winSplit (0x1000_0000_0000 % 2 ^ 48) = some (0, 0) := by decide
  have r : winRange 0 = .spad := by decide
  have k : ((shelved bs).core 0).spad = Memory.store [] 0 bs := by simp [shelved, atCore, State.core, State.setCore]
  simp only [physRead, h, winBytes, r, if_true, k]
  exact Memory.bytes_store_same [] 0 bs

/-- A container whose digest is known carries a good signature when its slot holds its key. -/
theorem shelved_signed (bs : List Byte) (h : field ((Container.parse bs).bytes.drop (Container.parse bs).sigoff) 0 1 = 0)
    (z : zeros ((Container.parse bs).bytes.drop (Container.parse bs).sigoff) 1 7 = true) (t : (Container.parse bs).translated = false) :
    (Container.parse bs).signed (shelved bs).pkg.keys (if (Container.parse bs).translated then some 3 else none)
      ((shelved bs).pkg.digests.any (fun e => e.1 = (Container.parse bs).digest)) = true := by
  simp [Container.signed, shelved, h, z, t]

/-- A code section that starts with a DISP, with a relocation of type t and an addend (R339). -/
def relocated (t addend : Nat) : List Byte :=
  pack 0 [(1, codeBytes (encode (.disp 0 0 0 0 0 0))), (8, leBytes 8 0 ++ leBytes 8 addend ++ leBytes 8 t)]

/-- A template, and a pool layout of 16 MiB (R338, R251). -/
def plainPack : List Byte := pack 1 [(9, List.replicate 256 0)]
def bigPool : List Byte := pack 0 [(10, leBytes 2 (8 + 16 * 256) ++ List.replicate 14 0)]

/-- LoaderCalls, OBJ_LOAD: containers that pass, one that fails its form and has no translation, and a foreign binary with one, an unknown key, an older version, no room, a pool too large, and two
relocations that fail. -/
theorem test_hyp_LoaderCalls_load :
    (∀ bs ∈ [plainPack, bigPool, relocated 0 0, relocated 9 256], let c := Container.parse bs;
        c.formOk = true ∧ field (c.bytes.drop c.sigoff) 0 1 = 0 ∧ zeros (c.bytes.drop c.sigoff) 1 7 = true ∧ c.translated = false ∧ c.svn = 0
          ∧ bs.length ≤ 1024)
    ∧ (Container.parse (List.replicate 128 0)).formOk = false ∧ State.reset.pkg.translation (sha384 (List.replicate 128 0)) = none
    ∧ (Container.parse [7]).formOk = false
    ∧ ({ State.reset.pkg with translations := [(sha384 [7], plainPack)] } : Package).translation (sha384 [7]) = some (Container.parse plainPack)
    ∧ (Container.parse plainPack).signed [] none false = false
    ∧ (Container.parse plainPack).svn < 1
    ∧ State.reset.placeImage 0 (Container.parse plainPack) = some 0
    ∧ ({ State.reset with pkg := { State.reset.pkg with frames := 0xE0_0000_0000 } } : State).placeImage 0 (Container.parse plainPack) = none
    ∧ (Container.parse plainPack).poolTooBig = false ∧ (Container.parse bigPool).poolTooBig = true
    ∧ (let c := Container.parse (relocated 0 0);
        c.poolTooBig = false ∧ (match c.patchAll 0 c.relocs c.relocs c.image with | .badobj => true | _ => false) = true)
    ∧ (let c := Container.parse (relocated 9 256);
        c.poolTooBig = false ∧ (match c.patchAll 0 c.relocs c.relocs c.image with | .overflow => true | _ => false) = true)
    ∧ (let c := Container.parse plainPack;
        (match c.patchAll 0 c.relocs c.relocs c.image with | .ok _ => true | _ => false) = true ∧ c.nlaunch = 1) := by
  refine ⟨?_, ?_, ?_, ?_, by simp [Package.translation], ?_, ?_, ?_, ?_, ?_, ?_, ?_, ?_, ?_⟩ <;> decide +kernel

theorem get_of_all {α : Type} (d v : α) (m : Sparse α) (a : Nat) (h : ∀ e ∈ m, e.2 = v) (w : ∃ e ∈ m, e.1 = a) : Sparse.get d m a = v := by
  induction m with
  | nil => obtain ⟨e, he, _⟩ := w; cases he
  | cons e m ih =>
    rw [Sparse.get]
    by_cases hk : e.1 = a
    · rw [if_pos hk]; exact h e (.head _)
    · rw [if_neg hk]
      refine ih (fun x hx => h x (.tail _ hx)) ?_
      obtain ⟨x, hx, hxa⟩ := w
      cases hx with
      | head => exact absurd hxa hk
      | tail _ hx => exact ⟨x, hx, hxa⟩

/-- LoaderCalls, OBJ_LOAD: a partition with no record in use has a free one, and one whose 1,024 records are all in use has none. -/
theorem test_hyp_LoaderCalls_records :
    1 ≤ (State.reset.freeRecords 0).length
    ∧ ({ State.reset with mem := (List.range 1024).map (fun i => (0xF0_0000_0000 + 256 * i, 1)) } : State).freeRecords 0 = [] := by
  refine ⟨by decide +kernel, ?_⟩
  rw [State.freeRecords, List.filter_eq_nil_iff]
  intro i hi
  have h : Memory.byte ((List.range 1024).map (fun i => ((0xF0_0000_0000 + 256 * i, 1) : Host.Cell))) (0xF0_0000_0000 + 256 * i) = 1 :=
    get_of_all _ _ _ _ (by intro e he; obtain ⟨j, _, rfl⟩ := List.mem_map.mp he; rfl) ⟨_, List.mem_map.mpr ⟨i, hi, rfl⟩, rfl⟩
  have a : ({ State.reset with mem := (List.range 1024).map (fun i => (0xF0_0000_0000 + 256 * i, 1)) } : State).recAddr 0 i + 0
      = 0xF0_0000_0000 + 256 * i := by
    simp [State.recAddr, State.part, State.reset, Sparse.get]
  rw [State.recField, a, Memory.bytes_eq, show List.range 1 = [0] from rfl, List.map_singleton, Nat.add_zero, h]
  decide

/-- LoaderCalls, the other calls: an object with a record in use and one with none; pages of the image region to its end and a misaligned one; frames;
a partition without tables; patches. -/
theorem test_hyp_LoaderCalls_calls :
    (∀ n ∈ [0, 2], let o : Object := { handle := 1, base := 0, size := 65536, records := [0] };
      let s := (withRec State.reset [(0, 1, 1), (1, 1, n)]).onPart 0 (fun q => { q with objects := [o] });
      s.object 0 1 = some o ∧ leValue (recBytes s 0 0 1 1) = n ∧ s.object 0 2 = none)
    ∧ (0x0FFF_FFFF_0000 % 65536 = 0 ∧ 65536 ≠ 0 ∧ 0x0FFF_FFFF_0000 + 65536 ≤ 0x1000_0000_0000 ∧ 0x0FFF_FFFF_0001 % 65536 ≠ 0)
    ∧ ((2 ^ 48 - 65536) % 65536 = 0 ∧ 2 ^ 48 - 65536 + 65536 ≤ 2 ^ 48 ∧ 252 < 256 ∧ 252 % 4 = 0)
    ∧ (let q := State.reset.part 0; q.tables = [] ∧ q.root % 4096 = 0 ∧ q.tnext % 4096 = 0 ∧ q.root + 4096 ≤ q.tnext ∧ q.tnext + 0x3000 ≤ 2 ^ 47)
    ∧ (0x7F_FFFF_0000 + 65536 ≤ State.reset.memsplit * 2 ^ 36 ∧ 0x7F_FFFF_0000 < 2 ^ 40 ∧ 4 < 64 ∧ 4 % 8 = 4 ∧ 65535 < 65536)
    ∧ ((0x1_0000 : Word).toNat % 4 = 0 ∧ (0xFFFF_FFFF : Word).toNat < 2 ^ 32 ∧ (0 : Word).toNat < 2 ^ 16 ∧ (withEvent State.reset {}).event 0 0 = some {})
    ∧ (0x1_0002 : Word).toNat % 4 ≠ 0 := by
  refine ⟨?_, ?_, ?_, ?_, ?_, ?_, ?_⟩ <;> decide +kernel

/-- A firmware image of no section but its signature, in the BAR2 window, with its digest known and its key in slot 0. -/
def booting (svn : BitVec 32) : State :=
  let bs := pack 0 []
  let c := Container.parse bs
  { State.reset with pkg := { State.reset.pkg with
      bar2 := Memory.store [] 0 bs, keys := [some (sha384 (((c.bytes.drop c.sigoff).drop 8).take 96))], svn := svn } }

/-- The machine at stage 4 with an agenda. -/
def up (l : List Agent) : State := { State.reset with pkg := { State.reset.pkg with stage := 4 }, agenda := l }

/-- BringUp: stage 0 with no size written, stages past it, sizes of 0, 1, 256 MiB and one byte more; an image that fails its form and one that keeps it;
stage 2; and a fuse counter to raise; the host's accesses and Skyo's, at stage 4 with no partition running, and with a core that runs. -/
theorem test_hyp_BringUp :
    State.reset.pkg.size = 0 ∧ State.reset.pkg.stage = 0
    ∧ (let g : Package := { State.reset.pkg with stage := 2 }; g.stage ≠ 0 ∧ g.stage = 2)
    ∧ (0 : BitVec 64).toNat % 2 ^ 32 = 0 ∧ (0x1000_0000 : BitVec 64).toNat % 2 ^ 32 ≤ 0x1000_0000
    ∧ 0x1000_0000 < (0x1000_0001 : BitVec 64).toNat % 2 ^ 32 ∧ 0 < (1 : BitVec 64).toNat % 2 ^ 32
    ∧ (Container.parse (Memory.bytes State.reset.pkg.bar2 0 1)).formOk = false
    ∧ (let c := Container.parse (pack 0 []); c.formOk = true ∧ c.svn < (booting 1).pkg.svn ∧ (booting 0).pkg.svn ≤ c.svn)
    ∧ State.reset.pkg.svn < 1 ∧ State.reset.part 0 = {}
    ∧ (∀ a ∈ [Agent.host (.read 8 8), .host (.read 8 4), .host (.write 16 8 1), .skyo (.memsplit 16), .skyo (.budget 3 0)],
        (up [a]).agenda = [a] ∧ (up [a]).pkg.stage = 4 ∧ (up [a]).noneRuns = true ∧ ((up [a]).die 3).queue = [])
    ∧ ((atStrand { life := .running }).core 0).halted = false := by
  refine ⟨?_, ?_, ?_, ?_, ?_, ?_, ?_, ?_, ?_, ?_, ?_, ?_, ?_⟩ <;> decide +kernel

/-- A barrier of two packages in which this one stands first, with what has come of the other. -/
def coll0 (l : List (Nat × Nat × List Byte)) : Collective :=
  { kind := .barrier, part := 0, me := 0, m := 2, src := 0, dst := 64, n := 8, start := 0, peers := l }

/-- PowerClocksAndCounters: locked mode at a tick that is a multiple of 64, with a request that came a tick before and one that came at it, a share that just fits and
one that does not; both clock modes; the ends of the clock's range; a link that works; a collective under way whose peer
the debugger holds, on a core in use that it holds, and one with a peer at large. -/
theorem test_hyp_PowerClocksAndCounters :
    (∀ n ∈ [(37500, 63), (37501, 63), (1, 64)], let r : LeaseReq := { core := 0, strand := 0, n := n.1, tick := n.2 };
      let s := { (State.reset.onDie 0 (fun x => { x with queue := [r] })) with locked := true, tick := 64 };
      s.locked = true ∧ s.tick % 64 = 0 ∧ (s.die (0 : BitVec 2).toNat).queue = [r] ∧ (r.tick < s.tick ↔ n.2 = 63)
        ∧ (s.leasedPart 0 (s.partOf r.core) + r.n ≤ (s.die (0 : BitVec 2).toNat).budget / (s.part (s.partOf r.core)).share ↔ n.1 ≠ 37501))
    ∧ ¬ (State.reset.locked = true ∧ State.reset.tick % 64 = 0) ∧ State.reset.locked = false
    ∧ 400 ≤ 400 ∧ 1000 ≤ 1000 ∧ 399 < 400 ∧ 1000 < 1001 ∧ (0 : BitVec 3) ≠ 4 ∧ (4 : BitVec 3).toNat ≤ 4 ∧ ((0, 4) : Nat × Nat) ∉ State.reset.pkg.links
    ∧ (∀ e : Fin 4, (State.reset.die e.val).queue = []) ∧ 2 ≤ (2 : BitVec 64).toNat
    ∧ (let s := (atStrand { life := .running }).onCore 0 (fun k => { k with lull := true }); let c : Collective := coll0 [];
        s.partHeld c.part = true ∧ (∀ j < c.m, j = c.me ∨ j ∈ ({ c with held := [1] } : Collective).held) ∧ ¬ (1 = c.me ∨ 1 ∈ c.held)) := by
  refine ⟨?_, ?_, ?_, ?_, ?_, ?_, ?_, ?_, ?_, ?_, ?_, ?_, ?_⟩ <;> decide +kernel

/-- PowerClocksAndCounters: the ends of the period's range and the smallest ring; a ring with exactly four records' room at tick 1,024, a full one, and one that is
off. -/
theorem test_hyp_PowerClocksAndCounters_ring :
    (10 ≤ 10 ∧ 24 ≤ 24 ∧ 24768 ≤ 24768 ∧ ¬ 10 ≤ 9)
    ∧ (∀ n ∈ [0, 4], let q : CounterRing := { on := true, k := 10, slots := 4, next := n, addr := 0x1_0000 };
       let s := { mapped State.reset with ring := q, tick := 1024 };
       s.ring = q ∧ q.on = true ∧ s.tick % 2 ^ q.k = 0 ∧ q.last ≠ some s.tick ∧ (n + 4 ≤ q.slots ↔ n = 0) ∧ (q.slots ≤ n ↔ n = 4))
    ∧ (let s := { mapped State.reset with ring := { on := true, k := 10, slots := 4, addr := 0x0_C000 - 24768 * 3 + 0x1_0000 * 1 - 0x0_C000 } };
       let at_ := 0x1_0000; at_ % 65536 + 24768 ≤ 65536 ∧ isOk (resolveIn s 0 at_ .store false) 0x2000_0000 = true ∧ 0x2000_0000 < 2 ^ 40)
    ∧ State.reset.ring.on = false := by
  refine ⟨?_, ?_, ?_, ?_⟩ <;> decide +kernel

/-- Collectives: each kind in a ring of two with its peer arrived, from either place; a peer yet to arrive; a participant halted here, and one there;
a wait of COLLTO and one a tick shorter; an instance that this package came to first, one that it came to last, and none. -/
theorem test_hyp_Collectives :
    (∀ k ∈ [CollKind.barrier, .allGather, .allReduceI32, .allReduceF32, .reduceScatterI32, .reduceScatterF32], ∀ me ∈ [0, 1],
      let x := { coll0 [(1 - me, 5, List.replicate 8 1)] with kind := k, me := me };
      let s := { State.reset with colls := [x] };
      s.colls = [x] ∧ ¬ (s.partHalted x.part = true ∨ x.halted ≠ []) ∧ x.kind = k ∧ x.n = 4 * 2 ∧ x.n = 2 * (4 * 1) ∧ x.m = 2
        ∧ (x.me = 0 ∨ x.me = 1) ∧ x.peers = [(1 - x.me, 5, List.replicate 8 1)] ∧ x.src.toNat < 2 ^ 40 ∧ x.dst.toNat < 2 ^ 40
        ∧ (∀ i < x.m, i = x.me ∨ i = 1 - x.me))
    ∧ (let x := coll0 []; 1 < x.m ∧ 1 ≠ x.me ∧ (List.replicate 8 (0 : Byte)).length = x.n ∧ (∀ e ∈ x.peers, e.1 ≠ 1)
        ∧ ¬ (2 < x.m) ∧ ¬ (∀ i < x.m, i = x.me))
    ∧ ((atStrand { life := .stopped }).partHalted 0 = true ∧ ({ coll0 [] with halted := [1] } : Collective).halted ≠ [] ∧ State.reset.colls = [])
    ∧ (∀ n ∈ [0, 1], let x := { coll0 [] with halted := [1], waited := State.reset.collto - n };
        State.reset.collto ≤ x.waited ↔ n = 0)
    ∧ (∀ n ∈ [0, 1], let y : Arrivals := { kind := .barrier, part := 0, n := 8, me := n, ticks := [some 100, some 900], base := 50, done := 900 };
       let s := { State.reset with arrivals := [y] };
        s.arrivals[0]? = some y ∧ y.asked = false ∧ s.locked = false ∧ (∀ e : Fin 4, (s.die e.val).queue = [])
          ∧ ((y.ticks.getD y.me none).getD 0 < (y.ticks.filterMap id).foldl Nat.max 0 ↔ n = 0) ∧ y.base < (y.ticks.filterMap id).foldl Nat.max 0)
    ∧ State.reset.arrivals[0]? = none := by
  refine ⟨?_, ?_, ?_, ?_, ?_, ?_⟩ <;> decide +kernel

/-- The machine at stage 4 with a hart that has these accesses outstanding and a next move. -/
def harted (l : List HartItem) (a : HartAct) : State := (up [.hart 0 a]).setHart 0 { items := l, next := 3 }

/-- HartAccesses: a hart with nothing outstanding, and with each access alone; a store-conditional with its reservation and without; a later access
bound to an earlier one by each dependency, annotation and pair, of the same bytes, and free of it; a fence between them, an address dependency
through an access between, and a store between that the later load takes, whose value depends on the earlier one or does not; a call. -/
theorem test_hyp_HartAccesses :
    ((harted [] (.issue (.load 0 8) {})).agenda = [.hart 0 (.issue (.load 0 8) {})] ∧ (harted [] (.perform 0)).pkg.stage = 4
      ∧ ((harted [] (.perform 0)).hart 0).items = [] ∧ (harted [] .call).agenda = [.hart 0 .call])
    ∧ (∀ o ∈ [HartOp.load 0xFF_FFFF_FFF8 8, .store 0xFF_FFFF_FFF8 8 1, .amo 0xFF_FFFF_FFF8 8 0 1 true true, .lr 0xFF_FFFF_FFF8 8 true true,
        .sc 0xFF_FFFF_FFF8 8 1 true true], let s := harted [{ id := 2, op := o }] (.perform 0); let r : Reserved := ⟨0, 0xFF_FFFF_FFF8, 8⟩;
        s.agenda = [.hart 0 (.perform 0)] ∧ s.pkg.stage = 4 ∧ (s.hart 0).items = [{ id := 2, op := o }]
          ∧ 0xFF_FFFF_FFF8 + 8 ≤ 2 ^ 40 ∧ s.eccAt 4 0xFF_FFFF_FFF8 = none ∧ r ∉ s.resvs ∧ r ∈ { s with resvs := [r] }.resvs)
    ∧ ¬ ((0x0F00_0000 : Nat) ≤ 0xFF_FFFF_FFF8 ∧ (0xFF_FFFF_FFF8 : Nat) < 0x0F01_0000)
    ∧ (∀ e ∈ [((.load 0 8, .load 64 8, {}) : HartOp × HartOp × HartDeps), (.load 0 8, .load 64 8, { addr := [1] }), (.load 0 8, .store 64 1 0, { data := [1] }),
        (.load 0 8, .store 64 1 0, { ctrl := [1] }), (.load 0 8, .store 7 1 0, {}), (.amo 0 8 0 0 true false, .load 64 8, {}),
        (.load 0 8, .amo 64 8 0 0 false true, {}), (.sc 0 8 0 false true, .lr 64 8 true false, {}), (.lr 0 8 false false, .sc 64 8 0 false false, {})],
        let l : List HartItem := [{ id := 1, op := e.1 }, { id := 2, op := e.2.1, deps := e.2.2 }]; let s := harted l (.perform 1);
        s.agenda = [.hart 0 (.perform 1)] ∧ (s.hart 0).items = l)
    ∧ (0 < 7 + 1 ∧ 7 < 0 + 8 ∧ ¬ (64 < 0 + 8))
    ∧ (∀ e ∈ [((.fence false true true false, {}) : HartOp × HartDeps), (.load 128 8, { addr := [0] }), (.store 60 16 0, { data := [0] })],
       let l : List HartItem := [{ id := 0, op := .store 0 8 1 }, { id := 1, op := e.1, deps := e.2 }, { id := 2, op := .load 64 8 }];
       let s := harted l (.perform 2); s.agenda = [.hart 0 (.perform 2)] ∧ (s.hart 0).items = l)
    ∧ (let l : List HartItem := [{ id := 1, op := .store 60 16 0 }, { id := 2, op := .load 64 12 }];
       (60 ≤ 64 ∧ 64 + 12 ≤ 60 + 16 ∧ 0 < 12) ∧ ((harted l (.perform 1)).hart 0).items = l ∧ 1 ∉ ({} : HartDeps).addr ∧ 1 ∉ ({} : HartDeps).data) := by
  refine ⟨?_, ?_, ?_, ?_, ?_, ?_, ?_⟩ <;> decide +kernel

/-- DecodeEncode: a well-formed instruction of each stream, and a word that decodes. -/
theorem test_hyp_DecodeEncode :
    (∀ e ∈ ([(.add 3 31 31 31, .s), (.vnop true, .v), (.mnop true, .m), (.xnop true, .x)] : List (Instr × Stream)),
      stream? e.1 = some e.2 ∧ e.1.wf = true)
    ∧ decode? .s 0xC0FFFE00 = some (.add 3 31 31 31) := by
  decide +kernel

/-- A page of code at 0x1_0000 that holds word w first. -/
def coded (s : State) (w : Code) : State :=
  { mapped s with mem := Memory.store [] 0x2000_0000 (codeBytes w), pkg := { s.pkg with stage := 4 } }

/-- StepRuns: a running strand whose word decodes, and whose word does not, in its 63rd slot; a running entry of each engine; a device step with another
agent behind it; a cached copy of the word; stage 0. -/
theorem test_hyp_StepRuns :
    (∀ n ∈ [(0x00084200, true), (0x07000000, false)],
      let s := (coded (atStrand { life := .running, pc := 0x1_0000 }) (BitVec.ofNat 32 n.1)).onCore 0 (fun k => { k with held := 63 });
      let k := s.core s.focus; let y := k.strand k.cur;
      let s1 := (s.onCore s.focus (fun k => { k with slotNo := k.slotNo + 1 })).select s.focus k.cur;
      s.agenda = [] ∧ s.pkg.stage = 4 ∧ s.icache = [] ∧ (∀ t : BitVec 2, (k.strand t).life = .running → (k.strand t).owed = 0) ∧ k.switch = false ∧ k.held < 64 ∧ y.life = .running
        ∧ k.lull = false ∧ y.pc.toNat % 2 ^ 48 < 0x1000_0000_0000 ∧ isOk (resolve s1 s.focus (y.pc.toNat % 2 ^ 48) .fetch false) 0x2000_0000 = true
        ∧ ((decode? .s (BitVec.ofNat 32 (leValue (physRead s1 0x2000_0000 4)))).isSome = n.2))
    ∧ (let s := { coded (atCore { vrun := some vrun0, mrun := some (mrun0 0 0 0 0), xrun := some (xrun0 0 0 0 0) }) 0 with agenda := [.ve 0] };
       let e := { s with focus := 0 }.onCore 0 Core.meSlot;
       s.agenda = [.ve 0] ∧ s.pkg.stage = 4 ∧ (s.core 0).vrun = some vrun0 ∧ vrun0.ended = false ∧ vrun0.flt = none ∧ ((s.core 0).strand vrun0.entry.strand).stop = none
        ∧ (match entryWord { s with focus := 0 } 0 .v vrun0.entry vrun0.idx with | .ok i => i == .vadd false 0 0 0 | .error _ => false) = true
        ∧ (match (e.core 0).mrun with | some m => !m.ended && m.flt == none && ((e.core 0).strand m.entry.strand).stop == none
            && (match entryWord e 0 .m m.entry m.idx with | .ok i => i == .mnop false | .error _ => false) | none => false) = true
        ∧ (match (s.core 0).xrun with | some x => !x.ended && x.flt == none && ((s.core 0).strand x.entry.strand).stop == none
            && (match entryWord { s with focus := 0 } 0 .x x.entry x.idx with | .ok i => i == .xnop false | .error _ => false) | none => false) = true)
    ∧ (([Agent.ev (.teamTake 0), .sq 0] : List Agent) = .ev (.teamTake 0) :: [.sq 0] ∧ ([.sq 0] : List Agent) ≠ [])
    ∧ (up [.ev (.teamTake 0)]).agenda = [.ev (.teamTake 0)] ∧ State.reset.pkg.stage ≠ 4
    ∧ (let e : CodeCopy := { core := 0, pa := 0x2000_0000, word := 0x00084200, hit := true };
       let s := { coded (atStrand { life := .running, pc := 0x1_0000 }) 0 with icache := [e] };
        s.icache = [e] ∧ e.core = s.focus ∧ e.hit = true ∧ e.before = none) := by
  refine ⟨?_, ?_, ?_, ?_, ?_, ?_⟩ <;> decide +kernel

/-- MemoryCanonicalKept: reset, a state whose memory is canonical, takes a step. -/
theorem test_hyp_MemoryCanonicalKept :
    Memory.wf State.reset.mem = true ∧ (match step State.reset with | .next t => Memory.wf t.mem | _ => false) = true := by
  decide +kernel

-- Hypotheses of clauses on waits, links and halted cores

/-- Quiet, in ResultsLand, VectorWritesLand, StopsDelivered, RecordsReissued, TeamsDispensed, KernelStarts and TeamsEnd: a core that a lull halt finds
with nothing outstanding, and one that is not halted. -/
theorem test_hyp_quiet : Quiet (atCore { lull := true }) 0 ∧ ¬ Quiet (atCore {}) 0 :=
  ⟨⟨by decide +kernel, by decide +kernel⟩, fun h => absurd h.1 (by decide +kernel)⟩

/-- EventAndTaskWords, events: an event of die 1, behind a link that has failed, posted, armed and read. -/
theorem test_hyp_EventAndTaskWords_link :
    ∀ i ∈ [Instr.evp 0 1, .eva 0 1 2], let s0 := (storing i 1 0).setEvent 0 1 {};
      let s := { s0 with pkg := { s0.pkg with links := [(0, 1)] } }; let o := s.ahead 0 0 (item i 1 0) false;
      (storeReady o 0 0 (item i 1 0) ∧ o.event (o.partOf 0) 1 = some {} ∧ s.linkDown (0 / 768) (1 % 4) = true)
        ∧ s.event (s.partOf s.focus) 1 = some {} ∧ s.linkDown (s.focus / 768) (1 % 4) = true ∧ s.linkDown (0 / 768) (0 % 4) = false := by
  intro i h
  simp only [List.mem_cons, List.not_mem_nil, or_false] at h
  rcases h with rfl | rfl <;> (refine ⟨⟨⟨?_, ?_, ?_, ?_⟩, ?_, ?_⟩, ?_, ?_, ?_⟩ <;> decide +kernel)

/-- EventAndTaskWords, tasks: posts at a misaligned address, at one that is not mapped, in a stop-record area, and of a record that names an event that
is not reserved; completions at an address that is not mapped and of such an event; and a search that meets a failed link. -/
theorem test_hyp_EventAndTaskWords_stops :
    (∀ a ∈ [0x1_0020, 0x1_0000, 0x1000_0034_0000], let s := (storing (.qpost 0 1) (BitVec.ofNat 64 a) 0).ahead 0 0 (item (.qpost 0 1) (BitVec.ofNat 64 a) 0) false;
       let r := s.release 0 4;
       storeReady s 0 0 (item (.qpost 0 1) (BitVec.ofNat 64 a) 0) ∧ (a % 64 ≠ 0 ↔ a = 0x1_0020)
        ∧ (a = 0x1_0000 → (match resolve r 0 a .load true with | .ok _ => false | .error w => w.cause == .xlate) = true)
        ∧ (a = 0x1000_0034_0000 → isOk (resolve r 0 a .load true) a = true ∧ winSplit a = some (0, 0x34_0000) ∧ winRange 0x34_0000 = .area))
    ∧ (let s := (mapped (storing (.qpost 0 1) 0x1_0000 0)).ahead 0 0 (item (.qpost 0 1) 0x1_0000 0) false; let r := s.release 0 4;
       storeReady s 0 0 (item (.qpost 0 1) 0x1_0000 0) ∧ isOk (resolve r 0 0x1_0000 .load true) 0x2000_0000 = true ∧ isHbm 0x2000_0000 = true
        ∧ leValue (((Memory.bytes r.mem 0x2000_0000 64).drop 32).take 2) = 0 ∧ s.event (s.partOf 0) 0 = none)
    ∧ (let s := (storing (.qdone 0 1) 0x1_0000 0).ahead 0 0 (item (.qdone 0 1) 0x1_0000 0) false; let r := s.release 0 4;
       storeReady s 0 0 (item (.qdone 0 1) 0x1_0000 0)
        ∧ (match r.scalarTarget 0 (0x1_0000 + 34) 2 .load true with | .ok _ => false | .error w => w.cause == .xlate) = true)
    ∧ (let s := (mapped (storing (.qdone 0 1) 0x1_0000 0)).ahead 0 0 (item (.qdone 0 1) 0x1_0000 0) false; let r := s.release 0 4;
       storeReady s 0 0 (item (.qdone 0 1) 0x1_0000 0) ∧ isOk (r.scalarTarget 0 (0x1_0000 + 34) 2 .load true) 0x2000_0022 = true ∧ isHbm 0x2000_0022 = true
        ∧ leValue (Memory.bytes r.mem 0x2000_0022 2) = 0 ∧ s.event (s.partOf 0) 0 = none)
    ∧ (let s := { atStrand {} with pkg := { State.reset.pkg with links := [(0, 1)] } };
       (match s.findTask 0 0 with | .ok _ => false | .error w => w.cause == .ecc) = true) := by
  refine ⟨?_, ⟨⟨?_, ?_, ?_, ?_⟩, ?_, ?_, ?_, ?_⟩, ⟨⟨?_, ?_, ?_, ?_⟩, ?_⟩, ⟨⟨?_, ?_, ?_, ?_⟩, ?_, ?_, ?_, ?_⟩, ?_⟩
  case refine_1 =>
    intro a h
    simp only [List.mem_cons, List.not_mem_nil, or_false] at h
    rcases h with rfl | rfl | rfl <;> (refine ⟨⟨?_, ?_, ?_, ?_⟩, ?_, ?_, ?_⟩ <;> decide +kernel)
  all_goals decide +kernel

/-- The entries of a walk of the page at v of partition 0. -/
def walk (s : State) (v : Nat) : List Nat :=
  let entry (table i : Nat) : Nat := (Sparse.get 0 (s.part 0).tables (table + 8 * i)).toNat
  let adr (e : Nat) : Nat := e / 2 ^ 8 % 2 ^ 40 * 256
  let e0 := entry (s.part 0).root (v / 2 ^ 39 % 512)
  let e1 := entry (adr e0) (v / 2 ^ 30 % 512)
  let e2 := entry (adr e1) (v / 2 ^ 21 % 512)
  [e0, e1, e2, entry (adr e2) (v / 2 ^ 16 % 32)]

/-- AtomicsPerform, translation: three pointers that are good before a leaf entry of each kind: one that is right, one in no memory, one in the wrong place, one that may
not be loaded, one that traps, and one of the host region; before an entry that is no leaf, and one that is not valid. -/
theorem test_hyp_Translation :
    (∀ e ∈ [0x4000_001F, 0x300_0000_001F, 0x4000_005F, 0x4000_0003, 0x4000_003F, 0x2000_0000_009F, 1, 0], let s := State.reset.setPage 0 0x1_0000 e;
       let l := walk s 0x1_0000;
       l.getD 3 0 = e ∧ ((l.take 3).all (fun p => p % 2 = 1 && p / 2 ^ 48 = 0 && p / 2 % 2 = 0 && p / 4 % 64 = 0 && p / 2 ^ 8 % 2 ^ 40 * 256 % 4096 = 0)) = true
        ∧ s.memsplit ≤ 16 ∧ (e ∉ [0, 1] → e % 2 = 1 ∧ e / 2 % 2 = 1 ∧ e / 2 ^ 8 % 2 ^ 40 * 256 % 2 ^ 16 = 0 ∧ e / 2 ^ 6 % 4 ≠ 3))
    ∧ (0x4000_0000 < State.reset.memsplit * 2 ^ 36 ∧ ¬ 0x300_0000_0000 < 2 ^ 40 ∧ 0x4000_005F / 2 ^ 6 % 4 = 1 ∧ 0x2000_0000_009F / 2 ^ 6 % 4 = 2)
    ∧ (0x4000_0003 / 2 ^ 2 % 2 = 0 ∧ 0x4000_003F / 2 ^ 5 % 2 = 1 ∧ 0x4000_001F / 2 ^ 2 % 2 = 1 ∧ 1 / 2 % 2 = 0)
    ∧ walk State.reset 0 = [0, 0, 0, 0] := by
  refine ⟨?_, ?_, ?_, ?_⟩ <;> decide +kernel

/-- VectorMemoryCompletes: a part of a load that lands its one lane, and one that lands none; a store beside an earlier load of other
bytes. -/
theorem test_hyp_VectorMemoryCompletes_waits :
    (let q := vop (.vld false 1 0 0 0) 0x1_FFFC; let r : VRun := { vrun0 with vlq := [q] }; let s := vecMapped r;
      isOk (s.vTarget 0 (q.laneAddr 0) 4 .load (!q.skipTH)) 0x2000_FFFC = true ∧ q.lanes = [0]
        ∧ ∀ p ∈ [({ lanes := 1, tag := true } : Early), { lanes := 2 }], ∀ i ∈ q.lanes, p.lanes.getLsbD i = true → s.tileBusy 0x2000_FFFC = false)
    ∧ (let q := { vop (.vst false 1 0 0 0) 0x1_0000 with seq := 1 }; let o := vop (.vld false 1 0 0 0) 0x1_0004;
       let s := vecMapped { vrun0 with vlq := [o], vsq := [q] };
       o.seq < q.seq ∧ ((o.lanesAt s 0 (o.lanes.filter (fun i => !o.hasRead i))).all (fun u => (q.lanesAt s 0 q.lanes).all (fun v => !u.meets v))) = true
        ∧ (o.lanesAt s 0 o.lanes).length = 1 ∧ (q.lanesAt s 0 q.lanes).length = 1) := by
  refine ⟨?_, ?_⟩ <;> decide +kernel

/-- PredicateSignsExact: a determinant that stage 0 resolves, one that stage 0 does not and stage 1 does, and one of three equal points. -/
theorem test_hyp_PredicateSignsExact_stages :
    let x (l : List Nat) (n : Nat) : Int := valF 11 (l.getD n 0);
    let d0 (l : List Nat) (pos : Bool) : Int := (geoExpr .go2d).val (GeoExpr.round 24) (GeoExpr.round 24) pos (x l);
    let d1 (l : List Nat) (pos : Bool) : Int := (geoExpr .go2d).val id (GeoExpr.round 128) pos (x l);
    let a := [0x3F800000, 0, 0, 0x3F800000, 0, 0]; let b := [0x3F800001, 0x3F800000, 0x3F800000, 0x3F7FFFFF, 0, 0]; let c := List.replicate 6 0x3F800000;
    (∀ pos : Bool, (geoExpr .go2d).inRange pos (x a)) ∧ exceeds .go2d 24 (d0 a false) (d0 a true)
    ∧ ¬ exceeds .go2d 24 (d0 b false) (d0 b true) ∧ exceeds .go2d 128 (d1 b false) (d1 b true)
    ∧ (∀ u ∈ b, ∀ v ∈ b, valF 11 u ≠ 0 → valF 11 v ≠ 0 → (valF 11 u).natAbs.log2 ≤ (valF 11 v).natAbs.log2 + 100)
    ∧ ¬ exceeds .go2d 24 (d0 c false) (d0 c true) ∧ ¬ exceeds .go2d 128 (d1 c false) (d1 c true) := by
  simp only [exceeds, geoExpr, GeoExpr.inRange, GeoExpr.inRange.fits, GeoExpr.inRange.v]
  refine ⟨?_, ?_, ?_, ?_, ?_, ?_, ?_⟩ <;> decide +kernel

/-- ResidueArithmetic, drains: scales and multipliers that are finite, infinite and NaN, an invalid product, and old elements of each kind under f16. -/
theorem test_hyp_ResidueArithmetic_drains :
    (finF 11 0x3F800000 ∧ ¬ finF 11 0x7F800000 ∧ ¬ nanF 11 0x7F800000 ∧ nanF 11 0x7FC00001 ∧ valF 11 0 = 0)
    ∧ (∀ dt ∈ [9, 10, 11], ∃ d ∈ [0x7E00, 0x7FC0, 0x7FC00000], d < 2 ^ tWidth dt ∧ nanF dt d)
    ∧ (∀ dt ∈ [9, 10, 11], ∃ d ∈ [0x7C00, 0x7F80, 0x7F800000], d < 2 ^ tWidth dt ∧ ¬ finF dt d ∧ ¬ nanF dt d)
    ∧ ∀ dt ∈ [9, 10, 11], finF dt 0 := by
  refine ⟨⟨?_, ?_, ?_, ?_, ?_⟩, ?_, ?_, ?_⟩ <;> decide +kernel
/-- TensorMoves, the start of XTEN: a layout record of one element in memory with its charge paid and its tensor and dense tile where they may be; the record
in a tile in use, and in a fenced core; an index list there; and a record that is not legal. -/
theorem test_hyp_TensorStepStarts :
    (let r := xrun0 0x1_0000 (coreWindow 0) 0 0; let s := transferring r 16; let s1 := paid r; let b := (fetchLayout s1 0 0x1_0000 [(0x2000_0000, 192)]).1;
     let s2 := (fetchLayout s1 0 0x1_0000 [(0x2000_0000, 192)]).2;
     let f (off n : Nat) : Nat := leValue ((b.drop off).take n);
      MayIssueX s r ∧ r.moves.length < 8 ∧ Affords (s.core 0) 2 16 ∧ resolveRanges s1 0 .load transferOk [(0x1_0000, 192)] = .ok [[(0x2000_0000, 192)]]
        ∧ s1.piecesBusy [(0x2000_0000, 192)] = false ∧ s1.piecesEcc 0 [(0x2000_0000, 192)] = none
        ∧ f 8 1 = 7 ∧ f 9 1 = 1 ∧ f 10 1 = 0 ∧ f 11 1 = 0 ∧ f 12 4 = 0 ∧ f 56 8 = 0 ∧ f 106 6 = 0 ∧ f 120 8 = 0 ∧ f 136 56 = 0
        ∧ (∀ m < 5, f (16 + 8 * m) 8 = 1 ∧ f (96 + 2 * m) 2 = 1) ∧ f 0 8 = 0x1_0100
        ∧ boundsOf [(coreWindow 0, 4), (0, 0), (0x1_0100, 4)] = none
        ∧ (∀ out : Bool, isOkList (resolveRanges s2 0 (if out then .store else .load) transferOk [(coreWindow 0, 4)]) = true
          ∧ isOkList (resolveRanges s2 0 (if out then .store else .load) transferOk [(0x1_0100, 4)]) = true
          ∧ isOkList (resolveRanges s2 0 (if out then .store else .load) transferOk [(0, 0)]) = true))
    ∧ (let s := (paid (xrun0 0 0 0 0)).onCore 0 (fun k => { k with mrun := some { mrun0 0 0 0 0 with uses := [7] } });
       resolveRanges s 0 .load transferOk [(coreWindow 0 + 0x23_FF40, 192)] = .ok [[(coreWindow 0 + 0x23_FF40, 192)]]
        ∧ s.piecesBusy [(coreWindow 0 + 0x23_FF40, 192)] = true)
    ∧ (let s := (paid (xrun0 0 0 0 0)).onCore 1 (fun k => { k with fenced := true });
       (∀ n ∈ [4, 192], resolveRanges s 0 .load transferOk [(coreWindow 1, n)] = .ok [[(coreWindow 1, n)]] ∧ s.piecesBusy [(coreWindow 1, n)] = false
        ∧ (s.piecesEcc 0 [(coreWindow 1, n)]).isSome = true))
    ∧ (let b := (fetchLayout (paid (xrun0 0 0 0 0)) 0 (coreWindow 0) [(coreWindow 0, 192)]).1; leValue ((b.drop 9).take 1) = 0) := by
  refine ⟨⟨⟨?_, ?_, ?_, ?_⟩, ?_, ⟨?_, ?_⟩, rfl, ?_, ?_, ?_, ?_, ?_, ?_, ?_, ?_, ?_, ?_, ?_, ?_, ?_, ?_, ?_⟩, ⟨rfl, ?_⟩, (fun n h => ?_), ?_⟩
  case refine_24 => simp only [List.mem_cons, List.not_mem_nil, or_false] at h; rcases h with rfl | rfl <;> (refine ⟨rfl, ?_, ?_⟩ <;> decide +kernel)
  all_goals decide +kernel

/-- EntryLife: an entry behind a release fence of its strand that has not retired, and one whose wait a far release answers. RunningEntryChecks: a check
that reaches a core whose pool for the launch is away. -/
theorem test_hyp_EntryLife_held :
    (let x := fenced (.fence 0 1 3) [] []; let e := { placedEntry with after := 1 };
      x.lridx = e.launch ∧ ∃ f ∈ x.fences, 1 ≤ releaseScope f ∧ f.id ≤ e.after ∧ e.after ≠ 0)
    ∧ Sparse.get false ({ semFar := [(3, true)] } : Core).semFar 3 = true
    ∧ (let k : Core := { away := [{ launch := 0, parts := Vector.replicate 8 {} }] };
        slotHolding (atCore k) 0 placedEntry.launch (coreWindow 0) 4 = none ∧ slotAway (atCore k) 0 placedEntry.launch (coreWindow 0) = true) := by
  refine ⟨?_, ?_, ?_⟩ <;> decide +kernel

/-- StopsResumed and LoaderCalls: a caller that waits for its fence, and for a store into the descriptor's area and into a container; CODE_PATCH's fence;
a translation that Skyo makes; and COLLTO, which Skyo sets. -/
theorem test_hyp_StopsResumed_LoaderCalls_waits :
    (∀ o ∈ [HartOp.fence true true true true, .store 0x1000_0034_FFF8 8 0],
      let s := State.reset.setHart State.reset.skyo.caller { items := [{ id := 0, op := o }] };
      ∃ i ∈ (s.hart s.skyo.caller).items, i.op.isFence = true ∨ (i.op.writes = true ∧ overlap i.op.range (0x1000_0034_0000 % 2 ^ 48, 65536) = true))
    ∧ (State.reset.hart State.reset.skyo.caller).items = []
    ∧ (let adk := (pack 0 []).set 12 1; let c := Container.parse adk; let s := up [.skyo (.translate adk)];
        s.agenda = [.skyo (.translate adk)] ∧ s.pkg.stage = 4 ∧ c.formOk = true ∧ c.translated = true ∧ s.pkg.translation c.srchash = none)
    ∧ (up [.skyo (.collto 5)]).agenda = [.skyo (.collto 5)] := by
  refine ⟨?_, ?_, ⟨?_, ?_, ?_, ?_, by simp [Package.translation, up, State.reset]⟩, ?_⟩ <;> decide +kernel

/-- A record of a scalar word with its operand a and links. -/
def wordRec (i : Instr) (a : Word) (seq link : Nat) (lop : BitVec 2) : Rec :=
  { kind := 0, flt := false, hw := false, lop := lop, cause := 0, sub := 0, seq := seq, link := link, word := encode i, prog := 0, opa := a, opb := 0, ext := [] }

/-- RecordsReissued: a load in translated memory that has not issued, one that issued two slots before and one three before, with a record linked to it by
LOP 3; a JR at an aligned target and at another; a lull halt; and a load from a fenced cluster, of a launch whose kill is quick. -/
theorem test_hyp_RecordsReissued_slots :
    (∀ n ∈ [none, some (1 : Nat), some 0],
      let q := wordRec (.ld 0 1 2 0 3) 0x1_0000 0 0xFFFF 0; let l := [wordRec (.st 0 1 2 0 3 0) 0 1 0 3];
      let x : Strand := { life := .resuming, reissue := q :: l, issuedAt := n };
      let s := mapped ((atStrand x).onCore 0 (fun k => { k with slotNo := 3 }));
      x.life = .resuming ∧ x.relend = 0 ∧ (s.core 0).lull = false ∧ (∀ e ∈ x.reissue, e.kind ≠ 1) ∧ q.kind = 0 ∧ isQueued q.sWord = true
        ∧ q.sWord = .ld 0 1 2 0 3 ∧ isWindow (q.opa.toNat % 2 ^ 48) = false ∧ (n = some 1 → (s.core 0).slotNo < 1 + 3) ∧ 0 + 3 ≤ (s.core 0).slotNo
        ∧ (∃ e ∈ l, e.kind = 0 ∧ e.link = q.seq ∧ e.lop = 3)
        ∧ (match perform s 0 0 q.sWord q.opa q.opb 0 false false with | .done _ v => v.isSome | _ => false) = true)
    ∧ (∀ a ∈ [0x1_0000, 0x1_0002], let q := wordRec (.jr 0 1 0) (BitVec.ofNat 64 a) 0 0xFFFF 0; q.prog = 0 ∧ q.sWord = .jr 0 1 0 ∧ (q.opa.toNat % 4 = 0 ↔ a = 0x1_0000))
    ∧ (let q := wordRec (.ld 0 1 2 0 3) (BitVec.ofNat 64 (coreWindow 8)) 0 0xFFFF 0;
       let s := armed ((teamed { life := .resuming, reissue := [q] } { life := .ended }).onCluster 1 (fun k => { k with fenced := true })) 1;
       (match perform s 0 0 q.sWord q.opa q.opb 0 false false with | .fault w => w.cause == .ecc | _ => false) = true ∧ isWindow (q.opa.toNat % 2 ^ 48) = true
        ∧ (s.core 0).team.map (·.launch) = some 0 ∧ s.launch? (s.partOf 0) 0 = some { armseq := 1, next := 1 } ∧ KillIsQuick s 0) := by
  refine ⟨?_, ?_, ⟨?_, ?_, ?_, ?_, quick_of_one ?_ ⟨?_, ?_, ?_, ?_, ?_, ?_⟩ (fun t => ⟨?_, ?_, ?_, ?_, ?_⟩) _ rfl ?_⟩⟩ <;>
    first | decide +kernel | (revert t; decide +kernel)

/-- TeamsDispensed: a swapped team whose core is fenced, first in the bank of another cluster, beside a core with nothing outstanding. -/
theorem test_hyp_TeamsDispensed_moved :
    (let x : TeamCtx := { core := 0, team := { launch := 0, index := 0, strands := 1 }, saved := {} };
     let s := ((armed (withRec State.reset recIdle) 1).onCluster 1 (fun k => { k with bank := [.team 0 0 1 0 (some x)] })).onCore 0 (fun k => { k with fenced := true });
     let k := s.core 8;
      k.fenced = false ∧ (s.cluster 1).fenced = false ∧ s.quiet 8 = false ∧ k.team = none ∧ k.pool = none ∧ k.away = [] ∧ noEntries k ∧ (s.cluster 1).part = 0
        ∧ (s.cluster 1).bank = [.team 0 0 1 0 (some x)] ∧ (s.cluster 1).ring = [] ∧ (s.cluster 1).pending = [] ∧ (s.core x.core).fenced = true
        ∧ x.core / 8 ≠ 8 / 8 ∧ (s.recShape 0 0).all (fun e => e.2 ≠ 3) = true) := by
  refine ⟨?_, ?_, ?_, ?_, ?_, ?_, ⟨?_, ?_, ?_, ?_, ?_, ?_⟩, ?_, ?_, ?_, ?_, ?_, ?_, ?_⟩ <;> decide +kernel

-- Values the manual gives

/-- The cell that holds the integer z. -/
def cellOf (z : Int) : BitVec 48 := foldCell 0 z

/-- "Worked drains" (R230, R231, R227): the four float rows of add mode, the last of which shows the single rounding. -/
theorem test_drains_float :
    (∀ n ∈ [(4, 0x3E000000, 0xBF800000, 0xBF000000), (8, 0x3E000000, 0xBF800000, 0), (64, 0x3E000000, 0xBF800000, 0x40E00000),
      (16777217, 0x3F800000, 0xCB800000, 0x3F800000)],
      drainElement 11 (cellOf (n.1 : Nat)) n.2.1 0 (some n.2.2.1) = { bits := n.2.2.2 }) := by
  decide +kernel

/-- "Worked drains": the integer rows, the NaN rows and the overflow row. -/
theorem test_drains_reports :
    drainElement 3 (cellOf 100) 0x3E000000 0x3E4CCCCD none = { bits := 3 }
    ∧ drainElement 3 (cellOf 5000) 0x3E000000 0x3F800000 none = { bits := 127, sat := true }
    ∧ drainElement 11 (cellOf 0) 0x7F800000 0 none = { bits := 0x7FC00000, nan := true }
    ∧ drainElement 3 (cellOf 0) 0x7F800000 0x3F800000 none = { bits := 0, nan := true }
    ∧ drainElement 11 (cellOf ((2 ^ 39 - 2 ^ 13) / 2 + 5)) 0x3E000000 0 (some 0xBF800000) = { bits := 0x7F7FFFFF, sat := true, ovf := true } := by
  refine ⟨?_, ?_, ?_, ?_, ?_⟩ <;> decide +kernel

/-- R226: a cell gives back the integers at the ends of the range it stands for. -/
theorem test_rebuild_ends : (([0, 1, -1, -8192, 2 ^ 38 - 2 ^ 12 - 1, -(2 ^ 38 - 2 ^ 12)] : List Int).all (fun z => rebuild (cellOf z) == (z, 0))) = true := by
  decide +kernel

/-- R165: the exact points of the transcendental words: 2^3, log2 of 8, sin of 0, tanh of +inf; and log2 of −1 is the default NaN. -/
theorem test_transcendental_points :
    (fExp2 fmtF32 .rne false 0x40400000).1 = 0x41000000 ∧ (fLog2 fmtF32 .rne false 0x41000000).1 = 0x40400000
    ∧ (fSin fmtF32 .rne false 0).1 = 0 ∧ (fTanh fmtF32 .rne false 0x7F800000).1 = 0x3F800000
    ∧ (fLog2 fmtF32 .rne false 0xBF800000).1 = 0x7FC00000 := by
  refine ⟨?_, ?_, ?_, ?_, ?_⟩ <;> decide +kernel

/-- R202: a counterclockwise triangle resolves at stage 0 as positive, and with two points exchanged as negative. -/
theorem test_orientation :
    detSign .go2d [⟨0, 0⟩, ⟨0, 0⟩, ⟨1, 0⟩, ⟨0, 0⟩, ⟨0, 0⟩, ⟨1, 0⟩] = (1, 0) ∧ detSign .go2d [⟨1, 0⟩, ⟨0, 0⟩, ⟨0, 0⟩, ⟨0, 0⟩, ⟨0, 0⟩, ⟨1, 0⟩] = (-1, 0) := by
  decide +kernel

/-- R138: the six lanes of VFMA that the manual works out, with their flags; the last with SAT as well. -/
theorem test_fma_figures :
    fFma fmtF32 .rne false 0 0x7F800000 0x7FC01234 false false = (0x7FC01234, 0)
    ∧ fFma fmtF32 .rne false 0 0x7F800000 0xFF800005 false false = (0xFFC00005, flagNV)
    ∧ fFma fmtF32 .rne false 0 0x7F800000 0x3F800000 false false = (0x7FC00000, flagNV)
    ∧ fFma fmtF32 .rne false 0x7F800001 0xFFC00002 0x3F800000 false false = (0x7FC00001, flagNV)
    ∧ fFma fmtF32 .rne false 0x3F800000 0xFFC00002 0x7FC00003 false false = (0xFFC00002, 0)
    ∧ fFma fmtF32 .rne false 0x7F000000 0x40800000 0 false false = (0x7F800000, flagOF ||| flagNX)
    ∧ fFma fmtF32 .rne true 0x7F000000 0x40800000 0 false false = (0x7F7FFFFF, flagOF ||| flagNX) := by
  refine ⟨?_, ?_, ?_, ?_, ?_, ?_, ?_⟩ <;> decide +kernel
/-- R18, R158, R162: of a load of two lanes, lane 1 lands first with the tag; lane 0 lands at completion, and leaves lane 1 and the
tag as a word in between set them. -/
theorem test_lanes_land_apart :
    (let q : VOp := { seq := 0, op := .vld false 1 0 0 0, tok := 0, cap := { captured (7 + 32) 7 7 [0] with b := 0x1_0000 } };
     let s0 := vecMapped { vrun0 with vlq := [q] };
     let s := { s0 with mem := Memory.store s0.mem 0x2000_0000 (leBytes 8 0x22_0000_0011) };
     let m0 := laneAt ((s.strand 0 0).vreg 1) 32 0;
     match exec (.tokenComplete 0 .load false (some { lanes := 2, tag := true })) s with
     | .next u =>
       let w := u.onCore 0 (fun k => k.putVreg 0 1 0 9);
       (match exec (.tokenComplete 0 .load false none) w with
        | .next y => laneAt ((u.strand 0 0).vreg 1) 32 0 == m0 && laneAt ((u.strand 0 0).vreg 1) 32 1 == 0x22
            && (u.strand 0 0).vtag 1 == 7 && laneAt ((y.strand 0 0).vreg 1) 32 0 == 0x11 && laneAt ((y.strand 0 0).vreg 1) 32 1 == 0
            && (y.strand 0 0).vtag 1 == 9 && ((y.core 0).vrun.map (·.vlq.length)) == some 0
        | _ => false)
     | _ => false) = true := by decide +kernel

/-- R154, R158: of a store of two lanes, lane 0 performs first and lane 1 when the word completes. -/
theorem test_store_performs_apart :
    (let q : VOp := { seq := 0, op := .vst false 1 0 0 0, tok := 0, cap := { captured (7 + 32) 7 7 [0x22_0000_0011] with b := 0x1_0000 } };
     let s := vecMapped { vrun0 with vsq := [q] };
     match exec (.tokenComplete 0 .store false (some { lanes := 1 })) s with
     | .next u => physRead u 0x2000_0000 8 == leBytes 8 0x11
        && (match exec (.tokenComplete 0 .store false none) u with
           | .next y => physRead y 0x2000_0000 8 == leBytes 8 0x22_0000_0011 && ((y.core 0).vrun.map (·.bytes)) == some 8
           | _ => false)
     | _ => false) = true := by decide +kernel

/-- R22, R91, R187: of a copy of 128 bytes into a vector register, half a granule moves with the rest of its granule, before the
second; the two lines read count once each. -/
theorem test_copy_moves_in_granules :
    (let m : XMove := { op := .xcpy false 0 1 2 false false, src := [(0x2000_0000, 128)], dst := [(coreWindow 0 + 0x10_0A00, 128)], bytes := 128 };
     let s0 := atCore { xrun := some { xrun0 0 0 0 0 with moves := [m] } };
     let s := { s0 with mem := Memory.store s0.mem 0x2000_0000 (List.replicate 128 0x5A) };
     let bytes (u : State) (n : Nat) := physRead u (coreWindow 0 + 0x10_0A00 + n) 64;
     match exec (.transferMovePhaseDone 0 0 false (some (false, 0, 32))) s, exec (.transferMovePhaseDone 0 0 false (some (false, 0, 64))) s with
     | .next t, .next u =>
       bytes t 0 == bytes u 0 && bytes u 0 == List.replicate 64 0x5A && bytes u 64 == bytes s 64
       && (match exec (.transferMovePhaseDone 0 0 false none) u with
          | .next y => bytes y 0 == List.replicate 64 0x5A && bytes y 64 == List.replicate 64 0x5A && (y.core 0).xrun.map (·.bytes) == some 128
              && (y.die 0).lreq.toNat + (y.die 0).rreq.toNat == 2
          | _ => false)
     | _, _ => false) = true := by decide +kernel
end Sys2Proof.Tests
end

