-- ==== Sys2Proof/Proofs/MemoryStores.lean ====
section
/-! SUPPORT of O60: which functions of the state write to memory, and that each keeps its canonical form. A name ends in
_mem where memory stays as it is, in _wf where the canonical form is kept, in _memWf where the answer is an outcome. Every write to memory
is a Memory.store, which keeps the form (Memory.wf_store); from there the lemmas follow the model, caller after callee. -/
namespace Sys2Proof.Machine

variable {s : State}

/-! What a loop over the state keeps, when each of its turns does -/

theorem foldl_mem {β : Type} {f : State → β → State} (hf : ∀ s b, (f s b).mem = s.mem) (l : List β) (s : State) :
    (l.foldl f s).mem = s.mem := by
  induction l generalizing s with
  | nil => rfl
  | cons b l ih => rw [List.foldl_cons, ih, hf]

theorem foldl_wf {β : Type} {f : State → β → State} (hf : ∀ s b, Memory.wf s.mem → Memory.wf (f s b).mem) (l : List β) {s : State}
    (h : Memory.wf s.mem) : Memory.wf (l.foldl f s).mem := by
  induction l generalizing s with
  | nil => exact h
  | cons b l ih => exact ih (hf s b h)

theorem ite_mem {p : Prop} [Decidable p] {m : Mem} {t u : State} (ht : t.mem = m) (hu : u.mem = m) :
    (if p then t else u).mem = m := by
  split
  · exact ht
  · exact hu

theorem ite_wf {p : Prop} [Decidable p] {t u : State} (ht : Memory.wf t.mem) (hu : Memory.wf u.mem) :
    Memory.wf (if p then t else u).mem := by
  split
  · exact ht
  · exact hu

/-! Windows, requests, copies of lines, and the home of every byte (R80 to R85, R93 to R98) -/

@[simp] theorem writeValue_mem (c off v : Nat) (tag : BitVec 4) : (writeValue s c off v tag).mem = s.mem := by
  unfold writeValue
  split <;> rfl

@[simp] theorem writeElem_mem (c off : Nat) (bs : List Byte) (tag : BitVec 4) : (writeElem s c off bs tag).mem = s.mem := by
  unfold writeElem
  split <;> simp

@[simp] theorem winStore_mem (fuel c off : Nat) (bs : List Byte) (tag : BitVec 4) :
    (winStore fuel s c off bs tag).mem = s.mem := by
  induction fuel generalizing s off bs with
  | zero => rfl
  | succ fuel ih => unfold winStore; split <;> simp [ih]

theorem physWrite_wf (pa : Nat) (bs : List Byte) (tag : BitVec 4) (h : Memory.wf s.mem) :
    Memory.wf (physWrite s pa bs tag).mem := by
  unfold physWrite
  split
  · simpa using h
  · exact Memory.wf_store _ _ _ h

theorem State.putMem_wf (pa : Nat) (bs : List Byte) (h : Memory.wf s.mem) : Memory.wf (s.putMem pa bs).mem :=
  Memory.wf_store _ _ _ h

@[simp] theorem countLines_mem (d pa n : Nat) : (countLines s d pa n).mem = s.mem := by
  unfold countLines
  split <;> rfl

@[simp] theorem countAtomic_mem (d pa : Nat) : (countAtomic s d pa).mem = s.mem := countLines_mem d pa 1

@[simp] theorem forgetLines_mem (k : Nat) (since : Option Nat) (pa n : Nat) : (forgetLines s k since pa n).mem = s.mem := by
  unfold forgetLines
  split <;> rfl

@[simp] theorem fillLines_mem (k pa n : Nat) : (fillLines s k pa n).mem = s.mem := by
  unfold fillLines
  split <;> rfl

@[simp] theorem updateLines_mem (k pa : Nat) (bs : List Byte) : (updateLines s k pa bs).mem = s.mem := by
  unfold updateLines
  split <;> rfl

theorem State.reachHome_wf (k : Nat) (p : Pending) (h : Memory.wf s.mem) : Memory.wf (s.reachHome k p).mem := by
  unfold State.reachHome
  simpa using Memory.wf_store _ _ _ h

theorem State.bringHome_wf (k : Nat) (l : List Pending) (h : Memory.wf s.mem) : Memory.wf (s.bringHome k l).mem := by
  unfold State.bringHome
  split
  · exact h
  · exact foldl_wf (fun _ p => State.reachHome_wf k p) l h

theorem State.drainHome_wf (k : Nat) (h : Memory.wf s.mem) : Memory.wf (s.drainHome k).mem := State.bringHome_wf k _ h

theorem State.release_wf (c scope : Nat) (h : Memory.wf s.mem) : Memory.wf (s.release c scope).mem := by
  unfold State.release
  split
  · exact State.drainHome_wf _ h
  · exact h

theorem State.homeStep_wf (k i : Nat) (h : Memory.wf s.mem) : Memory.wf (s.homeStep k i).mem := by
  unfold State.homeStep
  dsimp only
  split
  · exact h
  · split
    · exact State.bringHome_wf k _ h
    · exact h

@[simp] theorem loadPhys_mem (c pa n : Nat) (stale : Bool) (since : Option Nat) :
    (loadPhys s c pa n stale since).2.mem = s.mem := by
  unfold loadPhys
  split <;> simp

theorem storeAt_wf (c pa : Nat) (bs : List Byte) (tag : BitVec 4) (near : Bool) (by_ : Option (BitVec 2))
    (h : Memory.wf s.mem) : Memory.wf (storeAt s c pa bs tag near by_).mem := by
  unfold storeAt
  dsimp only
  split
  · simpa using h
  · rw [updateLines_mem]
    exact physWrite_wf _ _ _ (State.bringHome_wf _ _ h)

theorem storePhys_wf (c pa : Nat) (bs : List Byte) (tag : BitVec 4) (near : Bool) (by_ : Option (BitVec 2))
    (h : Memory.wf s.mem) : Memory.wf (storePhys s c pa bs tag near by_).mem :=
  storeAt_wf _ _ _ _ _ _ (by simpa using h)

/-! Events, launch records, pools and leases (R251 to R291, R321, R324) -/

@[simp] theorem State.postEvent_mem (p n : Nat) : (s.postEvent p n).mem = s.mem := by
  unfold State.postEvent
  split <;> rfl

@[simp] theorem discardPoisoned_mem (fuel p : Nat) : (discardPoisoned fuel p s).mem = s.mem := by
  induction fuel generalizing s with
  | zero => rfl
  | succ fuel ih =>
    unfold discardPoisoned
    dsimp only
    split
    · rfl
    · rw [ih]; split <;> rfl
    · rfl

@[simp] theorem State.poisonEvent_mem (p n : Nat) : (s.poisonEvent p n).mem = s.mem := by
  unfold State.poisonEvent
  split <;> simp

theorem State.setRecField_wf (p i off n v : Nat) (h : Memory.wf s.mem) : Memory.wf (s.setRecField p i off n v).mem :=
  State.putMem_wf _ _ h

theorem State.armRecord_wf (p i : Nat) (h : Memory.wf s.mem) : Memory.wf (s.armRecord p i).mem := by
  unfold State.armRecord
  split
  · exact State.setRecField_wf _ _ _ _ _ h
  · exact State.setRecField_wf _ _ _ _ _ h
  · rw [State.postEvent_mem]
    exact State.setRecField_wf _ _ _ _ _ (State.setRecField_wf _ _ _ _ _ h)
  · exact State.setRecField_wf _ _ _ _ _ (State.setRecField_wf _ _ _ _ _ (State.setRecField_wf _ _ _ _ _ h))

theorem State.larm_wf {t : State} (p i : Nat) (h : Memory.wf s.mem) (ht : s.larm p i = .ok t) : Memory.wf t.mem := by
  unfold State.larm at ht
  split at ht
  · cases ht
  · cases ht
    exact State.armRecord_wf p i h

theorem State.lpat_wf {t : State} (p i fn : Nat) (v : Word) (h : Memory.wf s.mem) (ht : s.lpat p i fn v = .ok t) :
    Memory.wf t.mem := by
  have hset (off n v : Nat) : Memory.wf (s.setRecField p i off n v).mem := State.setRecField_wf _ _ _ _ _ h
  unfold State.lpat at ht
  split at ht
  · cases ht
  · cases ht
    exact ite_wf (hset ..) (ite_wf (hset ..) (ite_wf (hset ..) (ite_wf (hset ..) (ite_wf (hset ..) (hset ..)))))

@[simp] theorem State.grant_mem (a : Alloc) (w : Word) : (s.grant a w).mem = s.mem := by
  unfold State.grant
  dsimp only
  split <;> rfl

@[simp] theorem servePool_mem (fuel c p : Nat) : (servePool fuel s c p).mem = s.mem := by
  induction fuel generalizing s with
  | zero => rfl
  | succ fuel ih => unfold servePool; dsimp only; split <;> simp [ih]

@[simp] theorem State.serve_mem (c p : Nat) : (s.serve c p).mem = s.mem := servePool_mem _ c p

@[simp] theorem State.putSlot_mem (c p n : Nat) (x : Slot) : (s.putSlot c p n x).mem = s.mem := by
  unfold State.putSlot
  dsimp only
  split <;> simp

@[simp] theorem State.allocate_mem (d p : Nat) (l : BitVec 10) (a : Alloc) : (s.allocate d p l a).mem = s.mem := by
  simp [State.allocate]

@[simp] theorem State.withdraw_mem (d p c : Nat) (u : BitVec 3) : (s.withdraw d p c u).mem = s.mem := rfl

theorem State.seal_mem {t : State} {c n : Nat} {l : BitVec 10} (ht : s.seal c n l = .ok t) : t.mem = s.mem := by
  unfold State.seal at ht
  split at ht
  · cases ht
  · split at ht <;> cases ht <;> simp

theorem State.dropReads_mem {t : State} {c n m : Nat} {l : BitVec 10} (ht : s.dropReads c n m l = .ok t) : t.mem = s.mem := by
  unfold State.dropReads at ht
  split at ht
  · cases ht
  · split at ht
    · cases ht
    · split at ht
      · cases ht
        rfl
      · cases ht
        exact State.putSlot_mem ..

theorem State.consumeCheck_mem {t : State} {c a n : Nat} {l : BitVec 10} (ht : s.consumeCheck c l a n = .ok t) : t.mem = s.mem := by
  unfold State.consumeCheck at ht
  split at ht
  · split at ht <;> cases ht
  · dsimp only at ht
    split at ht
    · cases ht
    · cases ht
    · split at ht
      · cases ht
      · split at ht
        · cases ht
        · cases ht
          exact State.putSlot_mem ..

@[simp] theorem State.consumeCount_mem (c a n : Nat) (l : BitVec 10) : (s.consumeCount c l a n).mem = s.mem := by
  unfold State.consumeCount
  split
  · rfl
  · dsimp only
    split <;> simp

@[simp] theorem State.consumeRelease_mem (c a n : Nat) (l : BitVec 10) : (s.consumeRelease c l a n).mem = s.mem := by
  unfold State.consumeRelease
  split
  · rfl
  · dsimp only
    split <;> simp

@[simp] theorem State.grantLease_mem (d : Nat) (r : LeaseReq) : (s.grantLease d r).mem = s.mem := rfl

@[simp] theorem grantLeases_mem (fuel d : Nat) : (grantLeases fuel s d).mem = s.mem := by
  induction fuel generalizing s with
  | zero => rfl
  | succ fuel ih =>
    unfold grantLeases
    split
    · rfl
    · split <;> simp [ih]

@[simp] theorem State.serveLeases_mem (d : Nat) : (s.serveLeases d).mem = s.mem := by
  unfold State.serveLeases
  split <;> simp

@[simp] theorem State.releaseLease_mem (c : Nat) (t : BitVec 2) : (s.releaseLease c t).mem = s.mem := by
  simp [State.releaseLease]

@[simp] theorem State.withdrawLease_mem (c : Nat) (t : BitVec 2) : (s.withdrawLease c t).mem = s.mem := by
  simp [State.withdrawLease]

end Sys2Proof.Machine
end

