-- ==== Sys2Proof/Proofs/MemoryQueues.lean ====
section
/-! SUPPORT of O60: the scalar queues, the entries and the stops. -/
namespace Sys2Proof.Machine

variable {s : State}

/-! Queues and fences, the performing of a word, entries and stops (R92 to R104, R111, R297 to R304) -/

theorem State.settleFences_wf (c : Nat) (t : BitVec 2) (h : Memory.wf s.mem) : Memory.wf (s.settleFences c t).mem := by
  unfold State.settleFences
  simpa using State.release_wf c _ h

@[simp] theorem State.enqueue_mem (load : Bool) (i : Instr) (ctl : BitVec 2) (a b ext : Word) (lk : Links) :
    (s.enqueue load i ctl a b ext lk).mem = s.mem := by
  unfold State.enqueue
  exact ite_mem rfl rfl

theorem State.enterFence_wf (i : Instr) (ctl : BitVec 2) (h : Memory.wf s.mem) : Memory.wf (s.enterFence i ctl).mem := by
  unfold State.enterFence
  dsimp only
  split
  · exact h
  · exact State.settleFences_wf _ _ (by simpa using h)

theorem State.atomicAt_wf (c pa n : Nat) (by_ : Option (BitVec 2)) (f : Nat → Nat) (h : Memory.wf s.mem) :
    Memory.wf (s.atomicAt c pa n by_ f).2.mem := by
  unfold State.atomicAt
  dsimp only
  rw [foldl_mem (fun _ _ => updateLines_mem _ _ _)]
  exact physWrite_wf _ _ _ (State.bringHome_wf _ _ (by simpa using h))

/-- What performing a word leaves has its memory in canonical form. -/
@[simp] def Perf.MemWf : Perf → Prop
  | .done s _ => Memory.wf s.mem
  | .fault _ => True
  | .busy => True

theorem performLoad_memWf (c a n : Nat) (signed th stale : Bool) (h : Memory.wf s.mem) :
    (performLoad s c a n signed th stale).MemWf := by
  unfold performLoad
  split
  · trivial
  · split
    · trivial
    · simpa using h

theorem performStore_memWf (c : Nat) (t : BitVec 2) (a n : Nat) (v : Word) (th near : Bool) (h : Memory.wf s.mem) :
    (performStore s c t a n v th near).MemWf := by
  unfold performStore
  split
  · trivial
  · split
    · trivial
    · exact storePhys_wf _ _ _ _ _ _ h

theorem performAtomic_memWf (c : Nat) (t : BitVec 2) (a n : Nat) (f : Nat → Nat) (th : Bool) (h : Memory.wf s.mem) :
    (performAtomic s c t a n f th).MemWf := by
  unfold performAtomic
  split
  · trivial
  · split
    · trivial
    · exact State.atomicAt_wf _ _ _ _ _ h

theorem performSignal_memWf (c d m n : Nat) (h : Memory.wf s.mem) : (performSignal s c d m n).MemWf := by
  unfold performSignal
  dsimp only
  split
  · trivial
  · split
    · exact State.release_wf _ _ h
    · trivial

@[simp] theorem State.semAcquire_mem (c m : Nat) : (s.semAcquire c m).mem = s.mem := by
  unfold State.semAcquire
  split <;> simp

theorem ofExcept_memWf {r : Except Trouble State} (h : ∀ t, r = .ok t → Memory.wf t.mem) : (ofExcept r).MemWf := by
  cases r with
  | error => trivial
  | ok t => exact h t rfl

theorem performEvent_memWf (c n : Nat) (f : Event → Event) (h : Memory.wf s.mem) : (performEvent s c n f).MemWf := by
  unfold performEvent
  split
  · exact h
  · trivial

theorem performPost_memWf (c a : Nat) (th : Bool) (h : Memory.wf s.mem) : (performPost s c a th).MemWf := by
  unfold performPost
  dsimp only
  repeat' split
  all_goals simp [h]

theorem performDone_memWf (c a : Nat) (th : Bool) (h : Memory.wf s.mem) : (performDone s c a th).MemWf := by
  have hload := performLoad_memWf c (a + 34) 2 false th false h
  unfold performDone
  split
  · trivial
  · split
    · trivial
    · split
      case h_1 t n hl =>
        have ht : Memory.wf t.mem := by simpa [hl] using hload
        split
        · exact ht
        · exact performEvent_memWf _ _ _ ht
      case h_2 hl => simpa [hl] using hload
      case h_3 => trivial
      case h_4 => trivial

theorem perform_memWf (c : Nat) (t : BitVec 2) (i : Instr) (a b ext : Word) (th stale : Bool) (h : Memory.wf s.mem) :
    (perform s c t i a b ext th stale).MemWf := by
  have hr := State.release_wf c 4 h
  unfold perform
  dsimp only
  split
  · exact performLoad_memWf _ _ _ _ _ _ h
  · exact performLoad_memWf _ _ _ _ _ _ h
  · exact performStore_memWf _ _ _ _ _ _ _ h
  · exact performAtomic_memWf _ _ _ _ _ _ h
  · exact performAtomic_memWf _ _ _ _ _ _ h
  · exact performSignal_memWf _ _ _ _ h
  · split
    · exact performSignal_memWf _ _ _ _ h
    · trivial
  · exact h
  · exact ofExcept_memWf (fun _ ht => State.seal_mem ht ▸ h)
  · exact ofExcept_memWf (fun _ ht => State.dropReads_mem ht ▸ h)
  · exact ofExcept_memWf (fun _ ht => State.lpat_wf _ _ _ _ h ht)
  · exact ofExcept_memWf (fun _ ht => State.larm_wf _ _ hr ht)
  · exact performEvent_memWf _ _ _ hr
  · exact performEvent_memWf _ _ _ h
  · exact performPost_memWf _ _ _ hr
  · exact performDone_memWf _ _ _ hr
  · exact h

/-- The state that a performed word leaves. -/
theorem perform_wf {t' : State} {v : Option Word} {c : Nat} {t : BitVec 2} {i : Instr} {a b ext : Word} {th stale : Bool}
    (h : Memory.wf s.mem) (hp : perform s c t i a b ext th stale = .done t' v) : Memory.wf t'.mem := by
  simpa [hp] using perform_memWf c t i a b ext th stale h

theorem State.loadStep_wf (c : Nat) (t : BitVec 2) (stale : Bool) (h : Memory.wf s.mem) : Memory.wf (s.loadStep c t stale).mem := by
  unfold State.loadStep
  dsimp only
  split
  · exact h
  · split
    · exact h
    · split
      case h_1 => exact h
      case h_2 => exact h
      case h_3 hp =>
        have ht := perform_wf h hp
        exact State.settleFences_wf _ _ ht

theorem State.storeStep_wf (c : Nat) (t : BitVec 2) (near : Bool) (h : Memory.wf s.mem) : Memory.wf (s.storeStep c t near).mem := by
  unfold State.storeStep
  extract_lets u x
  have hu : Memory.wf u.mem := by
    simp only [u]
    split
    · exact ite_wf h (State.settleFences_wf _ _ h)
    · exact State.settleFences_wf _ _ h
  clear_value u
  split
  · exact hu
  · split
    · exact hu
    · split
      case h_1 => exact hu
      case h_2 => exact hu
      case h_3 hp =>
        have ht := perform_wf hu hp
        dsimp only
        split
        · exact ht
        · exact State.settleFences_wf _ _ ht

@[simp] theorem State.entryStop_mem (c : Nat) (en : Eng) (w : Trouble) : (s.entryStop c en w).mem = s.mem := by
  unfold State.entryStop
  split
  · rfl
  · dsimp only
    split <;> rfl

@[simp] theorem State.retireEntry_mem (c : Nat) (en : Eng) (t : BitVec 2) : (s.retireEntry c en t).mem = s.mem := rfl

@[simp] theorem State.completeEntry_mem (c : Nat) (en : Eng) : (s.completeEntry c en).mem = s.mem := by
  unfold State.completeEntry
  repeat' split
  all_goals simp

theorem State.trace_wf (c : Nat) (t : BitVec 2) (kind : Nat) (h : Memory.wf s.mem) : Memory.wf (s.trace c t kind).mem := by
  unfold State.trace
  dsimp only
  split
  · exact h
  · split
    · exact h
    · exact storeAt_wf _ _ _ _ _ _ h

@[simp] theorem State.releaseHeld_mem (c : Nat) (mine : Entry → Bool) : (s.releaseHeld c mine).mem = s.mem := by
  unfold State.releaseHeld
  split
  · rfl
  · split
    · exact foldl_mem (fun _ q => by cases q.held <;> simp) _ _
    · rfl

@[simp] theorem State.settleRequest_mem (c : Nat) (t : BitVec 2) (i : Option Instr) : (s.settleRequest c t i).mem = s.mem := by
  unfold State.settleRequest
  dsimp only
  repeat' split
  all_goals simp

@[simp] theorem State.settleXalc_mem (c : Nat) (mine : Entry → Bool) : (s.settleXalc c mine).mem = s.mem := by
  unfold State.settleXalc
  repeat' split
  all_goals simp

@[simp] theorem State.passFifo_mem (c : Nat) (u : BitVec 2) : (s.passFifo c u).mem = s.mem := by
  unfold State.passFifo
  dsimp only
  rw [State.onStrand_mem]
  exact foldl_mem (fun _ _ => State.onStrand_mem ..) _ _

theorem State.postStop_wf (c : Nat) (t : BitVec 2) (why : Trouble) (recs : List Rec) (fseq : Nat) (tnum : BitVec 14)
    (h : Memory.wf s.mem) : Memory.wf (s.postStop c t why recs fseq tnum).mem := by
  have ht := State.trace_wf c t 2 h
  unfold State.postStop
  dsimp only
  split
  · rw [State.postEvent_mem]
    refine State.release_wf _ _ ?_
    split <;> simpa using ht
  · split <;> simpa using ht

theorem State.deliver_wf (c : Nat) (t : BitVec 2) (st : Stop) (h : Memory.wf s.mem) : Memory.wf (s.deliver c t st).mem := by
  unfold State.deliver
  extract_lets later late s1 s2 s3 s4 s5 drafts recs first why mine s6 s7
  refine State.postStop_wf _ _ _ _ _ _ ?_
  have h1 : Memory.wf s1.mem := State.settleFences_wf _ _ h
  have h2 : s2.mem = s1.mem := foldl_mem (fun r en => by
    split
    · split <;> simp
    · rfl) _ _
  have h7 : s7.mem = s2.mem := by simp [s7, s6, s5, s4, s3]
  rw [State.onStrand_mem, h7, h2]
  exact h1

theorem State.keepEntries_wf (c : Nat) (en : Eng) (l : BitVec 10) (w : Trouble) (h : Memory.wf s.mem) :
    Memory.wf (s.keepEntries c en l w).mem := by
  unfold State.keepEntries
  extract_lets mine s1 drafts p a bs o s2 s3 s4
  rw [State.postEvent_mem]
  have h2 : s2.mem = s.mem := by simp only [s2]; split <;> simp [s1]
  exact State.release_wf _ _ (State.putMem_wf _ _ (show Memory.wf s2.mem from h2 ▸ h))

theorem State.deliverOrphan_wf (c : Nat) (en : Eng) (h : Memory.wf s.mem) : Memory.wf (s.deliverOrphan c en).mem := by
  unfold State.deliverOrphan
  split
  · exact State.keepEntries_wf _ _ _ _ h
  · exact h

@[simp] theorem State.endStrand_mem (c : Nat) (t : BitVec 2) (mask : BitVec 3) : (s.endStrand c t mask).mem = s.mem := by
  simp [State.endStrand]

@[simp] theorem State.resumeTarget_mem (c : Nat) (t : BitVec 2) (discard : Bool) : (s.resumeTarget c t discard).2.mem = s.mem := by
  unfold State.resumeTarget
  dsimp only
  split
  · rfl
  · split <;> simp

end Sys2Proof.Machine
end

