-- ==== Sys2Proof/Proofs/MemoryVector.lean ====
section
/-! SUPPORT of O60: the V words. -/
namespace Sys2Proof.Machine

variable {s : State}

theorem foldr_bind_mem {β : Type} {f : β → State → Option State} (hf : ∀ b s t, f b s = some t → t.mem = s.mem) (l : List β)
    {s t : State} (ht : l.foldr (fun b a => a.bind (f b)) (some s) = some t) : t.mem = s.mem := by
  induction l generalizing t with
  | nil => cases ht; rfl
  | cons b l ih =>
    obtain ⟨u, hu, ht⟩ := Option.bind_eq_some_iff.mp ht
    rw [hf b u t ht, ih hu]

/-! The issue of V words, and the lanes of their loads and stores (R151 to R162) -/

@[simp] theorem State.vWord_mem (i : Instr) (e : Bool) (put : Core → VRun → Strand → Capture → Core) :
    (s.vWord i e put).mem = s.mem := by
  unfold State.vWord
  dsimp only
  split
  · rfl
  · split
    · rfl
    · split <;> simp

@[simp] theorem State.vQueued_mem (i : Instr) (e : Bool) (q : VQueue) (tok bn : BitVec 3) (held : Option (Nat × Nat)) :
    (s.vQueued i e q tok bn held).mem = s.mem := State.vWord_mem i e _

@[simp] theorem State.predWord_mem (i : Instr) (e : Bool) : (s.predWord i e).mem = s.mem := by
  unfold State.predWord
  dsimp only
  split
  · rfl
  · split <;> simp

@[simp] theorem countEach_mem (d : Nat) (ls : List Nat) : (countEach s d ls).mem = s.mem :=
  foldl_mem (fun _ _ => countLines_mem ..) ls s

theorem storeLanes_wf (c : Nat) (q : VOp) (th near : Bool) (l : List Nat) (r : Stored) (h : Memory.wf r.s.mem) :
    Memory.wf (storeLanes c q th near l r).s.mem := by
  induction l generalizing r with
  | nil => exact h
  | cons i is ih =>
    unfold storeLanes
    dsimp only
    split
    · exact h
    · split
      · exact h
      · split
        · exact ih _ (State.atomicAt_wf _ _ _ _ _ h)
        · exact ih _ (storeAt_wf _ _ _ _ _ _ h)

@[simp] theorem State.vFault_mem (c : Nat) (q : VQueue) (o : VOp) (w : Trouble) : (s.vFault c q o w).mem = s.mem := by
  simp [State.vFault]

theorem State.vldcGate_mem {t : State} {c : Nat} {r : VRun} {q : VOp} (ht : s.vldcGate c r q = .ok t) : t.mem = s.mem := by
  unfold State.vldcGate at ht
  split at ht
  · exact State.consumeCheck_mem ht
  · cases ht
    rfl

theorem State.readLanes_mem {t : State} {c : Nat} {since : Option Nat} {q q' : VOp} {l : List (Nat × Nat)} {stale : Bool}
    (ht : s.readLanes c since q l stale = some (q', t)) : t.mem = s.mem := by
  unfold State.readLanes at ht
  split at ht
  · cases ht
  · cases ht
    rw [countEach_mem]
    exact foldl_mem (fun _ _ => by split <;> simp) _ _

theorem State.readAhead_mem {t : State} {c : Nat} {r : VRun} {o : VOp} {want : Nat → Bool}
    (ht : s.readAhead c r o want = some t) : t.mem = s.mem := by
  unfold State.readAhead at ht
  extract_lets unread gated at ht
  split at ht
  · cases ht
    rfl
  · split at ht
    · cases ht
    · split at ht
      · cases ht
      · obtain ⟨⟨o', u⟩, hu, rfl⟩ := Option.map_eq_some_iff.mp ht
        have hm := State.readLanes_mem hu
        exact hm

theorem State.readBefore_mem {t : State} {c : Nat} {r : VRun} {q : VOp} {todo : List Nat}
    (ht : s.readBefore c r q todo = some t) : t.mem = s.mem := by
  unfold State.readBefore at ht
  dsimp only at ht
  split at ht
  · cases ht
    rfl
  · rename_i o before _
    obtain ⟨u, hu, ht⟩ := Option.bind_eq_some_iff.mp ht
    rw [State.readAhead_mem ht]
    exact foldr_bind_mem (fun _ _ _ => State.readAhead_mem) before hu

@[simp] theorem State.vLoadDone_mem (c : Nat) (r : VRun) (q : VOp) : (s.vLoadDone c r q).mem = s.mem := by
  unfold State.vLoadDone
  dsimp only
  split <;> simp

@[simp] theorem State.vLoadStep_mem (c : Nat) (r : VRun) (q : VOp) (stale : Bool) (part : Option Early) :
    (s.vLoadStep c r q stale part).mem = s.mem := by
  have gate {u : State} (hu : (if q.found.isSome then .ok s else s.vldcGate c r q) = Consumed.ok u) : u.mem = s.mem := by
    split at hu
    · cases hu
      rfl
    · exact State.vldcGate_mem hu
  unfold State.vLoadStep
  split
  · simp
  · rfl
  · rename_i u hu
    split
    · simp
    · dsimp only
      split
      · rfl
      · rename_i q' v hv
        have hm : v.mem = s.mem := by rw [State.readLanes_mem hv, gate hu]
        split <;> simp [hm]

theorem State.vStoreStep_wf (c : Nat) (r : VRun) (q : VOp) (near : Bool) (part : Option Early) (h : Memory.wf s.mem) :
    Memory.wf (s.vStoreStep c r q near part).mem := by
  unfold State.vStoreStep
  dsimp only
  split
  · exact h
  · rename_i u hu
    have hw := storeLanes_wf c q (!q.skipTH) near (s.partLanes c q part).1 { s := u, lane := (s.partLanes c q part).2 }
      (show Memory.wf u.mem from State.readBefore_mem hu ▸ h)
    split
    · simpa using hw
    · split <;> simpa using hw

@[simp] theorem State.esuStep_mem (c : Nat) (r : VRun) (q : VOp) : (s.esuStep c r q).mem = s.mem := by
  unfold State.esuStep
  split <;> simp

@[simp] theorem State.esuPart_mem (c : Nat) (r : VRun) (q : VOp) (part : Option Early) : (s.esuPart c r q part).mem = s.mem := by
  unfold State.esuPart
  dsimp only
  split <;> simp

@[simp] theorem State.vldcFault_mem (w : Trouble) : (s.vldcFault w).mem = s.mem := by
  unfold State.vldcFault
  repeat' split
  all_goals simp

theorem State.slipData_mem {t : State} {c : Nat} {r : VRun} {q q' : VOp} (ht : s.slipData c r q = some (q', t)) : t.mem = s.mem := by
  unfold State.slipData at ht
  split at ht
  · obtain ⟨⟨_, u⟩, hu, hq⟩ := Option.map_eq_some_iff.mp ht
    cases hq
    have hm := State.readLanes_mem hu
    exact hm
  · cases ht

theorem State.slipData_getD_mem (c : Nat) (r : VRun) (q : VOp) (early : Bool) :
    ((if early then s.slipData c r q else none).getD (q, s)).2.mem = s.mem := by
  cases hd : (if early then s.slipData c r q else none) with
  | none => rfl
  | some u =>
    split at hd
    · exact State.slipData_mem hd
    · cases hd

@[simp] theorem State.slipLoad_mem (c j : Nat) (now : Bool) : (s.slipLoad c j now).mem = s.mem := by
  unfold State.slipLoad
  dsimp only
  split
  · rfl
  · split
    · rfl
    · split
      · rfl
      · split
        · rfl
        · exact State.slipData_getD_mem c _ _ _

end Sys2Proof.Machine
end

