-- ==== Sys2Proof/Proofs/MemoryEngines.lean ====
section
/-! SUPPORT of O60: the M words, and the device steps of entries, windows and counters. -/
namespace Sys2Proof.Machine

variable {s : State}

/-- The next state of an outcome has its memory in canonical form. -/
@[simp] def OutMemWf : Out → Prop
  | .next t => Memory.wf t.mem
  | .fault _ => True
  | .refused _ => True

/-! Byte ranges, the counters' ring and the locked clocks (R58 to R60, R326, R334) -/

@[simp] theorem readPieces_mem (c : Nat) (stale : Bool) (since : Option Nat) (l : List (Nat × Nat)) :
    (readPieces s c stale since l).2.mem = s.mem := by
  induction l generalizing s with
  | nil => rfl
  | cons e l ih => simp [readPieces, ih]

theorem writePieces_wf (c : Nat) (tag : BitVec 4) (near : Bool) (l : List (Nat × Nat)) (bs : List Byte) (h : Memory.wf s.mem) :
    Memory.wf (writePieces s c tag near l bs).mem := by
  induction l generalizing s bs with
  | nil => exact h
  | cons e l ih => exact ih _ (storePhys_wf _ _ _ _ _ _ h)

theorem State.consumeAll_mem {t : State} {c : Nat} {r : BitVec 10} {l : List (Nat × Nat)} (ht : s.consumeAll c r l = .ok t) :
    t.mem = s.mem := by
  induction l generalizing s with
  | nil => cases ht; rfl
  | cons e l ih =>
    unfold State.consumeAll at ht
    split at ht
    · rename_i hu
      rw [ih ht, State.consumeCheck_mem hu]
    · rename_i hne
      exact absurd ht (hne t)

@[simp] theorem State.releaseAll_mem (c : Nat) (r : BitVec 10) (l : List (Nat × Nat)) : (s.releaseAll c r l).mem = s.mem :=
  foldl_mem (fun _ _ => State.consumeRelease_mem ..) l s

@[simp] theorem State.countAll_mem (c : Nat) (r : BitVec 10) (l : List (Nat × Nat)) : (s.countAll c r l).mem = s.mem :=
  foldl_mem (fun _ _ => State.consumeCount_mem ..) l s

theorem devStore_wf (fuel p a : Nat) (bs : List Byte) (h : Memory.wf s.mem) : Memory.wf (devStore fuel s p a bs).mem := by
  induction fuel generalizing s a bs with
  | zero => exact h
  | succ fuel ih =>
    unfold devStore
    split
    · exact h
    · refine ih _ _ ?_
      split
      · exact physWrite_wf _ _ _ h
      · exact h

theorem State.latch_wf (d : Nat) (h : Memory.wf s.mem) : Memory.wf (s.latch d).mem := by
  unfold State.latch
  dsimp only
  split
  · exact devStore_wf _ _ _ _ h
  · exact h

@[simp] theorem lockedGrants_mem (l : List LeaseReq) (held : List Nat) (d : Nat) : (lockedGrants l held s d).mem = s.mem := by
  induction l generalizing s held with
  | nil => rfl
  | cons r l ih =>
    unfold lockedGrants
    dsimp only
    split
    · exact ih _
    · split
      · rw [ih, State.grantLease_mem]
      · exact ih _

/-! M words and the finish of their steps (R233 to R245) -/

@[simp] theorem State.mSet_mem (r : MRun) : (s.mSet r).mem = s.mem := rfl

@[simp] theorem State.mWord_mem (e : Bool) (f : Vector Word 16 → Vector Word 16) : (s.mWord e f).mem = s.mem := by
  unfold State.mWord
  split <;> rfl

@[simp] theorem State.mIssue_mem (e : Bool) (cost : Nat) (drain : Bool) (free : MRun → Bool) (plan : MRun → MPlan) :
    (s.mIssue e cost drain free plan).mem = s.mem := by
  unfold State.mIssue
  split
  · rfl
  · split
    · rfl
    · split
      · rfl
      · simp
      · dsimp only
        split
        · rfl
        · simp
        · split
          · rfl
          · split
            · rfl
            · simp
            · rename_i hu
              simpa using State.consumeAll_mem hu

@[simp] theorem State.drained_mem (c : Nat) (since : Option Nat) (m : MStep) (dt : Nat) (md : BitVec 2) (er : BitVec 4) (stale : Bool) :
    (s.drained c since m dt md er stale).2.2.mem = s.mem := by
  unfold State.drained
  dsimp only
  split <;> split <;> simp

@[simp] theorem State.drainBlocks_mem (c : Nat) (r : MRun) (m : MStep) (n : Nat) : (s.drainBlocks c r m n).2.mem = s.mem := by
  unfold State.drainBlocks
  split <;> rfl

theorem State.drainStep_wf (c : Nat) (r : MRun) (m : MStep) (dt ts : Nat) (md : BitVec 2) (er : BitVec 4) (stale : Bool)
    (h : Memory.wf s.mem) : Memory.wf (s.drainStep c r m dt ts md er stale).mem := by
  unfold State.drainStep
  dsimp only
  rw [State.onStrand_mem, State.drainBlocks_mem]
  split
  · simpa using h
  · exact writePieces_wf _ _ _ _ _ (by simpa using h)

theorem State.mEffect_wf (c : Nat) (r : MRun) (m : MStep) (stale : Bool) (h : Memory.wf s.mem) : Memory.wf (s.mEffect c r m stale).mem := by
  unfold State.mEffect
  dsimp only
  split
  · exact h
  · split <;> simpa using h
  · exact State.drainStep_wf _ _ _ _ _ _ _ _ h
  · simpa using h
  · exact writePieces_wf _ _ _ _ _ h
  · exact h

theorem State.finishStep_wf (c k : Nat) (r : MRun) (m : MStep) (stale : Bool) (h : Memory.wf s.mem) :
    Memory.wf (s.finishStep c k r m stale).mem := State.mEffect_wf c r m stale h

theorem writeSome_wf (n c : Nat) (l : List (Nat × Nat)) (bs : List Byte) (h : Memory.wf s.mem) :
    Memory.wf (writeSome n s c l bs).mem := by
  induction l generalizing n s bs with
  | nil => unfold writeSome; exact h
  | cons e l ih =>
    unfold writeSome
    refine ih _ _ ?_
    split
    · exact storePhys_wf _ _ _ _ _ _ h
    · exact h

theorem State.partStep_wf (c : Nat) (since : Option Nat) (m : MStep) (stale : Bool) (h : Memory.wf s.mem) :
    Memory.wf (s.partStep c since m stale).mem := by
  unfold State.partStep
  dsimp only
  split
  · exact h
  · split
    · split
      · exact h
      · exact writeSome_wf _ _ _ _ (by simpa using h)
    · exact writeSome_wf _ _ _ _ h
    · exact h

theorem State.failStep_wf (c k : Nat) (r : MRun) (m : MStep) (stale : Bool) (h : Memory.wf s.mem) :
    Memory.wf (s.failStep c k r m stale).mem := by
  unfold State.failStep
  rw [State.onCore_mem, State.releaseAll_mem]
  exact State.partStep_wf _ _ _ _ h

theorem execMStepFinish_memWf (c k : Nat) (f : Finish) (h : Memory.wf s.mem) : OutMemWf (execMStepFinish c k f s) := by
  unfold execMStepFinish
  split
  · exact h
  · split
    · exact h
    · split
      · split <;> simpa using h
      · split
        · exact h
        · split
          · simpa using State.failStep_wf _ _ _ _ _ h
          · exact State.finishStep_wf _ _ _ _ _ h

theorem execMrep_memWf (e : Bool) (n : BitVec 4) (k : BitVec 12) (h : Memory.wf s.mem) : OutMemWf (execMrep e n k s) := by
  unfold execMrep
  repeat' split
  all_goals simpa using h

/-! The life of an entry and the checks of what it consumes (R111 to R114, R262) -/

theorem execFixedLatencyWriteLands_memWf (c : Nat) (u : BitVec 3) (h : Memory.wf s.mem) :
    OutMemWf (execFixedLatencyWriteLands c u s) := by
  unfold execFixedLatencyWriteLands
  repeat' split
  all_goals exact h

theorem execEntryHeadWait_memWf (c : Nat) (en : Eng) (h : Memory.wf s.mem) : OutMemWf (execEntryHeadWait c en s) := by
  unfold execEntryHeadWait
  dsimp only
  repeat' split
  all_goals exact h

theorem execEntryStart_memWf (c : Nat) (en : Eng) (h : Memory.wf s.mem) : OutMemWf (execEntryStart c en s) := by
  unfold execEntryStart
  dsimp only
  split
  · exact h
  · split
    · exact h
    · split <;> split <;> simpa using h

@[simp] theorem State.wordStop_mem (c : Nat) (en : Eng) (w : Trouble) : (s.wordStop c en w).mem = s.mem := by
  unfold State.wordStop
  rw [State.entryStop_mem]
  split <;> rfl

theorem execEntryCompletion_memWf (c : Nat) (en : Eng) (h : Memory.wf s.mem) : OutMemWf (execEntryCompletion c en s) := by
  unfold execEntryCompletion
  repeat' split
  all_goals simpa using h

theorem execIllegalEngineWord_memWf (c : Nat) (en : Eng) (h : Memory.wf s.mem) : OutMemWf (execIllegalEngineWord c en s) := by
  unfold execIllegalEngineWord
  repeat' split
  all_goals simpa using h

theorem execConsumingCheck_memWf (c : Nat) (en : Eng) (a : BitVec 48) (n : Nat) (h : Memory.wf s.mem) :
    OutMemWf (execConsumingCheck c en a n s) := by
  unfold execConsumingCheck
  split
  · exact h
  · split
    case h_1 hu => simpa [State.consumeCheck_mem hu] using h
    case h_2 => exact h
    case h_3 => simpa using h

theorem execConsumingCount_memWf (c : Nat) (en : Eng) (a : BitVec 48) (n : Nat) (h : Memory.wf s.mem) :
    OutMemWf (execConsumingCount c en a n s) := by
  unfold execConsumingCount
  split <;> simpa using h

/-! VLDC, TKW and the completion of a token (R157, R158, R161) -/

theorem execVldc_memWf (e : Bool) (vd : BitVec 5) (bn : BitVec 3) (off : BitVec 13) (tok : BitVec 3) (h : Memory.wf s.mem) :
    OutMemWf (execVldc e vd bn off tok s) := by
  unfold execVldc
  dsimp only
  split
  · simpa using h
  · split
    · simpa using h
    · split
      case h_1 => exact h
      case h_2 hu => simpa [State.consumeCheck_mem hu] using h
      case h_3 => simpa using h

theorem execTkw_memWf (e : Bool) (mask : BitVec 8) (h : Memory.wf s.mem) : OutMemWf (execTkw e mask s) := by
  unfold execTkw
  repeat' split
  all_goals simpa [State.vNothing] using h

theorem execTokenComplete_memWf (c : Nat) (q : VQueue) (stale : Bool) (part : Option Early) (h : Memory.wf s.mem) :
    OutMemWf (execTokenComplete c q stale part s) := by
  unfold execTokenComplete
  split
  · exact h
  · split
    · exact h
    · split
      · exact h
      · split
        · split <;> simpa using h
        · split
          · exact State.vStoreStep_wf _ _ _ _ _ h
          · exact h
        · exact ite_wf (by simpa using h) (by simpa using h)

/-! Accesses to a core's window by other parties, halts and counters (R83 to R85, R331, R334) -/

theorem execWindowRegisterWrite_memWf (c : Nat) (off : BitVec 22) (v : BitVec 64) (h : Memory.wf s.mem) :
    OutMemWf (execWindowRegisterWrite c off v s) := by
  unfold execWindowRegisterWrite
  dsimp only
  split <;> simpa using h

theorem execWindowVregWrite_memWf (c : Nat) (gran : BitVec 10) (v : BitVec 512) (tag : BitVec 4) (h : Memory.wf s.mem) :
    OutMemWf (execWindowVregWrite c gran v tag s) := by
  unfold execWindowVregWrite
  split <;> simpa using h

theorem execWindowTagWrite_memWf (c : Nat) (i : BitVec 7) (v : BitVec 8) (h : Memory.wf s.mem) :
    OutMemWf (execWindowTagWrite c i v s) := by
  unfold execWindowTagWrite
  split <;> simpa using h

theorem execSemaphoreWindowStore_memWf (c : Nat) (m : BitVec 8) (v : BitVec 32) (h : Memory.wf s.mem) :
    OutMemWf (execSemaphoreWindowStore c m v s) := by
  unfold execSemaphoreWindowStore
  split <;> simpa using h

theorem execAccumulatorWindowAccess_memWf (c : Nat) (cell : BitVec 15) (wr : Option (BitVec 64)) (h : Memory.wf s.mem) :
    OutMemWf (execAccumulatorWindowAccess c cell wr s) := by
  unfold execAccumulatorWindowAccess
  dsimp only
  split
  · exact h
  · split
    · split <;> simpa using h
    · exact h

theorem execCutHaltTimeout_memWf (c : Nat) (t : BitVec 2) (h : Memory.wf s.mem) : OutMemWf (execCutHaltTimeout c t s) := by
  unfold execCutHaltTimeout
  dsimp only
  split <;> exact h

theorem execCounterLatch_memWf (h : Memory.wf s.mem) : OutMemWf (execCounterLatch s) := by
  unfold execCounterLatch
  split
  · exact foldl_wf (fun _ d => State.latch_wf d) _ h
  · exact h

theorem execLockedClockGrant_memWf (d : BitVec 2) (h : Memory.wf s.mem) : OutMemWf (execLockedClockGrant d s) := by
  unfold execLockedClockGrant
  split <;> simpa using h

theorem execDieFrequencyChange_memWf (d : BitVec 2) (mhz : Nat) (h : Memory.wf s.mem) : OutMemWf (execDieFrequencyChange d mhz s) := by
  unfold execDieFrequencyChange
  split <;> exact h

end Sys2Proof.Machine
end

