-- ==== Sys2Proof/Proofs/MemoryTransfer.lean ====
section
/-! SUPPORT of O60: the X words and their moves. -/
namespace Sys2Proof.Machine

variable {s : State}

theorem foldl_snd_mem {α β : Type} {f : α × State → β → α × State} (hf : ∀ a b, (f a b).2.mem = a.2.mem) (l : List β)
    (a : α × State) : (l.foldl f a).2.mem = a.2.mem := by
  induction l generalizing a with
  | nil => rfl
  | cons b l ih => rw [List.foldl_cons, ih, hf]

/-! X words and their moves (R167 to R189) -/

@[simp] theorem State.xSet_mem (r : XRun) : (s.xSet r).mem = s.mem := rfl

@[simp] theorem State.onXrun_mem (c : Nat) (f : XRun → XRun) : (s.onXrun c f).mem = s.mem := rfl

@[simp] theorem State.xWord_mem (e : Bool) (f : XRun → Vector Word 16) : (s.xWord e f).mem = s.mem := by
  unfold State.xWord
  split <;> rfl

theorem execXrep_memWf (e : Bool) (n : BitVec 4) (k : BitVec 12) (h : Memory.wf s.mem) : OutMemWf (execXrep e n k s) := by
  unfold execXrep
  repeat' split
  all_goals simpa using h

/-- The state that a check phase leaves has the memory m. -/
@[simp] def XPlan.MemIs (m : Mem) : XPlan → Prop
  | .move t _ => t.mem = m
  | .stop t _ => t.mem = m
  | .idle => True
  | .wait => True

theorem XPlan.memIs_ite {c : Prop} [Decidable c] {m : Mem} {a b : XPlan} (ha : a.MemIs m) (hb : b.MemIs m) :
    (if c then a else b).MemIs m := by
  split
  · exact ha
  · exact hb

theorem State.xIssue_mem (e : Bool) {plan : State → XRun → XPlan} (hp : ∀ t r, (plan t r).MemIs t.mem) :
    (s.xIssue e plan).mem = s.mem := by
  unfold State.xIssue
  split
  · rfl
  · rename_i r hr
    split
    · rfl
    · split
      · rfl
      · simp
      · rename_i k hk
        have hplan := hp (s.setCore s.focus k) r
        dsimp only
        split
        · simp
        · rfl
        · rename_i hu
          simpa [hu] using hplan
        · rename_i hu
          rw [hu] at hplan
          split
          · rfl
          · simpa using hplan
          · rename_i hv
            simpa [State.consumeAll_mem hv] using hplan

theorem gatherPlan_memIs (i : Instr) (gat : Bool) (ed es ei : BitVec 4) (r : XRun) : (gatherPlan i gat ed es ei s r).MemIs s.mem := by
  unfold gatherPlan
  dsimp only
  repeat' split
  all_goals simp

@[simp] theorem fetchLayout_mem (c a : Nat) (ps : List (Nat × Nat)) : (fetchLayout s c a ps).2.mem = s.mem := by
  unfold fetchLayout
  dsimp only
  split
  · rfl
  · exact foldl_mem (fun _ _ => countLines_mem ..) ps s

theorem xtenPlan_memIs (i : Instr) (eh ed ec : BitVec 4) (xp : BitVec 2) (out : Bool) (r : XRun) :
    (xtenPlan i eh ed ec xp out s r).MemIs s.mem := by
  unfold xtenPlan
  extract_lets h d c
  split
  · rfl
  · split
    · rfl
    · split
      · rfl
      · split
        · rfl
        · split
          · trivial
          · split
            · rfl
            · rename_i ps _ _ _ _
              have hl : (fetchLayout s s.focus h ps.flatten).2.mem = s.mem := fetchLayout_mem ..
              generalize fetchLayout s s.focus h ps.flatten = layout at hl
              obtain ⟨b, u⟩ := layout
              refine XPlan.memIs_ite hl ?_
              dsimp only
              split
              · exact hl
              · split
                · exact hl
                · exact hl
                · exact hl
                · exact XPlan.memIs_ite trivial (XPlan.memIs_ite hl (XPlan.memIs_ite hl hl))

theorem XMove.fetch_mem (m : XMove) (c : Nat) (stale : Bool) (since : Option Nat) (l : List (Nat × Nat)) :
    (m.fetch s c stale since l).2.mem = s.mem := by
  unfold XMove.fetch
  refine foldl_snd_mem (fun a e => ?_) l _
  exact readPieces_mem ..

theorem writeRow_wf (c ty : Nat) (near : Bool) (e : Nat × List (Nat × Nat)) (row : List Nat) (h : Memory.wf s.mem) :
    Memory.wf (writeRow s c ty near e row).mem := writePieces_wf _ _ _ _ _ h

theorem writeRowsMeeting_wf (c ty : Nat) (near : Bool) (n : Nat) (seen : List Nat) (l : List ((Nat × List (Nat × Nat)) × List Nat))
    (h : Memory.wf s.mem) : Memory.wf (writeRowsMeeting c ty near n seen s l).mem := by
  induction l generalizing n seen s with
  | nil => exact h
  | cons e l ih => exact ih _ _ (writeRow_wf _ _ _ _ _ h)

theorem writeRows_wf (c ty : Nat) (near : Bool) (l : List ((Nat × List (Nat × Nat)) × List Nat)) (h : Memory.wf s.mem) :
    Memory.wf (writeRows s c ty near l).mem := by
  unfold writeRows
  split
  · exact writeRowsMeeting_wf _ _ _ _ _ _ h
  · exact foldl_wf (fun _ e => writeRow_wf c ty near e.1 e.2) l h

theorem xtenOut_wf (c : Nat) (near : Bool) (m : XMove) (xp : BitVec 2) (a n : Nat) (h : Memory.wf s.mem) :
    Memory.wf (xtenOut s c near m xp a n).mem := by
  unfold xtenOut
  dsimp only
  split
  · exact writePieces_wf _ _ _ _ _ (writeRows_wf _ _ _ _ h)
  · exact writePieces_wf _ _ _ _ _ h

theorem reduceAll_wf (c : Nat) (i32 : Bool) (ps vs : List Nat) (h : Memory.wf s.mem) : Memory.wf (reduceAll c i32 s ps vs).mem := by
  induction ps generalizing s vs with
  | nil => exact h
  | cons p ps ih =>
    cases vs with
    | nil => exact h
    | cons v vs => exact ih _ (State.atomicAt_wf _ _ _ _ _ h)

theorem reduceWords_wf (c : Nat) (i32 : Bool) (n : Nat) (ds as vs : List Nat) (h : Memory.wf s.mem) :
    Memory.wf (reduceWords c i32 n s ds as vs).mem := by
  induction ds generalizing n s as vs with
  | nil => unfold reduceWords; exact h
  | cons d ds ih =>
    cases as with
    | nil => exact h
    | cons a as =>
      cases vs with
      | nil => exact h
      | cons v vs => exact ih _ _ _ (State.atomicAt_wf _ _ _ _ _ h)

theorem State.writeOut_wf (c : Nat) (near : Bool) (m : XMove) (l : List (Nat × Nat)) (h : Memory.wf s.mem) :
    Memory.wf (s.writeOut c near m l).mem := by
  unfold State.writeOut
  dsimp only
  split
  · exact writePieces_wf _ _ _ _ _ h
  · exact foldl_wf (fun _ e => xtenOut_wf c near m.filled _ e.1 e.2) l h
  · exact writePieces_wf _ _ _ _ _ h
  · exact writePieces_wf _ _ _ _ _ h
  · split
    · exact reduceWords_wf _ _ _ _ _ _ h
    · exact reduceAll_wf _ _ _ _ h
  · split <;> exact writePieces_wf _ _ _ _ _ h

@[simp] theorem State.countStep_mem (c : Nat) (m : XMove) : (s.countStep c m).mem = s.mem := by
  unfold State.countStep
  dsimp only
  split
  · rw [foldl_mem (fun _ _ => countAtomic_mem ..), foldl_mem (fun _ _ => countLines_mem ..)]
  · rw [foldl_mem (fun _ _ => countLines_mem ..), foldl_mem (fun _ _ => countLines_mem ..)]

theorem State.moveRanges_wf {t : State} {c : Nat} {stale : Bool} {since : Option Nat} {m m' : XMove} {rd wr : List (Nat × Nat)}
    (h : Memory.wf s.mem) (ht : s.moveRanges c stale since m rd wr = .done m' t) : Memory.wf t.mem := by
  unfold State.moveRanges at ht
  dsimp only at ht
  split at ht
  · cases ht
  · split at ht
    · cases ht
    · cases ht
      rw [State.onDie_mem]
      refine State.writeOut_wf _ _ _ _ ?_
      rw [XMove.fetch_mem]
      split <;> simpa using h

@[simp] theorem State.countMove_mem (c : Nat) (e : Entry) (m : XMove) : (s.countMove c e m).mem = s.mem := by
  unfold State.countMove
  repeat' split
  all_goals simp

@[simp] theorem State.failMove_mem (c k : Nat) (e : Entry) (m : XMove) (sub : Nat) : (s.failMove c k e m sub).mem = s.mem := by
  simp [State.failMove]

theorem execTransferMovePhaseDone_memWf (c k : Nat) (stale : Bool) (part : Option (Bool × Nat × Nat)) (h : Memory.wf s.mem) :
    OutMemWf (execTransferMovePhaseDone c k stale part s) := by
  unfold execTransferMovePhaseDone
  split
  · exact h
  · split
    · exact h
    · split
      · exact h
      · split
        case h_1 => exact h
        case h_2 => simpa using h
        case h_3 ht =>
          have hw := State.moveRanges_wf h ht
          split <;> simpa using hw

theorem execXmrk_memWf (e : Bool) (h : Memory.wf s.mem) : OutMemWf (execXmrk e s) := by
  unfold execXmrk
  repeat' split
  all_goals exact h

theorem execXsig_memWf (e : Bool) (ea en : BitVec 4) (h : Memory.wf s.mem) : OutMemWf (execXsig e ea en s) := by
  unfold execXsig
  split
  · exact h
  · split
    · exact h
    · dsimp only
      split
      · simpa using h
      · split
        · simpa using h
        · rename_i r _ _ _ _ d m _
          have hs := performSignal_memWf s.focus d m (r.num en % 2 ^ 32) h
          split
          case h_1 ht => rw [ht] at hs; exact hs
          case h_2 => simpa using h
          case h_3 => exact h

theorem execXrfl_memWf (e : Bool) (eh : BitVec 4) (h : Memory.wf s.mem) : OutMemWf (execXrfl e eh s) := by
  unfold execXrfl
  split
  · exact h
  · dsimp only
    split <;> simpa using h

@[simp] theorem State.finishXalc_mem (e : Bool) (ed : BitVec 4) : (s.finishXalc e ed).mem = s.mem := by
  unfold State.finishXalc
  repeat' split
  all_goals rfl

theorem execXalc_memWf (e : Bool) (ed ea eb : BitVec 4) (h : Memory.wf s.mem) : OutMemWf (execXalc e ed ea eb s) := by
  unfold execXalc
  split
  · exact h
  · split
    · simpa using h
    · dsimp only
      split <;> simpa using h

end Sys2Proof.Machine
end

