-- ==== Sys2Proof/Proofs/MemoryKill.lean ====
section
/-! SUPPORT of O60: kills and errors. -/
namespace Sys2Proof.Machine

variable {s : State}

/-! The end of a launch, and the containment of errors (R314, R315, R353, R357) -/

@[simp] theorem State.killStrand_mem (c : Nat) (t : BitVec 2) : (s.killStrand c t).mem = s.mem := by
  unfold State.killStrand
  split <;> simp

theorem drainHeads_wf (fuel c : Nat) (t : BitVec 2) (h : Memory.wf s.mem) : Memory.wf (drainHeads fuel s c t).mem := by
  induction fuel generalizing s with
  | zero => exact h
  | succ fuel ih =>
    unfold drainHeads
    extract_lets due u v
    have hu : Memory.wf u.mem := ite_wf (State.loadStep_wf _ _ _ h) h
    clear_value u
    exact ih (ite_wf (State.storeStep_wf _ _ _ hu) hu)

theorem drainEndedHeads_wf (fuel c : Nat) (t : BitVec 2) (h : Memory.wf s.mem) : Memory.wf (drainEndedHeads fuel s c t).mem := by
  induction fuel generalizing s with
  | zero => exact State.settleFences_wf _ _ h
  | succ fuel ih =>
    unfold drainEndedHeads
    extract_lets due u v
    have hu : Memory.wf u.mem := ite_wf (State.loadStep_wf _ _ _ h) h
    clear_value u
    exact ih (ite_wf (State.storeStep_wf _ _ _ hu) hu)

theorem drainStrand_wf (fuel c : Nat) (t : BitVec 2) (h : Memory.wf s.mem) : Memory.wf (drainStrand fuel s c t).mem :=
  State.settleFences_wf _ _ (drainHeads_wf _ _ _ h)

theorem finishSteps_wf (fuel c : Nat) (r : BitVec 10) (h : Memory.wf s.mem) : Memory.wf (finishSteps fuel s c r).mem := by
  induction fuel generalizing s with
  | zero => exact h
  | succ fuel ih =>
    unfold finishSteps
    split
    · exact h
    · split
      · exact h
      · split
        · exact h
        · split
          · exact ih (State.failStep_wf _ _ _ _ _ h)
          · exact ih (State.finishStep_wf _ _ _ _ _ (by simpa using h))

theorem finishMoves_wf (fuel c : Nat) (r : BitVec 10) (h : Memory.wf s.mem) : Memory.wf (finishMoves fuel s c r).mem := by
  induction fuel generalizing s with
  | zero => exact h
  | succ fuel ih =>
    unfold finishMoves
    split
    · exact h
    · split
      · exact h
      · split
        · exact h
        · dsimp only
          split
          · exact h
          · exact ih (by simpa using h)
          · rename_i ht
            have hw := State.moveRanges_wf h ht
            exact ih (by simpa using hw)

theorem State.flushRuns_wf (c : Nat) (r : BitVec 10) (h : Memory.wf s.mem) : Memory.wf (s.flushRuns c r).mem := by
  unfold State.flushRuns
  dsimp only
  refine foldl_wf (fun u en hu => ?_) _ ?_
  · split
    · split <;> exact hu
    · exact hu
  · rw [State.onCore_mem, State.settleXalc_mem]
    exact finishMoves_wf _ _ _ (finishSteps_wf _ _ _ h)

theorem State.killOn_wf (r : BitVec 10) (c : Nat) (h : Memory.wf s.mem) : Memory.wf (s.killOn r c).mem := by
  unfold State.killOn
  extract_lets own s1 s2 busy s3
  have h1 : Memory.wf s1.mem := by
    simp only [s1]
    split
    · exact foldl_wf (fun _ t hu => by simpa using hu) _ h
    · exact h
  have h3 : Memory.wf s3.mem := by
    simp only [s3, State.onCore_mem]
    exact State.flushRuns_wf _ _ h1
  split
  · refine foldl_wf (fun u t hu => ?_) _ h3
    split
    · exact hu
    · exact drainStrand_wf _ _ _ hu
  · exact h3

@[simp] theorem State.killQueued_mem (p : Nat) (r : BitVec 10) : (s.killQueued p r).mem = s.mem := by
  unfold State.killQueued
  dsimp only
  rw [State.onPart_mem]
  exact foldl_mem (fun _ _ => by split <;> rfl) _ _

@[simp] theorem State.poisonLaunch_mem (p : Nat) (r : BitVec 10) : (s.poisonLaunch p r).mem = s.mem :=
  foldl_mem (fun _ _ => State.poisonEvent_mem ..) _ s

@[simp] theorem State.dropLaunch_mem (p : Nat) (r : BitVec 10) : (s.dropLaunch p r).mem = s.mem := rfl

theorem State.drainPart_wf (p : Nat) (h : Memory.wf s.mem) : Memory.wf (s.drainPart p).mem := by
  unfold State.drainPart
  exact foldl_wf (fun _ e => State.drainHome_wf _) _ h

theorem State.killLaunch_wf (p : Nat) (r : BitVec 10) (code cause sub : Nat) (h : Memory.wf s.mem) :
    Memory.wf (s.killLaunch p r code cause sub).mem := by
  unfold State.killLaunch
  split
  · exact h
  · split
    extract_lets s1 s2 lost sems s3 s4 s5
    have h2 : Memory.wf s2.mem := by
      simp only [s2, State.killQueued_mem]
      exact foldl_wf (fun _ c => State.killOn_wf r c) _ h
    split
    · exact h2
    · rw [State.dropLaunch_mem]
      refine State.setRecField_wf _ _ _ _ _ (State.setRecField_wf _ _ _ _ _ (State.drainPart_wf _ ?_))
      have h3 : s3.mem = s2.mem := by
        apply foldl_mem
        intro u c
        exact State.onCore_mem ..
      rw [State.poisonLaunch_mem, State.onPart_mem, h3]
      exact h2

theorem State.contain_wf (p : Nat) (r : BitVec 10) (sub : Nat) (h : Memory.wf s.mem) : Memory.wf (s.contain p r sub).mem :=
  State.killLaunch_wf _ _ _ _ _ h

@[simp] theorem State.fence_mem (u : EccUnit) : (s.fence u).mem = s.mem := by
  unfold State.fence
  split
  · rfl
  · rfl
  · split <;> rfl

theorem State.hostMoves_mem {t : State} {c : Nat} {u : BitVec 2} {old : Nat → Bool} {l : BitVec 10}
    (ht : s.hostMoves c u old = some (l, t)) : t.mem = s.mem := by
  unfold State.hostMoves at ht
  dsimp only at ht
  repeat' split at ht
  all_goals cases ht <;> rfl

theorem State.hostFetch_mem {t : State} {c : Nat} {u : BitVec 2} {old : Nat → Bool} {l : BitVec 10}
    (ht : s.hostFetch c u old = some (l, t)) : t.mem = s.mem := by
  unfold State.hostFetch at ht
  extract_lets x code check at ht
  split at ht
  · cases ht
    rfl
  · split at ht
    · obtain ⟨_, _, h⟩ := Option.map_eq_some_iff.mp ht
      cases h
      rfl
    · cases ht

theorem State.takeHostRead_mem {t : State} {c : Nat} {u : BitVec 2} {old : Nat → Bool} {l : BitVec 10}
    (ht : s.takeHostRead c u old = some (l, t)) : t.mem = s.mem := by
  have rest (hr : (s.hostMoves c u old <|> s.hostFetch c u old) = some (l, t)) : t.mem = s.mem := by
    cases hm : s.hostMoves c u old with
    | none =>
      rw [hm] at hr
      exact State.hostFetch_mem hr
    | some r =>
      rw [hm] at hr
      cases hr
      exact State.hostMoves_mem hm
  unfold State.takeHostRead at ht
  extract_lets x hit vhit fail at ht
  split at ht
  · cases ht
    rfl
  · split at ht
    · split at ht
      · cases ht
        rfl
      · exact rest ht
    · exact rest ht

theorem execHostReadErrorCompletion_memWf (c : Nat) (t : BitVec 2) (h : Memory.wf s.mem) :
    OutMemWf (execHostReadErrorCompletion c t s) := by
  unfold execHostReadErrorCompletion
  split
  · rename_i hu
    exact State.contain_wf _ _ _ (State.takeHostRead_mem hu ▸ h)
  · exact h

theorem execHostReadTimeout_memWf (c : Nat) (t : BitVec 2) (h : Memory.wf s.mem) : OutMemWf (execHostReadTimeout c t s) := by
  unfold execHostReadTimeout
  split
  · rename_i hu
    exact State.contain_wf _ _ _ (State.takeHostRead_mem hu ▸ h)
  · exact h

theorem execEccUncorrectable_memWf (u : EccUnit) (c : Nat) (t : BitVec 2) (h : Memory.wf s.mem) :
    OutMemWf (execEccUncorrectable u c t s) := by
  have hf : Memory.wf (s.fence u).mem := by simpa using h
  unfold execEccUncorrectable
  dsimp only
  split
  · exact State.contain_wf _ _ _ hf
  · exact hf

theorem execLinkReplayFail_memWf (a b : BitVec 3) (h : Memory.wf s.mem) : OutMemWf (execLinkReplayFail a b s) := by
  unfold execLinkReplayFail
  dsimp only
  split <;> exact h

theorem execRailOvercurrent_memWf (d : BitVec 2) (h : Memory.wf s.mem) : OutMemWf (execRailOvercurrent d s) := by
  unfold execRailOvercurrent
  split <;> exact h

end Sys2Proof.Machine
end

