-- ==== Sys2Proof/Proofs/MemoryWords.lean ====
section
/-! SUPPORT of O60: the S words that are more than an issue, and the device steps of teams. -/
namespace Sys2Proof.Machine

variable {s : State}

/-! Event words, task words and launch words (R276 to R289) -/

theorem execEvw_memWf (ctl : BitVec 2) (ra : BitVec 5) (h : Memory.wf s.mem) : OutMemWf (execEvw ctl ra s) := by
  unfold execEvw
  dsimp only
  repeat' split
  all_goals simpa using h

theorem execEvt_memWf (ctl : BitVec 2) (rd ra : BitVec 5) (h : Memory.wf s.mem) : OutMemWf (execEvt ctl rd ra s) := by
  unfold execEvt
  dsimp only
  split <;> exact h

theorem execQtake_memWf (ctl : BitVec 2) (rd : BitVec 5) (h : Memory.wf s.mem) : OutMemWf (execQtake ctl rd s) := by
  unfold execQtake
  dsimp only
  split
  · simpa using h
  · exact h
  · simpa [State.resultWord] using h

theorem State.recWaited_wf (p i : Nat) (h : Memory.wf s.mem) : Memory.wf (s.recWaited p i).mem := by
  unfold State.recWaited
  split
  · exact State.setRecField_wf _ _ _ _ _ h
  · exact h

theorem execLwait_memWf (ctl : BitVec 2) (rd ra : BitVec 5) (h : Memory.wf s.mem) : OutMemWf (execLwait ctl rd ra s) := by
  unfold execLwait
  dsimp only
  split
  · simpa using h
  · split
    · exact h
    · simpa [State.resultWord] using State.recWaited_wf _ _ h

/-! Teams: placed, started, swapped, completed (R273 to R292) -/

@[simp] theorem State.setLaunch_mem (p : Nat) (r : BitVec 10) (l : Option Launch) : (s.setLaunch p r l).mem = s.mem := rfl

theorem execTeamEntryGenerate_memWf (p : Nat) (r : BitVec 10) (cl : Nat) (h : Memory.wf s.mem) :
    OutMemWf (execTeamEntryGenerate p r cl s) := by
  unfold execTeamEntryGenerate
  split
  · exact h
  · dsimp only
    split <;> exact h

@[simp] theorem State.enterPool_mem (p c : Nat) (r : BitVec 10) : (s.enterPool p c r).mem = s.mem := by
  unfold State.enterPool
  dsimp only
  split
  · rfl
  · exact foldl_mem (fun _ _ => State.serve_mem ..) _ _

@[simp] theorem State.moveIn_mem (c : Nat) (moved : Bool) : (s.moveIn c moved).mem = s.mem := by
  unfold State.moveIn
  dsimp only
  split <;> simp

theorem execTeamTake_memWf (c : Nat) (h : Memory.wf s.mem) : OutMemWf (execTeamTake c s) := by
  unfold execTeamTake
  dsimp only
  split
  · exact h
  · split
    · split <;> simpa using h
    · exact h

theorem execKernelStart_memWf (c : Nat) (h : Memory.wf s.mem) : OutMemWf (execKernelStart c s) := by
  unfold execKernelStart
  dsimp only
  split
  · exact h
  · split
    · exact h
    · simp only [OutMemWf, State.onCore_mem, State.acquire_mem, State.enterPool_mem]
      split
      · exact State.setRecField_wf _ _ _ _ _ h
      · exact h

@[simp] theorem State.reclaimPools_mem (p : Nat) (r : BitVec 10) : (s.reclaimPools p r).mem = s.mem := by
  unfold State.reclaimPools
  rw [State.onPart_mem]
  exact foldl_mem (fun _ _ => State.onCore_mem ..) _ _

theorem execLaunchCompletion_memWf (p : Nat) (r : BitVec 10) (h : Memory.wf s.mem) : OutMemWf (execLaunchCompletion p r s) := by
  unfold execLaunchCompletion
  split
  · exact h
  · split
    · exact h
    · simp only [OutMemWf, State.postEvent_mem, State.dropLaunch_mem]
      refine State.setRecField_wf _ _ _ _ _ (State.setRecField_wf _ _ _ _ _ ?_)
      rw [State.reclaimPools_mem]
      exact State.drainPart_wf _ h

theorem execTeamSwap_memWf (c : Nat) (h : Memory.wf s.mem) : OutMemWf (execTeamSwap c s) := by
  unfold execTeamSwap
  split
  · exact h
  · split
    · exact h
    · extract_lets s1 s2 s3 src ctx s4
      have h1 : s1.mem = s.mem := foldl_mem (fun _ _ => State.settleRequest_mem ..) _ _
      have h2 : s2.mem = s1.mem := State.settleXalc_mem ..
      have h3 : s3.mem = s2.mem := by
        apply foldl_mem
        intro u t
        exact State.releaseLease_mem ..
      have h4 : Memory.wf s4.mem := by
        rw [State.onCore_mem, h3, h2, h1]
        exact h
      clear_value s4
      exact State.drainHome_wf _ h4

theorem execSwappedTeamReenter_memWf (p k : Nat) (h : Memory.wf s.mem) : OutMemWf (execSwappedTeamReenter p k s) := by
  unfold execSwappedTeamReenter
  split
  · exact h
  · dsimp only
    split
    · exact h
    · split <;> exact h

/-! TALC, PWQ and PWREL (R257 to R261, R324) -/

@[simp] theorem State.placeTalc_mem (c : Nat) (t : BitVec 2) (n d p : Nat) (a b : Word) (lk : Links) :
    (s.placeTalc c t n d p a b lk).mem = s.mem := by
  unfold State.placeTalc
  dsimp only
  split <;> simp

theorem execTalc_memWf (ctl : BitVec 2) (rd ra rb : BitVec 5) (h : Memory.wf s.mem) : OutMemWf (execTalc ctl rd ra rb s) := by
  unfold execTalc
  dsimp only
  split
  · split <;> exact h
  · split
    · exact h
    · split <;> simpa [State.resultWord] using h

@[simp] theorem State.placePwq_mem (c : Nat) (t : BitVec 2) (n : Nat) : (s.placePwq c t n).mem = s.mem := by
  simp [State.placePwq]

theorem execPwq_memWf (ctl : BitVec 2) (ra : BitVec 5) (h : Memory.wf s.mem) : OutMemWf (execPwq ctl ra s) := by
  unfold execPwq
  dsimp only
  split
  · exact h
  · split
    · split <;> simpa using h
    · simp only [OutMemWf, State.issue_mem, State.onStrand_mem]
      split <;> simpa using h

theorem execPwrel_memWf (ctl : BitVec 2) (h : Memory.wf s.mem) : OutMemWf (execPwrel ctl s) := by
  simp only [execPwrel, OutMemWf, State.issue_mem]
  split <;> simpa using h

/-! Scalar accesses and WAITC (R92 to R102) -/

theorem execSt_memWf (ctl : BitVec 2) (rs ra : BitVec 5) (imm : BitVec 9) (sz : BitVec 2) (g : BitVec 3) (h : Memory.wf s.mem) :
    OutMemWf (execSt ctl rs ra imm sz g s) := by
  unfold execSt
  split <;> simpa using h

theorem execAtm_memWf (ctl : BitVec 2) (rd ra rb : BitVec 5) (op : BitVec 4) (sz : BitVec 2) (g : BitVec 3) (h : Memory.wf s.mem) :
    OutMemWf (execAtm ctl rd ra rb op sz g s) := by
  unfold execAtm
  split <;> simpa using h

theorem execAcas_memWf (ctl : BitVec 2) (rd ra rb : BitVec 5) (sz : BitVec 2) (g : BitVec 3) (h : Memory.wf s.mem) :
    OutMemWf (execAcas ctl rd ra rb sz g s) := by
  unfold execAcas
  split <;> simpa using h

theorem execWaitc_memWf (ctl : BitVec 2) (limL limS limV limM limX : BitVec 4) (h : Memory.wf s.mem) :
    OutMemWf (execWaitc ctl limL limS limV limM limX s) := by
  unfold execWaitc
  split <;> exact h

theorem execScalarLoadComplete_memWf (c : Nat) (t : BitVec 2) (stale : Bool) (h : Memory.wf s.mem) :
    OutMemWf (execScalarLoadComplete c t stale s) := by
  unfold execScalarLoadComplete
  split
  · exact h
  · split
    · exact State.loadStep_wf _ _ _ h
    · exact h

theorem execStoreQueuePerform_memWf (c : Nat) (q : QueueHead) (h : Memory.wf s.mem) : OutMemWf (execStoreQueuePerform c q s) := by
  unfold execStoreQueuePerform
  split
  · exact State.storeStep_wf _ _ _ h
  · split
    · exact State.storeStep_wf _ _ _ h
    · exact h

/-! DISP and the semaphore words (R108 to R121) -/

theorem execDisp_memWf (ctl en : BitVec 2) (blk : BitVec 8) (ra rb : BitVec 5) (ss : BitVec 4) (h : Memory.wf s.mem) :
    OutMemWf (execDisp ctl en blk ra rb ss s) := by
  unfold execDisp
  dsimp only
  repeat' split
  all_goals exact h

theorem execSemw_memWf (ctl : BitVec 2) (ra : BitVec 5) (num : BitVec 8) (h : Memory.wf s.mem) : OutMemWf (execSemw ctl ra num s) := by
  unfold execSemw
  dsimp only
  split <;> simpa using h

theorem execSemsAddress_memWf (ctl : BitVec 2) (rd ra : BitVec 5) (h : Memory.wf s.mem) : OutMemWf (execSemsAddress ctl rd ra s) := by
  unfold execSemsAddress
  dsimp only
  split <;> simpa using h

/-! System registers, RESUME and region marks (R76 to R78, R307 to R310, R328) -/

theorem execMfs_memWf (ctl : BitVec 2) (rd : BitVec 5) (num : BitVec 14) (h : Memory.wf s.mem) : OutMemWf (execMfs ctl rd num s) := by
  unfold execMfs
  dsimp only
  split <;> exact h

theorem execMts_memWf (ctl : BitVec 2) (ra : BitVec 5) (num : BitVec 14) (h : Memory.wf s.mem) : OutMemWf (execMts ctl ra num s) := by
  unfold execMts
  dsimp only
  split <;> exact h

theorem execResume_memWf (ctl : BitVec 2) (h : Memory.wf s.mem) : OutMemWf (execResume ctl s) := by
  unfold execResume
  dsimp only
  split
  · exact h
  · split
    · exact h
    · simp only [OutMemWf, State.issue_mem]
      split
      · simpa using h
      · exact h

theorem State.regionWord_wf (ctl : BitVec 2) (kind : Nat) (f : Strand → Strand) (h : Memory.wf s.mem) :
    Memory.wf (s.regionWord ctl kind f).mem := by
  have ht : Memory.wf ((s.issue ctl 0 s.nextPc f).trace s.focus s.curStrand kind).mem := State.trace_wf _ _ _ h
  unfold State.regionWord
  dsimp only
  split <;> exact ht

end Sys2Proof.Machine
end

