-- ==== Sys2Proof/Proofs/MemoryResume.lean ====
section
/-! SUPPORT of O60: stops and what follows them. -/
namespace Sys2Proof.Machine

variable {s : State}

/-! Stops delivered, records issued again, partitions put aside and restored (R297 to R313) -/

theorem State.restop_wf (c : Nat) (t : BitVec 2) (l : List Rec) (w : Trouble) (fault : Option Nat) (h : Memory.wf s.mem) :
    Memory.wf (s.restop c t l w fault).mem := State.postStop_wf _ _ _ _ _ _ h

theorem State.deliverStop_wf (c : Nat) (t : BitVec 2) (h : Memory.wf s.mem) : Memory.wf (s.deliverStop c t).mem := by
  unfold State.deliverStop
  dsimp only
  split
  · exact h
  · split
    · split
      · split
        · exact State.contain_wf _ _ _ h
        · exact h
      · split
        · exact State.deliver_wf _ _ _ h
        · exact h
    · refine foldl_wf (fun u en hu => ?_) _ h
      split
      · split
        · exact State.contain_wf _ _ _ hu
        · split
          · exact hu
          · split
            · exact hu
            · split
              · exact State.deliverOrphan_wf _ _ hu
              · exact hu
      · exact hu

/-- The state that a word performed again leaves has its memory in canonical form. -/
@[simp] def Again.MemWf : Again → Prop
  | .done s => Memory.wf s.mem
  | .wait s => Memory.wf s.mem
  | .fault _ => True

theorem State.dispAgain_memWf (c : Nat) (t en : BitVec 2) (blk : BitVec 8) (a b : Word) (ss : BitVec 4) (h : Memory.wf s.mem) :
    (s.dispAgain c t en blk a b ss).MemWf := by
  unfold State.dispAgain
  dsimp only
  repeat' split
  all_goals simp [h]

@[simp] theorem State.dropRequest_mem (c : Nat) (t : BitVec 2) : (s.dropRequest c t).mem = s.mem := rfl

@[simp] theorem State.putSreg_mem (c : Nat) (t : BitVec 2) (r : BitVec 5) (v : Word) : (s.putSreg c t r v).mem = s.mem := rfl

theorem State.again_memWf (c : Nat) (t : BitVec 2) (i : Instr) (a b : Word) (h : Memory.wf s.mem) : (s.again c t i a b).MemWf := by
  cases i
  case talc =>
    simp only [State.again]
    split
    · split <;> simpa using h
    · split
      · trivial
      · split <;> simpa using h
  case pwq =>
    simp only [State.again]
    split
    · trivial
    · split <;> split <;> simpa using h
  case lwait =>
    simp only [State.again]
    split
    · trivial
    · split
      · exact h
      · simpa using State.recWaited_wf _ _ h
  case disp => exact State.dispAgain_memWf _ _ _ _ _ _ _ h
  case mark => simpa [State.again] using State.release_wf c _ h
  case fence => simpa [State.again] using State.release_wf c _ h
  case enter => exact State.trace_wf _ _ _ h
  case leave => exact State.trace_wf _ _ _ h
  all_goals
    simp only [State.again]
    repeat' split
    all_goals simp [h]

theorem State.reissueOne_wf (c : Nat) (t : BitVec 2) (r : Rec) (before after : List Rec) (h : Memory.wf s.mem) :
    Memory.wf (s.reissueOne c t r before after).mem := by
  unfold State.reissueOne
  extract_lets open_ rest keep fail i
  have hfail (w : Trouble) : Memory.wf (fail w).mem := by
    simp only [fail]
    split
    · split
      · exact State.contain_wf _ _ _ h
      · exact h
    · exact State.restop_wf _ _ _ _ _ h
  split
  · simpa [keep] using State.release_wf c _ h
  · split
    · generalize (if translated i r.opa then some ((s.strand c t).issuedAt) else none) = at_
      split
      · exact h
      · split
        · exact h
        · split
          case h_1 => exact h
          case h_2 => exact hfail _
          case h_3 hp =>
            have hw := perform_wf h hp
            exact hw
    · split
      · exact h
      · have ha := State.again_memWf c t i r.opa r.opb h
        split
        case h_1 hu => rw [hu] at ha; exact ha
        case h_2 => exact hfail _
        case h_3 hu => rw [hu] at ha; exact ha

@[simp] theorem State.finishResume_mem (c : Nat) (t : BitVec 2) (l : List Rec) : (s.finishResume c t l).mem = s.mem := by
  unfold State.finishResume
  dsimp only
  split <;> rfl

theorem State.reissueStep_wf (c : Nat) (t : BitVec 2) (h : Memory.wf s.mem) : Memory.wf (s.reissueStep c t).mem := by
  unfold State.reissueStep
  dsimp only
  split
  · exact h
  · split
    · split
      · exact h
      · split
        · exact State.restop_wf _ _ _ _ _ h
        · split <;> split <;> simpa using h
    · split
      · exact h
      · split
        · exact State.reissueOne_wf _ _ _ _ _ h
        · simpa using h

theorem execPoolstall_memWf (c : Nat) (u : BitVec 3) (h : Memory.wf s.mem) : OutMemWf (execPoolstall c u s) := by
  unfold execPoolstall
  dsimp only
  split
  · exact h
  · split
    · repeat' split
      all_goals simpa using h
    · split
      · exact h
      · split
        · exact h
        · split
          · split
            · exact State.restop_wf _ _ _ _ _ h
            · exact h
          · split <;> exact h

theorem State.preemptResuming_wf (c : Nat) (t : BitVec 2) (w : Trouble) (h : Memory.wf s.mem) :
    Memory.wf (s.preemptResuming c t w).mem := by
  unfold State.preemptResuming
  extract_lets u
  have hu : Memory.wf u.mem := by
    simp only [u]
    split
    · exact State.reissueStep_wf _ _ h
    · exact h
  clear_value u
  split
  · exact State.restop_wf _ _ _ _ _ (by simpa using hu)
  · exact hu

theorem keepAll_wf (fuel c : Nat) (en : Eng) (h : Memory.wf s.mem) : Memory.wf (keepAll fuel s c en).mem := by
  induction fuel generalizing s with
  | zero => exact h
  | succ fuel ih =>
    unfold keepAll
    split
    · exact h
    · exact ih (State.keepEntries_wf _ _ _ _ h)

theorem State.preemptCore_wf (c : Nat) (h : Memory.wf s.mem) : Memory.wf (s.preemptCore c).mem := by
  unfold State.preemptCore
  extract_lets w s1 s2 s3 v
  have h1 : Memory.wf s1.mem := by
    refine foldl_wf (fun u t hu => ?_) _ h
    extract_lets st u'
    have hu' : Memory.wf u'.mem := by
      simp only [u']
      split <;> exact hu
    clear_value u'
    split
    · exact State.preemptResuming_wf _ _ _ hu'
    · exact State.deliver_wf _ _ _ hu'
    · exact hu'
  have h2 : Memory.wf s2.mem := foldl_wf (fun _ en => keepAll_wf 64 c en) _ h1
  have h3 : s3.mem = s2.mem := by
    apply foldl_mem
    intro u t
    exact State.releaseLease_mem ..
  rw [State.setCore_mem, State.onPart_mem, h3]
  exact h2

theorem State.drainEnded_wf (c : Nat) (h : Memory.wf s.mem) : Memory.wf (s.drainEnded c).mem := by
  refine foldl_wf (fun u t hu => ?_) _ h
  split
  · exact drainEndedHeads_wf _ _ _ hu
  · exact hu

theorem execPreempt_memWf (p : Nat) (h : Memory.wf s.mem) : OutMemWf (execPreempt p s) := by
  have hd : Memory.wf ((s.partCores p).foldl State.drainEnded s).mem := foldl_wf (fun _ c => State.drainEnded_wf c) _ h
  unfold execPreempt
  split
  · exact h
  · split
    · exact State.contain_wf _ _ _ h
    · dsimp only
      split
      · exact State.drainPart_wf _ (foldl_wf (fun _ c => State.preemptCore_wf c) _ hd)
      · exact hd

theorem execPartitionRestore_memWf (p : Nat) (h : Memory.wf s.mem) : OutMemWf (execPartitionRestore p s) := by
  unfold execPartitionRestore
  dsimp only
  split
  · exact h
  · simp only [OutMemWf, State.onPart_mem]
    refine foldl_wf (fun u e hu => ?_) _ h
    simpa using hu

theorem execPartitionClear_memWf (c : Nat) (h : Memory.wf s.mem) : OutMemWf (execPartitionClear c s) := by
  unfold execPartitionClear
  dsimp only
  split <;> exact h

end Sys2Proof.Machine
end

