-- ==== Sys2Proof/Proofs/MemoryOutside.lean ====
section
/-! SUPPORT of O60: what stands outside the C-dies. -/
namespace Sys2Proof.Machine

variable {s : State}

/-! Skyo's loader and bring-up (R341 to R351) -/

@[simp] theorem State.ret_mem (st : Status) (v : Nat) : (s.ret st v).mem = s.mem := rfl

@[simp] theorem State.mapPages_mem (p va pa n bits : Nat) : (s.mapPages p va pa n bits).mem = s.mem :=
  foldl_mem (fun _ _ => State.setPage_mem ..) _ _

@[simp] theorem State.unmapPages_mem (p va n : Nat) : (s.unmapPages p va n).mem = s.mem := by
  apply foldl_mem
  intro u i
  split <;> rfl

@[simp] theorem State.icinv_mem (a n : Nat) : (s.icinv a n).mem = s.mem := rfl

theorem State.publish_wf (p : Nat) (c : Container) (base : Nat) (im : Mem) (h : Memory.wf s.mem) :
    Memory.wf (s.publish p c base im).mem := by
  unfold State.publish
  dsimp only
  rw [State.onPart_mem, State.icinv_mem]
  refine State.putMem_wf _ _ ?_
  rw [foldl_mem (fun _ _ => State.mapPages_mem ..)]
  refine foldl_wf (fun u i hu => ?_) _ h
  have hv (f : Nat) (bs : List Byte) : Memory.wf (u.putPage f bs).mem := State.putMem_wf _ _ hu
  have hm (f : Nat) (bs : List Byte) (va pa n bits : Nat) : Memory.wf ((u.putPage f bs).mapPages p va pa n bits).mem := by
    rw [State.mapPages_mem]
    exact hv f bs
  exact ite_wf (hm ..) (ite_wf (hm ..) (hv ..))

theorem State.loadObject_wf (p : Nat) (c : Container) (h : Memory.wf s.mem) : Memory.wf (s.loadObject p c).mem := by
  rw [State.loadObject]
  split
  · exact h
  · split
    · exact h
    · split
      · exact h
      · exact h
      · extract_lets free recs s1 s2 hd o
        split
        · exact h
        · rw [State.ret_mem, State.onPart_mem]
          exact foldl_wf (fun _ _ => State.putMem_wf _ _) _ (State.publish_wf _ _ _ _ h)

@[simp] theorem State.keepDigest_mem (d : BitVec 384) (svn : BitVec 32) : (s.keepDigest d svn).mem = s.mem := by
  unfold State.keepDigest
  split <;> rfl

@[simp] theorem State.keepTranslation_mem (c : Container) : (s.keepTranslation c).mem = s.mem := by
  unfold State.keepTranslation
  split <;> rfl

theorem State.loadContainer_wf (p : Nat) (c : Container) (d : BitVec 384) (h : Memory.wf s.mem) :
    Memory.wf (s.loadContainer p c d).mem := by
  have hk : Memory.wf (s.keepDigest c.digest c.svn).mem := by
    rw [State.keepDigest_mem]
    exact h
  have hu := State.loadObject_wf p c hk
  unfold State.loadContainer
  generalize (if c.translated then some 3 else none) = key
  dsimp only
  split
  · exact h
  · split
    · exact hk
    · split
      · rw [State.keepTranslation_mem]
        exact hu
      · exact hu

theorem execObjLoad_memWf (p : Nat) (a size : BitVec 64) (h : Memory.wf s.mem) : OutMemWf (execObjLoad p a size s) := by
  unfold execObjLoad
  split
  · exact h
  · dsimp only
    split
    · exact State.loadContainer_wf _ _ _ h
    · split
      · exact State.loadContainer_wf _ _ _ h
      · exact h

theorem execObjUnload_memWf (p : Nat) (hd : BitVec 64) (h : Memory.wf s.mem) : OutMemWf (execObjUnload p hd s) := by
  unfold execObjUnload
  split
  · exact h
  · split
    · exact h
    · simp only [OutMemWf, State.ret_mem, State.onPart_mem, State.unmapPages_mem]
      exact foldl_wf (fun _ _ => State.putMem_wf _ _) _ h

theorem execLrecGet_memWf (p : Nat) (hd i : BitVec 64) (h : Memory.wf s.mem) : OutMemWf (execLrecGet p hd i s) := by
  unfold execLrecGet
  split <;> exact h

theorem execFuseCounterRaise_memWf (svn : BitVec 32) (h : Memory.wf s.mem) : OutMemWf (execFuseCounterRaise svn s) := by
  unfold execFuseCounterRaise
  dsimp only [OutMemWf]
  split <;> exact h

theorem execBar2ImageWrite_memWf (off : BitVec 28) (v : BitVec 8) (h : Memory.wf s.mem) : OutMemWf (execBar2ImageWrite off v s) := by
  unfold execBar2ImageWrite
  dsimp only [OutMemWf]
  split <;> exact h

theorem execBootdbWrite_memWf (v : BitVec 64) (h : Memory.wf s.mem) : OutMemWf (execBootdbWrite v s) := by
  unfold execBootdbWrite
  dsimp only
  split
  · exact h
  · split <;> exact h

theorem execTrainingComplete_memWf (res : Training) (h : Memory.wf s.mem) : OutMemWf (execTrainingComplete res s) := by
  unfold execTrainingComplete
  split
  · exact h
  · cases res
    · simpa using h
    · exact h
    · exact h

/-! The chassis host, Skyo's settings and the harts (R105, R321, R350, R352) -/

theorem State.bar0Write_wf (off n : Nat) (v : Word) (h : Memory.wf s.mem) : Memory.wf (s.bar0Write off n v).2.mem := by
  have hb := execBootdbWrite_memWf v h
  unfold State.bar0Write
  split
  · exact h
  · split
    · dsimp only
      split
      case h_1 hu => rw [hu] at hb; exact hb
      case h_2 => exact h
    · exact h

theorem State.hostStep_wf (op : HostOp) (h : Memory.wf s.mem) : Memory.wf (s.hostStep op).mem := by
  cases op with
  | read off n =>
    simp only [State.hostStep]
    split <;> exact h
  | write off n v => exact State.bar0Write_wf off n v h
  | memory pa v =>
    simp only [State.hostStep]
    split
    · exact Memory.wf_store _ _ _ h
    · exact h

@[simp] theorem State.skyoStep_mem (op : SkyoOp) : (s.skyoStep op).mem = s.mem := by
  cases op with
  | memsplit u =>
    simp only [State.skyoStep]
    split <;> rfl
  | budget d n => simp [State.skyoStep]
  | translate bs =>
    simp only [State.skyoStep]
    split <;> simp
  | collto n => rfl

theorem State.hartWrite_wf (hd : BitVec 5) (pa : Nat) (bs : List Byte) (atomic : Bool) (h : Memory.wf s.mem) :
    Memory.wf (s.hartWrite hd pa bs atomic).mem := by
  unfold State.hartWrite
  extract_lets own s1 s2
  have h2 : Memory.wf s2.mem := physWrite_wf pa bs 0 (s := { s with resvs := s.resvs.filter (fun r => r.hart ≠ hd) }) h
  clear_value s2
  split
  · rw [foldl_mem (fun _ _ => updateLines_mem ..)]
    exact h2
  · exact h2

theorem State.hartAccess_wf (hd : BitVec 5) (place : HartPlace) (a : HartOp) (fwd : Option (List Byte)) (h : Memory.wf s.mem) :
    Memory.wf (s.hartAccess hd place a fwd).2.mem := by
  unfold State.hartAccess
  dsimp only
  split
  · exact h
  · exact State.bar0Write_wf _ _ _ h
  · exact h
  · exact h
  · exact State.hartWrite_wf _ _ _ _ h
  · exact State.hartWrite_wf _ _ _ _ h
  · exact h
  · split
    · exact State.hartWrite_wf _ _ _ _ h
    · exact h
  · exact h

theorem State.hartPerform_wf (hd : BitVec 5) (k : Nat) (h : Memory.wf s.mem) : Memory.wf (s.hartPerform hd k).mem := by
  unfold State.hartPerform
  dsimp only
  split
  · exact h
  · split
    · exact h
    · split
      · exact h
      · split
        · exact h
        · exact State.hartAccess_wf _ _ _ _ h

theorem State.hartStep_wf (hd : BitVec 5) (a : HartAct) (h : Memory.wf s.mem) : Memory.wf (s.hartStep hd a).mem := by
  cases a with
  | issue op deps => exact h
  | perform k => exact State.hartPerform_wf hd k h
  | call => exact h

/-! Skyo's calls (R346) -/

theorem execLrecArm_memWf (p : Nat) (i : BitVec 64) (h : Memory.wf s.mem) : OutMemWf (execLrecArm p i s) := by
  unfold execLrecArm
  dsimp only
  split
  · exact h
  · split
    · exact h
    · split
      · exact h
      · exact State.armRecord_wf _ _ h

theorem callLrecWait_wf {t : State} {st : Status} {p n v : Nat} (h : Memory.wf s.mem) (ht : callLrecWait p n s = some (t, st, v)) :
    Memory.wf t.mem := by
  unfold callLrecWait at ht
  split at ht
  · cases ht
    exact h
  · split at ht
    · cases ht
    · cases ht
      exact State.recWaited_wf _ _ h

theorem execLrecWait_memWf (p : Nat) (i : BitVec 64) (h : Memory.wf s.mem) : OutMemWf (execLrecWait p i s) := by
  unfold execLrecWait
  split
  case h_1 ht =>
    have hw := callLrecWait_wf h ht
    exact hw
  case h_2 => exact h

theorem execLaunchKill_memWf (p : Nat) (i : BitVec 64) (h : Memory.wf s.mem) : OutMemWf (execLaunchKill p i s) := by
  unfold execLaunchKill
  split
  · exact State.killLaunch_wf _ _ _ _ _ h
  · exact h

theorem execMemMap_memWf (p : Nat) (va pa size bits : BitVec 64) (h : Memory.wf s.mem) : OutMemWf (execMemMap p va pa size bits s) := by
  unfold execMemMap
  split <;> simpa using h

theorem execMemUnmap_memWf (p : Nat) (va size : BitVec 64) (h : Memory.wf s.mem) : OutMemWf (execMemUnmap p va size s) := by
  unfold execMemUnmap
  split <;> simpa using h

@[simp] theorem State.reserve_mem (p n : Nat) : (s.reserve p n).mem = s.mem := by
  unfold State.reserve
  dsimp only
  split <;> rfl

theorem callEventReserve_mem {t : State} {st : Status} {p n v : Nat} (ht : callEventReserve p n s = some (t, st, v)) : t.mem = s.mem := by
  unfold callEventReserve at ht
  dsimp only at ht
  split at ht
  · cases ht
    rfl
  · split at ht
    · cases ht
      rfl
    · cases ht
      exact foldl_mem (fun _ _ => State.reserve_mem ..) _ _

theorem execEventReserve_memWf (p : Nat) (n : BitVec 64) (h : Memory.wf s.mem) : OutMemWf (execEventReserve p n s) := by
  unfold execEventReserve
  split
  case h_1 ht => simpa [callEventReserve_mem ht] using h
  case h_2 => exact h

theorem execPoolConfig_memWf (p : Nat) (i part half : BitVec 64) (h : Memory.wf s.mem) : OutMemWf (execPoolConfig p i part half s) := by
  unfold execPoolConfig
  dsimp only
  split
  · exact h
  · split
    · exact h
    · split
      · exact h
      · exact State.setRecField_wf _ _ _ _ _ h

theorem execCodePatch_memWf (p : Nat) (a w ev : BitVec 64) (h : Memory.wf s.mem) : OutMemWf (execCodePatch p a w ev s) := by
  unfold execCodePatch
  split
  · exact h
  · split
    · exact h
    · rw [OutMemWf, State.ret_mem, State.postEvent_mem]
      exact h

theorem execClockLock_memWf (v : BitVec 64) (h : Memory.wf s.mem) : OutMemWf (execClockLock v s) := by
  unfold execClockLock
  split
  · rw [OutMemWf, State.ret_mem, foldl_mem (fun _ _ => State.onPart_mem ..)]
    exact h
  · split
    · rw [OutMemWf, State.ret_mem, foldl_mem (fun _ _ => State.serveLeases_mem ..)]
      exact h
    · exact h

theorem callCountersStart_mem {t : State} {st : Status} {p size k v : Nat} {a : Word}
    (ht : callCountersStart p a size k s = some (t, st, v)) : t.mem = s.mem := by
  unfold callCountersStart at ht
  split at ht <;> cases ht <;> rfl

theorem execCountersStart_memWf (p : Nat) (a size k : BitVec 64) (h : Memory.wf s.mem) : OutMemWf (execCountersStart p a size k s) := by
  unfold execCountersStart
  split
  case h_1 ht => simpa [callCountersStart_mem ht] using h
  case h_2 => exact h

theorem execStopHandlerSet_memWf (p : Nat) (i hd : BitVec 64) (h : Memory.wf s.mem) : OutMemWf (execStopHandlerSet p i hd s) := by
  unfold execStopHandlerSet
  dsimp only
  split
  · exact h
  · split
    · exact h
    · exact State.setRecField_wf _ _ _ _ _ h

theorem State.resumeOrphan_wf (o : Orphan) (discard : Bool) (h : Memory.wf s.mem) : Memory.wf (s.resumeOrphan o discard).2.mem := by
  unfold State.resumeOrphan
  dsimp only
  split
  · exact h
  · dsimp only
    split
    · rw [foldl_mem (fun _ _ => State.onStrand_mem ..)]
      exact State.putMem_wf _ _ h
    · exact State.putMem_wf _ _ h

theorem State.serveSysc_wf {t' : State} {c : Nat} {t : BitVec 2} (h : Memory.wf s.mem) (ht : s.serveSysc c t = some t') :
    Memory.wf t'.mem := by
  unfold State.serveSysc at ht
  dsimp only at ht
  split at ht
  · cases ht
    exact h
  · obtain ⟨⟨u, st, v⟩, hr, rfl⟩ := Option.map_eq_some_iff.mp ht
    rw [State.putSreg_mem, State.putSreg_mem]
    split at hr
    · obtain ⟨⟨w, st', v'⟩, hw, he⟩ := Option.map_eq_some_iff.mp hr
      cases he
      have := callLrecWait_wf h hw
      split <;> exact this
    · split at hr
      · exact (callEventReserve_mem hr).symm ▸ h
      · split at hr
        · exact (callCountersStart_mem hr).symm ▸ h
        · cases hr
          exact h

theorem execResumeStrand_memWf (p : Nat) (desc discard : BitVec 64) (h : Memory.wf s.mem) :
    OutMemWf (execResumeStrand p desc discard s) := by
  unfold execResumeStrand
  split
  · exact h
  · split
    · exact h
    · split
      · exact State.resumeOrphan_wf _ _ h
      · split
        · exact h
        · extract_lets x listOk
          clear_value listOk
          split
          · exact h
          · split
            case h_1 => exact h
            case h_2 hs =>
              rw [OutMemWf, State.ret_mem, State.resumeTarget_mem]
              split at hs
              · cases hs
                exact h
              · exact State.serveSysc_wf h hs

/-! The collective engine (R335, R355, R356) -/

theorem State.collect_wf (c : Collective) (h : Memory.wf s.mem) : Memory.wf (s.collect c).mem := physWrite_wf _ _ _ h

@[simp] theorem State.balance_mem (i : Nat) : (s.balance i).mem = s.mem := by
  unfold State.balance
  split
  · rfl
  · split
    · rfl
    · exact foldl_mem (fun _ _ => State.serveLeases_mem ..) _ _

theorem execCollective_memWf (a : CollAct) (p j m : Nat) (b : CollBufs) (h : Memory.wf s.mem) :
    OutMemWf (execCollective a p j m b s) := by
  cases a with
  | call k => exact h
  | arrive buf =>
    dsimp only [execCollective, OutMemWf]
    split
    · exact h
    · split <;> exact h
  | peer hd d =>
    dsimp only [execCollective, OutMemWf]
    split <;> exact h
  | finish =>
    dsimp only [execCollective, OutMemWf]
    split
    · exact h
    · split
      · exact State.collect_wf _ h
      · exact h
  | balance => simpa [execCollective] using h

theorem execCollectiveTimeout_memWf (h : Memory.wf s.mem) : OutMemWf (execCollectiveTimeout s) := by
  unfold execCollectiveTimeout
  split
  · exact h
  · dsimp only [OutMemWf]
    split <;> exact h

theorem execQueuePairError_memWf (h : Memory.wf s.mem) : OutMemWf (execQueuePairError s) := by
  unfold execQueuePairError
  split
  · exact h
  · exact physWrite_wf _ _ _ h

end Sys2Proof.Machine
end

