-- ==== Sys2Proof/Proofs/MemoryCanonicalKept.lean ====
section
/-! PROOF of O60: each instruction, each agent's move and so each step keeps memory in its canonical form. -/
namespace Sys2Proof.Machine

variable {s : State}

/-! What the words of one kind have in common -/

@[simp] theorem State.jumpTo_mem (i : Instr) (ctl : BitVec 2) (g : BitVec 3) (link : Bool) (target a : Word) :
    (s.jumpTo i ctl g link target a).mem = s.mem := by
  unfold State.jumpTo
  repeat' split
  all_goals rfl

@[simp] theorem State.vFixed_mem (i : Instr) (e : Bool) : (s.vFixed i e).mem = s.mem := State.vWord_mem ..

theorem State.xIssue_wf (e : Bool) {plan : State → XRun → XPlan} (hp : ∀ t r, (plan t r).MemIs t.mem) (h : Memory.wf s.mem) :
    Memory.wf (s.xIssue e plan).mem := by
  rw [State.xIssue_mem e hp]
  exact h

theorem execXcpy_memWf (e : Bool) (ed es en : BitVec 4) (cn cb : Bool) (h : Memory.wf s.mem) : OutMemWf (execXcpy e ed es en cn cb s) := by
  refine State.xIssue_wf e (fun t r => ?_) h
  dsimp only
  repeat' split
  all_goals simp

theorem execXfil_memWf (e : Bool) (ed ev en : BitVec 4) (h : Memory.wf s.mem) : OutMemWf (execXfil e ed ev en s) := by
  refine State.xIssue_wf e (fun t r => ?_) h
  dsimp only
  repeat' split
  all_goals simp

theorem execXbrd_memWf (e : Bool) (ed es en : BitVec 4) (mc : BitVec 3) (h : Memory.wf s.mem) : OutMemWf (execXbrd e ed es en mc s) := by
  refine State.xIssue_wf e (fun t r => ?_) h
  dsimp only
  repeat' split
  all_goals simp

theorem execXred_memWf (e : Bool) (ed es en : BitVec 4) (ty : Bool) (h : Memory.wf s.mem) : OutMemWf (execXred e ed es en ty s) := by
  refine State.xIssue_wf e (fun t r => ?_) h
  dsimp only
  repeat' split
  all_goals simp

theorem execStopDelivery_memWf (c : Nat) (t : BitVec 2) (h : Memory.wf s.mem) : OutMemWf (execStopDelivery c t s) := by
  rw [execStopDelivery, OutMemWf]
  split
  · exact h
  · exact State.deliverStop_wf _ _ h

theorem execWatchdog_memWf (c : Nat) (t : BitVec 2) (h : Memory.wf s.mem) : OutMemWf (execWatchdog c t s) := by
  rw [execWatchdog, OutMemWf]
  split <;> exact h

theorem execRecordReissue_memWf (c : Nat) (t : BitVec 2) (h : Memory.wf s.mem) : OutMemWf (execRecordReissue c t s) := by
  rw [execRecordReissue, OutMemWf]
  split
  · exact h
  · exact State.reissueStep_wf _ _ h

theorem execEmptySlot_memWf (c : Nat) (t : BitVec 2) (h : Memory.wf s.mem) : OutMemWf (execEmptySlot c t s) := by
  rw [execEmptySlot, OutMemWf]
  split <;> exact h

theorem memWf_of_mem_eq {t : State} (h : Memory.wf s.mem) (ht : t.mem = s.mem) : OutMemWf (.next t) := by
  rw [OutMemWf, ht]
  exact h

/-- R3, R80, R93 to R98: every instruction keeps the canonical form. The words of one kind change nothing but the strand, the engine's
run or the queue that they issue into; what else can reach memory has a lemma of its own above. -/
theorem exec_memWf (i : Instr) (h : Memory.wf s.mem) : OutMemWf (exec i s) := by
  cases i with
  | add | sub | and | or | xor | andn | shl | shr | sra | mul | mulh | mulhn | div | divn | rem | remn | min | max
  | minn | maxn | clz | ctz | popc | addw | subw | sel | cmp | cmpi | gand | gor | gxor | gandn | addi | andi | ori
  | xori | shli | shri | srai | addwi | sysc | trap | brk | halt | semr | tadr | tcnt | tstat | ovpop | lih | lihp
  | sqForcedSwitch | stopnextRead | correctedSoftError | dbgctlLull | dbgctlCut | trctlEnable | trctlErrClear
  | packageReset | illegalSWord | chargeBucketRefill | hbmRefresh => exact h
  | br | call | jr | callr => exact memWf_of_mem_eq h (State.jumpTo_mem ..)
  | ld | ldn | sems | semi | evp | eva | qpost | qdone | lpat | larm | tseal | tdrop => exact memWf_of_mem_eq h (State.enqueue_mem ..)
  | mark | fence => exact State.enterFence_wf _ _ h
  | enter | leave => exact State.regionWord_wf _ _ _ h
  | vadd | vsub | vmul | vmulh | vfma | vfms | vfnma | vmin | vmax | vabs | vneg | vadds | vsubs | vavg | vand | vor
  | vxor | vandn | vnot | vshl | vshr | vsra | vmov | vsel | vcmp | vclz | vpopc | vcpys | vaddi | vmuli | vandi
  | vori | vxori | vshli | vshri | vsrai | vspli | viota | vsplb | vcvt | vwid | vnar | vqnt | vdqn | vrnd | vperm
  | vbcst | vslup | vsldn | vrev | vcmpr | vexpn | vscan | vrsum | vrmin | vrmax | vrcp | vrsq | vsqrt | vdivf
  | vexp2 | vlog2 | vsin | vtanh | kand | kor | kxor | kandn | knot | kset | kpop | kmov | vbli | vbadd | vbmov
  | vshp | vshpb | vflg => exact memWf_of_mem_eq h (State.vFixed_mem ..)
  | vmark | vnop => exact memWf_of_mem_eq h (State.vWord_mem ..)
  | vld | vst | vldx | vstx | vlds | vatm => exact memWf_of_mem_eq h (State.vQueued_mem ..)
  | go2d | go3d | gic | gis | gsx => exact memWf_of_mem_eq h (State.predWord_mem ..)
  | mnop | meadd | meli | memov => exact memWf_of_mem_eq h (State.mWord_mem ..)
  | mzro | mma | mdrn | mlda | msta => exact memWf_of_mem_eq h (State.mIssue_mem ..)
  | xnop | xeadd | xeli | xemov => exact memWf_of_mem_eq h (State.xWord_mem ..)
  | endK => exact memWf_of_mem_eq h (State.endStrand_mem ..)
  | vdot4 => exact memWf_of_mem_eq h (State.vFixed_mem ..)
  | xten e eh ed ec xp dir => exact State.xIssue_wf e (fun _ _ => xtenPlan_memIs ..) h
  | xgat e ed es ei => exact State.xIssue_wf e (fun _ _ => gatherPlan_memIs ..) h
  | xsct e ed es ei => exact State.xIssue_wf e (fun _ _ => gatherPlan_memIs ..) h
  | st ctl rs ra imm sz g => exact execSt_memWf ctl rs ra imm sz g h
  | atm ctl rd ra rb op sz g => exact execAtm_memWf ctl rd ra rb op sz g h
  | acas ctl rd ra rb sz g => exact execAcas_memWf ctl rd ra rb sz g h
  | waitc ctl limL limS limV limM limX => exact execWaitc_memWf ctl limL limS limV limM limX h
  | mfs ctl rd num => exact execMfs_memWf ctl rd num h
  | mts ctl ra num => exact execMts_memWf ctl ra num h
  | resume ctl => exact execResume_memWf ctl h
  | disp ctl en blk ra rb ss => exact execDisp_memWf ctl en blk ra rb ss h
  | semw ctl ra num => exact execSemw_memWf ctl ra num h
  | semsAddress ctl rd ra => exact execSemsAddress_memWf ctl rd ra h
  | evw ctl ra => exact execEvw_memWf ctl ra h
  | evt ctl rd ra => exact execEvt_memWf ctl rd ra h
  | qtake ctl rd => exact execQtake_memWf ctl rd h
  | lwait ctl rd ra => exact execLwait_memWf ctl rd ra h
  | talc ctl rd ra rb => exact execTalc_memWf ctl rd ra rb h
  | pwq ctl ra => exact execPwq_memWf ctl ra h
  | pwrel ctl => exact execPwrel_memWf ctl h
  | vldc e vd bn off tok => exact execVldc_memWf e vd bn off tok h
  | tkw e mask => exact execTkw_memWf e mask h
  | mrep e n k => exact execMrep_memWf e n k h
  | xcpy e ed es en cn cb => exact execXcpy_memWf e ed es en cn cb h
  | xfil e ed ev en => exact execXfil_memWf e ed ev en h
  | xbrd e ed es en mc => exact execXbrd_memWf e ed es en mc h
  | xred e ed es en ty => exact execXred_memWf e ed es en ty h
  | xsig e ea en => exact execXsig_memWf e ea en h
  | xrfl e eh => exact execXrfl_memWf e eh h
  | xalc e ed ea eb => exact execXalc_memWf e ed ea eb h
  | xmrk e => exact execXmrk_memWf e h
  | xrep e n k => exact execXrep_memWf e n k h
  | fixedLatencyWriteLands c u => exact execFixedLatencyWriteLands_memWf c u h
  | scalarLoadComplete c t stale => exact execScalarLoadComplete_memWf c t stale h
  | storeQueuePerform c hd => exact execStoreQueuePerform_memWf c hd h
  | entryHeadWait c en => exact execEntryHeadWait_memWf c en h
  | entryStart c en => exact execEntryStart_memWf c en h
  | entryCompletion c en => exact execEntryCompletion_memWf c en h
  | tokenComplete c q stale part => exact execTokenComplete_memWf c q stale part h
  | mStepFinish c k f => exact execMStepFinish_memWf c k f h
  | transferMovePhaseDone c k stale part => exact execTransferMovePhaseDone_memWf c k stale part h
  | consumingCheck c en a n => exact execConsumingCheck_memWf c en a n h
  | consumingCount c en a n => exact execConsumingCount_memWf c en a n h
  | poolstall c u => exact execPoolstall_memWf c u h
  | kernelStart c => exact execKernelStart_memWf c h
  | teamEntryGenerate p r cl => exact execTeamEntryGenerate_memWf p r cl h
  | teamTake c => exact execTeamTake_memWf c h
  | launchCompletion p r => exact execLaunchCompletion_memWf p r h
  | teamSwap c => exact execTeamSwap_memWf c h
  | swappedTeamReenter p k => exact execSwappedTeamReenter_memWf p k h
  | stopDelivery c t => exact execStopDelivery_memWf c t h
  | watchdog c t => exact execWatchdog_memWf c t h
  | recordReissue c t => exact execRecordReissue_memWf c t h
  | preempt p => exact execPreempt_memWf p h
  | partitionRestore p => exact execPartitionRestore_memWf p h
  | partitionClear c => exact execPartitionClear_memWf c h
  | eccUncorrectable u c t => exact execEccUncorrectable_memWf u c t h
  | hostReadErrorCompletion c t => exact execHostReadErrorCompletion_memWf c t h
  | hostReadTimeout c t => exact execHostReadTimeout_memWf c t h
  | linkReplayFail a b => exact execLinkReplayFail_memWf a b h
  | railOvercurrent d => exact execRailOvercurrent_memWf d h
  | windowRegisterWrite c off v => exact execWindowRegisterWrite_memWf c off v h
  | windowVregWrite c gran v tag => exact execWindowVregWrite_memWf c gran v tag h
  | windowTagWrite c tag v => exact execWindowTagWrite_memWf c tag v h
  | semaphoreWindowStore c m v => exact execSemaphoreWindowStore_memWf c m v h
  | accumulatorWindowAccess c cell wr => exact execAccumulatorWindowAccess_memWf c cell wr h
  | cutHaltTimeout c t => exact execCutHaltTimeout_memWf c t h
  | counterLatch => exact execCounterLatch_memWf h
  | collective a p j m b => exact execCollective_memWf a p j m b h
  | collectiveTimeout => exact execCollectiveTimeout_memWf h
  | bootdbWrite v => exact execBootdbWrite_memWf v h
  | trainingComplete res => exact execTrainingComplete_memWf res h
  | objLoad p a size => exact execObjLoad_memWf p a size h
  | objUnload p hd => exact execObjUnload_memWf p hd h
  | lrecGet p hd idx => exact execLrecGet_memWf p hd idx h
  | lrecArm p idx => exact execLrecArm_memWf p idx h
  | lrecWait p idx => exact execLrecWait_memWf p idx h
  | launchKill p idx => exact execLaunchKill_memWf p idx h
  | memMap p va pa size bits => exact execMemMap_memWf p va pa size bits h
  | memUnmap p va size => exact execMemUnmap_memWf p va size h
  | eventReserve p n => exact execEventReserve_memWf p n h
  | poolConfig p idx part half => exact execPoolConfig_memWf p idx part half h
  | codePatch p a w ev => exact execCodePatch_memWf p a w ev h
  | clockLock v => exact execClockLock_memWf v h
  | countersStart p a size k => exact execCountersStart_memWf p a size k h
  | stopHandlerSet p idx hd => exact execStopHandlerSet_memWf p idx hd h
  | resumeStrand p desc discard => exact execResumeStrand_memWf p desc discard h
  | illegalEngineWord c en => exact execIllegalEngineWord_memWf c en h
  | emptySlot c t => exact execEmptySlot_memWf c t h
  | lockedClockGrant d => exact execLockedClockGrant_memWf d h
  | dieFrequencyChange d mhz => exact execDieFrequencyChange_memWf d mhz h
  | queuePairError => exact execQueuePairError_memWf h
  | bar2ImageWrite off v => exact execBar2ImageWrite_memWf off v h
  | fuseCounterRaise svn => exact execFuseCounterRaise_memWf svn h

/-! One core slot, one engine slot, one move, one step -/

/-- Whether the slot is used or not, the state after it has its memory in canonical form. -/
@[simp] def Attempt.MemWf : Attempt → Prop
  | .used o => OutMemWf o
  | .blocked s => Memory.wf s.mem

theorem State.attempt_memWf (c : Nat) (t : BitVec 2) (h : Memory.wf s.mem) : (s.attempt c t).MemWf := by
  unfold State.attempt
  dsimp only
  split
  · exact h
  · split
    case h_1 => exact h
    case h_2 w _ =>
      have hx := exec_memWf (s := s.select c t) (sInstr w) h
      split
      case h_1 hu =>
        rw [hu] at hx
        split <;> exact hx
      case h_2 => exact hx

theorem State.choose_memWf (c : Nat) (owing : List (BitVec 2)) (old : BitVec 2) (l : List (BitVec 2)) (h : Memory.wf s.mem) :
    OutMemWf (State.choose c owing old l s) := by
  induction l generalizing s with
  | nil => exact h
  | cons t ts ih =>
    unfold State.choose
    extract_lets fresh
    have hf : Memory.wf fresh.mem := h
    split
    · split
      · exact ih h
      · exact h
    · have ha := State.attempt_memWf c t hf
      split
      case h_1 hu => rw [hu] at ha; exact ha
      case h_2 hu => rw [hu] at ha; exact ih ha

theorem State.sqSlot_memWf (c : Nat) (h : Memory.wf s.mem) : OutMemWf (s.sqSlot c) := by
  unfold State.sqSlot
  extract_lets k owing s1 s2 s3 order
  have h3 : Memory.wf s3.mem := by
    simp only [s3]
    split <;> exact h
  clear_value s3
  split
  · exact State.choose_memWf _ _ _ _ h3
  · split
    · exact h3
    · have ha := State.attempt_memWf c k.cur h3
      split
      case h_1 hu => rw [hu] at ha; exact ha
      case h_2 hu => rw [hu] at ha; exact State.choose_memWf _ _ _ _ ha

theorem State.engineSlot_memWf (c : Nat) (en : Eng) (h : Memory.wf s.mem) : OutMemWf (s.engineSlot c en) := by
  have hx (i : Instr) : OutMemWf (exec i { s with focus := c }) := exec_memWf i h
  unfold State.engineSlot
  dsimp only
  split
  · split
    · exact h
    · split <;> exact hx _
  · split
    · exact h
    · split
      · split <;> exact hx _
      · split
        · split
          · exact hx _
          · rw [OutMemWf, State.wordStop_mem]
            exact h
        · exact hx _

theorem State.act_memWf (a : Agent) (h : Memory.wf s.mem) : OutMemWf (s.act a) := by
  cases a with
  | sq c => exact State.sqSlot_memWf c h
  | ve c => exact State.engineSlot_memWf c .v h
  | me c => exact State.engineSlot_memWf (s := s.onCore c Core.meSlot) c .m h
  | xe c => exact State.engineSlot_memWf c .x h
  | slip c j now => exact memWf_of_mem_eq h (State.slipLoad_mem ..)
  | home k i => exact State.homeStep_wf k i h
  | hart hd x => exact State.hartStep_wf hd x h
  | host x => exact State.hostStep_wf x h
  | skyo x => exact memWf_of_mem_eq h (State.skyoStep_mem x)
  | code c pa hit => exact h
  | ev i => exact exec_memWf i h

theorem State.move_memWf (a : Agent) (h : Memory.wf s.mem) : OutMemWf (s.move a) := by
  unfold State.move
  split
  · exact State.act_memWf a h
  · exact h

theorem step_memWf (h : Memory.wf s.mem) : OutMemWf (step s) := State.move_memWf (s := { s with agenda := popAgenda s.agenda }) s.agent h

/-- Settles O60: the memory that a step leaves is in canonical form, whichever agent moves. -/
theorem memoryCanonicalKept : Obligations.MemoryCanonicalKept := by
  intro s t h ht
  have hs := step_memWf h
  rw [ht] at hs
  exact hs

end Sys2Proof.Machine
end

