-- ==== Sys2Proof/Proofs/ResetState.lean ====
section
/-! PROOF of O56, with what a default core and a default strand read as. -/
namespace Sys2Proof.Machine

/-! What package reset leaves on a core and on a strand: no core is listed, so each reads as the default one. -/

@[simp] theorem vget_replicate {α : Type} (n : Nat) (d : α) (i : Nat) : vget (Vector.replicate n d) d i = d := by
  by_cases h : i < n <;> simp [vget, Vector.getD, h]

theorem State.core_reset (c : Nat) : State.reset.core c = {} := rfl

theorem State.strand_reset (c : Nat) (t : BitVec 2) : State.reset.strand c t = {} := vget_replicate 4 ({} : Strand) t.toNat

theorem Strand.vreg_default (r : BitVec 5) : ({} : Strand).vreg r = 0 := vget_replicate 32 0 r.toNat

theorem Strand.vtag_default (r : BitVec 5) : ({} : Strand).vtag r = 0 := vget_replicate 32 0 r.toNat

theorem Strand.sreg_default (r : BitVec 5) : ({} : Strand).sreg r = 0 := by
  unfold Strand.sreg
  split
  · rfl
  · exact vget_replicate 32 0 r.toNat

theorem Strand.k_default (j : Fin 8) : ({} : Strand).k[j] = 0 := Vector.getElem_replicate ..

/-- R233, R248: every cell of every accumulator reads 0, every scale +1.0. -/
theorem Core.tiles_default (j : Fin 8) : ({} : Core).tiles[j] = {} := Vector.getElem_replicate ..

/-- Settles O56: no core is listed after reset, and a default core and a default strand read as stated, field by field. -/
theorem resetState : Obligations.ResetState := by
  intro c n t r s k x
  have hx : x = {} := State.strand_reset c t
  have hk : k = {} := State.core_reset c
  clear_value k x
  subst hx hk
  have tiles (j : Fin 8) : Sparse.get 0 ({} : Core).tiles[j].cells n = 0
      ∧ Sparse.get 0x3F80_0000 ({} : Core).tiles[j].rows n = 0x3F80_0000
      ∧ Sparse.get 0x3F80_0000 ({} : Core).tiles[j].cols n = 0x3F80_0000 := by
    rw [Core.tiles_default]
    exact ⟨rfl, rfl, rfl⟩
  exact ⟨rfl, rfl, rfl, rfl, rfl, rfl, rfl, rfl, rfl, rfl, rfl, ⟨rfl, rfl, rfl, rfl, rfl, rfl⟩, rfl, rfl, rfl, rfl, rfl, tiles,
    rfl, rfl, Strand.vreg_default r, Strand.vtag_default r, Strand.k_default, rfl, Strand.sreg_default r⟩
end Sys2Proof.Machine
end
